-- ==== Sys2Proof/Word.lean ====
section
/-! DEFINITION. The word types of the Cirdane TL3 and the three-phase container: bytes of records and
cells, 32-bit counts, 24-bit addresses (spec/00_scope.md, Conventions). -/

namespace Sys2Proof

/-- One byte of a host record or one cell of a leg. -/
abbrev Byte := BitVec 8

/-- One character on the host link: bit 0 is the start bit, bits 1 to 8 are the data bits, the least significant first,
and bit 9 is the stop bit (R168). -/
abbrev Character := BitVec 10

/-- A count of half-cycles: unsigned, 32 bits, wrapping (00_scope, Line count). -/
abbrev Count := BitVec 32

/-- A 24-bit address (00_scope, Addresses). -/
abbrev Addr := BitVec 24

/-- The three phases L1, L2 and L3 (00_scope, Phases). -/
inductive Phase where
  | l1
  | l2
  | l3
  deriving DecidableEq, Repr

/-- One value for each phase. -/
structure PerPhase (α : Type) where
  l1 : α
  l2 : α
  l3 : α
  deriving DecidableEq, Repr

/-- The value held for one phase. -/
def PerPhase.get {α : Type} (x : PerPhase α) : Phase → α
  | .l1 => x.l1
  | .l2 => x.l2
  | .l3 => x.l3

/-- The container with the value of one phase replaced. -/
def PerPhase.set {α : Type} (x : PerPhase α) (p : Phase) (v : α) : PerPhase α :=
  match p with
  | .l1 => { x with l1 := v }
  | .l2 => { x with l2 := v }
  | .l3 => { x with l3 := v }

/-- The same value for every phase. -/
def PerPhase.const {α : Type} (v : α) : PerPhase α := ⟨v, v, v⟩

/-- The phases in the order L1, L2, L3. -/
def Phase.all : List Phase := [.l1, .l2, .l3]

/-- The phase that follows cyclically: after L3 comes L1 (00_scope, Phases). -/
def Phase.after : Phase → Phase
  | .l1 => .l2
  | .l2 => .l3
  | .l3 => .l1

end Sys2Proof
end

