-- ==== Sys2Proof/Config.lean ====
section
/-! DEFINITION. What the TL3 fixes and never changes (the constants of the spec) and the values the
spec leaves open, as an opaque constant. -/

namespace Sys2Proof.Config

/-- LEAD_MAX, the lead within which a PENDING order may take a slot (R86). -/
def leadMax : Nat := 30000
/-- URGENT_WINDOW (R112). -/
def urgentWindow : Nat := 3000
/-- COOL_COUNT, the length of a FAULT's cool-down (R51). -/
def coolCount : Nat := 3000
/-- The recovery count at which LEVEL_CAP rises (R52). -/
def recoveryCount : Nat := 4096
/-- The number of count advances between two saves of the count (R23). -/
def saveCadence : Nat := 1024
/-- The silence count at which an ACQUIRING phase becomes ABSENT (R6). -/
def silenceLimit : Nat := 200
/-- The in-range intervals in succession that lock a phase (R6). -/
def acquireLimit : Nat := 16
/-- The consecutive synthesised crossings that take a LOCKED phase to COASTING (R9). -/
def missLimit : Nat := 3
/-- The consecutive accepted crossings that return a COASTING phase to LOCKED (R10). -/
def returnLimit : Nat := 4
/-- The consecutive synthesised crossings that take a COASTING phase to ABSENT (R10). -/
def coastLimit : Nat := 200
/-- The count advances between two scrub reads (R157). -/
def scrubPace : Nat := 16
/-- The gap g between two legs of an exchange, in half-cycles (R40). -/
def gap : Nat := 2
/-- The length of the over-current history (R46). -/
def historyLength : Nat := 64
/-- The marked legs that take the driver to FAULT (R50). -/
def faultMarks : Nat := 3
/-- The steps by which an over-current folds the leg level back (R49). -/
def foldStep : Nat := 4
/-- The span of LEVEL_CAP below LEVEL_MAX (R49). -/
def capSpan : Nat := 8
/-- The least d(seal point, L) at which a started order can still be revoked (R99). -/
def revokeLead : Nat := 24
/-- The positions of the Order Store (R83). -/
def orderPositions : Nat := 32
/-- The time from a crossing to the opening of the cell window that follows it, in µs (R26). -/
def windowOffset : Nat := 1200
/-- The length of a cell window, in µs (R26). -/
def windowLength : Nat := 4000
/-- The delivery slots (R83). -/
def slots : Nat := 8
/-- The positions of the Receiver Table (R62). -/
def receiverPositions : Nat := 512
/-- The notices the queue holds (R174). -/
def queueLimit : Nat := 16
/-- The requests the buffer holds (R171). -/
def bufferLimit : Nat := 4
/-- The OVERRUN replies that may wait (R171). -/
def overrunLimit : Nat := 4
/-- The probes the queue holds (R124). -/
def probeLimit : Nat := 4
/-- The value at which an order's counters and the link's and store's counters hold (R96, R154, R170). -/
def counterMax : Nat := 65535
/-- The longest body of a record (R169). -/
def bodyMax : Nat := 248
/-- The writes the pending write list holds (R155). -/
def pendingWrites : Nat := 16384
/-- The line hold after power-on (R133). -/
def powerOnHold : Nat := 81
/-- The part code of the TL3 (R181). -/
def partCode : Nat := 0x3A13
/-- The silicon revision of the part the manual describes (R181). -/
def revision : Nat := 2
/-- The start mark of a record (R169). -/
def startMark : Byte := 0xC3
/-- The number of positions of the Retained Store (08_retained_store, Organisation). -/
def storePositions : Nat := 546

/-- FREE VALUE. A byte of a notice that the spec does not state: the levels in the DELIVERY notice of an exchange
whose leg never opened, and the level and carrier in the PROBE_DONE notice of a probe withdrawn from the queue,
which was never built. The argument is the number of the use, so that two uses may differ. DESIGN CHOICE,
notes/assumptions/7.md. -/
opaque unstatedByte : Nat → Byte

end Sys2Proof.Config
end

