-- ==== Sys2Proof/Machine/Records.lean ====
section
/-! DEFINITION. The records of the TL3 as plain data: the configuration, the tariff orders, the receiver records, and the
stored words that a position of the Retained Store holds. -/

namespace Sys2Proof.Machine

/-! ## Parameters and the configuration record (R183, R189) -/

/-- NOMINAL_FREQ (R24). -/
inductive NominalFreq where
  | hz50
  | hz60
  deriving DecidableEq, Repr

/-- The filter length F (R2). -/
inductive FilterLength where
  | off
  | samples4
  | samples16
  | samples64
  deriving DecidableEq, Repr

/-- The edge mode (R3). -/
inductive EdgeMode where
  | both
  | rising
  deriving DecidableEq, Repr

/-- LINK_RATE (R168). -/
inductive LinkRate where
  | r9600
  | r19200
  | r57600
  | r115200
  | r230400
  deriving DecidableEq, Repr

/-- NOTICE_MODE (R176). -/
inductive NoticeMode where
  | push
  | held
  deriving DecidableEq, Repr

/-- One NOTICE_LEVELS entry: 0, 1 or 2 (R174). -/
inductive NoticeLevel where
  | off
  | normal
  | urgent
  deriving DecidableEq, Repr

/-- The nine notice kinds, in the order of the notice table (09_the_host_link, Notices). -/
inductive NoticeKind where
  | orderActive
  | orderClosed
  | delivery
  | probeDone
  | timebase
  | countUnconfirmed
  | driver
  | store
  | link
  deriving DecidableEq, Repr

/-- NOTICE_LEVELS: one level for each notice kind (R174). -/
structure NoticeLevels where
  orderActive      : NoticeLevel
  orderClosed      : NoticeLevel
  delivery         : NoticeLevel
  probeDone        : NoticeLevel
  timebase         : NoticeLevel
  countUnconfirmed : NoticeLevel
  driver           : NoticeLevel
  store            : NoticeLevel
  link             : NoticeLevel
  deriving DecidableEq, Repr

/-- Every value a PARAM_WRITE stores (09_the_host_link, Parameters). -/
structure Params where
  nominalFreq      : NominalFreq
  refPhase         : Phase
  enable           : PerPhase Bool
  filter           : PerPhase FilterLength
  edge             : PerPhase EdgeMode
  settleCount      : Nat
  beaconInterval   : Nat
  carrierPrimary   : Nat
  carrierAlternate : Nat
  levelMax         : Nat
  minMargin        : Nat
  levelBase        : Nat
  qTarget          : Nat
  levelBroadcast   : Nat
  retryMax         : Nat
  relayAfter       : Nat
  repeatSpacing    : Nat
  linkRate         : LinkRate
  noticeMode       : NoticeMode
  stationId        : BitVec 16
  levels           : NoticeLevels
  deriving DecidableEq, Repr

/-- The defaults of the parameter table (09_the_host_link, Parameters). -/
def Params.default : Params where
  nominalFreq := .hz50
  refPhase := .l1
  enable := ⟨true, true, true⟩
  filter := ⟨.samples16, .samples16, .samples16⟩
  edge := ⟨.both, .both, .both⟩
  settleCount := 500
  beaconInterval := 6000
  carrierPrimary := 99
  carrierAlternate := 127
  levelMax := 24
  minMargin := 50
  levelBase := 12
  qTarget := 24
  levelBroadcast := 20
  retryMax := 6
  relayAfter := 3
  repeatSpacing := 100
  linkRate := .r57600
  noticeMode := .push
  stationId := 0
  levels := ⟨.off, .normal, .off, .normal, .urgent, .urgent, .urgent, .urgent, .normal⟩

/-- The configuration record: the parameters and the wipe mark (R152). -/
structure ConfigRecord where
  params   : Params
  wipeMark : Bool
  deriving DecidableEq, Repr

/-! ## Orders (05_tariff_orders, The order record) -/

/-- The fields of an order record that an ORDER_READ may find absent (R106). -/
inductive OrderField where
  | hostRef
  | target
  | action
  | parameter
  | activation
  | spread
  | repeats
  | sealPoint
  | admission
  deriving DecidableEq, Repr

/-- An order's target. -/
inductive Target where
  | all
  | group (g : Nat)
  | single (a : Addr)
  deriving DecidableEq, Repr

/-- An order's action (R33). -/
inductive Action where
  | setTariff
  | loadOff
  | loadOn
  deriving DecidableEq, Repr

/-- An order's delivery account. -/
structure Counters where
  targeted  : Nat
  confirmed : Nat
  refused   : Nat
  exhausted : Nat
  late      : Nat
  dropped   : Nat
  deriving DecidableEq, Repr

/-- What an order holds while it is ACTIVE or REVOKING. -/
structure SlotFields where
  slot       : Nat
  started    : Bool
  sent       : Nat
  abandoned  : Bool
  nextRepeat : Count
  /-- The roll: receiver indices, ascending (R94). -/
  roll       : List Nat
  deriving DecidableEq, Repr

/-- A closed order's outcome (R96, R93, R95, R106). -/
inductive OrderOutcome where
  | complete
  | partly
  | noneConfirmed
  | noTarget
  | notSent
  | cancelled
  | damaged
  deriving DecidableEq, Repr

/-- An order's state with the fields that state makes present. -/
inductive OrderState where
  | pending
  | active (f : SlotFields)
  | revoking (f : SlotFields)
  | closed (number : Count) (outcome : OrderOutcome)
  deriving DecidableEq, Repr

structure Order where
  /-- 1..255, or 0 in a DAMAGED order whose tag could not be read. -/
  tag        : Nat
  hostRef    : Option (BitVec 16)
  target     : Target
  action     : Action
  parameter  : Nat
  activation : Count
  spread     : Nat
  repeats    : Nat
  sealPoint  : Count
  admission  : Count
  counters   : Counters
  state      : OrderState
  /-- The fields a DAMAGED order could not read (R106); empty in every other order. -/
  unreadable : List OrderField
  deriving DecidableEq, Repr

/-! ## The Receiver Table (04_the_receiver_table) -/

/-- PRIMARY or ALTERNATE (R45, R77). -/
inductive CarrierSelection where
  | primary
  | alternate
  deriving DecidableEq, Repr

/-- A delivery entry's last result (R65). -/
inductive LastResult where
  | noneYet
  | noAnswer
  | bad
  | aborted
  deriving DecidableEq, Repr

/-- A delivery entry (R65). -/
structure Entry where
  slot     : Nat
  attempts : Nat
  nextTry  : Count
  last     : LastResult
  deriving DecidableEq, Repr

/-- The last reported state (R79): tariff index, load contacts (true for closed), count heard. -/
structure ReportedState where
  tariff : Nat
  load1  : Bool
  load2  : Bool
  heard  : Count
  deriving DecidableEq, Repr

/-- A receiver record. -/
structure Receiver where
  /-- Absent only in a DAMAGED record whose address could not be read (R80). -/
  address   : Option Addr
  /-- Absent for UNKNOWN. -/
  phase     : Option Phase
  groups    : List Nat
  path      : Option (List Addr)
  stale     : Bool
  quality   : Nat
  carrier   : CarrierSelection
  failures  : Nat
  reported  : Option ReportedState
  damaged   : Bool
  entries   : List Entry
  deriving DecidableEq, Repr

/-! ## The words of a position (R153) -/

/-- A stored word: 32 data bits and 7 check bits (R153). -/
structure StoredWord where
  data  : BitVec 32
  check : BitVec 7
  deriving DecidableEq, Repr

/-- The words of one position, word 0 first (R152). -/
abbrev Words := List StoredWord

/-- The bits of one word of a position that have turned in the cells since the store last wrote it: a one for each of
its 32 data bits and 7 check bits that did. -/
structure WordFlip where
  word : Nat
  bits : StoredWord
  deriving DecidableEq, Repr

/-- What a read of a position meets: the bits that have turned, every other bit as the store wrote it. -/
abbrev ReadErrors := List WordFlip

/-- The three classes of a word read (R153). -/
inductive WordClass where
  | clean
  | corrected
  | uncorrectable
  deriving DecidableEq, Repr

end Sys2Proof.Machine
end

