-- ==== Sys2Proof/Syntax.lean ====
section
/-! DEFINITION. The commands of the TL3: one constructor for each row of spec/opcode_table.json. A row is
one of the part's steps, whole and indivisible (95_what_each_step_holds.md). What a step needs from
outside the part stands in its operands; what it takes from the part stands in the state. -/

namespace Sys2Proof

/-- What the Answer Receiver meets in one cell window it listens in (R55, R57): the energy heard in the
band of the two tones, and the nine symbols demodulated, the first symbol sent in bit 0, a one for the
upper tone (R27). -/
structure Window where
  energy  : Nat
  symbols : BitVec 9
  deriving DecidableEq, Repr

/-- A position of the Retained Store (08_retained_store, Organisation). -/
inductive Position where
  | config
  | savedCount
  | order (n : Nat)
  | receiver (n : Nat)
  deriving DecidableEq, Repr

/-- What the restore finds at one position beyond what the store already holds there. -/
structure PositionErrors where
  position : Position
  errors   : Machine.ReadErrors
  deriving DecidableEq, Repr

/-- The commands, in the order of spec/opcode_table.json. The host's requests carry no operands here: they
are taken from the request buffer, where RECORD_COMPLETE put their bytes (R171, R172). -/
inductive Instr where
  /-- POWER_ON (R162): what the restore's reads find, position by position. -/
  | powerOn (errors : List PositionErrors)
  /-- POWER_LOSS (R156): whether a record write was in progress, and how many positions a WIPE in progress
  had rewritten. -/
  | powerLoss (writing : Bool) (wiped : Nat)
  | restoreComplete
  /-- ZC_EDGE (R2): from `time` on the input of the phase holds `level` for `run` samples in succession. -/
  | zcEdge (p : Phase) (time : Nat) (level : Bool) (run : Nat)
  | windowClose (p : Phase)
  | derivedCrossing (p : Phase)
  | crystalAdvance
  /-- ACQUIRE_LOCK (R6): the edge that ends the sixteenth in-range interval in succession. -/
  | acquireLock (p : Phase) (time : Nat) (level : Bool) (run : Nat)
  | silenceTimeout (p : Phase)
  | missLimit (p : Phase)
  /-- RETURN_LOCK (R10): the edge that is the fourth accepted crossing in succession. -/
  | returnLock (p : Phase) (time : Nat) (level : Bool) (run : Nat)
  | coastTimeout (p : Phase)
  | settleEnd
  | beaconTimerExpiry
  | saveCadence
  | coolDownEnd
  | capRecovery
  /-- SCRUB_READ (R157): what the read finds. -/
  | scrubRead (errors : Machine.ReadErrors)
  /-- RECORD_WRITE (R156): what the verify read finds. -/
  | recordWrite (errors : Machine.ReadErrors)
  | orderActivate
  /-- ORDER_SEAL (R96) of the order at a position. -/
  | orderSeal (position : Nat)
  /-- NOT_SENT (R95) of the order at a position. -/
  | notSent (position : Nat)
  | decisionPoint
  /-- CELL_WINDOW (R47): the cell window that follows the phase's latest crossing opens. -/
  | cellWindow (p : Phase)
  | legComplete
  /-- OVER_CURRENT (R49): a report of the current-sense input at `time`; 0, the release of reset, where none is
  named. -/
  | overCurrent (time : Nat := 0)
  /-- RELAY_SPAN_OPEN (R54): the energies heard in the two gap windows before the span (R55). -/
  | relaySpanOpen (gap1 gap2 : Nat)
  /-- RELAY_SPAN_END (R56): what was heard in the windows of the span. -/
  | relaySpanEnd (heard : List Window)
  /-- ANSWER_WINDOW_OPEN (R139): the energies heard in the two gap windows before the window (R55). -/
  | answerWindowOpen (gap1 gap2 : Nat)
  /-- ANSWER_REPORT (R57): what was heard in the windows of the answer window. -/
  | answerReport (heard : List Window)
  /-- RECORD_COMPLETE (R171): the character of the last byte of a record whose CRC checks. -/
  | recordComplete (ch : Character)
  /-- FRAMING_DISCARD (R170): the stop bit of a character is found low (R168) with a record in assembly. -/
  | framingDiscard
  /-- LENGTH_DISCARD (R170): the character of a length byte above 248. -/
  | lengthDiscard (ch : Character)
  /-- CRC_DISCARD (R170): the character of the last byte of a record whose CRC does not check. -/
  | crcDiscard (ch : Character)
  | gapDiscard
  | transmitStart
  | rateSwitch
  | unknownKind
  | ident
  | status
  | paramRead
  | paramWrite
  | writeNominalFreq
  | writeRefPhase
  | writePhaseEnable
  | writeZcFilter
  | writeZcEdge
  | writeSettleCount
  | writeBeaconInterval
  | writeCarrierPrimary
  | writeCarrierAlternate
  | writeLevelMax
  | writeMinMargin
  | writeLevelBase
  | writeQTarget
  | writeLevelBroadcast
  | writeRetryMax
  | writeRelayAfter
  | writeRepeatSpacing
  | writeLinkRate
  | writeNoticeMode
  | writeStationId
  | writeNoticeLevels
  | resetSoft
  | softResetPerform
  /-- RESET_WIPE (R186): what the verify read of the WIPE's first write finds (R164 step 5). -/
  | resetWipe (errors : Machine.ReadErrors)
  | wipeEnd
  | noticeFetch
  | timeRead
  | countSet
  | orderAdd
  | orderCancel
  | orderRead
  | orderList
  | orderClear
  | rxAdd
  | rxUpdate
  | rxRemove
  | rxRead
  | rxList
  | probe
  /-- BYTE_RECEIVED (R170): a character from the host. -/
  | byteReceived (ch : Character)
  | recordSent
  deriving DecidableEq, Repr

end Sys2Proof
end

