-- ==== Sys2Proof/Decode.lean ====
section
/-! DEFINITION. The command a table word spells. No row of spec/opcode_table.json gives bits (98_reader.md:
n_rows_with_fixed 0, n_rows_with_fields 0), so no word spells a command. The bytes that the host and the
receivers do send are read in Machine/Operands.lean and Machine/Cells.lean. -/

namespace Sys2Proof

/-- The command that a word of the table spells: none, as no row of the table gives bits. -/
def decodeTableWord (_nbits _w : Nat) : Option Instr := none

end Sys2Proof
end

