-- ==== Sys2Proof/Machine/Codes.lean ====
section
/-! DEFINITION. The codes of the fields of a record: 10_record_and_cell_formats.md, Codes, and the encodings of the
parameters (R189). -/

namespace Sys2Proof.Machine

/-- A number as a byte. -/
def byteOf (n : Nat) : Byte := BitVec.ofNat 8 n

/-- A byte whose bit k is the k-th flag. -/
def flagByte (flags : List Bool) : Nat :=
  flags.foldr (fun f acc => acc * 2 + f.toNat) 0

def phaseCode : Option Phase → Byte
  | none => 0
  | some .l1 => 1
  | some .l2 => 2
  | some .l3 => 3

/-- The phase a code names: the outer absence for a code that names none, the inner for UNKNOWN. -/
def phaseOfCode (b : Byte) : Option (Option Phase) :=
  if b = 0 then some none
  else if b = 1 then some (some .l1)
  else if b = 2 then some (some .l2)
  else if b = 3 then some (some .l3)
  else none

/-- An address of an individual receiver (00_scope, Addresses). -/
def individual (a : Addr) : Bool := decide (1 ≤ a.toNat ∧ a.toNat ≤ 0xFFFFEF)

/-- The target an address names (R31, R87): none for the invalid addresses. -/
def targetOfAddr (a : Addr) : Option Target :=
  if individual a then some (.single a)
  else if a.toNat = 0xFFFFFF then some .all
  else if 0xFFFFF1 ≤ a.toNat ∧ a.toNat ≤ 0xFFFFFE then some (.group (a.toNat - 0xFFFFF0))
  else none

/-- The address that names a target (R117). -/
def addrOfTarget : Target → Addr
  | .all => 0xFFFFFF
  | .group g => BitVec.ofNat 24 (0xFFFFF0 + g)
  | .single a => a

def actionCode : Action → Byte
  | .setTariff => 1
  | .loadOff => 2
  | .loadOn => 3

def actionOfCode (b : Byte) : Option Action :=
  if b = 1 then some .setTariff
  else if b = 2 then some .loadOff
  else if b = 3 then some .loadOn
  else none

def orderStateCode : OrderState → Byte
  | .pending => 1
  | .active _ => 2
  | .revoking _ => 3
  | .closed _ _ => 4

def outcomeCode : OrderOutcome → Byte
  | .complete => 1
  | .partly => 2
  | .noneConfirmed => 3
  | .noTarget => 4
  | .notSent => 5
  | .cancelled => 6
  | .damaged => 7

/-- The outcome byte of an order's state: 0 unless CLOSED (R104). -/
def stateOutcomeCode : OrderState → Byte
  | .closed _ o => outcomeCode o
  | .pending => 0
  | .active _ => 0
  | .revoking _ => 0

def carrierCode : CarrierSelection → Byte
  | .primary => 0
  | .alternate => 1

def lastResultCode : LastResult → Byte
  | .noneYet => 0
  | .noAnswer => 1
  | .bad => 2
  | .aborted => 3

def freqCode : NominalFreq → Nat
  | .hz50 => 0
  | .hz60 => 1

def filterCode : FilterLength → Nat
  | .off => 0
  | .samples4 => 1
  | .samples16 => 2
  | .samples64 => 3

def edgeCode : EdgeMode → Nat
  | .both => 0
  | .rising => 1

/-- The set of enabled phases as a code: bit 0 for L1, bit 1 for L2, bit 2 for L3 (R189). -/
def enableCode (e : PerPhase Bool) : Nat := flagByte [e.l1, e.l2, e.l3]

def rateOf : LinkRate → Nat
  | .r9600 => 9600
  | .r19200 => 19200
  | .r57600 => 57600
  | .r115200 => 115200
  | .r230400 => 230400

def modeCode : NoticeMode → Nat
  | .push => 0
  | .held => 1

def levelCode : NoticeLevel → Nat
  | .off => 0
  | .normal => 1
  | .urgent => 2

/-- The value of a list whose code this is (R189). -/
def decodeCode {α : Type} (code : α → Nat) (values : List α) (v : Nat) : Option α := values.find? fun x => code x == v

end Sys2Proof.Machine
end

