-- ==== Sys2Proof/Machine/Words.lean ====
section
/-! DEFINITION. The words of the Retained Store: their check bits, the class a read gives them, and what the read writes
back (R153, R154). -/

namespace Sys2Proof.Machine

/-! ## The code of the check bits -/

/-- The check bits that each data bit takes part in, data bit 0 first: 32 different words of seven bits with three ones
each. A check bit takes part in itself alone. The 39 words differ and all have an odd number of ones, so one bit in error
is pointed to and two show (R153). DESIGN CHOICE, notes/assumptions/48.md: the spec does not give the code. -/
def codeColumns : List (BitVec 7) :=
  [0x07, 0x0B, 0x0D, 0x0E, 0x13, 0x15, 0x16, 0x19, 0x1A, 0x1C, 0x23, 0x25, 0x26, 0x29, 0x2A, 0x2C] ++
  [0x31, 0x32, 0x34, 0x38, 0x43, 0x45, 0x46, 0x49, 0x4A, 0x4C, 0x51, 0x52, 0x54, 0x58, 0x61, 0x62]

/-- The sum of the columns whose data bits are one. -/
def columnSum : List (BitVec 7) → BitVec 32 → BitVec 7
  | [], _ => 0
  | c :: rest, d => (if d.getLsbD 0 then c else 0) ^^^ columnSum rest (d >>> 1)

/-- The 7 check bits of 32 data bits (R153). -/
def checkBits (d : BitVec 32) : BitVec 7 := columnSum codeColumns d

/-- A word as the store writes it, its check bits computed from its data (R153). -/
def StoredWord.of (d : BitVec 32) : StoredWord := ⟨d, checkBits d⟩

/-- The bits in which the check bits recomputed at a read differ from those stored (R153). -/
def StoredWord.disagreement (w : StoredWord) : BitVec 7 := checkBits w.data ^^^ w.check

/-- The word with bits turned. -/
def StoredWord.turn (w bits : StoredWord) : StoredWord := ⟨w.data ^^^ bits.data, w.check ^^^ bits.check⟩

/-- The one bit, data or check, that a disagreement points to; none where it points to no bit (R153). -/
def pointedBit (d : BitVec 7) : Option StoredWord :=
  match codeColumns.findIdx? (· == d) with
  | some i => some ⟨BitVec.twoPow 32 i, 0⟩
  | none => if d ∈ (List.range 7).map (BitVec.twoPow 7) then some ⟨0, d⟩ else none

/-- The class of a word read (R153). -/
def StoredWord.cls (w : StoredWord) : WordClass :=
  if w.disagreement = 0 then .clean
  else if (pointedBit w.disagreement).isSome then .corrected
  else .uncorrectable

/-- What a read writes back: a clean word as read, a corrected one corrected with fresh check bits, an uncorrectable one
exactly as it was read (R154). -/
def StoredWord.writtenBack (w : StoredWord) : StoredWord :=
  match w.cls, pointedBit w.disagreement with
  | .corrected, some bit => .of (w.turn bit).data
  | _, _ => w

/-- The data a read returns: none for an uncorrectable word (R153). -/
def StoredWord.returned (w : StoredWord) : Option (BitVec 32) :=
  if w.cls = .uncorrectable then none else some w.writtenBack.data

/-! ## The words of a position -/

/-- `n` words of zeros, which an empty position holds. -/
def zeroWords (n : Nat) : Words := List.replicate n (.of 0)

/-- The words of these numbers, with fresh check bits. -/
def wordsOf (l : List Nat) : Words := l.map fun n => .of (BitVec.ofNat 32 n)

/-- The numbers that a read of the words returns, 0 for an uncorrectable word. -/
def numbersOf (ws : Words) : List Nat := ws.map fun w => (w.returned.getD 0).toNat

/-- The words once the bits that turned have turned. -/
def turnWords (e : ReadErrors) (ws : Words) : Words :=
  e.foldl (fun ws f => ws.modify f.word fun w => w.turn f.bits) ws

/-- The words that a read classes uncorrectable, by number (R158). -/
def badWords (ws : Words) : List Nat :=
  (List.range ws.length).filter fun i => (ws[i]?.map (·.cls)) == some .uncorrectable

/-- How many words a read classes corrected (R154). -/
def correctedWords (ws : Words) : Nat := ws.countP fun w => w.cls == .corrected

end Sys2Proof.Machine
end

