-- ==== Sys2Proof/Machine/Layout.lean ====
section
/-! DEFINITION. Where a record lies in the words of its position. R152 gives word 0 of each position and the number of
words; the places of the other fields are the model's: DESIGN CHOICE, notes/assumptions/11.md. A position is given by the
numbers its words hold, and an empty position by zeros. -/

namespace Sys2Proof.Machine

/-- Word `i` of a position. -/
def wordAt (ns : List Nat) (i : Nat) : Nat := ns.getD i 0

/-- A position whose header reads unoccupied (R152). -/
def unoccupied (ns : List Nat) : Bool := wordAt ns 0 % 2 == 0

/-! ## The configuration and the saved count -/

/-- The 16 words of the configuration: the wipe mark in word 0 (R152), the parameters behind it. -/
def configNumbers (r : ConfigRecord) : List Nat :=
  let p := r.params
  [r.wipeMark.toNat,
    freqCode p.nominalFreq + 2 * (phaseCode (some p.refPhase)).toNat + 8 * enableCode p.enable,
    filterCode p.filter.l1 + 4 * filterCode p.filter.l2 + 16 * filterCode p.filter.l3,
    edgeCode p.edge.l1 + 2 * edgeCode p.edge.l2 + 4 * edgeCode p.edge.l3,
    p.settleCount + 0x10000 * p.beaconInterval,
    p.carrierPrimary + 0x10000 * p.carrierAlternate,
    p.levelMax + 0x100 * p.levelBase + 0x10000 * p.levelBroadcast + 0x1000000 * p.qTarget,
    p.minMargin + 0x10000 * p.repeatSpacing,
    p.retryMax + 0x100 * p.relayAfter + 0x10000 * modeCode p.noticeMode,
    rateOf p.linkRate,
    p.stationId.toNat,
    levelCode p.levels.orderActive + 4 * levelCode p.levels.orderClosed + 16 * levelCode p.levels.delivery +
      64 * levelCode p.levels.probeDone + 256 * levelCode p.levels.timebase +
      1024 * levelCode p.levels.countUnconfirmed + 4096 * levelCode p.levels.driver +
      16384 * levelCode p.levels.store + 65536 * levelCode p.levels.link,
    0, 0, 0, 0]

/-- The value that a code names, a default where it names none. -/
def decodeOr {α : Type} (code : α → Nat) (values : List α) (d : α) (v : Nat) : α := (decodeCode code values v).getD d

def freqFrom (v : Nat) : NominalFreq := decodeOr freqCode [.hz50, .hz60] .hz50 (v % 2)
def phaseFrom (v : Nat) : Phase := decodeOr (fun p => (phaseCode (some p)).toNat) Phase.all .l1 (v % 4)
def filterFrom (v : Nat) : FilterLength := decodeOr filterCode [.off, .samples4, .samples16, .samples64] .off (v % 4)
def edgeFrom (v : Nat) : EdgeMode := decodeOr edgeCode [.both, .rising] .both (v % 2)
def modeFrom (v : Nat) : NoticeMode := decodeOr modeCode [.push, .held] .push (v % 2)
def rateFrom (v : Nat) : LinkRate := decodeOr rateOf [.r9600, .r19200, .r57600, .r115200, .r230400] .r57600 v
def levelFrom (v : Nat) : NoticeLevel := decodeOr levelCode [.off, .normal, .urgent] .off (v % 4)

/-- The parameters that the words of the configuration give. -/
def paramsOf (ns : List Nat) : Params :=
  let w := wordAt ns
  { nominalFreq := freqFrom (w 1)
    refPhase := phaseFrom (w 1 / 2)
    enable := ⟨(w 1 / 8).testBit 0, (w 1 / 8).testBit 1, (w 1 / 8).testBit 2⟩
    filter := ⟨filterFrom (w 2), filterFrom (w 2 / 4), filterFrom (w 2 / 16)⟩
    edge := ⟨edgeFrom (w 3), edgeFrom (w 3 / 2), edgeFrom (w 3 / 4)⟩
    settleCount := w 4 % 0x10000
    beaconInterval := w 4 / 0x10000
    carrierPrimary := w 5 % 0x10000
    carrierAlternate := w 5 / 0x10000
    levelMax := w 6 % 0x100
    minMargin := w 7 % 0x10000
    levelBase := w 6 / 0x100 % 0x100
    qTarget := w 6 / 0x1000000
    levelBroadcast := w 6 / 0x10000 % 0x100
    retryMax := w 8 % 0x100
    relayAfter := w 8 / 0x100 % 0x100
    repeatSpacing := w 7 / 0x10000
    linkRate := rateFrom (w 9)
    noticeMode := modeFrom (w 8 / 0x10000)
    stationId := BitVec.ofNat 16 (w 10)
    levels :=
      ⟨levelFrom (w 11), levelFrom (w 11 / 4), levelFrom (w 11 / 16), levelFrom (w 11 / 64), levelFrom (w 11 / 256),
        levelFrom (w 11 / 1024), levelFrom (w 11 / 4096), levelFrom (w 11 / 16384), levelFrom (w 11 / 65536)⟩ }

/-- The configuration that its words give. -/
def configOf (ns : List Nat) : ConfigRecord := ⟨paramsOf ns, wordAt ns 0 % 2 == 1⟩

/-- The one word of the saved count. -/
def countNumbers (c : Count) : List Nat := [c.toNat]

def savedCountOf (ns : List Nat) : Count := BitVec.ofNat 32 (wordAt ns 0)

/-! ## Receivers -/

/-- A member of a relay path: 0 where there is none. -/
def pathNumber : Option Addr → Nat
  | none => 0
  | some a => 0x1000000 + a.toNat

def pathMember (n : Nat) : Option Addr := if n / 0x1000000 % 2 = 1 then some (BitVec.ofNat 24 n) else none

/-- The groups in their order, one byte each, 0 behind the last. -/
def groupsNumber (l : List Nat) : Nat :=
  l.getD 0 0 + 0x100 * l.getD 1 0 + 0x10000 * l.getD 2 0 + 0x1000000 * l.getD 3 0

def groupsFrom (n : Nat) : List Nat :=
  [n % 0x100, n / 0x100 % 0x100, n / 0x10000 % 0x100, n / 0x1000000].filter (· != 0)

/-- The tariff and the two loads of the last reported state. -/
def reportedNumber : Option ReportedState → Nat
  | none => 0
  | some r => 1 + 2 * r.load1.toNat + 4 * r.load2.toNat + 8 * r.tariff

def reportedFrom (n heard : Nat) : Option ReportedState :=
  if n % 2 = 1 then some ⟨n / 8, n / 2 % 2 == 1, n / 4 % 2 == 1, BitVec.ofNat 32 heard⟩ else none

/-- The two words of a delivery entry. -/
def entryNumbers (e : Entry) : List Nat :=
  [1 + 2 * e.slot + 0x10 * (lastResultCode e.last).toNat + 0x100 * e.attempts, e.nextTry.toNat]

def lastResultFrom (v : Nat) : LastResult :=
  decodeOr (fun r => (lastResultCode r).toNat) [.noneYet, .noAnswer, .bad, .aborted] .noneYet (v % 4)

def entryFrom (n next : Nat) : Option Entry :=
  if n % 2 = 1 then some ⟨n / 2 % 8, n / 0x100, BitVec.ofNat 32 next, lastResultFrom (n / 0x10)⟩ else none

/-- The entries of consecutive pairs of words. -/
def entriesFrom : List Nat → List Entry
  | n :: next :: rest => (entryFrom n next).toList ++ entriesFrom rest
  | _ => []

/-- The 16 words of a delivery list, oldest first, the newest of at most 8 entries in the last two. -/
def listNumbers (l : List Entry) : List Nat :=
  (List.replicate (16 - 2 * l.length) 0 ++ (l.map entryNumbers).flatten).take 16

/-- The delivery list that 16 words give: no two entries for one slot (R65), none in a DAMAGED record (R80). -/
def listFrom (damaged : Bool) (ns : List Nat) : List Entry :=
  if damaged then [] else (entriesFrom ns).pwFilter fun a b => a.slot ≠ b.slot

/-- The 32 words of a receiver position. Word 0 holds the occupied mark, the status and the address (R152). -/
def receiverNumbers : Option Receiver → List Nat
  | none => List.replicate 32 0
  | some r =>
    [1 + 2 * r.damaged.toNat + 0x100 * (r.address.getD 0).toNat,
      (phaseCode r.phase).toNat,
      groupsNumber r.groups,
      pathNumber ((r.path.getD [])[0]?),
      pathNumber ((r.path.getD [])[1]?),
      r.stale.toNat,
      r.quality,
      (carrierCode r.carrier).toNat,
      r.failures,
      reportedNumber r.reported,
      ((r.reported.map ReportedState.heard).getD 0).toNat,
      0, 0, 0, 0, 0] ++ listNumbers r.entries

/-- The address in a header: absent where it holds none. -/
def addressFrom (n : Nat) : Option Addr := if n / 0x100 = 0 then none else some (BitVec.ofNat 24 (n / 0x100))

/-- The path of two members, none without a first. -/
def pathFrom (first second : Option Addr) : Option (List Addr) := first.map fun a => a :: second.toList

/-- The record that the words of a receiver position give. -/
def receiverOf (ns : List Nat) : Option Receiver :=
  let w := wordAt ns
  if unoccupied ns then none
  else some
    { address := addressFrom (w 0)
      phase := (phaseOfCode (byteOf (w 1 % 4))).getD none
      groups := groupsFrom (w 2)
      path := pathFrom (pathMember (w 3)) (pathMember (w 4))
      stale := w 5 % 2 == 1
      quality := w 6
      carrier := if w 7 % 2 = 0 then .primary else .alternate
      failures := w 8
      reported := reportedFrom (w 9) (w 10)
      damaged := w 0 / 2 % 2 == 1
      entries := listFrom (w 0 / 2 % 2 == 1) (ns.drop 16) }

/-! ## Orders -/

/-- The fields of an order record that an ORDER_READ may find absent, in the order of their words (R106). -/
def OrderField.all : List OrderField :=
  [.hostRef, .target, .action, .parameter, .activation, .spread, .repeats, .sealPoint, .admission]

/-- The word that holds the value of a field. -/
def OrderField.word (f : OrderField) : Nat := 1 + OrderField.all.idxOf f

/-- The second word of a field whose value fills its word: in a CLOSED order it says whether the field is absent. Any other
field says so in the topmost bit of its one word. -/
def OrderField.markWord : OrderField → Option Nat
  | .activation => some 16
  | .sealPoint => some 17
  | .admission => some 18
  | .hostRef => none
  | .target => none
  | .action => none
  | .parameter => none
  | .spread => none
  | .repeats => none

/-- The word that holds the outcome of a CLOSED order. -/
def outcomeWord : Nat := 10

/-- The word that holds the close number of a CLOSED order. -/
def closeWord : Nat := 11

/-- The topmost bit of a word, set for an absent field. -/
def absentBit (absent : Bool) : Nat := 0x80000000 * absent.toNat

def hostRefNumber : Option (BitVec 16) → Nat
  | none => 0
  | some v => 0x10000 + v.toNat

def hostRefFrom (n : Nat) : Option (BitVec 16) := if n / 0x10000 % 2 = 1 then some (BitVec.ofNat 16 n) else none

/-- The slot, the transmission words and the roll of an order that holds a slot; zeros for any other. -/
def OrderState.held (st : OrderState) : SlotFields :=
  match st with
  | .pending => ⟨0, false, 0, false, 0, []⟩
  | .active f => f
  | .revoking f => f
  | .closed _ _ => ⟨0, false, 0, false, 0, []⟩

/-- Word 10: the outcome when CLOSED, else transmission started and repeats abandoned. Their bits are apart, so the word
tells a CLOSED order from any other without its header. -/
def OrderState.word10 (st : OrderState) : Nat :=
  match st with
  | .closed _ o => 0x10000000 * (outcomeCode o).toNat
  | .pending => 0
  | .active f => f.started.toNat + 2 * f.abandoned.toNat
  | .revoking f => f.started.toNat + 2 * f.abandoned.toNat

/-- Word 11: the close number when CLOSED, else the next repeat. -/
def OrderState.word11 (st : OrderState) : Nat :=
  match st with
  | .closed n _ => n.toNat
  | .pending => 0
  | .active f => f.nextRepeat.toNat
  | .revoking f => f.nextRepeat.toNat

/-- The 16 words of a roll, one bit for each receiver index. -/
def rollNumbers (roll : List Nat) : List Nat :=
  (List.range 16).map fun k => flagByte ((List.range 32).map fun j => decide (32 * k + j ∈ roll))

def rollFrom (ns : List Nat) : List Nat :=
  (List.range Config.receiverPositions).filter fun i => (wordAt ns (i / 32)).testBit (i % 32)

/-- Words 16 to 31: in a CLOSED order the second words of its fields, else the roll. -/
def tailNumbers (st : OrderState) (absent : OrderField → Bool) : List Nat :=
  match st with
  | .closed _ _ =>
    [(absent .activation).toNat, (absent .sealPoint).toNat, (absent .admission).toNat] ++ List.replicate 13 0
  | .pending => rollNumbers []
  | .active f => rollNumbers f.roll
  | .revoking f => rollNumbers f.roll

/-- The 32 words of an order position. Word 0 holds the occupied mark, the state, the tag and the slot (R152). The two marks
of word 10 share it: a word each would make 33. -/
def orderNumbers : Option Order → List Nat
  | none => List.replicate 32 0
  | some o =>
    let absent (f : OrderField) : Bool := decide (f ∈ o.unreadable)
    [1 + 2 * ((orderStateCode o.state).toNat - 1) + 8 * o.state.held.slot + 0x100 * o.tag,
      hostRefNumber o.hostRef + absentBit (absent .hostRef),
      (addrOfTarget o.target).toNat + absentBit (absent .target),
      (actionCode o.action).toNat + absentBit (absent .action),
      o.parameter + absentBit (absent .parameter),
      o.activation.toNat,
      o.spread + absentBit (absent .spread),
      o.repeats + absentBit (absent .repeats),
      o.sealPoint.toNat,
      o.admission.toNat,
      o.state.word10,
      o.state.word11,
      o.state.held.sent,
      o.counters.targeted + 0x10000 * o.counters.confirmed,
      o.counters.refused + 0x10000 * o.counters.exhausted,
      o.counters.late + 0x10000 * o.counters.dropped] ++ tailNumbers o.state absent

def outcomeFrom (v : Nat) : OrderOutcome :=
  decodeOr (fun o => (outcomeCode o).toNat)
    [.complete, .partly, .noneConfirmed, .noTarget, .notSent, .cancelled, .damaged] .complete v

/-- The outcome that the words of an order position give. -/
def outcomeAt (ns : List Nat) : OrderOutcome := outcomeFrom (wordAt ns outcomeWord / 0x10000000)

/-- The slot fields that the words of an order position give. -/
def slotFieldsFrom (ns : List Nat) : SlotFields :=
  let w := wordAt ns
  ⟨w 0 / 8 % 32, w 10 % 2 == 1, w 12, w 10 / 2 % 2 == 1, BitVec.ofNat 32 (w 11), rollFrom (ns.drop 16)⟩

/-- The state that the words of an order position give. -/
def orderStateFrom (ns : List Nat) : OrderState :=
  match wordAt ns 0 / 2 % 4 with
  | 0 => .pending
  | 1 => .active (slotFieldsFrom ns)
  | 2 => .revoking (slotFieldsFrom ns)
  | _ => .closed (BitVec.ofNat 32 (wordAt ns closeWord)) (outcomeAt ns)

/-- Whether the position holds a CLOSED order, whose fields have their second words: as the header says, or where it is among
the words `bad` that cannot be read, as the outcome word does; none where neither can be read. -/
def readsClosed (bad ns : List Nat) : Option Bool :=
  if 0 ∉ bad then some (wordAt ns 0 / 2 % 4 == 3)
  else if outcomeWord ∉ bad then some (wordAt ns outcomeWord / 0x10000000 != 0)
  else none

/-- The field is absent: so marked, or its word names no target or no action. Where no word tells whether the order is
CLOSED, a field with a second word is absent when its value is 0, as an absent one is written. -/
def fieldAbsent (bad ns : List Nat) (f : OrderField) : Bool :=
  match f.markWord with
  | some m =>
    match readsClosed bad ns with
    | some closed => closed && (wordAt ns m).testBit 0
    | none => wordAt ns f.word == 0
  | none =>
    (wordAt ns f.word).testBit 31 ||
      (f == .target && (targetOfAddr (BitVec.ofNat 24 (wordAt ns f.word))).isNone) ||
      (f == .action && (actionOfCode (byteOf (wordAt ns f.word))).isNone)

/-- What the words of an order position, those of `bad` unreadable, give beside the header: the record with the state and
tag given. -/
def orderBody (bad ns : List Nat) (tag : Nat) (state : OrderState) : Order :=
  let w := wordAt ns
  { tag := tag
    hostRef := hostRefFrom (w 1)
    target := (targetOfAddr (BitVec.ofNat 24 (w 2))).getD .all
    action := (actionOfCode (byteOf (w 3))).getD .setTariff
    parameter := w 4 % 0x80000000
    activation := BitVec.ofNat 32 (w 5)
    spread := w 6 % 0x80000000
    repeats := w 7 % 0x80000000
    sealPoint := BitVec.ofNat 32 (w 8)
    admission := BitVec.ofNat 32 (w 9)
    counters := ⟨w 13 % 0x10000, w 13 / 0x10000, w 14 % 0x10000, w 14 / 0x10000, w 15 % 0x10000, w 15 / 0x10000⟩
    state := state
    unreadable := OrderField.all.filter (fieldAbsent bad ns) }

/-- The order that the words of its position give, all of them readable. -/
def orderOf (ns : List Nat) : Option Order :=
  if unoccupied ns then none else some (orderBody [] ns (wordAt ns 0 / 0x100 % 0x100) (orderStateFrom ns))

end Sys2Proof.Machine
end

