-- ==== Sys2Proof/Machine/State.lean ====
section
/-! DEFINITION. The state of the TL3, block by block (00_scope, Blocks), as plain data, and the state right
after reset. -/

namespace Sys2Proof.Machine

/-! ## The Mains Timebase (01_the_mains_timebase, What the Timebase holds) -/

/-- The states of a phase tracker. -/
inductive TrackerState where
  | absent
  | acquiring
  | locked
  | coasting
  deriving DecidableEq, Repr

/-- One phase's input filter and tracker. Times are in µs since the release of reset. -/
structure Tracker where
  /-- The filter's settled level; absent until the first sample after power-on (R2). -/
  settled    : Option Bool
  state      : TrackerState
  /-- The period estimate P, in µs (R8). -/
  period     : Nat
  last       : Option Nat
  /-- The last full period, RISING mode (R3). -/
  lastFull   : Option Nat
  acquire    : Nat
  silence    : Nat
  miss       : Nat
  ret        : Nat
  coast      : Nat
  ignoreNext : Bool
  /-- A derived crossing is still to come after the last rising crossing (R3). -/
  derivedDue : Bool
  /-- The time of the latest crossing handed to the Exchange Engine (R11), which anchors cells (R134). -/
  lastHanded : Option Nat
  deriving DecidableEq, Repr

/-- The device timebase states (R15 to R17). -/
inductive TimebaseState where
  | outage
  | settling
  | running
  deriving DecidableEq, Repr

/-- The count status (R19). -/
inductive CountStatus where
  | unconfirmed
  | confirmed
  deriving DecidableEq, Repr

structure Timebase where
  trackers    : PerPhase Tracker
  /-- The line count L (R12). -/
  count       : Count
  /-- The last advance time (R12). -/
  lastAdvance : Nat
  reference   : Option Phase
  /-- The next count advance must lie at least P div 2 after the last advance time (R12, R13). -/
  spacing     : Bool
  state       : TimebaseState
  settle      : Nat
  status      : CountStatus
  beaconTimer : Nat
  beaconDue   : Bool
  cadence     : Nat
  /-- The crystal pattern position: the term of the interval under way (R15). -/
  crystalPos  : Nat
  /-- The length of the crystal interval under way, in µs (R15, R24). -/
  crystalSpan : Nat
  /-- The pattern starts at its first term at the next crystal advance (R24). -/
  crystalRestart : Bool
  deriving DecidableEq, Repr

/-! ## Orders (05_tariff_orders, The order record) -/

/-- The Order Store: orders by position, ascending; the sequence value (R83); the last assigned tag (R85). -/
structure OrderStore where
  orders   : List (Nat × Order)
  sequence : Count
  lastTag  : Nat
  deriving DecidableEq, Repr

/-! ## The Delivery Scheduler (06_delivery_scheduling) -/

/-- The addressed and repeated burst kinds (R120). -/
inductive BurstKind where
  | order
  | revoke
  | poll
  deriving DecidableEq, Repr

/-- A probe as it stands in the queue (R124). -/
structure Probe where
  ticket  : Byte
  index   : Nat
  address : Addr
  viaPath : Bool
  phase   : Option Phase
  deriving DecidableEq, Repr

/-- How an exchange or probe is built (R120 to R122, R125). -/
structure Build where
  kind    : BurstKind
  path    : List Addr
  phase   : Phase
  carrier : CarrierSelection
  level   : Nat
  /-- T, in half-cycles (R43). -/
  span    : Nat
  deriving DecidableEq, Repr

/-- What the hand-over record of a repeat holds: the slot, and the admission number and the state of the order at
the hand-over (06, What the scheduler holds). -/
structure RepeatRecord where
  slot      : Nat
  admission : Count
  revoking  : Bool
  deriving DecidableEq, Repr

/-- What the hand-over record of a delivery holds, with the mark receiver withdrawn (R127). -/
structure DeliveryRecord where
  index     : Nat
  address   : Addr
  slot      : Nat
  tag       : Nat
  admission : Count
  revoking  : Bool
  attempts  : Nat
  build     : Build
  withdrawn : Bool
  deriving DecidableEq, Repr

/-- What the hand-over record of a probe holds, with the mark receiver withdrawn (R127). -/
structure ProbeRecord where
  probe     : Probe
  build     : Build
  withdrawn : Bool
  deriving DecidableEq, Repr

/-- The transmission kinds with what their records hold. -/
inductive HandOverKind where
  | beacon
  | repeats (r : RepeatRecord)
  | delivery (d : DeliveryRecord)
  | probe (p : ProbeRecord)
  deriving DecidableEq, Repr

/-- The record of the transmission in flight. -/
structure HandOver where
  start : Count
  kind  : HandOverKind
  deriving DecidableEq, Repr

structure Scheduler where
  /-- The line hold (R110). -/
  hold     : Nat
  handOver : Option HandOver
  /-- The probe queue, oldest first (R124). -/
  probes   : List Probe
  deriving DecidableEq, Repr

/-! ## The Exchange Engine (07_exchanges_in_flight) -/

inductive EngineState where
  | idle
  | preparing
  | sending
  | relaying
  | listening
  | closing
  deriving DecidableEq, Repr

/-- A burst with its fields (R32, R33, R37, R38, R191). -/
inductive Burst where
  | beacon (station : BitVec 16) (count : Count)
  | order (target : Addr) (tag : Nat) (action : Action) (parameter : Nat) (act16 : BitVec 16) (spread : Nat)
      (path : List Addr)
  | revoke (target : Addr) (tag : Nat) (path : List Addr)
  | poll (target : Addr) (path : List Addr)
  deriving DecidableEq, Repr

/-- What an exchange or probe adds to a transmission (R123, R54). -/
structure ExchangeTimes where
  /-- The hops h. -/
  hops   : Nat
  /-- B(h − 1), 0 when h is 0. -/
  relay  : Nat
  /-- T. -/
  span   : Nat
  /-- W. -/
  window : Nat
  /-- The first node's phase. -/
  first  : Phase
  /-- The low 16 bits of the target's address. -/
  low    : BitVec 16
  deriving DecidableEq, Repr

/-- The transmission handed over (R123). -/
structure Transmission where
  start    : Count
  burst    : Burst
  phases   : PerPhase Bool
  level    : Nat
  carrier  : CarrierSelection
  exchange : Option ExchangeTimes
  /-- The time of the reference crossing at which the decision point was taken (R134). -/
  anchor   : Nat
  deriving DecidableEq, Repr

inductive AbortCause where
  | phaseLost
  | timebase
  | fault
  | reset
  deriving DecidableEq, Repr

/-- A decoded answer (R39, R191). -/
inductive Answer where
  | ack (tag : Byte)
  | refuse (tag : Byte) (reason : Byte)
  | state (cell : Byte) (tags : List Byte)
  deriving DecidableEq, Repr

inductive ExchangeOutcome where
  /-- OK, with the address low bits and the decoded answer (R57). -/
  | ok (low : BitVec 16) (a : Answer)
  | bad
  | none
  | aborted
  deriving DecidableEq, Repr

/-- The outcome the Engine holds: with M, RELAY_HEARD and, for OK, the decoded answer. -/
structure Outcome where
  result     : ExchangeOutcome
  margin     : Nat
  relayHeard : Bool
  deriving DecidableEq, Repr

/-- What the Line Driver reports at the end of a leg (R48), with the level the leg ended at. -/
structure LegReport where
  completed   : Bool
  cells       : Nat
  opening     : Nat
  ending      : Nat
  overCurrent : Bool
  deriving DecidableEq, Repr

/-- A condition of R47 that failed at the opening of a cell window. -/
inductive WithheldCause where
  | phaseNotLocked
  | notRunning
  | unconfirmed
  | driverFault
  deriving DecidableEq, Repr

/-- The Line Driver's report of a withheld cell (R47): its phase, its offset in the leg, and its cause, every condition
that failed, in the order R47 names them. -/
structure WithheldCell where
  phase  : Phase
  offset : Nat
  causes : List WithheldCause
  deriving DecidableEq, Repr

structure Engine where
  state        : EngineState
  transmission : Option Transmission
  live         : PerPhase Bool
  /-- For each phase, the crossings handed on since the one that anchors the lead cell, that one included:
  the offset under way on the phase is one less (R134). -/
  seen         : PerPhase Nat
  /-- For each phase, the value of `seen` at its latest cell window. -/
  opened       : PerPhase Nat
  /-- The signed sum of COUNT_SET moves taken since the hand-over (R134). -/
  displacement : Int
  folded       : Bool
  abortCause   : Option AbortCause
  outcome      : Option Outcome
  report       : Option LegReport
  /-- The withheld cells reported since the hand-over, oldest first (R47). -/
  withheld     : List WithheldCell
  deriving DecidableEq, Repr

/-! ## Carrier Generator, Line Driver, Answer Receiver (03) -/

structure CarrierGenerator where
  selection : CarrierSelection
  latched   : Nat
  deriving DecidableEq, Repr

/-- The leg in progress (R46, R48). -/
structure OpenLeg where
  phases      : PerPhase Bool
  opening     : Nat
  /-- The offsets whose cell has been sent on some phase, latest first. -/
  sent        : List Nat
  overCurrent : Bool
  deriving DecidableEq, Repr

/-- A cell window in which a cell is sent: when it opens, in µs, and what the coupling output carries while it is open,
the nine symbols (R27) at a level on a divider. -/
structure CellWindow where
  opens    : Nat
  symbols  : BitVec 9
  level    : Nat
  divider  : Nat
  /-- An over-current was reported in it (R49). -/
  reported : Bool
  deriving DecidableEq, Repr

inductive DriverState where
  | ready
  | fault
  deriving DecidableEq, Repr

structure LineDriver where
  buffer   : Nat
  legLevel : Nat
  openLeg  : Option OpenLeg
  /-- LEVEL_CAP. -/
  cap      : Nat
  recovery : Nat
  /-- The over-current history, oldest first; true for a marked leg. -/
  history  : List Bool
  state    : DriverState
  cool     : Nat
  /-- The latest cell window of the open leg in which a cell is sent on each phase: the coupling output carries the cell
  while it is open and is quiet otherwise (R26, R47). -/
  windows  : PerPhase (Option CellWindow)
  deriving DecidableEq, Repr

inductive ReceiverMode where
  | idle
  | armed
  | relayWatch
  | answerWindow
  deriving DecidableEq, Repr

structure AnswerReceiver where
  mode       : ReceiverMode
  phase      : Option Phase
  /-- The listening divider. -/
  divider    : Nat
  /-- The noise floor, as the sum of the two gap windows' energies, twice their mean (R55). -/
  floor2     : Option Nat
  relayHeard : Bool
  deriving DecidableEq, Repr

/-! ## The Retained Store (08_retained_store) -/

/-- What a record write lays down (R155). -/
inductive WriteContent where
  | config (r : ConfigRecord)
  /-- The saved count; absent for L as it stands when the write begins (R160). -/
  | savedCount (c : Option Count)
  | order (n : Nat) (o : Option Order)
  | receiver (n : Nat) (r : Option Receiver)
  deriving DecidableEq, Repr

/-- A write asked and not yet made; the write of a damaged form is not verified (R156). -/
structure PendingWrite where
  content : WriteContent
  verify  : Bool
  deriving DecidableEq, Repr

/-- A WIPE in progress: one a RESET asked for, or one resumed at power-on (R164, R166). -/
inductive WipeState where
  | requested
  | resumed
  deriving DecidableEq, Repr

structure RetainedStore where
  /-- The 16 words of the configuration. -/
  config      : Words
  /-- The word of the saved count. -/
  savedCount  : Words
  /-- The order positions whose 32 words are not all zeros with their check bits, ascending. -/
  orders      : List (Nat × Words)
  /-- The receiver positions whose 32 words are not all zeros with their check bits, ascending. -/
  receivers   : List (Nat × Words)
  /-- The pending write list, then the writes that wait for room in it, oldest first (R155). -/
  writes      : List PendingWrite
  corrections : Nat
  /-- The scrub pointer: 0 configuration, 1 saved count, 2..33 orders, 34..545 receivers (R157). -/
  scrubNext   : Nat
  scrubPace   : Nat
  /-- Scrub reads that wait their turn at the port (R157). -/
  scrubDue    : Nat
  wiping      : Option WipeState
  /-- The power-on restore is in progress (R162). -/
  restoring   : Bool
  deriving DecidableEq, Repr

/-! ## The Host Link (09_the_host_link) -/

inductive ReceiveState where
  | hunt
  | length
  | kind
  | ticket
  | body
  | crcHigh
  | crcLow
  deriving DecidableEq, Repr

/-- A complete request record (R171). -/
structure Request where
  kind   : Byte
  ticket : Byte
  body   : List Byte
  deriving DecidableEq, Repr

/-- What happens at the end of the last stop bit of a record sent (R184 to R186, R159). -/
inductive AfterSent where
  | nothing
  | rate (r : LinkRate)
  | softReset
  | wipeDone
  deriving DecidableEq, Repr

/-- A reply made and not yet begun. -/
structure Reply where
  kind   : Byte
  ticket : Byte
  body   : List Byte
  /-- A reply to a taken request; false for an OVERRUN reply (R171). -/
  taken  : Bool
  after  : AfterSent
  deriving DecidableEq, Repr

/-- A notice in the queue: the flags byte without the LOST flag, and the fields after it (R190). -/
structure Notice where
  kind   : NoticeKind
  urgent : Bool
  flags  : Byte
  fields : List Byte
  after  : AfterSent
  deriving DecidableEq, Repr

/-- The link counters (R170, R171). -/
structure LinkCounters where
  crc        : Nat
  gap        : Nat
  length     : Nat
  framing    : Nat
  unanswered : Nat
  deriving DecidableEq, Repr

/-- The record being sent: its characters and what follows it. -/
structure Sending where
  chars : List Character
  after : AfterSent
  deriving DecidableEq, Repr

structure HostLink where
  /-- The link rate in force. -/
  rate     : LinkRate
  receive  : ReceiveState
  /-- The bytes received since the last start mark taken. -/
  assembly : List Byte
  buffer   : List Request
  inHand   : Option Request
  replies  : List Reply
  queue    : List Notice
  lost     : Bool
  counters : LinkCounters
  sending  : Option Sending
  deriving DecidableEq, Repr

/-! ## The whole part -/

/-- The steps a count advance owes and that its own command makes: the end of settling (R17), the expiry of
the beacon timer (R22), the activation step over these positions in store order (R92), and the decision
(R111). The MODEL's own field: notes/assumptions/2.md. -/
structure Owed where
  settleEnd  : Bool
  beacon     : Bool
  activation : List Nat
  decision   : Bool
  deriving DecidableEq, Repr

/-- The state of the TL3. -/
structure State where
  /-- The supply stands above its working threshold (R156). -/
  powered : Bool
  params  : Params
  tb      : Timebase
  orders  : OrderStore
  /-- The Receiver Table by index, ascending. -/
  table   : List (Nat × Receiver)
  sched   : Scheduler
  engine  : Engine
  carrier : CarrierGenerator
  driver  : LineDriver
  answer  : AnswerReceiver
  store   : RetainedStore
  link    : HostLink
  owed    : Owed
  /-- The MODEL's own field: the number of free values used so far (notes/assumptions/7.md). -/
  freeUses : Nat
  /-- The commands that wait, first in first out. -/
  pending : List Instr
  deriving DecidableEq, Repr

/-- The reasons a step stops with a fault: there is none. No step of the part stops it, and no meaning of this
model answers with a fault (safe: the type has no value). -/
inductive Fault where
  deriving DecidableEq, Repr

/-- The reasons a command is refused. -/
inductive Refusal where
  /-- Raised by exec alone, for a command whose meaning is not written; safe. No arm raises it now. -/
  | notModelled (mnemonic : String)
  deriving DecidableEq, Repr

/-! ## After reset -/

/-- A tracker after power-on, with the nominal period P (01, the state table; R25). -/
def Tracker.powerOn (period : Nat) : Tracker where
  settled := none
  state := .absent
  period := period
  last := none
  lastFull := none
  acquire := 0
  silence := 0
  miss := 0
  ret := 0
  coast := 0
  ignoreNext := false
  derivedDue := false
  lastHanded := none

/-- The Timebase after power-on, with the nominal period and the restored count (R25, R19). -/
def Timebase.powerOn (period : Nat) (count : Count) : Timebase where
  trackers := .const (Tracker.powerOn period)
  count := count
  lastAdvance := 0
  reference := none
  spacing := true
  state := .outage
  settle := 0
  status := .unconfirmed
  beaconTimer := 0
  beaconDue := false
  cadence := 0
  crystalPos := 0
  crystalSpan := period
  crystalRestart := false

/-- The Scheduler after power-on (R133). -/
def Scheduler.powerOn : Scheduler := ⟨Config.powerOnHold, none, []⟩

/-- The Engine after power-on (R150). -/
def Engine.powerOn : Engine where
  state := .idle
  transmission := none
  live := .const false
  seen := .const 0
  opened := .const 0
  displacement := 0
  folded := false
  abortCause := none
  outcome := none
  report := none
  withheld := []

/-- The Line Driver after power-on, with LEVEL_MAX (R60). -/
def LineDriver.powerOn (levelMax : Nat) : LineDriver where
  buffer := 0
  legLevel := 0
  openLeg := none
  cap := levelMax
  recovery := 0
  history := []
  state := .ready
  cool := 0
  windows := .const none

/-- The Answer Receiver after power-on, with the primary divider (R60). -/
def AnswerReceiver.powerOn (divider : Nat) : AnswerReceiver := ⟨.idle, none, divider, none, false⟩

/-- The Host Link after power-on, at a link rate (R187). -/
def HostLink.powerOn (rate : LinkRate) : HostLink where
  rate := rate
  receive := .hunt
  assembly := []
  buffer := []
  inHand := none
  replies := []
  queue := []
  lost := false
  counters := ⟨0, 0, 0, 0, 0⟩
  sending := none

/-- Nothing owed. -/
def Owed.nothing : Owed := ⟨false, false, [], false⟩

/-- The store as the model takes it to leave the factory: the configuration at the defaults, the saved count
0, every other position empty, no word in error. DESIGN CHOICE, notes/assumptions/6.md. -/
def RetainedStore.factory : RetainedStore where
  config := wordsOf (configNumbers ⟨.default, false⟩)
  savedCount := wordsOf (countNumbers 0)
  orders := []
  receivers := []
  writes := []
  corrections := 0
  scrubNext := 0
  scrubPace := 0
  scrubDue := 0
  wiping := none
  restoring := true

/-- The COUNT_UNCONFIRMED notice of an undamaged power-on with the saved count 0 (R180, R187). -/
def Notice.firstPowerOn : Notice := ⟨.countUnconfirmed, true, 0, [0, 0, 0, 0], .nothing⟩

/-- The part right after power-on reset over the factory store: every block at its power-on value, every
position read, and the restore not yet complete (R162). -/
def State.reset : State where
  powered := true
  params := .default
  tb := .powerOn 10000 0
  orders := ⟨[], 0, 0⟩
  table := []
  sched := .powerOn
  engine := .powerOn
  carrier := ⟨.primary, 99⟩
  driver := .powerOn 24
  answer := .powerOn 99
  store := .factory
  link := { HostLink.powerOn .r57600 with queue := [.firstPowerOn] }
  owed := .nothing
  freeUses := 0
  pending := []

end Sys2Proof.Machine
end

