-- ==== Sys2Proof/Machine/Bytes.lean ====
section
/-! DEFINITION. Bytes: the byte order of multi-byte values (00_scope, Byte order), the characters that carry them on the
host link (R168), the CRC of R29 and R191, and the codes of 10_record_and_cell_formats.md, Codes, that no record holds. -/

namespace Sys2Proof.Machine

/-- The `n` bytes of a value, most significant first (00_scope, Byte order). -/
def bytesOf : Nat → Nat → List Byte
  | 0, _ => []
  | n + 1, v => BitVec.ofNat 8 (v / 256 ^ n) :: bytesOf n v

/-- The value of bytes, most significant first. -/
def ofBytes (l : List Byte) : Nat := l.foldl (fun acc b => acc * 256 + b.toNat) 0

def countBytes (c : Count) : List Byte := bytesOf 4 c.toNat
def addrBytes (a : Addr) : List Byte := bytesOf 3 a.toNat

/-- The character of a byte: a low start bit, the data bits from the least significant on, a high stop bit (R168). -/
def charOf (b : Byte) : Character := 1#1 ++ b ++ 0#1

/-- The data bits of a character. -/
def dataOfChar (ch : Character) : Byte := ch.extractLsb' 1 8

/-- A framing error: the stop bit is found low (R168). -/
def framingError (ch : Character) : Bool := !ch.getLsbD 9

/-- One bit into the CRC register: shifted left, and combined with 0x1021 when the bit shifted out differs
from the data bit (R191). -/
def crcBit (reg : BitVec 16) (bit : Bool) : BitVec 16 :=
  if reg.msb = bit then reg <<< 1 else (reg <<< 1) ^^^ 0x1021

/-- One byte into the CRC register, most significant bit first (R29). -/
def crcByte (reg : BitVec 16) (b : Byte) : BitVec 16 :=
  [7, 6, 5, 4, 3, 2, 1, 0].foldl (fun r i => crcBit r (b.getLsbD i)) reg

/-- The CRC of R29: the register starts at 0xFFFF and nothing is added at the end. -/
def crc (l : List Byte) : BitVec 16 := l.foldl crcByte 0xFFFF

/-- The CRC as sent, high byte first (R29). -/
def crcBytes (l : List Byte) : List Byte := bytesOf 2 (crc l).toNat

/-! ## Codes -/

def boolCode (b : Bool) : Byte := if b then 1 else 0

/-- The outcome code WITHDRAWN, which only an ORDER_CANCEL reply carries (R100). -/
def withdrawnCode : Byte := 8

def trackerCode : TrackerState → Byte
  | .absent => 0
  | .acquiring => 1
  | .locked => 2
  | .coasting => 3

def timebaseCode : TimebaseState → Byte
  | .outage => 0
  | .settling => 1
  | .running => 2

def statusCode : CountStatus → Byte
  | .unconfirmed => 0
  | .confirmed => 1

def handOverCode : Option HandOverKind → Byte
  | none => 0
  | some .beacon => 1
  | some (.repeats _) => 2
  | some (.delivery _) => 3
  | some (.probe _) => 4

def burstCode : BurstKind → Byte
  | .order => 1
  | .revoke => 2
  | .poll => 3

def exchangeOutcomeCode : ExchangeOutcome → Byte
  | .ok _ _ => 1
  | .bad => 2
  | .none => 3
  | .aborted => 4

def abortCode : Option AbortCause → Byte
  | none => 0
  | some .phaseLost => 1
  | some .timebase => 2
  | some .fault => 3
  | some .reset => 4

def engineCode : EngineState → Byte
  | .idle => 0
  | .preparing => 1
  | .sending => 2
  | .relaying => 3
  | .listening => 4
  | .closing => 5

def driverCode : DriverState → Byte
  | .ready => 0
  | .fault => 1

def noticeCode : NoticeKind → Byte
  | .orderActive => 0x41
  | .orderClosed => 0x42
  | .delivery => 0x43
  | .probeDone => 0x44
  | .timebase => 0x45
  | .countUnconfirmed => 0x46
  | .driver => 0x47
  | .store => 0x48
  | .link => 0x49

/-- The result codes of a reply (R172). -/
inductive ResultCode where
  | ok
  | badFormat
  | unknownKind
  | range
  | full
  | conflict
  | tooLate
  | notFound
  | busy
  | state
  | overrun
  deriving DecidableEq, Repr

def resultByte : ResultCode → Byte
  | .ok => 0
  | .badFormat => 1
  | .unknownKind => 2
  | .range => 3
  | .full => 4
  | .conflict => 5
  | .tooLate => 6
  | .notFound => 7
  | .busy => 8
  | .state => 9
  | .overrun => 10

/-- Two addresses of a path, unused ones 0 (R188, R190). -/
def pathBytes (path : List Addr) : List Byte :=
  addrBytes (path.getD 0 0) ++ addrBytes (path.getD 1 0)

/-- The state cell of a STATE answer (R191). -/
def stateCell (r : ReportedState) : Byte :=
  byteOf (r.tariff + (if r.load1 then 16 else 0) + (if r.load2 then 32 else 0))

end Sys2Proof.Machine
end

