-- ==== Sys2Proof/Machine/Keyed.lean ====
section
/-! DEFINITION. Sparse data by position: lists of (position, value) with the positions strictly rising, the
one form in which the Order Store, the Receiver Table and the Retained Store's positions are held. -/

namespace Sys2Proof.Machine

/-- The value at a position, if one is listed. -/
def lookup {α : Type} : List (Nat × α) → Nat → Option α
  | [], _ => none
  | (k, v) :: rest, n => if k = n then some v else lookup rest n

/-- The list with a value listed at a position, in place of any listed there before. -/
def insertAt {α : Type} : List (Nat × α) → Nat → α → List (Nat × α)
  | [], n, v => [(n, v)]
  | (k, w) :: rest, n, v =>
    if n < k then (n, v) :: (k, w) :: rest
    else if n = k then (n, v) :: rest
    else (k, w) :: insertAt rest n v

/-- The list with nothing listed at a position. -/
def eraseAt {α : Type} : List (Nat × α) → Nat → List (Nat × α)
  | [], _ => []
  | (k, w) :: rest, n => if k = n then rest else (k, w) :: eraseAt rest n

/-- Every value listed put through a function of its position and value. -/
def mapAll {α β : Type} (f : Nat → α → β) (l : List (Nat × α)) : List (Nat × β) :=
  l.map fun kv => (kv.1, f kv.1 kv.2)

/-- The lowest position from `n` on that a rising list does not list. -/
def lowestFree {α : Type} : List (Nat × α) → Nat → Nat
  | [], n => n
  | (k, _) :: rest, n => if k = n then lowestFree rest (n + 1) else n

/-- The canonical form: positions strictly rising. -/
def rising {α : Type} (l : List (Nat × α)) : Bool :=
  decide ((l.map Prod.fst).Pairwise (· < ·))

end Sys2Proof.Machine
end

