-- ==== Sys2Proof/Machine/Ops.lean ====
section
/-! DEFINITION. The shared operations over the state: comparing counts, queuing notices, asking for writes,
reading and changing orders, receivers and delivery entries. Meanings are written over these. -/

namespace Sys2Proof.Machine

/-! ## Counts -/

/-- d(X, L): the 32-bit difference X − L read as a signed number (00_scope, Comparing counts). -/
def dist (x l : Count) : Int := (x - l).toInt

/-- The count written c + k (00_scope, Comparing counts). -/
def later (c : Count) (k : Nat) : Count := c + BitVec.ofNat 32 k

/-- A counter that holds at 65,535 (R96, R154, R170). -/
def bump (c n : Nat) : Nat := min Config.counterMax (c + n)

/-! ## Small readings of the state -/

def State.count (s : State) : Count := s.tb.count
def State.tracker (s : State) (p : Phase) : Tracker := s.tb.trackers.get p

/-- The tracker state of a phase is LOCKED. -/
def State.locked (s : State) (p : Phase) : Bool := (s.tracker p).state == .locked

/-- A tracker LOCKED or COASTING. -/
def Tracker.tracked (t : Tracker) : Bool := t.state == .locked || t.state == .coasting

/-- Some phase is LOCKED. -/
def State.anyLocked (s : State) : Bool := Phase.all.any s.locked

/-- The phases LOCKED now. -/
def State.lockedPhases (s : State) : PerPhase Bool := ⟨s.locked .l1, s.locked .l2, s.locked .l3⟩

/-- The state with one tracker replaced. -/
def State.setTracker (s : State) (p : Phase) (t : Tracker) : State :=
  { s with tb := { s.tb with trackers := s.tb.trackers.set p t } }

/-- The count is CONFIRMED. -/
def State.confirmed (s : State) : Bool := s.tb.status == .confirmed

/-! ## Notices (R174, R175) -/

def NoticeLevels.get (l : NoticeLevels) : NoticeKind → NoticeLevel
  | .orderActive => l.orderActive
  | .orderClosed => l.orderClosed
  | .delivery => l.delivery
  | .probeDone => l.probeDone
  | .timebase => l.timebase
  | .countUnconfirmed => l.countUnconfirmed
  | .driver => l.driver
  | .store => l.store
  | .link => l.link

def NoticeLevels.set (l : NoticeLevels) (k : NoticeKind) (v : NoticeLevel) : NoticeLevels :=
  match k with
  | .orderActive => { l with orderActive := v }
  | .orderClosed => { l with orderClosed := v }
  | .delivery => { l with delivery := v }
  | .probeDone => { l with probeDone := v }
  | .timebase => { l with timebase := v }
  | .countUnconfirmed => { l with countUnconfirmed := v }
  | .driver => { l with driver := v }
  | .store => { l with store := v }
  | .link => { l with link := v }

/-- A notice put in its place in a queue with room: after the last urgent one if it is urgent, at the end if
it is normal (R174). -/
def insertNotice (n : Notice) (q : List Notice) : List Notice :=
  if n.urgent then q.takeWhile (·.urgent) ++ n :: q.dropWhile (·.urgent) else q ++ [n]

/-- A full queue without its newest normal notice (R175). -/
def dropNewestNormal (q : List Notice) : List Notice := (q.reverse.eraseP (!·.urgent)).reverse

/-- Whether the queue takes a notice of this urgency (R175). -/
def queueTakes (urgent : Bool) (q : List Notice) : Bool :=
  decide (q.length < Config.queueLimit) || (urgent && q.any (!·.urgent))

/-- A notice of level 1 or 2 into the queue, with what a full queue loses (R174, R175). -/
def placeNotice (n : Notice) (l : HostLink) : HostLink :=
  if l.queue.length < Config.queueLimit then { l with queue := insertNotice n l.queue }
  else if queueTakes n.urgent l.queue then
    { l with queue := insertNotice n (dropNewestNormal l.queue), lost := true }
  else { l with lost := true }

/-- Queue a notice at the level NOTICE_LEVELS gives its kind; at level 0 nothing follows (R174). `after` is
what the end of its sending brings about. -/
def queueNoticeThen (k : NoticeKind) (flags : Byte) (fields : List Byte) (after : AfterSent) (s : State) :
    State :=
  match s.params.levels.get k with
  | .off => s
  | .normal => { s with link := placeNotice ⟨k, false, flags, fields, after⟩ s.link }
  | .urgent => { s with link := placeNotice ⟨k, true, flags, fields, after⟩ s.link }

/-- Queue a notice that nothing follows. -/
def queueNotice (k : NoticeKind) (flags : Byte) (fields : List Byte) (s : State) : State :=
  queueNoticeThen k flags fields .nothing s

/-! ## Writes asked of the Retained Store (R155) -/

/-- Ask for a write, with its content as it stands. During a WIPE no write is listed (R164). -/
def askWrite (c : WriteContent) (verify : Bool) (s : State) : State :=
  if s.store.wiping.isSome then s
  else { s with store := { s.store with writes := s.store.writes ++ [⟨c, verify⟩] } }

def askConfig (s : State) : State := askWrite (.config ⟨s.params, false⟩) true s
def askSavedCount (s : State) : State := askWrite (.savedCount (some s.count)) true s

/-! ## Orders -/

/-- What the order holds while it is ACTIVE or REVOKING. -/
def Order.fields (o : Order) : Option SlotFields :=
  match o.state with
  | .pending => none
  | .active f => some f
  | .revoking f => some f
  | .closed _ _ => none

def Order.isPending (o : Order) : Bool :=
  match o.state with
  | .pending => true
  | .active _ => false
  | .revoking _ => false
  | .closed _ _ => false

def Order.isActive (o : Order) : Bool :=
  match o.state with
  | .pending => false
  | .active _ => true
  | .revoking _ => false
  | .closed _ _ => false

def Order.isRevoking (o : Order) : Bool :=
  match o.state with
  | .pending => false
  | .active _ => false
  | .revoking _ => true
  | .closed _ _ => false

def Order.isClosed (o : Order) : Bool :=
  match o.state with
  | .pending => false
  | .active _ => false
  | .revoking _ => false
  | .closed _ _ => true

/-- The close number of a CLOSED order. -/
def Order.closeNumber (o : Order) : Option Count :=
  match o.state with
  | .pending => none
  | .active _ => none
  | .revoking _ => none
  | .closed n _ => some n

/-- The order with its slot fields put through a function. -/
def Order.mapFields (o : Order) (g : SlotFields → SlotFields) : Order :=
  match o.state with
  | .pending => o
  | .active f => { o with state := .active (g f) }
  | .revoking f => { o with state := .revoking (g f) }
  | .closed _ _ => o

/-- The order holds this slot. -/
def Order.holds (o : Order) (k : Nat) : Bool := o.fields.any (·.slot == k)

/-- Repeats are still owed: repeats less repeats sent, none once abandoned (05, The order record). -/
def Order.owesRepeat (o : Order) : Bool :=
  o.fields.any fun f => !f.abandoned && decide (f.sent < o.repeats)

def State.order (s : State) (n : Nat) : Option Order := lookup s.orders.orders n

/-- The position and the order that hold a slot. -/
def State.orderInSlot (s : State) (k : Nat) : Option (Nat × Order) :=
  s.orders.orders.find? fun no => no.2.holds k

/-- The order at a position replaced in the working copy. -/
def State.setOrder (s : State) (n : Nat) (o : Order) : State :=
  { s with orders := { s.orders with orders := insertAt s.orders.orders n o } }

/-- The order at a position replaced, and the write of its position asked (R83). -/
def putOrder (n : Nat) (o : Order) (s : State) : State :=
  askWrite (.order n (some o)) true (s.setOrder n o)

/-- The order at a position removed, and the write of the empty position asked. -/
def dropOrder (n : Nat) (s : State) : State :=
  askWrite (.order n none) true
    { s with orders := { s.orders with orders := eraseAt s.orders.orders n } }

/-- The order at a position put through a function, if one is there. -/
def changeOrder (n : Nat) (g : Order → Order) (s : State) : State :=
  match s.order n with
  | none => s
  | some o => putOrder n (g o) s

/-- The state with the sequence value raised by one (R83). -/
def bumpSequence (s : State) : State :=
  { s with orders := { s.orders with sequence := s.orders.sequence + 1 } }

/-- The lowest slot that no order holds (R92). -/
def State.freeSlot (s : State) : Option Nat :=
  (List.range Config.slots).find? fun k => (s.orderInSlot k).isNone

/-- The positions and orders that hold slots, in ascending slot order. -/
def State.slotOrders (s : State) : List (Nat × Order) :=
  (List.range Config.slots).filterMap s.orderInSlot

/-- The store order (R84): by activation count through d(A, L), then by admission number. An order whose
activation count could not be read (R106) ranks after the others, and a DAMAGED order whose admission number could not be
read ranks among its equals as 0: DESIGN CHOICE, notes/assumptions/14.md. -/
def ranksBefore (l : Count) (a b : Order) : Bool :=
  match decide (OrderField.activation ∈ a.unreadable), decide (OrderField.activation ∈ b.unreadable) with
  | false, true => true
  | true, false => false
  | true, true => decide (dist a.admission b.admission < 0)
  | false, false =>
    decide (dist a.activation l < dist b.activation l) ||
      (decide (dist a.activation l = dist b.activation l) && decide (dist a.admission b.admission < 0))

/-- An order put in its place in a list in store order. -/
def insertRanked (l : Count) (x : Nat × Order) : List (Nat × Order) → List (Nat × Order)
  | [] => [x]
  | y :: rest => if ranksBefore l x.2 y.2 then x :: y :: rest else y :: insertRanked l x rest

/-- The stored orders in store order (R84). -/
def State.storeOrder (s : State) : List (Nat × Order) :=
  s.orders.orders.foldl (fun acc x => insertRanked s.count x acc) []

/-! ## Receivers and delivery entries -/

def State.receiver (s : State) (i : Nat) : Option Receiver := lookup s.table i

/-- The index and record that hold an address (R62). -/
def State.receiverAt (s : State) (a : Addr) : Option (Nat × Receiver) :=
  s.table.find? fun ir => ir.2.address == some a

def State.setReceiver (s : State) (i : Nat) (r : Receiver) : State :=
  { s with table := insertAt s.table i r }

/-- The record at an index replaced, and the write of its position asked (R62). -/
def putReceiver (i : Nat) (r : Receiver) (s : State) : State :=
  askWrite (.receiver i (some r)) true (s.setReceiver i r)

/-- The records that `sel` chooses put through `g`, each written, in ascending index order. -/
def changeReceivers (sel : Nat → Receiver → Bool) (g : Nat → Receiver → Receiver) (s : State) : State :=
  let asked := (s.table.filter fun ir => sel ir.1 ir.2).map fun ir =>
    (⟨.receiver ir.1 (some (g ir.1 ir.2)), true⟩ : PendingWrite)
  let s' := { s with table := mapAll (fun i r => if sel i r then g i r else r) s.table }
  if s.store.wiping.isSome then s'
  else { s' with store := { s'.store with writes := s'.store.writes ++ asked } }

/-- The record's list holds an entry for the slot. -/
def Receiver.lists (r : Receiver) (k : Nat) : Bool := r.entries.any (·.slot == k)

/-- The entry for a slot, if the list holds one. -/
def Receiver.entryFor (r : Receiver) (k : Nat) : Option Entry := r.entries.find? (·.slot == k)

/-- The record without its entries for a slot; the entries behind close up (R65). -/
def Receiver.dropEntry (r : Receiver) (k : Nat) : Receiver :=
  { r with entries := r.entries.filter (·.slot != k) }

/-- The record with its entry for a slot put through a function. -/
def Receiver.mapEntry (r : Receiver) (k : Nat) (g : Entry → Entry) : Receiver :=
  { r with entries := r.entries.map fun e => if e.slot = k then g e else e }

/-- The record given a fresh entry for a slot at the end of its list, any older one removed (R65). -/
def Receiver.giveEntry (r : Receiver) (k : Nat) (l : Count) : Receiver :=
  { r with entries := r.entries.filter (·.slot != k) ++ [⟨k, 0, l, .noneYet⟩] }

/-- The number of entries across the table that name a slot (R81, R103). -/
def State.entriesNaming (s : State) (k : Nat) : Nat :=
  (s.table.map fun ir => ir.2.entries.countP (·.slot == k)).sum

/-- Every entry naming the slot removed from the lists, each record written, ascending (R96, R100). -/
def dropSlotEntries (k : Nat) (s : State) : State :=
  changeReceivers (fun _ r => r.lists k) (fun _ r => r.dropEntry k) s

/-- A NORMAL record in the target (R63). -/
def inTarget (t : Target) (r : Receiver) : Bool :=
  !r.damaged &&
    match t with
    | .all => true
    | .group g => decide (g ∈ r.groups)
    | .single a => r.address == some a

/-- A path member that R64 lets a path use: NORMAL with a known phase. -/
def State.relay (s : State) (a : Addr) : Bool :=
  (s.receiverAt a).any fun ir => !ir.2.damaged && ir.2.phase.isSome

/-- The record's path when it is usable (R64). -/
def State.usablePath (s : State) (r : Receiver) : Option (List Addr) :=
  match r.path with
  | none => none
  | some p => if !r.stale && p.all s.relay then some p else none

/-! ## Accounts -/

/-- The sum of an account's five outcome counters (R96). -/
def Counters.outcomes (c : Counters) : Nat := c.confirmed + c.refused + c.exhausted + c.late + c.dropped

def Counters.zero : Counters := ⟨0, 0, 0, 0, 0, 0⟩

/-- An account balanced against the entries that remain (R81). -/
def Counters.reconcile (c : Counters) (entries : Nat) : Counters :=
  let known := c.outcomes + entries
  if known < c.targeted then { c with dropped := bump c.dropped (c.targeted - known) }
  else { c with targeted := bump c.targeted (known - c.targeted) }

/-- The order in a slot reconciled, and written if its account changed (R81). -/
def reconcileSlot (s : State) (k : Nat) : State :=
  match s.orderInSlot k with
  | none => s
  | some (n, o) =>
    let c := o.counters.reconcile (s.entriesNaming k)
    if c = o.counters then s else putOrder n { o with counters := c } s

/-- Every ACTIVE and REVOKING order reconciled, in ascending slot order (R81). -/
def reconcileAll (s : State) : State := (List.range Config.slots).foldl reconcileSlot s

/-! ## Commands that cannot occur -/

/-- The outcome of a command: what it does when its step can occur, the state unchanged when it cannot
(notes/assumptions/1.md). -/
def when (can : Bool) (s t : State) : Host.Outcome State Fault Refusal := .next (if can then t else s)

/-- The part is powered and past the restore of R162. -/
def State.working (s : State) : Bool := s.powered && !s.store.restoring

end Sys2Proof.Machine
end

