-- ==== Sys2Proof/Machine/Flags.lean ====
section
/-! DEFINITION. The two output lines beside the link, as the state fixes them at every moment: RDY (R171) and ATTN
(R178). They hold no state of their own. -/

namespace Sys2Proof.Machine

/-- RDY is asserted: the request buffer holds fewer than four requests (R171). -/
def State.rdy (s : State) : Bool := decide (s.link.buffer.length < Config.bufferLimit)

/-- ATTN is asserted: the notice queue holds an urgent notice, or any notice in HELD mode (R178). -/
def State.attn (s : State) : Bool :=
  s.link.queue.any (·.urgent) || (s.params.noticeMode == .held && !s.link.queue.isEmpty)

end Sys2Proof.Machine
end

