-- ==== Sys2Proof/Machine/Cells.lean ====
section
/-! DEFINITION. Cells, legs and answers on the line: symbols and tones (R27, R44), the cells of a burst and
the lengths of legs (R28, R43, R191), and what the Answer Receiver makes of what it hears (R30, R55 to R57). -/

namespace Sys2Proof.Machine

/-! ## Symbols, tones and the carrier -/

/-- The nine symbols of the lead cell: alternating, beginning and ending with the upper tone (R28). Bit k is
the k-th symbol sent. -/
def leadSymbols : BitVec 9 := 0x155

/-- The number of ones among the low `n` bits. -/
def ones {w : Nat} (n : Nat) (b : BitVec w) : Nat := ((List.range n).map fun i => (b.getLsbD i).toNat).sum

/-- The nine symbols of a data cell: the bits of the byte, least significant first, then the parity bit that
makes the number of ones even (R27). -/
def dataSymbols (b : Byte) : BitVec 9 :=
  BitVec.ofNat 9 (b.toNat + 256 * (ones 8 b % 2))

/-- The data byte of nine symbols whose parity is good (R27, R30). -/
def dataOfSymbols (x : BitVec 9) : Option Byte :=
  if ones 9 x % 2 = 0 then some (BitVec.ofNat 8 x.toNat) else none

/-- The carrier of a divider in whole hertz, truncated (R44). -/
def carrierHz (d : Nat) : Nat := 16000000 / (2 * (d + 1))

/-- The upper tone, which sends a one (R27, R44). -/
def upperTone (d : Nat) : Nat := carrierHz d + carrierHz d / 32

/-- The lower tone, which sends a zero (R27, R44). -/
def lowerTone (d : Nat) : Nat := carrierHz d - carrierHz d / 32

/-- The tone that sends a symbol on the carrier of a divider, in hertz (R27). -/
def toneOf (d : Nat) (one : Bool) : Nat := if one then upperTone d else lowerTone d

/-- The tones of nine symbols on the carrier of a divider, in the order sent, in hertz. -/
def tonesOf (d : Nat) (x : BitVec 9) : List Nat := (List.range 9).map fun i => toneOf d (x.getLsbD i)

/-- The number, from 0, of the symbol sent `t` µs into a cell window: nine symbols of equal length, each one ninth of the
window (R27). -/
def symbolNumber (t : Nat) : Nat := 9 * t / Config.windowLength

/-! ## Lengths -/

/-- The cells of an addressed burst with h hops remaining: B(h) (R28). -/
def burstCells : BurstKind → Nat → Nat
  | .order, h => 12 + 3 * h
  | .revoke, h => 8 + 3 * h
  | .poll, h => 7 + 3 * h

/-- The answer slot W (R40). -/
def answerSlot : BurstKind → Nat
  | .order => 8
  | .revoke => 8
  | .poll => 12

/-- T, the half-cycles an exchange with h hops occupies (R43). -/
def exchangeSpan (k : BurstKind) (h : Nat) : Nat :=
  ((List.range (h + 1)).map (burstCells k)).sum + (h + 1) * answerSlot k + (2 * h + 1) * Config.gap

/-- The span of a repeat: its cells and one gap (R43). -/
def repeatSpan (k : BurstKind) : Nat := burstCells k 0 + Config.gap

/-- The span of a beacon (R43). -/
def beaconSpan : Nat := 10 + Config.gap

/-! ## Bursts -/

/-- The path of a burst. -/
def Burst.path : Burst → List Addr
  | .beacon _ _ => []
  | .order _ _ _ _ _ _ path => path
  | .revoke _ _ path => path
  | .poll _ path => path

/-- The action and parameter cell: the action in the upper four bits (R33, R191). -/
def actionCell (a : Action) (parameter : Nat) : Byte := byteOf ((actionCode a).toNat * 16 + parameter % 16)

/-- The kind cell of a burst: the kind in the upper four bits and h in the lower four (R191). -/
def kindCell (code h : Nat) : Byte := byteOf (code * 16 + h)

/-- The data cells of a burst after the lead cell and before the CRC (R191). -/
def Burst.fields : Burst → List Byte
  | .beacon station count => kindCell 1 0 :: (bytesOf 2 station.toNat ++ countBytes count)
  | .order target tag action parameter act16 spread path =>
    kindCell 2 path.length :: (addrBytes target ++ [byteOf tag, actionCell action parameter] ++
      bytesOf 2 act16.toNat ++ [byteOf (spread % 16)] ++ (path.map addrBytes).flatten)
  | .revoke target tag path =>
    kindCell 3 path.length :: (addrBytes target ++ [byteOf tag] ++ (path.map addrBytes).flatten)
  | .poll target path => kindCell 4 path.length :: (addrBytes target ++ (path.map addrBytes).flatten)

/-- The data cells of a burst with the CRC cells at the end (R29, R191). -/
def Burst.cells (b : Burst) : List Byte := b.fields ++ crcBytes b.fields

/-- The number of cells of a burst, the lead cell included. -/
def Burst.length (b : Burst) : Nat := b.cells.length + 1

/-- The symbols of the cell at an offset of a burst: the lead cell at offset 0 (R136). -/
def Burst.symbolsAt (b : Burst) (k : Nat) : BitVec 9 :=
  if k = 0 then leadSymbols else dataSymbols (b.cells.getD (k - 1) 0)

/-! ## Energy and margin (R55) -/

/-- The energy n/d over the floor reaches m half-decibels: twenty times the base-ten logarithm of the ratio is
at least m (R55). -/
def atLeastHalfDb (n d m : Nat) : Bool := decide (10 ^ m * d ^ 20 ≤ n ^ 20)

/-- The greatest m up to `k` that the ratio n/d reaches; 0 when it reaches none. -/
def marginUpTo (n d : Nat) : Nat → Nat
  | 0 => 0
  | k + 1 => if atLeastHalfDb n d (k + 1) then k + 1 else marginUpTo n d k

/-- The window carries carrier: its energy is at least 6 half-decibels above the floor (R55). The floor is held
as the sum of two windows, twice its mean. A window of no energy over a floor of none carries none: DEDUCED,
notes/assumptions/13.md. -/
def carriesCarrier (floor2 : Nat) (w : Window) : Bool :=
  decide (0 < w.energy) && atLeastHalfDb (2 * w.energy) floor2 6

/-- The margin M of a leg from its windows' energies over the floor, truncated and clamped to 0..63 (R55). The
ratio is the mean energy over the floor. -/
def marginOf (floor2 : Nat) (ws : List Window) : Nat :=
  marginUpTo (2 * (ws.map (·.energy)).sum) (ws.length * floor2) 63

/-! ## Judging legs (R28, R30) -/

/-- The data cells of windows that follow a lead cell: every one carries carrier with good parity (R30). -/
def dataCells (floor2 : Nat) : List Window → Option (List Byte)
  | [] => some []
  | w :: rest =>
    match carriesCarrier floor2 w, dataOfSymbols w.symbols, dataCells floor2 rest with
    | true, some b, some bs => some (b :: bs)
    | true, some _, none => none
    | true, none, _ => none
    | false, _, _ => none

/-- The data cells of a leg of `cells` cells whose lead cell stands in the first window, when the leg lies
within the windows and its CRC agrees (R28, R29, R30). -/
def wholeLeg (floor2 cells : Nat) (ws : List Window) : Option (List Byte) :=
  match ws with
  | [] => none
  | lead :: rest =>
    if carriesCarrier floor2 lead && lead.symbols == leadSymbols && decide (cells ≤ ws.length) && decide (4 ≤ cells) then
      match dataCells floor2 (rest.take (cells - 1)) with
      | none => none
      | some bs =>
        if bs.drop (cells - 3) = crcBytes (bs.take (cells - 3)) then some (bs.take (cells - 3)) else none
    else none

/-- The kind cell of the leg whose lead cell stands in the first window. -/
def kindHeard (ws : List Window) : Option Byte :=
  match ws with
  | _ :: w :: _ => dataOfSymbols w.symbols
  | _ => none

/-- The number of cells of the answer in the windows: fixed by its kind cell, and for a STATE by its count
cell n, 0..4 (R28). -/
def answerCells (ws : List Window) : Option Nat :=
  match kindHeard ws with
  | none => none
  | some k =>
    if k = 0x81 then some 7
    else if k = 0x82 then some 8
    else if k = 0x83 then
      match ws[5]? with
      | none => none
      | some w =>
        match dataOfSymbols w.symbols with
        | none => none
        | some n => if n.toNat ≤ 4 then some (8 + n.toNat) else none
    else none

/-- The answer that data cells spell, with its address cells (R191). -/
def answerOf (bs : List Byte) : Option (BitVec 16 × Answer) :=
  match bs with
  | k :: a1 :: a0 :: rest =>
    let low := BitVec.ofNat 16 (ofBytes [a1, a0])
    if k = 0x81 then
      match rest with
      | [tag] => some (low, .ack tag)
      | _ => none
    else if k = 0x82 then
      match rest with
      | [tag, reason] => some (low, .refuse tag reason)
      | _ => none
    else if k = 0x83 then
      match rest with
      | cell :: _ :: tags => some (low, .state cell tags)
      | _ => none
    else none
  | _ => none

/-- The valid answer that starts in the first window, with its number of cells (R57). -/
def answerHeard (floor2 : Nat) (ws : List Window) : Option (Nat × BitVec 16 × Answer) :=
  match answerCells ws with
  | none => none
  | some cells =>
    match wholeLeg floor2 cells ws with
    | none => none
    | some bs =>
      match answerOf bs with
      | none => none
      | some (low, a) => some (cells, low, a)

/-- The code in the upper four bits of a burst's kind cell (R191). -/
def burstKindNibble : BurstKind → Nat
  | .order => 2
  | .revoke => 3
  | .poll => 4

/-- The first relay's re-sent burst is heard: it starts in the first window, passes every check, and is of the
exchange's kind with one hop fewer remaining (R56). -/
def relayBurstHeard (floor2 : Nat) (k : BurstKind) (h : Nat) (ws : List Window) : Bool :=
  kindHeard ws == some (kindCell (burstKindNibble k) (h - 1)) &&
    (wholeLeg floor2 (burstCells k (h - 1)) ws).isSome

/-- The outcome of an answer window and, for OK, the windows of the answer's cells, or for BAD those that carry
carrier, over which M is measured (R57, R55). -/
def classify (floor2 : Nat) (low : BitVec 16) (ws : List Window) : ExchangeOutcome × List Window :=
  let carrying := ws.filter (carriesCarrier floor2)
  match answerHeard floor2 ws with
  | some (cells, from', a) =>
    if from' = low then (.ok from' a, ws.take cells) else (.bad, carrying)
  | none => if carrying.isEmpty then (.none, []) else (.bad, carrying)

/-- The kind of a burst's addressed form: that of an exchange (R120). -/
def Burst.kind : Burst → BurstKind
  | .beacon _ _ => .poll
  | .order .. => .order
  | .revoke .. => .revoke
  | .poll .. => .poll

end Sys2Proof.Machine
end

