-- ==== Sys2Proof/Machine/Notices.lean ====
section
/-! DEFINITION. The notices: what each kind carries, byte by byte (R190), and the operations that queue them. -/

namespace Sys2Proof.Machine

/-- The causes of a TIMEBASE notice (R18). -/
inductive TimebaseCause where
  | referenceLost
  | referenceReturned
  | outage
  | settling
  | running
  | settleChoice
  deriving DecidableEq, Repr

def timebaseCauseCode : TimebaseCause → Byte
  | .referenceLost => 1
  | .referenceReturned => 2
  | .outage => 3
  | .settling => 4
  | .running => 5
  | .settleChoice => 6

/-- The fields of a TIMEBASE notice (R18, R190). -/
def timebaseFields (cause : TimebaseCause) (before after : Option Phase) (st : TimebaseState) (l : Count) :
    List Byte :=
  [timebaseCauseCode cause, phaseCode before, phaseCode after, timebaseCode st] ++ countBytes l

/-- Queue a TIMEBASE notice for a change already made, from the reference phase before it (R18). -/
def noteTimebase (cause : TimebaseCause) (before : Option Phase) (s : State) : State :=
  queueNotice .timebase 0 (timebaseFields cause before s.tb.reference s.tb.state s.count) s

/-- The causes of a DRIVER notice (R59). -/
inductive DriverCause where
  | foldBack
  | fault
  | ready
  deriving DecidableEq, Repr

def driverCauseCode : DriverCause → Byte
  | .foldBack => 1
  | .fault => 2
  | .ready => 3

/-- The fields of a DRIVER notice (R59, R190). -/
def driverFields (cause : DriverCause) (before after cap marked : Nat) (kind : Byte) (l : Count) : List Byte :=
  [driverCauseCode cause, byteOf before, byteOf after, byteOf cap, byteOf marked, kind] ++ countBytes l

/-- The presence flag and the two bytes of an order's host reference (R190). -/
def hostRefBytes (o : Order) : List Byte := bytesOf 2 (o.hostRef.getD 0).toNat
def hostRefFlag (o : Order) : Byte := if o.hostRef.isSome then 2 else 0

def counterBytes (c : Counters) : List Byte :=
  bytesOf 2 c.targeted ++ bytesOf 2 c.confirmed ++ bytesOf 2 c.refused ++ bytesOf 2 c.exhausted ++
    bytesOf 2 c.late ++ bytesOf 2 c.dropped

/-- The fields of an ORDER_ACTIVE notice (R93, R190). -/
def orderActiveFields (n : Nat) (o : Order) (slot : Nat) (l : Count) : List Byte :=
  [byteOf o.tag] ++ hostRefBytes o ++ [byteOf n, byteOf slot] ++ countBytes o.activation ++
    bytesOf 2 o.counters.targeted ++ countBytes l

/-- The fields of an ORDER_CLOSED notice (R97, R190). -/
def orderClosedFields (n : Nat) (o : Order) (l : Count) : List Byte :=
  [byteOf o.tag] ++ hostRefBytes o ++ [byteOf n] ++ countBytes o.activation ++
    [stateOutcomeCode o.state] ++ counterBytes o.counters ++ countBytes l

/-- Queue the ORDER_CLOSED notice of an order as it now stands closed (R97). -/
def noteClosed (n : Nat) (o : Order) (s : State) : State :=
  queueNotice .orderClosed (hostRefFlag o) (orderClosedFields n o s.count) s

/-- The answer block of 9 bytes (R190). The state cell of a STATE stands in it as it was heard, bits 6 and 7 among it: DESIGN
CHOICE, notes/assumptions/74.md. -/
def answerBlock : Option Answer → List Byte
  | none => [0, 0, 0, 0, 0, 0, 0, 0, 0]
  | some (.ack tag) => [0x81, tag, 0, 0, 0, 0, 0, 0, 0]
  | some (.refuse tag reason) => [0x82, tag, reason, 0, 0, 0, 0, 0, 0]
  | some (.state cell tags) =>
    [0x83, 0, 0, cell, byteOf tags.length, tags.getD 0 0, tags.getD 1 0, tags.getD 2 0, tags.getD 3 0]

/-- The answer decoded, for OK. -/
def exchangeAnswer : ExchangeOutcome → Option Answer
  | .ok _ a => some a
  | .bad => Option.none
  | .none => Option.none
  | .aborted => Option.none

/-- What a close did with the result (R151). -/
inductive Disposition where
  | applied
  | learningOnly
  | discarded
  deriving DecidableEq, Repr

def dispositionCode : Disposition → Byte
  | .applied => 1
  | .learningOnly => 2
  | .discarded => 3

/-- What a close did to the entry (R151). -/
inductive EntryResult where
  | confirmed
  | refused
  | failed
  | exhausted
  | aborted
  deriving DecidableEq, Repr

def entryResultCode : Option EntryResult → Byte
  | none => 0
  | some .confirmed => 1
  | some .refused => 2
  | some .failed => 3
  | some .exhausted => 4
  | some .aborted => 5

/-- What a PROBE_DONE notice says of a probe (R126). -/
structure ProbeEnd where
  probe      : Probe
  path       : List Addr
  phase      : Option Phase
  level      : Byte
  carrier    : Byte
  /-- The exchange outcome code: OK 1, BAD 2, NONE 3, ABORTED 4, WITHDRAWN 5. -/
  outcome    : Byte
  margin     : Nat
  relayHeard : Bool
  answer     : Option Answer
  deriving DecidableEq, Repr

/-- The fields of a PROBE_DONE notice (R126, R190). -/
def probeDoneFields (e : ProbeEnd) (l : Count) : List Byte :=
  [e.probe.ticket] ++ bytesOf 2 e.probe.index ++ addrBytes e.probe.address ++ [byteOf e.path.length] ++
    pathBytes e.path ++ [phaseCode e.phase, e.level, e.carrier, e.outcome, byteOf e.margin] ++
    answerBlock e.answer ++ countBytes l

/-- Queue a PROBE_DONE notice (R126). -/
def noteProbe (e : ProbeEnd) (s : State) : State :=
  queueNotice .probeDone (if e.relayHeard then 2 else 0) (probeDoneFields e s.count) s

/-- Queue a PROBE_DONE with outcome WITHDRAWN for a probe taken from the queue unsent (R125, R126). Its level and
carrier were never chosen: free values, notes/assumptions/7.md. -/
def noteWithdrawn (s : State) (p : Probe) : State :=
  noteProbe ⟨p, [], none, Config.unstatedByte s.freeUses, Config.unstatedByte (s.freeUses + 1), 5, 0, false, none⟩
    { s with freeUses := s.freeUses + 2 }

/-- When damage was found (R161). -/
inductive Found where
  | restore
  | scrub
  | verify
  | wipeResumed
  deriving DecidableEq, Repr

def foundCode : Found → Byte
  | .restore => 0
  | .scrub => 1
  | .verify => 2
  | .wipeResumed => 3

/-- What the handling of damage came to (R161). -/
inductive DamageResult where
  | damaged (kept : Option Nat)
  | emptyRewritten
  | defaults
  | countRewritten (c : Count)
  deriving DecidableEq, Repr

def damageResultCode : DamageResult → Byte
  | .damaged _ => 1
  | .emptyRewritten => 2
  | .defaults => 3
  | .countRewritten _ => 4

/-- The value a STORE notice keeps: the address, the tag or the count written (R190). -/
def DamageResult.kept : DamageResult → Option Nat
  | .damaged k => k
  | .emptyRewritten => none
  | .defaults => none
  | .countRewritten c => some c.toNat

/-- The kind and number of a position (R190). -/
def positionBytes : Position → List Byte
  | .config => 0 :: bytesOf 2 0
  | .savedCount => 1 :: bytesOf 2 0
  | .order n => 2 :: bytesOf 2 n
  | .receiver n => 3 :: bytesOf 2 n

/-- The fields of a STORE notice (R161, R190). -/
def storeFields (pos : Position) (found : Found) (result : DamageResult) (words corrections : Nat) (l : Count) :
    List Byte :=
  positionBytes pos ++ [foundCode found, damageResultCode result] ++ bytesOf 4 (result.kept.getD 0) ++
    [byteOf words] ++ bytesOf 2 corrections ++ countBytes l

/-- Queue a STORE notice (R161). -/
def noteStore (pos : Position) (found : Found) (result : DamageResult) (words : Nat) (s : State) : State :=
  queueNotice .store (if result.kept.isSome then 2 else 0)
    (storeFields pos found result words s.store.corrections s.count) s

/-- The five link counters as bytes, in the order CRC, gap, length, framing, unanswered overrun (R182, R190). -/
def linkCounterBytes (c : LinkCounters) : List Byte :=
  bytesOf 2 c.crc ++ bytesOf 2 c.gap ++ bytesOf 2 c.length ++ bytesOf 2 c.framing ++ bytesOf 2 c.unanswered

/-- The fields of a LINK notice, with the values held when it leaves the queue (R179). -/
def linkFields (s : State) : List Byte :=
  linkCounterBytes s.link.counters ++ bytesOf 4 (rateOf s.link.rate) ++ countBytes s.count

/-- Queue a LINK notice unless one is in the queue (R179). -/
def noteLink (s : State) : State :=
  if s.link.queue.any (·.kind == .link) then s else queueNotice .link 0 [] s

/-- The body of a notice as it leaves the queue: the flags with the LOST flag, then the fields (R175, R190). -/
def leavingBody (s : State) (n : Notice) : List Byte :=
  (n.flags ||| boolCode s.link.lost) :: (if n.kind = .link then linkFields s else n.fields)

end Sys2Proof.Machine
end

