-- ==== Sys2Proof/Machine/OrderOps.lean ====
section
/-! DEFINITION. The transitions of orders: sealing and closing (R95, R96), activation (R92, R93), withdrawal and
conversion (R100, R101), and the roll (R94). -/

namespace Sys2Proof.Machine

/-- The order's seal point is reached (R91). -/
def State.sealReached (s : State) (o : Order) : Bool := decide (dist o.sealPoint s.count ≤ 0)

/-- The outcome of a close by seal (R96). -/
def sealOutcome (revoking : Bool) (c : Counters) : OrderOutcome :=
  if revoking then .cancelled
  else if c.confirmed = 0 then .noneConfirmed
  else if c.confirmed = c.targeted then .complete
  else .partly

/-- A PENDING order closed NOT_SENT (R95). -/
def closeNotSent (n : Nat) (o : Order) (s : State) : State :=
  let s := bumpSequence s
  let o' := { o with state := .closed s.orders.sequence .notSent }
  noteClosed n o' (putOrder n o' s)

/-- The account of an order whose remaining entries are counted late (R96). -/
def Counters.countLate (c : Counters) (entries : Nat) : Counters := { c with late := bump c.late entries }

/-- An ACTIVE or REVOKING order, holding the slot fields `f`, closed at its seal point (R96): its entries removed
and counted late, its slot freed and its roll emptied, its outcome set; the receivers are written first, then the
order (R107). -/
def closeAtSeal (n : Nat) (o : Order) (f : SlotFields) (s : State) : State :=
  let c := o.counters.countLate (s.entriesNaming f.slot)
  let s := bumpSequence (dropSlotEntries f.slot s)
  let o' := { o with counters := c, state := .closed s.orders.sequence (sealOutcome o.isRevoking c) }
  noteClosed n o' (putOrder n o' s)

/-- The closing step for one position (R91): with the count CONFIRMED, an order whose seal point is reached
closes. -/
def sealOrder (s : State) (n : Nat) : State :=
  match s.order n with
  | none => s
  | some o =>
    if s.confirmed && s.sealReached o then
      match o.state with
      | .pending => closeNotSent n o s
      | .active f => closeAtSeal n o f s
      | .revoking f => closeAtSeal n o f s
      | .closed _ _ => s
    else s

/-- The closing step over every stored order, in ascending position order (R91, R105; the order is a DESIGN
CHOICE, notes/assumptions/3.md). -/
def closingStep (s : State) : State := (s.orders.orders.map Prod.fst).foldl sealOrder s

/-- No stored order is left for the closing step (R91). -/
def State.nothingToClose (s : State) : Bool :=
  s.orders.orders.all fun no => no.2.isClosed || !(s.confirmed && s.sealReached no.2)

/-- The order is PENDING and within LEAD_MAX (R92). -/
def State.activable (s : State) (o : Order) : Bool :=
  o.isPending && decide (dist o.activation s.count ≤ Config.leadMax)

/-- The PENDING orders within LEAD_MAX in store order: the positions the activation step considers (R92). -/
def State.activationList (s : State) : List Nat :=
  (s.storeOrder.filter fun no => s.activable no.2).map Prod.fst

/-- An order takes a slot (R92, R93): it becomes ACTIVE and gives an entry to every receiver in its target; a
SINGLE order without its receiver closes NO_TARGET, and of it the CLOSED form alone is written (DESIGN CHOICE,
notes/assumptions/53.md). The order is written first, then the receivers (R107). -/
def activate (n k : Nat) (o : Order) (s : State) : State :=
  let members := (s.table.filter fun ir => inTarget o.target ir.2).map Prod.fst
  let takesSlot :=
    let f : SlotFields := ⟨k, false, 0, false, s.count, members⟩
    let o' := { o with state := .active f, counters := { Counters.zero with targeted := members.length } }
    let s := putOrder n o' s
    let s := changeReceivers (fun _ r => inTarget o.target r) (fun _ r => r.giveEntry k s.count) s
    queueNotice .orderActive (hostRefFlag o') (orderActiveFields n o' k s.count) s
  match o.target with
  | .single _ =>
    if members.isEmpty then
      let s := bumpSequence s
      let o' := { o with state := .closed s.orders.sequence .noTarget, counters := .zero }
      noteClosed n o' (putOrder n o' s)
    else takesSlot
  | .all => takesSlot
  | .group _ => takesSlot

/-- The positions of the activation step still to be considered (R92). An order admitted since at a position that the step
still names is considered with it, one admitted at another position waits: DESIGN CHOICE, notes/assumptions/2.md. -/
def State.toActivate (s : State) : List Nat :=
  s.owed.activation.filter fun n => (s.order n).any s.activable

/-- The next order of the activation step takes the lowest free slot; with no slot free the step ends and the
orders left stay PENDING (R92). -/
def activateNext (s : State) : State :=
  match s.toActivate with
  | [] => { s with owed := { s.owed with activation := [] } }
  | n :: rest =>
    match s.freeSlot, s.order n with
    | some k, some o => activate n k o { s with owed := { s.owed with activation := rest } }
    | some _, none => { s with owed := { s.owed with activation := [] } }
    | none, _ => { s with owed := { s.owed with activation := [] } }

/-- The activation step brought to its end, at most `fuel` orders. -/
def activateAll : Nat → State → State
  | 0, s => s
  | fuel + 1, s => if s.owed.activation.isEmpty then s else activateAll fuel (activateNext s)

/-- A withdrawn order leaves the store (R100); if it was ACTIVE its entries are removed first, with no counter
moved, and the receivers written before the empty position (R107). -/
def withdraw (n : Nat) (o : Order) (s : State) : State :=
  match o.fields with
  | none => dropOrder n s
  | some f => dropOrder n (dropSlotEntries f.slot s)

/-- The receivers of the roll that conversion gives a fresh entry: NORMAL ones (R101). -/
def inRoll (roll : List Nat) (i : Nat) (r : Receiver) : Bool := !r.damaged && decide (i ∈ roll)

/-- An ACTIVE order converted to REVOKING (R101): fresh entries for the roll, an account that lists them all, and
the repeats owed again. The receivers are written first, then the order (R107). -/
def convert (n : Nat) (o : Order) (f : SlotFields) (s : State) : State :=
  let fresh := (s.table.filter fun ir => inRoll f.roll ir.1 ir.2).length
  let f' := { f with sent := 0, abandoned := false, nextRepeat := s.count }
  let o' := { o with state := .revoking f', counters := { Counters.zero with targeted := fresh } }
  putOrder n o' (changeReceivers (inRoll f.roll) (fun _ r => r.giveEntry f.slot s.count) s)

/-- A receiver leaves the roll of the order in a slot, and the order's account is put through a function of the slot;
the order is written if it changed (R94). -/
def forgetIn (i : Nat) (g : Nat → Counters → Counters) (s : State) (k : Nat) : State :=
  match s.orderInSlot k with
  | none => s
  | some (n, o) =>
    let o' := { o.mapFields fun f => { f with roll := f.roll.filter (· != i) } with counters := g k o.counters }
    if o' = o then s else putOrder n o' s

/-- A receiver leaves the roll of every order, and every account is put through a function, in ascending slot order
(R94). -/
def forgetReceiver (i : Nat) (g : Nat → Counters → Counters) (s : State) : State :=
  (List.range Config.slots).foldl (forgetIn i g) s

/-- An index put in its place in a roll. -/
def insertIndex (i : Nat) : List Nat → List Nat
  | [] => [i]
  | j :: rest => if i < j then i :: j :: rest else if i = j then j :: rest else j :: insertIndex i rest

/-- The account of the order in a slot put through a function, and the order written. -/
def countFor (k : Nat) (g : Counters → Counters) (s : State) : State :=
  match s.orderInSlot k with
  | none => s
  | some (n, o) => putOrder n { o with counters := g o.counters } s

def Counters.confirm (c : Counters) : Counters := { c with confirmed := bump c.confirmed 1 }
def Counters.refuse (c : Counters) : Counters := { c with refused := bump c.refused 1 }
def Counters.exhaust (c : Counters) : Counters := { c with exhausted := bump c.exhausted 1 }
def Counters.drop (c : Counters) (n : Nat) : Counters := { c with dropped := bump c.dropped n }

end Sys2Proof.Machine
end

