-- ==== Sys2Proof/Machine/Exchange.lean ====
section
/-! DEFINITION. The life of a transmission: the end of a leg (R48), learning (R75 to R79), applying a result
(R127 to R131), the close (R141, R142), aborts and cuts (R143, R144), and the settlement at a reset (R150). -/

namespace Sys2Proof.Machine

/-! ## The leg and the Answer Receiver -/

/-- The open leg ends, completed or cut (R48): the outputs go quiet, the leg becomes absent and the Engine has the
driver's report. Without an open leg nothing changes. -/
def endLeg (completed : Bool) (s : State) : State :=
  match s.driver.openLeg with
  | none => s
  | some leg =>
    { s with
      driver := { s.driver with openLeg := none, windows := .const none }
      engine := { s.engine with
        report := some ⟨completed, leg.sent.length, leg.opening, s.driver.legLevel, leg.overCurrent⟩ } }

/-- The Answer Receiver returns to IDLE; anything partly heard is lost (R57, R58, R143). RELAY_HEARD becomes no with it:
DESIGN CHOICE, notes/assumptions/49.md. -/
def answerIdle (s : State) : State :=
  { s with answer := { s.answer with mode := .idle, phase := none, relayHeard := false } }

/-- The transmission and its hand-over record become absent and the Engine IDLE (R138, R141). -/
def finishTransmission (s : State) : State :=
  { s with
    sched := { s.sched with handOver := none }
    engine := { s.engine with state := .idle, transmission := none, live := .const false } }

/-- The code of the kind of the transmission in flight, none for none (R59, R182). -/
def State.flightCode (s : State) : Byte := handOverCode (s.sched.handOver.map (·.kind))

/-! ## Learning (R75 to R79) -/

/-- The quality after an outcome (R76). -/
def learnQuality (q : Nat) (res : ExchangeOutcome) (m : Nat) : Nat :=
  match res with
  | .ok _ _ => (q + ((m : Int) - q).tdiv 4).toNat
  | .bad => (q + ((m : Int) - q).tdiv 4).toNat
  | .none => q - 4
  | .aborted => q

def CarrierSelection.other : CarrierSelection → CarrierSelection
  | .primary => .alternate
  | .alternate => .primary

/-- A failure counted against the record: the second in succession changes the preference (R77). -/
def Receiver.carrierFailure (r : Receiver) : Receiver :=
  if 2 ≤ r.failures + 1 then { r with failures := 0, carrier := r.carrier.other }
  else { r with failures := r.failures + 1 }

/-- Carrier learning (R77). -/
def learnCarrier (r : Receiver) (res : ExchangeOutcome) : Receiver :=
  match res with
  | .ok _ _ => { r with failures := 0 }
  | .bad => r.carrierFailure
  | .none => r.carrierFailure
  | .aborted => r

/-- Phase learning: an UNKNOWN phase becomes the phase of a direct exchange that closed OK (R78). -/
def learnPhase (r : Receiver) (res : ExchangeOutcome) (phase : Phase) (direct : Bool) : Receiver :=
  match res with
  | .ok _ _ => if direct && r.phase.isNone then { r with phase := some phase } else r
  | .bad => r
  | .none => r
  | .aborted => r

/-- Learning from one close (R75). -/
def learn (r : Receiver) (b : Build) (out : Outcome) : Receiver :=
  let r := { r with quality := learnQuality r.quality out.result out.margin }
  learnPhase (learnCarrier r out.result) out.result b.phase b.path.isEmpty

/-- The state that a state cell reports, when its tariff index lies in 1..8 (R79, R191). -/
def reportedOf (cell : Byte) (heard : Count) : Option ReportedState :=
  let tariff := cell.toNat % 16
  if 1 ≤ tariff ∧ tariff ≤ 8 then some ⟨tariff, cell.getLsbD 4, cell.getLsbD 5, heard⟩ else none

/-- The state update (R79). -/
def updateReported (r : Receiver) (out : Outcome) (heard : Count) : Receiver :=
  match out.result with
  | .ok _ (.state cell _) =>
    match reportedOf cell heard with
    | some rs => { r with reported := some rs }
    | none => r
  | .ok _ (.ack _) => r
  | .ok _ (.refuse _ _) => r
  | .bad => r
  | .none => r
  | .aborted => r

/-! ## Applying a result (R127 to R131) -/

/-- The position and order that hold the slot with the admission number and in the state of a hand-over record
(R117, R127). -/
def State.heldBy (s : State) (slot : Nat) (admission : Count) (revoking : Bool) : Option (Nat × Order) :=
  (s.orderInSlot slot).filter fun no => no.2.admission == admission && no.2.isRevoking == revoking

/-- What an outcome means for the entry, from the burst sent and the order's tag (R128, R129, R130, R131). -/
inductive Verdict where
  | confirmed
  | refused
  | failed (last : LastResult)
  | aborted
  deriving DecidableEq, Repr

/-- An answer judged against the burst it answers (R128, R129). -/
def judgeAnswer (k : BurstKind) (tag : Nat) (a : Answer) : Verdict :=
  match k, a with
  | .order, .ack t => if t = byteOf tag then .confirmed else .failed .bad
  | .revoke, .ack t => if t = byteOf tag then .confirmed else .failed .bad
  | .order, .refuse t _ => if t = byteOf tag then .refused else .failed .bad
  | .poll, .state _ tags => if byteOf tag ∈ tags then .confirmed else .failed .bad
  | .poll, .ack _ => .failed .bad
  | .poll, .refuse _ _ => .failed .bad
  | .revoke, .refuse _ _ => .failed .bad
  | .order, .state _ _ => .failed .bad
  | .revoke, .state _ _ => .failed .bad

/-- An outcome judged (R130, R131). -/
def judge (k : BurstKind) (tag : Nat) (res : ExchangeOutcome) : Verdict :=
  match res with
  | .ok _ a => judgeAnswer k tag a
  | .bad => .failed .bad
  | .none => .failed .noAnswer
  | .aborted => .aborted

/-- The hold-off after the a-th failed attempt: min(1,600, 50 × 2^(a − 1)) (R130). -/
def holdOff (a : Nat) : Nat := min 1600 (50 * 2 ^ (a - 1))

/-- What became of the entry. -/
def entryResult (retryMax attempts : Nat) : Verdict → EntryResult
  | .confirmed => .confirmed
  | .refused => .refused
  | .failed _ => if retryMax ≤ attempts + 1 then .exhausted else .failed
  | .aborted => .aborted

/-- The record with the result applied to its entry for the slot (R128 to R131). -/
def applyToEntry (r : Receiver) (slot retryMax attempts : Nat) (ended : Count) : Verdict → Receiver
  | .confirmed => r.dropEntry slot
  | .refused => r.dropEntry slot
  | .failed last =>
    if retryMax ≤ attempts + 1 then r.dropEntry slot
    else r.mapEntry slot fun e =>
      { e with attempts := attempts + 1, last := last, nextTry := later ended (holdOff (attempts + 1)) }
  | .aborted => r.mapEntry slot fun e => { e with last := .aborted, nextTry := ended }

/-- The account with what became of the entry counted (R128, R130). -/
def countResult (k : Nat) (res : EntryResult) (s : State) : State :=
  match res with
  | .confirmed => countFor k Counters.confirm s
  | .refused => countFor k Counters.refuse s
  | .exhausted => countFor k Counters.exhaust s
  | .failed => s
  | .aborted => s

/-- The tags a STATE answer lists. -/
def listedTags : ExchangeOutcome → List Byte
  | .ok _ (.state _ tags) => tags
  | .ok _ (.ack _) => []
  | .ok _ (.refuse _ _) => []
  | .bad => []
  | .none => []
  | .aborted => []

/-- The slots of the record's entries that a STATE's tags confirm: their orders ACTIVE, their tags listed; the
slot of the exchange itself apart (R129). -/
def confirmedSlots (s : State) (r : Receiver) (own : Option Nat) (tags : List Byte) : List Nat :=
  (r.entries.filter fun e =>
    decide (own ≠ some e.slot) &&
      (s.orderInSlot e.slot).any fun no => no.2.isActive && decide (byteOf no.2.tag ∈ tags)).map (·.slot)

/-- The record without its entries for these slots. -/
def dropEntries (r : Receiver) (slots : List Nat) : Receiver :=
  { r with entries := r.entries.filter fun e => decide (e.slot ∉ slots) }

/-! ## Closing (R141, R142) -/

/-- The end count of an exchange: L for an aborted one, s + T − 1 + displacement otherwise (R140, R143). -/
def State.endCount (s : State) (start : Count) (span : Nat) (res : ExchangeOutcome) : Count :=
  match res with
  | .aborted => s.count
  | .ok _ _ => later start (span - 1) + BitVec.ofInt 32 s.engine.displacement
  | .bad => later start (span - 1) + BitVec.ofInt 32 s.engine.displacement
  | .none => later start (span - 1) + BitVec.ofInt 32 s.engine.displacement

/-- The result is applied to the entry and the account: the three conditions of R127. -/
def State.applies (s : State) (d : DeliveryRecord) : Bool :=
  !d.withdrawn && (s.heldBy d.slot d.admission d.revoking).isSome &&
    (s.receiver d.index).any (·.lists d.slot)

/-- The receiver's record after the close of a delivery exchange: learning, the state update where the case
allows it (R75), the entry's result, and the other entries a STATE confirms (R129). -/
def deliveredRecord (s : State) (d : DeliveryRecord) (ended : Count) (out : Outcome) (r : Receiver) : Receiver :=
  if s.applies d then
    let r' := updateReported (learn r d.build out) out ended
    let r'' := applyToEntry r' d.slot s.params.retryMax d.attempts ended (judge d.build.kind d.tag out.result)
    dropEntries r'' (confirmedSlots s r (some d.slot) (listedTags out.result))
  else learn r d.build out

/-- The levels of a DELIVERY notice: those of the leg, or free values when no leg opened (R151,
notes/assumptions/7.md), with the number of free values used. -/
def State.legLevels (s : State) : List Byte × Nat :=
  match s.engine.report with
  | some r => ([byteOf r.opening, byteOf r.ending], 0)
  | none => ([Config.unstatedByte s.freeUses, Config.unstatedByte (s.freeUses + 1)], 2)

/-- The fields of a DELIVERY notice (R151, R190), from the state after the records are written. -/
def deliveryFields (s : State) (start ended : Count) (d : DeliveryRecord) (out : Outcome) (disp : Disposition)
    (res : Option EntryResult) (after : Option Receiver) : List Byte :=
  let b := d.build
  let reported := after.bind (·.reported)
  bytesOf 2 d.index ++ addrBytes d.address ++
    [byteOf d.tag, byteOf d.slot, if d.revoking then 3 else 2, burstCode b.kind, byteOf b.path.length] ++
    pathBytes b.path ++ [phaseCode (some b.phase)] ++ s.legLevels.1 ++
    [carrierCode b.carrier, byteOf s.carrier.latched, exchangeOutcomeCode out.result,
      if out.result = .aborted then abortCode s.engine.abortCause else 0] ++
    answerBlock (exchangeAnswer out.result) ++
    [byteOf out.margin, dispositionCode disp, entryResultCode res,
      byteOf (((after.bind (·.entryFor d.slot)).map (·.attempts)).getD 0),
      (reported.map stateCell).getD 0] ++
    countBytes ((reported.map (·.heard)).getD 0) ++ countBytes start ++ countBytes ended

/-- Queue the DELIVERY notice of a close (R151). -/
def noteDelivery (start ended : Count) (d : DeliveryRecord) (out : Outcome) (disp : Disposition)
    (res : Option EntryResult) (after : Option Receiver) (s : State) : State :=
  let flags := flagByte [false, s.engine.folded, out.relayHeard, (after.bind (·.reported)).isSome,
    (after.bind (·.entryFor d.slot)).isSome]
  queueNotice .delivery (byteOf flags) (deliveryFields s start ended d out disp res after)
    { s with freeUses := s.freeUses + s.legLevels.2 }

/-- The close of a delivery exchange (R141): the receiver's record, then the orders whose account changed, then the
DELIVERY notice, then the Engine IDLE. The record is written at every close that learns or applies, changed or not (DESIGN
CHOICE, notes/assumptions/67.md); the exchange's own order is written before those a STATE confirms beside it (DESIGN CHOICE,
notes/assumptions/69.md). -/
def closeDelivery (start : Count) (d : DeliveryRecord) (out : Outcome) (s : State) : State :=
  let ended := s.endCount start d.build.span out.result
  if d.withdrawn then
    finishTransmission (noteDelivery start ended d out .discarded none none s)
  else
    match s.receiver d.index with
    | none => finishTransmission (noteDelivery start ended d out .discarded none none s)
    | some r =>
      let r' := deliveredRecord s d ended out r
      if s.applies d then
        let res := entryResult s.params.retryMax d.attempts (judge d.build.kind d.tag out.result)
        let others := confirmedSlots s r (some d.slot) (listedTags out.result)
        let s := countResult d.slot res (putReceiver d.index r' s)
        let s := others.foldl (fun s k => countFor k Counters.confirm s) s
        let shown := if res = .failed ∨ res = .aborted then some r' else some (r'.dropEntry d.slot)
        finishTransmission (noteDelivery start ended d out .applied (some res) shown s)
      else
        let s := if out.result = .aborted then s else putReceiver d.index r' s
        finishTransmission (noteDelivery start ended d out .learningOnly none (some (r'.dropEntry d.slot)) s)

/-- The close of a probe (R142, R126). The record is written at every close that learns, changed or not: DESIGN CHOICE,
notes/assumptions/67.md. -/
def closeProbe (start : Count) (p : ProbeRecord) (out : Outcome) (s : State) : State :=
  let b := p.build
  let ended := s.endCount start b.span out.result
  let ending (outcome : Byte) : ProbeEnd :=
    ⟨p.probe, b.path, some b.phase, byteOf b.level, carrierCode b.carrier, outcome, out.margin, out.relayHeard,
      exchangeAnswer out.result⟩
  if p.withdrawn then
    finishTransmission (noteProbe { ending 5 with margin := 0, relayHeard := false, answer := none } s)
  else
    match s.receiver p.probe.index with
    | none => finishTransmission (noteProbe { ending 5 with margin := 0, relayHeard := false, answer := none } s)
    | some r =>
      if out.result = .aborted then finishTransmission (noteProbe (ending 4) s)
      else
        let others := confirmedSlots s r none (listedTags out.result)
        let r' := dropEntries (updateReported (learn r b out) out ended) others
        let s := putReceiver p.probe.index r' s
        let s := others.foldl (fun s k => countFor k Counters.confirm s) s
        finishTransmission (noteProbe (ending (exchangeOutcomeCode out.result)) s)

/-- CLOSING: the outcome taken is handed on by the kind of the hand-over record (R140 to R142). -/
def closeExchange (out : Outcome) (s : State) : State :=
  let s := { s with engine := { s.engine with state := .closing, outcome := some out } }
  match s.sched.handOver with
  | none => finishTransmission s
  | some h =>
    match h.kind with
    | .delivery d => closeDelivery h.start d out s
    | .probe p => closeProbe h.start p out s
    | .beacon => finishTransmission s
    | .repeats _ => finishTransmission s

/-! ## Events that end a transmission early -/

/-- The Engine records why a transmission ends early. -/
def setAbortCause (cause : AbortCause) (s : State) : State :=
  { s with engine := { s.engine with abortCause := some cause } }

/-- An exchange or probe aborted (R143): its leg cut, the Answer Receiver IDLE, and the close with ABORTED. -/
def abortExchange (cause : AbortCause) (s : State) : State :=
  closeExchange ⟨.aborted, 0, false⟩ (answerIdle (endLeg false (setAbortCause cause s)))

/-- The leg of a beacon or repeat cut: the transmission ends and nothing is counted (R138, R144). -/
def cutBroadcast (cause : AbortCause) (s : State) : State :=
  finishTransmission (endLeg false (setAbortCause cause s))

/-- The transmission in flight ended early for a cause that reaches it whole: an exchange aborted, a beacon or
repeat cut (R143 to R145). Nothing happens when none is in flight. -/
def endEarly (cause : AbortCause) (s : State) : State :=
  match s.engine.transmission with
  | none => s
  | some t => if t.exchange.isSome then abortExchange cause s else cutBroadcast cause s

/-- No phase of the set is left. -/
def noPhase (x : PerPhase Bool) : Bool := !x.l1 && !x.l2 && !x.l3

/-- A phase that has left LOCKED, as the Engine sees it (R143, R144): the first node's phase aborts an exchange or
probe, a live phase leaves a beacon or repeat, whose leg is cut when no phase stays live. The output of a phase that leaves
goes quiet at once, in the midst of a cell too: DESIGN CHOICE, notes/assumptions/70.md. -/
def losePhase (p : Phase) (s : State) : State :=
  match s.engine.transmission with
  | none => s
  | some t =>
    match t.exchange with
    | some x => if x.first = p then abortExchange .phaseLost s else s
    | none =>
      if s.engine.live.get p then
        let live := s.engine.live.set p false
        let s := { s with
          engine := { s.engine with live := live }
          driver := { s.driver with windows := s.driver.windows.set p none } }
        if noPhase live then cutBroadcast .phaseLost s else s
      else s

/-- The settlement of a delivery exchange that a reset ends (R150, R131): where R127 allows, the entry's last
result becomes ABORTED and its next try L. No learning and no notice. -/
def settleAtReset (d : DeliveryRecord) (s : State) : State :=
  match s.receiver d.index with
  | none => s
  | some r =>
    if s.applies d then
      putReceiver d.index (applyToEntry r d.slot s.params.retryMax d.attempts s.count .aborted) s
    else s

/-- The settlement of the hand-over record at a reset, by kind (R133, R150). -/
def settleHandOver (s : State) : State :=
  match s.sched.handOver with
  | none => s
  | some h =>
    match h.kind with
    | .delivery d => settleAtReset d s
    | .probe _ => s
    | .beacon => s
    | .repeats _ => s

/-- The transmission in flight ended by a SOFT reset or a WIPE (R150). -/
def resetTransmission (s : State) : State :=
  match s.engine.transmission with
  | none => s
  | some t =>
    let s := endLeg false (setAbortCause .reset s)
    let s := if t.exchange.isSome then
        { s with engine := { s.engine with outcome := some ⟨.aborted, 0, false⟩ } }
      else s
    finishTransmission (settleHandOver s)

/-- A receiver removed or found DAMAGED: a delivery or probe in flight with it is marked receiver withdrawn (R127,
R148). -/
def markWithdrawn (i : Nat) (s : State) : State :=
  match s.sched.handOver with
  | none => s
  | some h =>
    match h.kind with
    | .delivery d =>
      if d.index = i then
        { s with sched := { s.sched with handOver := some { h with kind := .delivery { d with withdrawn := true } } } }
      else s
    | .probe p =>
      if p.probe.index = i then
        { s with sched := { s.sched with handOver := some { h with kind := .probe { p with withdrawn := true } } } }
      else s
    | .beacon => s
    | .repeats _ => s

/-- The probes in the queue that name a receiver removed, a PROBE_DONE with outcome WITHDRAWN queued for each, in
queue order (R126). -/
def withdrawProbes (i : Nat) (s : State) : State :=
  let gone := s.sched.probes.filter (·.index == i)
  let s := { s with sched := { s.sched with probes := s.sched.probes.filter (·.index != i) } }
  gone.foldl noteWithdrawn s

end Sys2Proof.Machine
end

