-- ==== Sys2Proof/Machine/TimebaseOps.lean ====
section
/-! DEFINITION. The Mains Timebase at work: crossings and trackers (R2 to R11), the count advance (R12), the
reference phase and the device timebase states (R13 to R18). -/

namespace Sys2Proof.Machine

/-! ## Intervals -/

/-- The nominal value of P, in µs (R1). -/
def nominalPeriod : NominalFreq → Nat
  | .hz50 => 10000
  | .hz60 => 8333

/-- An interval inside the valid range (R1). -/
def inRange : NominalFreq → Int → Bool
  | .hz50, m => decide (9000 ≤ m ∧ m ≤ 11000)
  | .hz60, m => decide (7500 ≤ m ∧ m ≤ 9200)

/-- The term of the crystal pattern at a position (R15). -/
def crystalTerm : NominalFreq → Nat → Nat
  | .hz50, _ => 10000
  | .hz60, pos => if pos = 2 then 8334 else 8333

/-- P after an accepted crossing that ends the interval m (R8). -/
def updatePeriod (period : Nat) (m : Int) : Nat := ((period : Int) + (m - period).tdiv 8).toNat

/-- The filter length in samples; OFF accepts the first sample (R2). -/
def filterSamples : FilterLength → Nat
  | .off => 1
  | .samples4 => 4
  | .samples16 => 16
  | .samples64 => 64

/-- The predicted time of the next crossing (R7). -/
def predicted (e : EdgeMode) (t : Tracker) (last : Nat) : Nat :=
  match e with
  | .both => last + t.period
  | .rising => last + 2 * t.period

/-- The interval an edge ends: in RISING mode the full period div 2 (R3, R6). -/
def intervalOf (e : EdgeMode) (last time : Nat) : Int :=
  match e with
  | .both => (time : Int) - last
  | .rising => ((time : Int) - last).tdiv 2

/-- An edge inside the prediction window: its timestamp within P div 16 of the predicted time and the interval it
ends in range (R7). -/
def insideWindow (f : NominalFreq) (e : EdgeMode) (t : Tracker) (last time : Nat) : Bool :=
  let at' := predicted e t last
  decide (at' ≤ time + t.period / 16) && decide (time ≤ at' + t.period / 16) && inRange f (intervalOf e last time)

/-! ## The device timebase states and the reference phase -/

/-- The expiry of the beacon timer (R22). -/
def expireBeaconTimer (s : State) : State :=
  if s.owed.beacon then
    { s with
      tb := { s.tb with beaconDue := true, beaconTimer := 0 }
      owed := { s.owed with beacon := false } }
  else s

/-- The save cadence has reached 1,024 (R23). -/
def saveCount (s : State) : State :=
  if Config.saveCadence ≤ s.tb.cadence then
    askSavedCount { s with tb := { s.tb with cadence := 0 } }
  else s

/-- The device timebase enters OUTAGE (R15): no reference, the counts cleared, the count saved, a notice queued, and
any transmission ended (R143, R144). What the beacon timer and the cadence still owe the last count advance is made
first. -/
def enterOutage (s : State) : State :=
  let s := saveCount (expireBeaconTimer s)
  let before := s.tb.reference
  let s := { s with
    tb := { s.tb with
      state := .outage, reference := none, spacing := true, settle := 0, beaconTimer := 0, cadence := 0,
      crystalPos := 0, crystalSpan := crystalTerm s.params.nominalFreq 0, crystalRestart := false }
    owed := { s.owed with settleEnd := false } }
  endEarly .timebase (noteTimebase .outage before (askSavedCount s))

/-- The reference phase taken by another phase, with a notice (R13, R14, R18). -/
def moveReference (cause : TimebaseCause) (p : Phase) (s : State) : State :=
  noteTimebase cause s.tb.reference { s with tb := { s.tb with reference := some p, spacing := true } }

/-- The first of the phases after `p` that is LOCKED or COASTING (R13). -/
def State.nextTracked (s : State) (p : Phase) : Option Phase :=
  [p.after, p.after.after].find? fun q => (s.tracker q).tracked

/-- In RUNNING and SETTLING a reference that is neither LOCKED nor COASTING leaves its place (R13, R15). -/
def checkReference (s : State) : State :=
  if s.tb.state = .outage then s
  else
    match s.tb.reference with
    | none => s
    | some p =>
      if (s.tracker p).tracked then s
      else
        match s.nextTracked p with
        | some q => moveReference .referenceLost q s
        | none => enterOutage s

/-- The device timebase enters SETTLING with the phase that locked as the reference (R16). -/
def enterSettling (p : Phase) (s : State) : State :=
  noteTimebase .settling s.tb.reference
    { s with tb := { s.tb with state := .settling, reference := some p, spacing := true, settle := 0 } }

/-- A phase has entered LOCKED (R14, R16). -/
def phaseLocked (p : Phase) (s : State) : State :=
  match s.tb.state with
  | .outage => enterSettling p s
  | .settling => s
  | .running =>
    if s.params.refPhase = p ∧ s.tb.reference ≠ some p then moveReference .referenceReturned p s else s

/-- The reference chosen afresh at the end of settling: REF_PHASE if LOCKED, otherwise the first LOCKED (R17). -/
def State.chosenReference (s : State) : Option Phase :=
  if s.locked s.params.refPhase then some s.params.refPhase else Phase.all.find? s.locked

/-- The device timebase enters RUNNING when the end of settling is owed and some phase is LOCKED (R17). -/
def endSettling (s : State) : State :=
  if s.owed.settleEnd && s.tb.state == .settling && s.anyLocked then
    let before := s.tb.reference
    let chosen := s.chosenReference
    let s := { s with
      tb := { s.tb with
        state := .running, reference := chosen, beaconDue := true,
        spacing := if chosen = before then s.tb.spacing else true }
      owed := { s.owed with settleEnd := false } }
    noteTimebase (if chosen = before then .running else .settleChoice) before s
  else { s with owed := { s.owed with settleEnd := false } }

/-- The end of settling made where it is owed: at the count advance, before the phase that made the advance leaves its state
(R9, R10, R17). -/
def meetSettling (s : State) : State := if s.owed.settleEnd then endSettling s else s

/-! ## The steps that follow a count advance -/

/-- The phase's silence count has reached its limit: the ACQUIRING phase becomes ABSENT (R6, R5). -/
def timeOutSilence (s : State) (p : Phase) : State :=
  let t := s.tracker p
  if t.state = .acquiring ∧ Config.silenceLimit ≤ t.silence then
    s.setTracker p { t with
      state := .absent, last := none, acquire := 0, silence := 0, miss := 0, ret := 0, coast := 0 }
  else s

/-- The cool-down of a FAULT ends (R51). -/
def endCoolDown (s : State) : State :=
  if s.driver.state = .fault ∧ Config.coolCount ≤ s.driver.cool then
    queueNotice .driver 0 (driverFields .ready 0 0 s.driver.cap 0 0 s.count)
      { s with driver := { s.driver with state := .ready, cool := 0 } }
  else s

/-- LEVEL_CAP rises by one (R52). -/
def recoverCap (s : State) : State :=
  if Config.recoveryCount ≤ s.driver.recovery ∧ s.driver.cap < s.params.levelMax then
    { s with driver := { s.driver with cap := s.driver.cap + 1, recovery := 0 } }
  else s

/-- Every step still owed to the last count advance is made before the next one: all but the scrub read, which waits
its turn at the port, and the decision, which lapses (notes/assumptions/2.md). -/
def catchUp (s : State) : State :=
  let s := Phase.all.foldl timeOutSilence s
  let s := meetSettling s
  let s := recoverCap (endCoolDown (saveCount (expireBeaconTimer s)))
  activateAll Config.orderPositions (closingStep s)

/-! ## The count advance (R12) -/

/-- The tracker at a count advance: the silence count of an ACQUIRING phase rises (R6). -/
def Tracker.hush (t : Tracker) : Tracker :=
  if t.state = .acquiring then { t with silence := t.silence + 1 } else t

/-- The Timebase at a count advance at `time` (R12, R6, R16, R22, R23). -/
def Timebase.advance (tb : Timebase) (params : Params) (time : Nat) : Timebase :=
  { tb with
    trackers := ⟨tb.trackers.l1.hush, tb.trackers.l2.hush, tb.trackers.l3.hush⟩
    count := tb.count + 1
    lastAdvance := time
    spacing := false
    settle := if tb.state = .settling then min (tb.settle + 1) params.settleCount else tb.settle
    beaconTimer := if tb.state = .running ∧ tb.status = .confirmed then tb.beaconTimer + 1 else 0
    cadence := tb.cadence + 1 }

/-- The Line Driver at a count advance: the cool count in FAULT (R51), the recovery count below LEVEL_MAX (R52). -/
def LineDriver.advance (d : LineDriver) (levelMax : Nat) : LineDriver :=
  { d with
    cool := if d.state = .fault then d.cool + 1 else d.cool
    recovery := if d.cap < levelMax then d.recovery + 1 else 0 }

/-- The scrub at a count advance: the pace, and at its sixteenth step a read owed (R157). It stops for a WIPE. -/
def RetainedStore.advance (st : RetainedStore) : RetainedStore :=
  if st.wiping.isSome then st
  else if Config.scrubPace ≤ st.scrubPace + 1 then { st with scrubPace := 0, scrubDue := st.scrubDue + 1 }
  else { st with scrubPace := st.scrubPace + 1 }

/-- The counts of every block at a count advance, and the steps it owes (R12). -/
def advanceCounts (time : Nat) (s : State) : State :=
  let s := { s with
    tb := s.tb.advance s.params time
    driver := s.driver.advance s.params.levelMax
    sched := { s.sched with hold := s.sched.hold - 1 }
    store := s.store.advance }
  { s with owed := {
      settleEnd := s.tb.state == .settling && decide (s.params.settleCount ≤ s.tb.settle) && s.anyLocked
      beacon := decide (s.params.beaconInterval ≤ s.tb.beaconTimer)
      activation := if s.confirmed then s.activationList else []
      decision := true } }

/-- A count advance at `time` (R12). -/
def countAdvance (time : Nat) (s : State) : State := advanceCounts time (catchUp s)

/-! ## Crossings -/

/-- A crossing handed to the Exchange Engine (R11): for a phase of the transmission the count of crossings
rises, from the crossing that anchors the lead cell on (R134). An exchange follows its first node's phase to offset
T − 1. -/
def handOn (p : Phase) (time : Nat) (s : State) : State :=
  let s := s.setTracker p { s.tracker p with lastHanded := some time }
  match s.engine.transmission with
  | none => s
  | some t =>
    let seen := s.engine.seen.get p
    let limit := (t.exchange.map (·.span)).getD t.burst.length
    let next := if seen = 0 then (if t.anchor ≤ time then 1 else 0) else min (seen + 1) limit
    if t.phases.get p then { s with engine := { s.engine with seen := s.engine.seen.set p next } } else s

/-- The crossing advances L: it is one of the reference in RUNNING or SETTLING and lies at least P div 2 after the
last advance where that is asked (R12). -/
def State.advances (s : State) (p : Phase) (time : Nat) : Bool :=
  s.tb.state != .outage && s.tb.reference == some p &&
    (!s.tb.spacing || decide (s.tb.lastAdvance + (s.tracker p).period / 2 ≤ time))

/-- A crossing of a LOCKED or COASTING phase: handed on, and a count advance where it is one (R11, R12). An end of settling
still owed to the last count advance comes first, so that the crossing is judged against the reference chosen at it
(R17). -/
def crossing (p : Phase) (time : Nat) (s : State) : State :=
  let s := handOn p time (meetSettling s)
  if s.advances p time then countAdvance time s else s

/-! ## Edges (R2 to R10) -/

/-- A run of samples at the input filter (R2): the filter after it, and whether an edge is accepted. The first
sample after power-on settles the level. -/
def filterRun (f : FilterLength) (settled : Option Bool) (level : Bool) (run : Nat) : Option Bool × Bool :=
  match settled with
  | none => if run = 0 then (none, false) else (some level, false)
  | some old =>
    if old = level then (some old, false)
    else if filterSamples f ≤ run then (some level, true)
    else (some old, false)

/-- The edge mode presents the edge to the tracker (R3). -/
def presented (e : EdgeMode) (level : Bool) : Bool :=
  match e with
  | .both => true
  | .rising => level

/-- The tracker after a crossing accepted in LOCKED or COASTING, or in ACQUIRING with an in-range interval: the
crossing becomes the last, and P follows the interval (R6, R8). -/
def Tracker.accept (t : Tracker) (e : EdgeMode) (last time : Nat) : Tracker :=
  { t with
    period := updatePeriod t.period (intervalOf e last time)
    last := some time
    lastFull := if e = .rising then some (time - last) else t.lastFull }

/-- A presented crossing in ABSENT: an enabled phase starts to acquire (R5). -/
def Tracker.start (t : Tracker) (nominal time : Nat) : Tracker :=
  { t with state := .acquiring, last := some time, period := nominal, acquire := 0, silence := 0 }

/-- The tracker locked by the crossing that is now its last (R6, R10). R6 and R10 name the miss count; the acquire, return
and coast counts, done with, are 0: DEDUCED, notes/assumptions/19.md. -/
def Tracker.lock (t : Tracker) (e : EdgeMode) : Tracker :=
  { t with
    state := .locked, acquire := 0, silence := 0, miss := 0, ret := 0, coast := 0
    derivedDue := e == .rising }

/-- What a crossing presented to a tracker makes of it, before the other blocks respond. -/
inductive TrackerStep where
  /-- The tracker only; no crossing of the phase. -/
  | quiet (t : Tracker)
  /-- A crossing that locks the phase. -/
  | locks (t : Tracker)
  /-- A crossing of the phase in its state. -/
  | crosses (t : Tracker)
  deriving DecidableEq, Repr

/-- A crossing presented to the tracker at `time` (R4 to R10). -/
def presentCrossing (params : Params) (p : Phase) (time : Nat) (t : Tracker) : TrackerStep :=
  let f := params.nominalFreq
  let e := params.edge.get p
  match t.state with
  | .absent => if params.enable.get p then .quiet (t.start (nominalPeriod f) time) else .quiet t
  | .acquiring =>
    if t.ignoreNext then .quiet { t with ignoreNext := false }
    else
      match t.last with
      | none => .quiet { t with last := some time, silence := 0 }
      | some last =>
        if inRange f (intervalOf e last time) then
          let t' := { t.accept e last time with silence := 0 }
          if Config.acquireLimit ≤ t.acquire + 1 then .locks (t'.lock e)
          else .quiet { t' with acquire := t.acquire + 1 }
        else .quiet { t with last := some time, silence := 0, acquire := 0 }
  | .locked =>
    match t.last with
    | none => .quiet t
    | some last =>
      if insideWindow f e t last time then
        .crosses { t.accept e last time with miss := 0, derivedDue := e == .rising }
      else .quiet t
  | .coasting =>
    match t.last with
    | none => .quiet t
    | some last =>
      if insideWindow f e t last time then
        if Config.returnLimit ≤ t.ret + 1 then .locks ((t.accept e last time).lock e)
        else .crosses { t.accept e last time with ret := t.ret + 1, coast := 0, derivedDue := e == .rising }
      else .quiet t

/-- The response of the part to a tracker's step: entering LOCKED first, then the crossing (R14). An end of settling owed
to the last count advance comes before the phase locks (R17). -/
def respond (p : Phase) (time : Nat) (s : State) : TrackerStep → State
  | .quiet t => s.setTracker p t
  | .locks t => crossing p time (phaseLocked p ((meetSettling s).setTracker p t))
  | .crosses t => crossing p time (s.setTracker p t)

/-- What a run of samples does to the phase's tracker: the filter, the edge mode, then the tracker (R2, R3). The whole run
is judged with the filter length held when its command runs, also where a ZC_FILTER write came while the run was under
way: DESIGN CHOICE, notes/assumptions/10.md. -/
def edgeStep (s : State) (p : Phase) (time : Nat) (level : Bool) (run : Nat) : TrackerStep :=
  let t := s.tracker p
  let (settled, edge) := filterRun (s.params.filter.get p) t.settled level run
  let t' := { t with settled := settled }
  if edge && presented (s.params.edge.get p) level then presentCrossing s.params p time t' else .quiet t'

/-- A run of samples on a phase's input, with all that follows from it (R2). -/
def takeEdge (p : Phase) (time : Nat) (level : Bool) (run : Nat) (s : State) : State :=
  respond p time s (edgeStep s p time level run)

/-! ## Synthesised and derived crossings -/

/-- The tracker with a synthesised crossing at `time`: the last crossing, and P unchanged (R7, R8). -/
def Tracker.synthesise (t : Tracker) (e : EdgeMode) (time : Nat) : Tracker :=
  { t with
    last := some time
    lastFull := if e = .rising then some (2 * t.period) else t.lastFull
    derivedDue := e == .rising }

/-- The third consecutive synthesised crossing takes a LOCKED phase to COASTING; the crossing advances L first
(R9). The miss count, 0..2 by the state table, is 0 then: DEDUCED, notes/assumptions/19.md. -/
def enterCoasting (p : Phase) (s : State) : State :=
  losePhase p (s.setTracker p { s.tracker p with state := .coasting, miss := 0, ret := 0, coast := 0 })

/-- The phase becomes ABSENT at the end of a coast (R10, R5), and the reference responds (R13). -/
def endCoast (p : Phase) (s : State) : State :=
  checkReference (s.setTracker p { s.tracker p with
    state := .absent, last := none, acquire := 0, silence := 0, miss := 0, ret := 0, coast := 0,
    derivedDue := false })

/-- The window of a LOCKED or COASTING phase closes with no edge accepted: a crossing is synthesised at the predicted
time, with all that follows from it (R7, R9, R10). -/
def closeWindow (p : Phase) (s : State) : State :=
  let t := s.tracker p
  let e := s.params.edge.get p
  match t.last with
  | none => s
  | some last =>
    let time := predicted e t last
    let t' := t.synthesise e time
    match t.state with
    | .absent => s
    | .acquiring => s
    | .locked =>
      let s' := crossing p time (s.setTracker p { t' with miss := t.miss + 1 })
      if Config.missLimit ≤ t.miss + 1 then enterCoasting p (meetSettling s') else s'
    | .coasting =>
      let s' := crossing p time (s.setTracker p { t' with ret := 0, coast := t.coast + 1 })
      if Config.coastLimit ≤ t.coast + 1 then endCoast p (meetSettling s') else s'

/-- The time of the derived crossing that follows the last rising crossing (R3). -/
def derivedTime (t : Tracker) (last : Nat) : Nat := last + (t.lastFull.getD (2 * t.period)) / 2

/-- The derived crossing of a phase in RISING mode falls (R3). -/
def deriveCrossing (p : Phase) (s : State) : State :=
  let t := s.tracker p
  match t.last with
  | none => s
  | some last =>
    if t.derivedDue && t.tracked && s.params.edge.get p == .rising then
      crossing p (derivedTime t last) (s.setTracker p { t with derivedDue := false })
    else s

/-- The crystal interval expires (R15): L advances, and the next term of the pattern begins. -/
def crystalStep (s : State) : State :=
  let time := s.tb.lastAdvance + s.tb.crystalSpan
  let s := countAdvance time s
  let pos := if s.tb.crystalRestart ∨ s.params.nominalFreq = .hz50 then 0 else (s.tb.crystalPos + 1) % 3
  { s with tb := { s.tb with
      crystalPos := pos, crystalSpan := crystalTerm s.params.nominalFreq pos, crystalRestart := false } }

/-! ## The configuration restart (R4) -/

/-- A phase's tracker after a configuration restart; the filter's settled level is kept (R4). -/
def Tracker.restart (t : Tracker) (enabled : Bool) (nominal : Nat) : Tracker :=
  { t with
    state := if enabled then .acquiring else .absent
    period := nominal, last := none, lastFull := none
    acquire := 0, silence := 0, miss := 0, ret := 0, coast := 0, ignoreNext := true, derivedDue := false }

/-- The tracker of one phase restarted. -/
def restartTracker (s : State) (p : Phase) : State :=
  s.setTracker p ((s.tracker p).restart (s.params.enable.get p) (nominalPeriod s.params.nominalFreq))

/-- The configuration restart of several phases at one moment: their trackers, then the Engine for each phase that
was LOCKED, then the reference and the device timebase (R4, R13, R143; the order is a DESIGN CHOICE,
notes/assumptions/4.md). An end of settling owed to the last count advance comes before a phase leaves its state
(R17). -/
def restartPhases (ps : List Phase) (s : State) : State :=
  let s := meetSettling s
  let lost := ps.filter s.locked
  let s := ps.foldl restartTracker s
  checkReference (lost.foldl (fun s p => losePhase p s) s)

end Sys2Proof.Machine
end

