-- ==== Sys2Proof/Machine/Scheduler.lean ====
section
/-! DEFINITION. The decision point: what is owed, how it is built, and the hand-over (06_delivery_scheduling.md,
R110 to R125). -/

namespace Sys2Proof.Machine

/-! ## Building (R120 to R122, R125) -/

/-- The level of a build: LEVEL_BASE + max(0, (Q_TARGET − Q) div 2) + 2 × attempts, clamped to 0..LEVEL_CAP
(R122). -/
def State.buildLevel (s : State) (quality attempts : Nat) : Nat :=
  min s.driver.cap (s.params.levelBase + (s.params.qTarget - quality) / 2 + 2 * attempts)

/-- The phase tried for a receiver of UNKNOWN phase sent direct: attempts modulo 3 (R121). -/
def rotatedPhase (attempts : Nat) : Phase :=
  if attempts % 3 = 0 then .l1 else if attempts % 3 = 1 then .l2 else .l3

/-- The burst kind of a delivery exchange (R120). -/
def deliveryKind (revoking : Bool) (sent attempts : Nat) : BurstKind :=
  if revoking then .revoke else if 0 < sent ∧ attempts = 0 then .poll else .order

/-- The phase of the first node: the first relay's as its record holds it, or the receiver's, or the phase given
(R121, R125). -/
def State.firstNodePhase (s : State) (r : Receiver) (path : List Addr) (otherwise : Phase) : Phase :=
  match path with
  | [] => r.phase.getD otherwise
  | a :: _ => ((s.receiverAt a).bind (·.2.phase)).getD otherwise

/-- The delivery exchange built for an entry of a receiver and its order (R120 to R122). -/
def State.buildDelivery (s : State) (o : Order) (f : SlotFields) (r : Receiver) (e : Entry) : Build :=
  let kind := deliveryKind o.isRevoking f.sent e.attempts
  let path := if e.attempts < s.params.relayAfter then [] else (s.usablePath r).getD []
  { kind := kind
    path := path
    phase := s.firstNodePhase r path (rotatedPhase e.attempts)
    carrier := r.carrier
    level := s.buildLevel r.quality e.attempts
    span := exchangeSpan kind path.length }

/-- A span started now ends at or before the order's seal point (R114). -/
def State.fits (s : State) (o : Order) (span : Nat) : Bool :=
  decide (0 ≤ dist o.sealPoint (later s.count span))

/-- The order is within reach (R113). -/
def State.withinReach (s : State) (o : Order) : Bool := decide (dist o.activation s.count ≤ Config.leadMax)

/-- The entry is eligible with the exchange built for it (R118). -/
def State.eligible (s : State) (o : Order) (r : Receiver) (e : Entry) (b : Build) : Bool :=
  !r.damaged && (o.isActive || o.isRevoking) && !o.owesRepeat && s.withinReach o &&
    decide (dist e.nextTry s.count ≤ 0) && s.locked b.phase && s.fits o b.span

/-- The order's seal point lies within URGENT_WINDOW (R119). -/
def State.urgent (s : State) (o : Order) : Bool := decide (dist o.sealPoint s.count ≤ Config.urgentWindow)

/-- A delivery chosen for the line. -/
structure Candidate where
  position : Nat
  order    : Order
  fields   : SlotFields
  index    : Nat
  receiver : Receiver
  entry    : Entry
  build    : Build
  deriving DecidableEq, Repr

/-- The eligible entries of an order, in ascending index order (R118). -/
def State.eligibleEntries (s : State) (n : Nat) (o : Order) (f : SlotFields) : List Candidate :=
  s.table.filterMap fun ir =>
    match ir.2.entryFor f.slot with
    | none => none
    | some e =>
      let b := s.buildDelivery o f ir.2 e
      if s.eligible o ir.2 e b then some ⟨n, o, f, ir.1, ir.2, e, b⟩ else none

/-- The candidate with the fewest attempts, the first of them among equals (R119). -/
def fewestAttempts : List Candidate → Option Candidate
  | [] => none
  | c :: rest =>
    match fewestAttempts rest with
    | none => some c
    | some d => if d.entry.attempts < c.entry.attempts then some d else some c

/-- The delivery chosen among all eligible entries, or among the urgent ones: the order earliest in store order,
then the fewest attempts, then the lowest index (R119). -/
def State.chooseDelivery (s : State) (urgentOnly : Bool) : Option Candidate :=
  s.storeOrder.findSome? fun no =>
    match no.2.fields with
    | none => none
    | some f => if urgentOnly && !s.urgent no.2 then none else fewestAttempts (s.eligibleEntries no.1 no.2 f)

/-! ## Repeats (R116, R117) -/

/-- The burst kind of an order's repeats (R117). -/
def repeatKind (o : Order) : BurstKind := if o.isRevoking then .revoke else .order

/-- An order's owed repeats are abandoned when the next can no longer end before the seal point (R116). -/
def abandonRepeat (s : State) (n : Nat) : State :=
  match s.order n with
  | none => s
  | some o =>
    if o.owesRepeat && !s.fits o (repeatSpan (repeatKind o)) then
      putOrder n (o.mapFields fun f => { f with abandoned := true }) s
    else s

/-- The abandonment made first at every decision point (R116). Several orders are taken in ascending position order: DESIGN
CHOICE, notes/assumptions/60.md. -/
def abandonRepeats (s : State) : State := (s.orders.orders.map Prod.fst).foldl abandonRepeat s

/-- The order's repeat may be sent now (R116). -/
def State.repeatReady (s : State) (o : Order) : Bool :=
  o.owesRepeat && s.withinReach o && o.fields.any fun f => decide (dist f.nextRepeat s.count ≤ 0)

/-- The repeat chosen: of the orders that may send one, the earliest in store order (R116). -/
def State.chooseRepeat (s : State) : Option (Nat × Order × SlotFields) :=
  if s.anyLocked then
    (s.storeOrder.find? fun no => s.repeatReady no.2).bind fun no => no.2.fields.map fun f => (no.1, no.2, f)
  else none

/-- The burst of a repeat (R117). -/
def repeatBurst (o : Order) : Burst :=
  if o.isRevoking then .revoke (addrOfTarget o.target) o.tag []
  else .order (addrOfTarget o.target) o.tag o.action o.parameter (o.activation.truncate 16) o.spread []

/-- The burst of an exchange (R120). -/
def exchangeBurst (b : Build) (target : Addr) (o : Order) : Burst :=
  match b.kind with
  | .order => .order target o.tag o.action o.parameter (o.activation.truncate 16) o.spread b.path
  | .revoke => .revoke target o.tag b.path
  | .poll => .poll target b.path

/-! ## The hand-over (R123, R110, R135) -/

/-- What an exchange adds to its transmission (R123). -/
def exchangeTimes (b : Build) (target : Addr) : ExchangeTimes where
  hops := b.path.length
  relay := if b.path.isEmpty then 0 else burstCells b.kind (b.path.length - 1)
  span := b.span
  window := answerSlot b.kind
  first := b.phase
  low := target.truncate 16

/-- A phase whose crossing at or after the reference crossing has been handed on already counts it (R134). -/
def State.anchored (s : State) (anchor : Nat) (p : Phase) : Nat :=
  if (s.tracker p).lastHanded.any (fun t => decide (anchor ≤ t)) then 1 else 0

/-- The transmission handed to the Engine (R123, R135): the hold set to its span plus 2 (R110), the level buffer and
the carrier selection loaded, and for an exchange the Answer Receiver armed (R54). -/
def handOver (kind : HandOverKind) (burst : Burst) (phases : PerPhase Bool) (level : Nat)
    (carrier : CarrierSelection) (span : Nat) (exchange : Option ExchangeTimes) (s : State) : State :=
  let anchor := s.tb.lastAdvance
  { s with
    sched := { s.sched with hold := span + Config.gap, handOver := some ⟨s.count, kind⟩ }
    engine := {
      state := .preparing
      transmission := some ⟨s.count, burst, phases, level, carrier, exchange, anchor⟩
      live := phases
      seen := ⟨s.anchored anchor .l1, s.anchored anchor .l2, s.anchored anchor .l3⟩
      opened := .const 0
      displacement := 0
      folded := false
      abortCause := none
      outcome := none
      report := none
      withheld := [] }
    driver := { s.driver with buffer := level }
    carrier := { s.carrier with selection := carrier }
    answer :=
      match exchange with
      | none => s.answer
      | some x => { s.answer with mode := .armed, phase := some x.first, relayHeard := false } }

/-- The phase set of one phase. -/
def onePhase (p : Phase) : PerPhase Bool := (PerPhase.const false).set p true

/-- The level of a beacon or repeat: LEVEL_BROADCAST clamped to 0..LEVEL_CAP (R115, R117). -/
def State.broadcastLevel (s : State) : Nat := min s.driver.cap s.params.levelBroadcast

/-- The order's transmission started becomes yes, and the order is written (R98, R123), also where it stood at yes: DESIGN
CHOICE, notes/assumptions/54.md. -/
def startTransmission (n : Nat) (s : State) : State :=
  changeOrder n (fun o => o.mapFields fun f => { f with started := true }) s

/-- A beacon handed over (R115). -/
def handOverBeacon (s : State) : State :=
  handOver .beacon (.beacon s.params.stationId s.count) s.lockedPhases s.broadcastLevel .primary beaconSpan none s

/-- A repeat handed over (R117). -/
def handOverRepeat (n : Nat) (o : Order) (f : SlotFields) (s : State) : State :=
  handOver (.repeats ⟨f.slot, o.admission, o.isRevoking⟩) (repeatBurst o) s.lockedPhases s.broadcastLevel .primary
    (repeatSpan (repeatKind o)) none (startTransmission n s)

/-- A delivery exchange handed over (R123). -/
def handOverDelivery (c : Candidate) (s : State) : State :=
  let address := c.receiver.address.getD 0
  handOver
    (.delivery ⟨c.index, address, c.fields.slot, c.order.tag, c.order.admission, c.order.isRevoking,
      c.entry.attempts, c.build, false⟩)
    (exchangeBurst c.build address c.order) (onePhase c.build.phase) c.build.level c.build.carrier c.build.span
    (some (exchangeTimes c.build address)) (startTransmission c.position s)

/-- A probe handed over (R125). -/
def handOverProbe (p : Probe) (b : Build) (s : State) : State :=
  handOver (.probe ⟨p, b, false⟩) (.poll p.address b.path) (onePhase b.phase) b.level b.carrier b.span
    (some (exchangeTimes b p.address)) s

/-- The exchange built for a probe over a path (R125). -/
def State.buildProbe (s : State) (p : Probe) (r : Receiver) (path : List Addr) : Build where
  kind := .poll
  path := path
  phase := if p.viaPath then s.firstNodePhase r path .l2 else p.phase.getD (r.phase.getD .l2)
  carrier := r.carrier
  level := s.buildLevel r.quality 1
  span := exchangeSpan .poll path.length

/-- What the probe candidate yields (R125). -/
inductive ProbeStep where
  /-- No probe can be handed over at this decision point. -/
  | passedOver
  /-- The oldest probe's path has become unusable: it is withdrawn. -/
  | withdrawn (p : Probe)
  | built (p : Probe) (b : Build)
  deriving DecidableEq, Repr

/-- The oldest probe examined (R125). -/
def State.examineProbe (s : State) : ProbeStep :=
  match s.sched.probes with
  | [] => .passedOver
  | p :: _ =>
    match s.receiver p.index with
    | none => .passedOver
    | some r =>
      match p.viaPath, s.usablePath r with
      | true, none => .withdrawn p
      | true, some path =>
        let b := s.buildProbe p r path
        if s.locked b.phase then .built p b else .passedOver
      | false, _ =>
        let b := s.buildProbe p r []
        if s.locked b.phase then .built p b else .passedOver

/-- The queue without its oldest probe. -/
def dropProbe (s : State) : State := { s with sched := { s.sched with probes := s.sched.probes.tail } }

/-- The delivery candidate, examined last (R112). -/
def decideDelivery (s : State) : State :=
  match s.chooseDelivery false with
  | some c => handOverDelivery c s
  | none => s

/-- The candidates from the probe on (R112). -/
def decideProbe (s : State) : State :=
  match s.examineProbe with
  | .built p b => handOverProbe p b (dropProbe s)
  | .withdrawn p => decideDelivery (noteWithdrawn (dropProbe s) p)
  | .passedOver => decideDelivery s

/-- The candidates after the beacon, in their preference (R112). -/
def decideOrders (s : State) : State :=
  match s.chooseRepeat with
  | some (n, o, f) => handOverRepeat n o f s
  | none =>
    match s.chooseDelivery true with
    | some c => handOverDelivery c s
    | none => decideProbe s

/-- The decision: repeats that can no longer be sent are abandoned, then the first candidate that yields a
transmission is handed over (R112, R116). -/
def decideLine (s : State) : State :=
  let s := abandonRepeats { s with owed := { s.owed with decision := false } }
  if s.tb.beaconDue && s.anyLocked then handOverBeacon s else decideOrders s

/-- The count advance is a decision point (R111). -/
def State.isDecisionPoint (s : State) : Bool :=
  s.working && s.owed.decision && decide (s.sched.hold = 0) && s.sched.handOver.isNone &&
    s.driver.state == .ready && s.tb.state == .running && s.confirmed

/-- DECISION_POINT (R111). -/
def execDecisionPoint (s : State) : Host.Outcome State Fault Refusal :=
  when s.isDecisionPoint s (decideLine s)

end Sys2Proof.Machine
end

