-- ==== Sys2Proof/Machine/Line.lean ====
section
/-! DEFINITION. The meanings of the commands on the line: the cell windows of the part's leg, over-current, the relay
span and the answer window (03 and 07). -/

namespace Sys2Proof.Machine

/-! ## The part's leg -/

/-- The divider that the carrier selection names, as it now stands (R45). -/
def State.selectedDivider (s : State) : Nat :=
  match s.carrier.selection with
  | .primary => s.params.carrierPrimary
  | .alternate => s.params.carrierAlternate

/-- The history with an unmarked entry appended, the oldest removed past 64 (R46). -/
def appendLeg (h : List Bool) : List Bool :=
  let h' := h ++ [false]
  if Config.historyLength < h'.length then h'.drop 1 else h'

/-- The leg opens at the lead cell window (R46, R45, R54): its level, its history entry, the latched divider, which an
armed Answer Receiver takes, and the Engine in SENDING. -/
def openTheLeg (s : State) : State :=
  let level := min s.driver.buffer s.driver.cap
  { s with
    driver := { s.driver with
      legLevel := level
      openLeg := some ⟨s.engine.live, level, [], false⟩
      history := appendLeg s.driver.history }
    carrier := { s.carrier with latched := s.selectedDivider }
    answer := { s.answer with
      divider := if s.answer.mode = .idle then s.answer.divider else s.selectedDivider }
    engine := { s.engine with state := .sending } }

/-- The cell window that follows the phase's latest crossing is one of the transmission's, not yet opened: the phase
is live, and the first window of all is the lead cell's (R135, R136). No window opens, and no cell is reported withheld, on
a phase of the leg that is live no more: DESIGN CHOICE, notes/assumptions/56.md. -/
def State.windowComes (s : State) (p : Phase) : Bool :=
  match s.engine.transmission with
  | none => false
  | some t =>
    let seen := s.engine.seen.get p
    s.engine.live.get p && decide (s.engine.opened.get p < seen) && decide (seen ≤ t.burst.length) &&
      ((s.engine.state == .preparing && decide (seen = 1)) || s.engine.state == .sending)

/-- The conditions of R47 that fail for the phase, in the order R47 names them. -/
def State.withholds (s : State) (p : Phase) : List WithheldCause :=
  (if s.locked p then [] else [.phaseNotLocked]) ++ (if s.tb.state = .running then [] else [.notRunning]) ++
    (if s.confirmed then [] else [.unconfirmed]) ++ (if s.driver.state = .ready then [] else [.driverFault])

/-- Every condition of R47 holds for the phase. -/
def State.maySend (s : State) (p : Phase) : Bool :=
  s.locked p && s.tb.state == .running && s.confirmed && s.driver.state == .ready

/-- The offset `k` noted among those whose cell has been sent. -/
def noteSent (k : Nat) (l : List Nat) : List Nat := if k ∈ l then l else k :: l

/-- The time at which the cell window after the phase's latest crossing opens (R26). -/
def State.windowTime (s : State) (p : Phase) : Nat := (s.tracker p).lastHanded.getD 0 + Config.windowOffset

/-- The window is open at `time`: from its opening for 4,000 µs (R26). -/
def CellWindow.openAt (w : CellWindow) (time : Nat) : Bool :=
  decide (w.opens ≤ time) && decide (time < w.opens + Config.windowLength)

/-- What the coupling output of a phase carries at `time`: the cell of a window of the open leg that is open then, and
otherwise nothing, the output being quiet (R26, R44, R47). -/
def State.outputAt (s : State) (p : Phase) (time : Nat) : Option CellWindow :=
  if s.driver.openLeg.isSome then (s.driver.windows.get p).filter (·.openAt time) else none

/-- The symbol of the cell that is sent at `time` (R27). -/
def CellWindow.symbolAt (w : CellWindow) (time : Nat) : Bool := w.symbols.getLsbD (symbolNumber (time - w.opens))

/-- The tone in hertz that the coupling output of a phase carries at `time`: that of the symbol then sent, and none where
the output is quiet (R27, R44). -/
def State.toneAt (s : State) (p : Phase) (time : Nat) : Option Nat :=
  (s.outputAt p time).map fun w => toneOf w.divider (w.symbolAt time)

/-- The cell at offset `k` of the burst sent on the phase, in the window now opening, at the lesser of the leg level and
LEVEL_CAP (R47). Each phase's window is watched for over-current on its own: DESIGN CHOICE, notes/assumptions/12.md. A cap
lowered below the leg level and raised again since the last window leaves the level as it was (R53): DESIGN CHOICE,
notes/assumptions/65.md. -/
def sendCell (p : Phase) (k : Nat) (burst : Burst) (s : State) : State :=
  let level := min s.driver.legLevel s.driver.cap
  { s with driver := { s.driver with
      legLevel := level
      windows := s.driver.windows.set p (some ⟨s.windowTime p, burst.symbolsAt k, level, s.carrier.latched, false⟩)
      openLeg := s.driver.openLeg.map fun leg => { leg with sent := noteSent k leg.sent } } }

/-- The window noted as opened on the phase. -/
def noteOpened (p : Phase) (s : State) : State :=
  { s with engine := { s.engine with opened := s.engine.opened.set p (s.engine.seen.get p) } }

/-- The Line Driver's report of a withheld cell to the Engine: its phase, its offset and every condition that failed (R47;
notes/assumptions/55.md). -/
def reportWithheld (p : Phase) (k : Nat) (s : State) : State :=
  { s with engine := { s.engine with withheld := s.engine.withheld ++ [⟨p, k, s.withholds p⟩] } }

/-- A cell window opens on a phase: the leg opens with the first of them, and the cell is sent or withheld; a withheld
cell is reported, and is the loss of its phase (R46, R47, R135, R136, R144). -/
def openWindow (p : Phase) (s : State) : State :=
  match s.engine.transmission with
  | none => s
  | some t =>
    let s := noteOpened p s
    let s := if s.engine.state = .preparing then openTheLeg s else s
    let k := s.engine.seen.get p - 1
    if s.maySend p then sendCell p k t.burst s else losePhase p (reportWithheld p k s)

/-- CELL_WINDOW (R47). -/
def execCellWindow (p : Phase) (s : State) : Host.Outcome State Fault Refusal :=
  when (s.powered && s.windowComes p) s (openWindow p s)

/-- The last cell window has closed on every live phase of the open leg, and its cell was sent on one (R136, R138). -/
def State.legDone (s : State) : Bool :=
  match s.engine.transmission, s.driver.openLeg with
  | some t, some leg =>
    s.engine.state == .sending && !noPhase s.engine.live && decide (t.burst.length - 1 ∈ leg.sent) &&
      Phase.all.all fun p => !s.engine.live.get p || decide (t.burst.length ≤ s.engine.opened.get p)
  | some _, none => false
  | none, _ => false

/-- A completed repeat counted, when the slot is still held by the same order in the same state (R117). -/
def countRepeat (start : Count) (r : RepeatRecord) (s : State) : State :=
  match s.heldBy r.slot r.admission r.revoking with
  | none => s
  | some (n, o) =>
    let next := later start s.params.repeatSpacing + BitVec.ofInt 32 s.engine.displacement
    putOrder n (o.mapFields fun f => { f with sent := f.sent + 1, nextRepeat := next }) s

/-- The completed leg of a beacon or repeat reported to its owner (R138). -/
def reportBroadcast (s : State) : State :=
  match s.sched.handOver with
  | none => s
  | some h =>
    match h.kind with
    | .beacon => { s with tb := { s.tb with beaconDue := false } }
    | .repeats r => countRepeat h.start r s
    | .delivery _ => s
    | .probe _ => s

/-- The part's leg completes: a beacon or repeat ends, an exchange goes on to RELAYING or LISTENING (R137, R138). -/
def completeLeg (s : State) : State :=
  match s.engine.transmission with
  | none => s
  | some t =>
    let s := endLeg true s
    match t.exchange with
    | none => finishTransmission (reportBroadcast s)
    | some x => { s with engine := { s.engine with state := if 0 < x.hops then .relaying else .listening } }

/-- LEG_COMPLETE (R48, R137, R138). -/
def execLegComplete (s : State) : Host.Outcome State Fault Refusal :=
  when (s.powered && s.legDone) s (completeLeg s)

/-! ## Over-current (R49, R50) -/

/-- The floor of LEVEL_CAP: max(0, LEVEL_MAX − 8) (R49). -/
def capFloor (levelMax : Nat) : Nat := levelMax - Config.capSpan

/-- The leg's entry, the newest in the history, marked (R49). -/
def markNewest (h : List Bool) : List Bool := h.dropLast ++ [true]

/-- A window open at the time of an over-current: its cell goes on at a new level, and no further report in it is an
event (R49). -/
def CellWindow.foldAt (time level : Nat) (w : CellWindow) : CellWindow :=
  if w.openAt time then { w with level := level, reported := true } else w

/-- Every cell window folded that is open at the time of an over-current (R49). -/
def foldWindows (time level : Nat) (x : PerPhase (Option CellWindow)) : PerPhase (Option CellWindow) :=
  ⟨x.l1.map (·.foldAt time level), x.l2.map (·.foldAt time level), x.l3.map (·.foldAt time level)⟩

/-- Fold-back, from the moment of the event on, and the lowered cap of any over-current event (R49, R145). The level folds
from the leg level held, also where a lowered LEVEL_MAX has left it above the cap: DESIGN CHOICE,
notes/assumptions/57.md. -/
def foldBack (time : Nat) (s : State) : State :=
  let level := s.driver.legLevel - Config.foldStep
  { s with
    driver := { s.driver with
      legLevel := level
      windows := foldWindows time level s.driver.windows
      cap := if capFloor s.params.levelMax < s.driver.cap then s.driver.cap - 1 else s.driver.cap
      recovery := 0 }
    engine := { s.engine with folded := true } }

/-- The first event of a leg: its mark, and FAULT or the FOLD_BACK notice (R49, R50). `before` is the leg level before
the event. -/
def markLeg (before : Nat) (leg : OpenLeg) (s : State) : State :=
  let marked := s.driver.history.count true
  let s := { s with driver := { s.driver with
    history := markNewest s.driver.history, openLeg := some { leg with overCurrent := true } } }
  let fields (cause : DriverCause) :=
    driverFields cause before s.driver.legLevel s.driver.cap marked s.flightCode s.count
  if Config.faultMarks ≤ marked + 1 then
    endEarly .fault (queueNotice .driver 0 (fields .fault)
      { s with driver := { s.driver with state := .fault, cool := 0, history := [] } })
  else queueNotice .driver 0 (fields .foldBack) s

/-- An over-current event at `time` in a sent cell window (R49, R50). -/
def takeOverCurrent (time : Nat) (s : State) : State :=
  match s.driver.openLeg with
  | none => s
  | some leg =>
    let before := s.driver.legLevel
    let s := foldBack time s
    if leg.overCurrent then s else markLeg before leg s

/-- A report of over-current at `time` is an event: it is the first in a window, open then, in which a cell is sent
(R49). -/
def State.overCurrentAt (s : State) (time : Nat) : Bool :=
  Phase.all.any fun p => (s.outputAt p time).any fun w => !w.reported

/-- OVER_CURRENT (R49): a report outside the cell windows of an open leg, or a further one within one window, adds
nothing. -/
def execOverCurrent (s : State) (time : Nat := 0) : Host.Outcome State Fault Refusal :=
  when (s.powered && s.overCurrentAt time) s (takeOverCurrent time s)

/-! ## The Answer Receiver (R54 to R57, R139, R140) -/

/-- The exchange in flight, with the cells of its burst and the crossings counted on the first node's phase. -/
def State.exchangeNow (s : State) : Option (ExchangeTimes × Burst × Nat) :=
  match s.engine.transmission with
  | none => none
  | some t => t.exchange.map fun x => (x, t.burst, s.engine.seen.get x.first)

/-- The noise floor measured over the two gap windows (R55). -/
def measureFloor (gap1 gap2 : Nat) (s : State) : State :=
  { s with answer := { s.answer with floor2 := some (gap1 + gap2) } }

/-- The relay span opens now: offset B(h) + 2 in RELAYING (R54, R139). -/
def State.relaySpanOpens (s : State) : Bool :=
  match s.exchangeNow with
  | none => false
  | some (x, burst, seen) =>
    s.engine.state == .relaying && s.answer.mode == .armed && decide (0 < x.hops) &&
      decide (seen = burst.length + Config.gap + 1)

/-- RELAY_SPAN_OPEN (R54, R55). -/
def execRelaySpanOpen (gap1 gap2 : Nat) (s : State) : Host.Outcome State Fault Refusal :=
  let t := measureFloor gap1 gap2 s
  when (s.powered && s.relaySpanOpens) s { t with answer := { t.answer with mode := .relayWatch } }

/-- The relay span ends: offset B(h) + B(h − 1) + 1 is reached in RELAY_WATCH (R54). -/
def State.relaySpanEnds (s : State) : Bool :=
  match s.exchangeNow with
  | none => false
  | some (x, burst, seen) => s.answer.mode == .relayWatch && decide (burst.length + x.relay + Config.gap ≤ seen)

/-- RELAY_HEARD judged from what was heard in the span (R56). -/
def State.judgeRelay (s : State) (heard : List Window) : Bool :=
  match s.exchangeNow with
  | none => false
  | some (x, burst, _) => relayBurstHeard (s.answer.floor2.getD 0) burst.kind x.hops (heard.take x.relay)

/-- RELAY_SPAN_END (R56). -/
def execRelaySpanEnd (heard : List Window) (s : State) : Host.Outcome State Fault Refusal :=
  when (s.powered && s.relaySpanEnds) s
    { s with answer := { s.answer with mode := .armed, relayHeard := s.judgeRelay heard } }

/-- The answer window opens now: offset T − W (R54, R139). -/
def State.answerWindowOpens (s : State) : Bool :=
  match s.exchangeNow with
  | none => false
  | some (x, _, seen) =>
    (s.engine.state == .relaying || s.engine.state == .listening) &&
      (s.answer.mode == .armed || s.answer.mode == .relayWatch) && decide (seen = x.span - x.window + 1)

/-- ANSWER_WINDOW_OPEN (R139, R55). -/
def execAnswerWindowOpen (gap1 gap2 : Nat) (s : State) : Host.Outcome State Fault Refusal :=
  let t := measureFloor gap1 gap2 s
  when (s.powered && s.answerWindowOpens) s
    { t with
      answer := { t.answer with mode := .answerWindow }
      engine := { t.engine with state := .listening } }

/-- The answer window ends: offset T − 1 in ANSWER_WINDOW (R57, R140). -/
def State.answerWindowEnds (s : State) : Bool :=
  match s.exchangeNow with
  | none => false
  | some (x, _, seen) =>
    s.engine.state == .listening && s.answer.mode == .answerWindow && decide (x.span ≤ seen)

/-- The Answer Receiver's report on what was heard in the answer window: the outcome, M (0 for NONE), RELAY_HEARD and
the decoded answer (R57). -/
def State.answerOutcome (s : State) (heard : List Window) : Outcome :=
  match s.exchangeNow with
  | none => ⟨.none, 0, false⟩
  | some (x, _, _) =>
    let floor2 := s.answer.floor2.getD 0
    let (result, ws) := classify floor2 x.low (heard.take x.window)
    ⟨result, if result = .none then 0 else marginOf floor2 ws, s.answer.relayHeard⟩

/-- ANSWER_REPORT (R57, R140). -/
def execAnswerReport (heard : List Window) (s : State) : Host.Outcome State Fault Refusal :=
  when (s.powered && s.answerWindowEnds) s (closeExchange (s.answerOutcome heard) (answerIdle s))

end Sys2Proof.Machine
end

