-- ==== Sys2Proof/Machine/ParamOps.lean ====
section
/-! DEFINITION. Parameters: their identifiers, the values they take, and what a taken write brings about (R183, R184,
R189, R24, R53, R66, R132, R149). -/

namespace Sys2Proof.Machine

/-- The parameters (09_the_host_link, Parameters). -/
inductive Param where
  | nominalFreq
  | refPhase
  | phaseEnable
  | zcFilter (p : Phase)
  | zcEdge (p : Phase)
  | settleCount
  | beaconInterval
  | carrierPrimary
  | carrierAlternate
  | levelMax
  | minMargin
  | levelBase
  | qTarget
  | levelBroadcast
  | retryMax
  | relayAfter
  | repeatSpacing
  | linkRate
  | noticeMode
  | stationId
  | noticeLevel (k : NoticeKind)
  deriving DecidableEq, Repr

/-- The parameter table by identifier (09_the_host_link, Parameters). -/
def paramTable : List (Nat × Param) :=
  [(0x01, .nominalFreq), (0x02, .refPhase), (0x03, .phaseEnable), (0x04, .zcFilter .l1), (0x05, .zcFilter .l2),
    (0x06, .zcFilter .l3), (0x07, .zcEdge .l1), (0x08, .zcEdge .l2), (0x09, .zcEdge .l3), (0x0A, .settleCount),
    (0x0B, .beaconInterval)] ++
  [(0x10, .carrierPrimary), (0x11, .carrierAlternate), (0x12, .levelMax), (0x18, .minMargin), (0x20, .levelBase),
    (0x21, .qTarget), (0x22, .levelBroadcast), (0x23, .retryMax), (0x24, .relayAfter), (0x25, .repeatSpacing)] ++
  [(0x30, .linkRate), (0x31, .noticeMode), (0x32, .stationId)] ++
  [(0x40, .noticeLevel .orderActive), (0x41, .noticeLevel .orderClosed), (0x42, .noticeLevel .delivery),
    (0x43, .noticeLevel .probeDone), (0x44, .noticeLevel .timebase), (0x45, .noticeLevel .countUnconfirmed),
    (0x46, .noticeLevel .driver), (0x47, .noticeLevel .store), (0x48, .noticeLevel .link)]

/-- The parameter an identifier names (R183). -/
def paramOf (ident : Byte) : Option Param := lookup paramTable ident.toNat

/-! ## Encodings (R189) -/

/-- The value held, in the encoding of R189. -/
def Params.read (ps : Params) : Param → Nat
  | .nominalFreq => freqCode ps.nominalFreq
  | .refPhase => (phaseCode (some ps.refPhase)).toNat
  | .phaseEnable => enableCode ps.enable
  | .zcFilter p => filterCode (ps.filter.get p)
  | .zcEdge p => edgeCode (ps.edge.get p)
  | .settleCount => ps.settleCount
  | .beaconInterval => ps.beaconInterval
  | .carrierPrimary => ps.carrierPrimary
  | .carrierAlternate => ps.carrierAlternate
  | .levelMax => ps.levelMax
  | .minMargin => ps.minMargin
  | .levelBase => ps.levelBase
  | .qTarget => ps.qTarget
  | .levelBroadcast => ps.levelBroadcast
  | .retryMax => ps.retryMax
  | .relayAfter => ps.relayAfter
  | .repeatSpacing => ps.repeatSpacing
  | .linkRate => rateOf ps.linkRate
  | .noticeMode => modeCode ps.noticeMode
  | .stationId => ps.stationId.toNat
  | .noticeLevel k => levelCode (ps.levels.get k)

/-- A numeric value clamped into its range (R183, R189). -/
def clampTo (lo hi v : Nat) : Nat := max lo (min hi v)

/-- A divider (R183). -/
def dividerOf (v : Nat) : Option Nat := if 84 ≤ v ∧ v ≤ 227 then some v else none

/-- The parameters with a value stored; none where the write is refused with RANGE (R183, R189). -/
def Params.write (ps : Params) (v : Nat) : Param → Option Params
  | .nominalFreq => (decodeCode freqCode [.hz50, .hz60] v).map fun x => { ps with nominalFreq := x }
  | .refPhase =>
    (decodeCode (fun p => (phaseCode (some p)).toNat) Phase.all v).map fun x => { ps with refPhase := x }
  | .phaseEnable =>
    if v ≤ 7 then some { ps with enable := ⟨v.testBit 0, v.testBit 1, v.testBit 2⟩ } else none
  | .zcFilter p =>
    (decodeCode filterCode [.off, .samples4, .samples16, .samples64] v).map fun x =>
      { ps with filter := ps.filter.set p x }
  | .zcEdge p => (decodeCode edgeCode [.both, .rising] v).map fun x => { ps with edge := ps.edge.set p x }
  | .settleCount => some { ps with settleCount := clampTo 50 3000 v }
  | .beaconInterval => some { ps with beaconInterval := clampTo 500 30000 v }
  | .carrierPrimary => (dividerOf v).map fun x => { ps with carrierPrimary := x }
  | .carrierAlternate => (dividerOf v).map fun x => { ps with carrierAlternate := x }
  | .levelMax => some { ps with levelMax := clampTo 0 31 v }
  | .minMargin => some { ps with minMargin := clampTo 10 1000 v }
  | .levelBase => some { ps with levelBase := clampTo 0 31 v }
  | .qTarget => some { ps with qTarget := clampTo 0 63 v }
  | .levelBroadcast => some { ps with levelBroadcast := clampTo 0 31 v }
  | .retryMax => some { ps with retryMax := clampTo 1 15 v }
  | .relayAfter => some { ps with relayAfter := clampTo 0 15 v }
  | .repeatSpacing => some { ps with repeatSpacing := clampTo 20 2000 v }
  | .linkRate =>
    (decodeCode rateOf [.r9600, .r19200, .r57600, .r115200, .r230400] v).map fun x => { ps with linkRate := x }
  | .noticeMode => (decodeCode modeCode [.push, .held] v).map fun x => { ps with noticeMode := x }
  | .stationId => some { ps with stationId := BitVec.ofNat 16 (clampTo 0 65535 v) }
  | .noticeLevel k =>
    (decodeCode levelCode [.off, .normal, .urgent] v).map fun x => { ps with levels := ps.levels.set k x }

/-! ## Effects of a taken write -/

/-- A write of NOMINAL_FREQ: every phase restarted, and in OUTAGE the crystal pattern begins again at the next crystal
advance (R24). -/
def nominalFreqEffect (s : State) : State :=
  let s := if s.tb.state = .outage then { s with tb := { s.tb with crystalRestart := true } } else s
  restartPhases Phase.all s

/-- A write of REF_PHASE: in RUNNING the reference returns to the phase named if it is LOCKED (R14). -/
def refPhaseEffect (s : State) : State :=
  let p := s.params.refPhase
  if s.tb.state = .running ∧ s.locked p ∧ s.tb.reference ≠ some p then moveReference .referenceReturned p s else s

/-- A write of LEVEL_MAX: LEVEL_CAP brought into its new span, the recovery count 0 when the two are equal (R53,
R52). -/
def LineDriver.fitCap (d : LineDriver) (levelMax : Nat) : LineDriver :=
  let cap := clampTo (levelMax - Config.capSpan) levelMax d.cap
  { d with cap := cap, recovery := if cap < levelMax then d.recovery else 0 }

def levelMaxEffect (s : State) : State := { s with driver := s.driver.fitCap s.params.levelMax }

/-- One record at a lowered RETRY_MAX: the entries at or above it removed and counted EXHAUSTED in list order (R66). The
receiver is written once, then the order of each entry, record by record: DESIGN CHOICE, notes/assumptions/59.md. -/
def exhaustRecord (limit : Nat) (s : State) (ir : Nat × Receiver) : State :=
  let gone := ir.2.entries.filter fun e => decide (limit ≤ e.attempts)
  if gone.isEmpty then s
  else
    let r := { ir.2 with entries := ir.2.entries.filter fun e => decide (e.attempts < limit) }
    gone.foldl (fun s e => countFor e.slot Counters.exhaust s) (putReceiver ir.1 r s)

/-- A write of RETRY_MAX: lowered, it removes entries, in ascending index order (R66). -/
def retryMaxEffect (before : Nat) (s : State) : State :=
  if s.params.retryMax < before then s.table.foldl (exhaustRecord s.params.retryMax) s else s

/-- What follows a record with no change of rate left in it. -/
def AfterSent.withoutRate : AfterSent → AfterSent
  | .nothing => .nothing
  | .rate _ => .nothing
  | .softReset => .softReset
  | .wipeDone => .wipeDone

/-- A write of LINK_RATE that changes it: the rate that a notice of the queue was still to bring (R159) is overtaken, so
that the records after the write's reply go at the rate written (R184; notes/assumptions/40.md). -/
def linkRateEffect (before : Params) (s : State) : State :=
  if before.linkRate = s.params.linkRate then s
  else { s with link := { s.link with
    queue := s.link.queue.map fun n => { n with after := n.after.withoutRate } } }

/-- What a taken write brings about beyond the value stored, from the parameters before it (R24, R53, R66, R132,
R184). -/
def paramEffect (before : Params) (s : State) : Param → State
  | .nominalFreq => nominalFreqEffect s
  | .refPhase => refPhaseEffect s
  | .phaseEnable => restartPhases Phase.all s
  | .zcFilter p => restartPhases [p] s
  | .zcEdge p => restartPhases [p] s
  | .levelMax => levelMaxEffect s
  | .retryMax => retryMaxEffect before.retryMax s
  | .settleCount => s
  | .beaconInterval => s
  | .carrierPrimary => s
  | .carrierAlternate => s
  | .minMargin => s
  | .levelBase => s
  | .qTarget => s
  | .levelBroadcast => s
  | .relayAfter => s
  | .repeatSpacing => s
  | .linkRate => linkRateEffect before s
  | .noticeMode => s
  | .stationId => s
  | .noticeLevel _ => s

/-- What the end of a write's reply brings about: a LINK_RATE that changed comes into force (R184). Whether it changed is
judged by the parameter held, not by the rate in force: DESIGN CHOICE, notes/assumptions/62.md. -/
def rateAfter (before now : Params) : AfterSent :=
  if before.linkRate = now.linkRate then .nothing else .rate now.linkRate

/-! ## The defaults, at a WIPE and at configuration damage (R25, R159) -/

/-- The phase's filter, edge mode or enable differs. -/
def changedPhase (a b : Params) (p : Phase) : Bool :=
  a.filter.get p != b.filter.get p || a.edge.get p != b.edge.get p || a.enable.get p != b.enable.get p

/-- Every value given its default, each changed one with the effect of a write: the phases whose configuration changed
restarted, all of them when NOMINAL_FREQ changed, then REF_PHASE, LEVEL_MAX and RETRY_MAX (R25, R159; the order is a
DESIGN CHOICE, notes/assumptions/4.md). -/
def applyDefaults (s : State) : State :=
  let before := s.params
  let s := { s with params := .default }
  let s :=
    if before.nominalFreq = s.params.nominalFreq then
      restartPhases (Phase.all.filter (changedPhase before s.params)) s
    else nominalFreqEffect s
  let s := if before.refPhase = s.params.refPhase then s else refPhaseEffect s
  let s := if before.levelMax = s.params.levelMax then s else levelMaxEffect s
  retryMaxEffect before.retryMax s

end Sys2Proof.Machine
end

