-- ==== Sys2Proof/Machine/Operands.lean ====
section
/-! DEFINITION. Reading request bodies (R188): what each request carries. A body is readable when its length is the one
its flag and count bytes give, no undefined flag bit is set, and every selector-type byte is 0 or 1; every other byte is
judged by the request's owner. -/

namespace Sys2Proof.Machine

/-- The first `n` bytes and the rest, when there are so many. -/
def takeBytes (n : Nat) (l : List Byte) : Option (List Byte × List Byte) :=
  if n ≤ l.length then some (l.take n, l.drop n) else none

/-- One byte and the rest. -/
def takeByte : List Byte → Option (Byte × List Byte)
  | [] => none
  | b :: rest => some (b, rest)

/-- The address three bytes hold. -/
def addrOf (l : List Byte) : Addr := BitVec.ofNat 24 (ofBytes l)

/-- The count four bytes hold. -/
def countOf (l : List Byte) : Count := BitVec.ofNat 32 (ofBytes l)

/-- The addresses of a path, three bytes each. -/
def readAddrs : List Byte → List Addr
  | a :: b :: c :: rest => addrOf [a, b, c] :: readAddrs rest
  | _ => []

/-- `m` addresses and the rest. -/
def takeAddrs (m : Nat) (l : List Byte) : Option (List Addr × List Byte) :=
  (takeBytes (3 * m) l).map fun x => (readAddrs x.1, x.2)

/-- A count byte with as many bytes after it, and the rest. -/
def takeCounted (l : List Byte) : Option (List Byte × List Byte) :=
  (takeByte l).bind fun x => takeBytes x.1.toNat x.2

/-- A field whose flag is set, and the rest; nothing when its flag is clear. -/
def flagged {α : Type} (flag : Bool) (read : List Byte → Option (α × List Byte)) (l : List Byte) :
    Option (Option α × List Byte) :=
  if flag then (read l).map fun x => (some x.1, x.2) else some (none, l)

/-- Nothing is left of the body. -/
def ended {α : Type} (x : α × List Byte) : Option α := if x.2.isEmpty then some x.1 else none

/-- An empty body. -/
def readNothing (l : List Byte) : Option Unit := if l.isEmpty then some () else none

/-- A body of one byte. -/
def readOne (l : List Byte) : Option Byte := (takeByte l).bind ended

/-! ## Selectors -/

/-- What names a receiver (R67, R188). -/
inductive Selector where
  | address (a : Addr)
  | index (n : Nat)
  deriving DecidableEq, Repr

/-- A receiver selector and the rest (R188). -/
def takeSelector (l : List Byte) : Option (Selector × List Byte) :=
  (takeBytes 4 l).bind fun x =>
    match x.1 with
    | t :: value =>
      if t = 0 then some (.address (addrOf value), x.2)
      else if t = 1 then some (.index (ofBytes value), x.2)
      else none
    | [] => none

/-- A body of a receiver selector alone. -/
def readSelector (l : List Byte) : Option Selector := (takeSelector l).bind ended

/-- What names an order (R99, R188). -/
inductive OrderSelector where
  | tag (n : Nat)
  | position (n : Nat)
  deriving DecidableEq, Repr

def readOrderSelector (l : List Byte) : Option OrderSelector :=
  match l with
  | [t, v] => if t = 0 then some (.tag v.toNat) else if t = 1 then some (.position v.toNat) else none
  | _ => none

/-! ## Bodies -/

/-- What an ORDER_ADD carries (R87, R188). -/
structure OrderAdd where
  target     : Addr
  action     : Byte
  parameter  : Nat
  activation : Count
  spread     : Nat
  repeats    : Nat
  hostRef    : Option (BitVec 16)
  deriving DecidableEq, Repr

def readOrderAdd (l : List Byte) : Option OrderAdd :=
  match l with
  | flags :: t2 :: t1 :: t0 :: action :: parameter :: a3 :: a2 :: a1 :: a0 :: spread :: repeats :: rest =>
    let order (r : Option (BitVec 16)) : OrderAdd :=
      ⟨addrOf [t2, t1, t0], action, parameter.toNat, countOf [a3, a2, a1, a0], spread.toNat, repeats.toNat, r⟩
    match rest with
    | [] => if flags = 0 then some (order none) else none
    | [h1, h0] => if flags = 1 then some (order (some (BitVec.ofNat 16 (ofBytes [h1, h0])))) else none
    | _ => none
  | _ => none

/-- What an RX_ADD carries (R68, R188). -/
structure RxAdd where
  address : Addr
  phase   : Byte
  groups  : List Byte
  path    : List Addr
  quality : Option Byte
  deriving DecidableEq, Repr

def readRxAdd (l : List Byte) : Option RxAdd :=
  (takeByte l).bind fun flags =>
  (takeBytes 3 flags.2).bind fun address =>
  (takeByte address.2).bind fun phase =>
  (takeCounted phase.2).bind fun groups =>
  (takeByte groups.2).bind fun m =>
  (takeAddrs m.1.toNat m.2).bind fun path =>
  (flagged (flags.1 == 1) takeByte path.2).bind fun quality =>
  if flags.1.toNat ≤ 1 then ended (⟨addrOf address.1, phase.1, groups.1, path.1, quality.1⟩, quality.2) else none

/-- The path instruction of an RX_UPDATE; any code but 0, 1 and 2 is left to the owner (R188), with no byte after it:
DESIGN CHOICE, notes/assumptions/50.md. -/
inductive PathInstruction where
  | keep
  | clear
  | set (path : List Addr)
  | unknown
  deriving DecidableEq, Repr

def takePathInstruction (l : List Byte) : Option (PathInstruction × List Byte) :=
  (takeByte l).bind fun code =>
    if code.1 = 0 then some (.keep, code.2)
    else if code.1 = 1 then some (.clear, code.2)
    else if code.1 = 2 then
      (takeByte code.2).bind fun m => (takeAddrs m.1.toNat m.2).map fun x => (.set x.1, x.2)
    else some (.unknown, code.2)

/-- What an RX_UPDATE carries (R70, R71, R188). -/
structure RxUpdate where
  selector : Selector
  phase    : Option Byte
  groups   : Option (List Byte)
  path     : Option PathInstruction
  quality  : Option Byte
  carrier  : Option Byte
  address  : Option Addr
  deriving DecidableEq, Repr

def readRxUpdate (l : List Byte) : Option RxUpdate :=
  (takeSelector l).bind fun selector =>
  (takeByte selector.2).bind fun flags =>
  (flagged (flags.1.getLsbD 0) takeByte flags.2).bind fun phase =>
  (flagged (flags.1.getLsbD 1) takeCounted phase.2).bind fun groups =>
  (flagged (flags.1.getLsbD 2) takePathInstruction groups.2).bind fun path =>
  (flagged (flags.1.getLsbD 3) takeByte path.2).bind fun quality =>
  (flagged (flags.1.getLsbD 4) takeByte quality.2).bind fun carrier =>
  (flagged (flags.1.getLsbD 5) (takeBytes 3) carrier.2).bind fun address =>
  if flags.1.toNat < 64 then
    ended (⟨selector.1, phase.1, groups.1, path.1, quality.1, carrier.1, address.1.map addrOf⟩, address.2)
  else none

/-- What a COUNT_SET carries (R20, R188). -/
structure CountSet where
  force : Bool
  count : Count
  deriving DecidableEq, Repr

def readCountSet (l : List Byte) : Option CountSet :=
  match l with
  | [flags, x3, x2, x1, x0] =>
    if flags.toNat ≤ 1 then some ⟨flags == 1, countOf [x3, x2, x1, x0]⟩ else none
  | _ => none

/-- What a PROBE carries (R124, R188). -/
structure ProbeRequest where
  selector : Selector
  choice   : Byte
  phase    : Byte
  deriving DecidableEq, Repr

def readProbe (l : List Byte) : Option ProbeRequest :=
  (takeSelector l).bind fun selector =>
    match selector.2 with
    | [choice, phase] => some ⟨selector.1, choice, phase⟩
    | _ => none

/-- What a PARAM_WRITE carries (R183, R189). -/
structure ParamValue where
  ident : Byte
  value : Nat
  deriving DecidableEq, Repr

def readParamValue (l : List Byte) : Option ParamValue :=
  match l with
  | ident :: value => if value.length = 4 then some ⟨ident, ofBytes value⟩ else none
  | [] => none

end Sys2Proof.Machine
end

