-- ==== Sys2Proof/Machine/Requests.lean ====
section
/-! DEFINITION. Taking a request and making its reply (R172, R188): the one shape every request's meaning is written
in. -/

namespace Sys2Proof.Machine

/-- The owner's handling of a request: the reply's body, what the end of its sending brings about, and the state. -/
structure Handled where
  body  : List Byte
  after : AfterSent
  state : State
  deriving DecidableEq, Repr

/-- The request taken: OK and the fields after it. -/
def taken (fields : List Byte) (s : State) : Handled := ⟨resultByte .ok :: fields, .nothing, s⟩

/-- The request refused: the result code alone, and nothing changed (R172, R188). -/
def refuse (c : ResultCode) (s : State) : Handled := ⟨[resultByte c], .nothing, s⟩

/-- The kind of a reply: the request's with its most significant bit set (R188). -/
def replyKind (k : Byte) : Byte := k ||| 0x80

/-- The dispatcher may take the buffer's oldest request (R172). -/
def State.mayTake (s : State) : Bool :=
  s.working && s.store.wiping.isNone && s.link.inHand.isNone && !s.link.replies.any (·.taken)

/-- The request the dispatcher may take now: the buffer's oldest. -/
def State.oldest (s : State) : Option Request := if s.mayTake then s.link.buffer.head? else none

/-- The buffer without its oldest request (R172). -/
def dropRequest (s : State) : State := { s with link := { s.link with buffer := s.link.buffer.tail } }

/-- A reply appended to the reply list (R172, R173). -/
def appendReply (q : Request) (body : List Byte) (after : AfterSent) (s : State) : State :=
  { s with link := { s.link with replies := s.link.replies ++ [⟨replyKind q.kind, q.ticket, body, true, after⟩] } }

/-- A request taken and handled to its end: it leaves the buffer, and its reply is made at once (R172). -/
def answerRequest (q : Request) (h : Request → State → Handled) (s : State) : State :=
  let r := h q (dropRequest s)
  appendReply q r.body r.after r.state

/-- The handling of a request whose body is read by `read`: BAD_FORMAT for an unreadable one (R172 step 2). -/
def readThen {α : Type} (read : List Byte → Option α) (own : Request → α → State → Handled) (q : Request) (s : State) :
    Handled :=
  match read q.body with
  | none => refuse .badFormat s
  | some x => own q x s

/-- The command that takes requests chosen by `mine`: when the request to take is another's, or none can be taken,
nothing changes (notes/assumptions/1.md). -/
def takeRequest (mine : Request → Bool) (h : Request → State → Handled) (s : State) : Host.Outcome State Fault Refusal :=
  match s.oldest with
  | none => .next s
  | some q => when (mine q) s (answerRequest q h s)

/-- The command that takes the requests of one kind. -/
def takeKind {α : Type} (kind : Byte) (read : List Byte → Option α) (own : Request → α → State → Handled) (s : State) :
    Host.Outcome State Fault Refusal :=
  takeRequest (·.kind == kind) (readThen read own) s

end Sys2Proof.Machine
end

