-- ==== Sys2Proof/Machine/LinkOps.lean ====
section
/-! DEFINITION. The Host Link at work: the link receiver (R169, R170), complete records and overruns (R171), the link
transmitter (R173, R176), and the resets as they reach the link and the blocks (R61, R133, R150, R185). -/

namespace Sys2Proof.Machine

/-! ## The link receiver (R170) -/

/-- The receiver back in HUNT, with no record in assembly. -/
def hunt (l : HostLink) : HostLink := { l with receive := .hunt, assembly := [] }

/-- What one byte without framing error means to the receiver (R170). -/
inductive Received where
  | ignored
  /-- The start mark. -/
  | begins
  /-- Taken into the assembly; the state that follows. -/
  | takes (next : ReceiveState)
  | lengthDiscard
  | crcDiscard
  | complete (q : Request)
  deriving DecidableEq, Repr

/-- The length byte of the record in assembly. -/
def HostLink.bodyLength (l : HostLink) : Nat := (l.assembly.headD 0).toNat

/-- The last CRC byte judged: the bytes between start mark and CRC against the CRC received (R169, R170). -/
def HostLink.judgeRecord (l : HostLink) (b : Byte) : Received :=
  let data := l.assembly.take (l.bodyLength + 3)
  if l.assembly.drop (l.bodyLength + 3) ++ [b] = crcBytes data then
    .complete ⟨data.getD 1 0, data.getD 2 0, data.drop 3⟩
  else .crcDiscard

/-- The byte judged by the receive state (R170). -/
def HostLink.receiveByte (l : HostLink) (b : Byte) : Received :=
  match l.receive with
  | .hunt => if b = Config.startMark then .begins else .ignored
  | .length => if b.toNat ≤ Config.bodyMax then .takes .kind else .lengthDiscard
  | .kind => .takes .ticket
  | .ticket => .takes (if l.bodyLength = 0 then .crcHigh else .body)
  | .body => .takes (if l.assembly.length + 1 = l.bodyLength + 3 then .crcHigh else .body)
  | .crcHigh => .takes .crcLow
  | .crcLow => l.judgeRecord b

/-- One of the discards of the link receiver, or an overrun that draws no reply (R170, R171). -/
inductive LinkLoss where
  | crc
  | gap
  | length
  | framing
  | unanswered
  deriving DecidableEq, Repr

def LinkCounters.raise (c : LinkCounters) : LinkLoss → LinkCounters
  | .crc => { c with crc := bump c.crc 1 }
  | .gap => { c with gap := bump c.gap 1 }
  | .length => { c with length := bump c.length 1 }
  | .framing => { c with framing := bump c.framing 1 }
  | .unanswered => { c with unanswered := bump c.unanswered 1 }

/-- A loss on the link counted, with its LINK notice (R170, R171, R179). A loss whose counter stands at 65,535 queues its
notice too: DESIGN CHOICE, notes/assumptions/61.md. -/
def countLoss (x : LinkLoss) (s : State) : State :=
  noteLink { s with link := { s.link with counters := s.link.counters.raise x } }

/-- The record in assembly discarded (R170). -/
def discardRecord (x : LinkLoss) (s : State) : State := countLoss x { s with link := hunt s.link }

/-- The OVERRUN replies that wait. -/
def HostLink.overruns (l : HostLink) : Nat := l.replies.countP fun r => !r.taken

/-- An OVERRUN reply made (R171, R188). -/
def overrunReply (q : Request) : Reply := ⟨replyKind q.kind, q.ticket, [resultByte .overrun], false, .nothing⟩

/-- A complete record goes to the request buffer, or is answered OVERRUN, or is lost (R171). -/
def acceptRecord (q : Request) (s : State) : State :=
  let l := hunt s.link
  if l.buffer.length < Config.bufferLimit then { s with link := { l with buffer := l.buffer ++ [q] } }
  else if l.overruns < Config.overrunLimit then { s with link := { l with replies := l.replies ++ [overrunReply q] } }
  else countLoss .unanswered { s with link := l }

/-- The byte of a character without framing error, with all that follows from it (R170, R171). -/
def receive (b : Byte) (s : State) : State :=
  match s.link.receiveByte b with
  | .ignored => s
  | .begins => { s with link := { s.link with receive := .length, assembly := [] } }
  | .takes next => { s with link := { s.link with receive := next, assembly := s.link.assembly ++ [b] } }
  | .lengthDiscard => discardRecord .length s
  | .crcDiscard => discardRecord .crc s
  | .complete q => acceptRecord q s

/-- A record is in assembly. -/
def State.assembling (s : State) : Bool := s.link.receive != .hunt

/-- One character received: its byte is taken, or, with a framing error, the record in assembly is discarded; in HUNT a
framing error is ignored (R168, R170). -/
def receiveChar (ch : Character) (s : State) : State :=
  if framingError ch then (if s.assembling then discardRecord .framing s else s) else receive (dataOfChar ch) s

/-- What a character without framing error means to the receiver; nothing of one with it is taken (R170). -/
def HostLink.judgeChar (l : HostLink) (ch : Character) : Received :=
  if framingError ch then .ignored else l.receiveByte (dataOfChar ch)

/-- The byte completes a record. -/
def Received.isComplete : Received → Bool
  | .complete _ => true
  | .ignored => false
  | .begins => false
  | .takes _ => false
  | .lengthDiscard => false
  | .crcDiscard => false

/-! ## The link transmitter (R169, R173) -/

/-- The bytes of a record (R169). -/
def recordBytes (kind ticket : Byte) (body : List Byte) : List Byte :=
  let data := byteOf body.length :: kind :: ticket :: body
  Config.startMark :: (data ++ crcBytes data)

/-- Notices may be sent: no restore and no WIPE is in progress, and the mode is PUSH (R173, R176). -/
def State.mayPush (s : State) : Bool :=
  s.params.noticeMode == .push && !s.store.restoring && s.store.wiping.isNone

/-- The head of the notice queue leaves it; the LOST flag is cleared with it (R175). -/
def takeNotice (q : List Notice) (s : State) : State := { s with link := { s.link with queue := q, lost := false } }

/-- A record begun: its characters go out in order (R168, R169). -/
def beginRecord (bytes : List Byte) (after : AfterSent) (s : State) : State :=
  { s with link := { s.link with sending := some ⟨bytes.map charOf, after⟩ } }

/-- The next record is begun: the oldest reply, otherwise in PUSH the head of the notice queue (R173, R176). -/
def startRecord (s : State) : State :=
  match s.link.replies, s.link.queue with
  | r :: rest, _ =>
    beginRecord (recordBytes r.kind r.ticket r.body) r.after { s with link := { s.link with replies := rest } }
  | [], n :: rest =>
    if s.mayPush then beginRecord (recordBytes (noticeCode n.kind) 0 (leavingBody s n)) n.after (takeNotice rest s)
    else s
  | [], [] => s

/-- A link rate comes into force; the record in assembly is discarded, and no counter rises (R184). -/
def applyRate (r : LinkRate) (s : State) : State :=
  if s.link.rate = r then s else { s with link := { hunt s.link with rate := r } }

/-! ## Resets on the link -/

/-- The notice queue emptied and the LOST flag clear (R185). The link rate is kept, also where a notice emptied was to
bring another one (R159): DESIGN CHOICE, notes/assumptions/22.md. -/
def emptyQueue (s : State) : State := { s with link := { s.link with queue := [], lost := false } }

/-- What a SOFT reset does in the Line Driver and the Answer Receiver (R61). -/
def resetLine (s : State) : State :=
  let s := answerIdle s
  { s with driver := { s.driver with
      history := [], cap := s.params.levelMax, recovery := 0, buffer := 0, legLevel := 0 } }

/-- The SOFT-reset effects of every block but the Host Link: the transmission in flight ended and settled, the probe
queue emptied, the line reset (R61, R133, R150). -/
def resetBlocks (s : State) : State :=
  let s := resetLine (resetTransmission s)
  { s with sched := { s.sched with probes := [] } }

/-- The SOFT reset performed (R185 step 3). -/
def performSoftReset (s : State) : State :=
  let s := emptyQueue (resetBlocks s)
  { s with link := { hunt s.link with buffer := [], replies := [], inHand := none, counters := ⟨0, 0, 0, 0, 0⟩ } }

/-- The end of the RESET reply of a WIPE: the request in hand becomes absent and the default rate applies, with any record
in assembly discarded (R186). -/
def endWipeReply (s : State) : State :=
  { s with link := { hunt s.link with rate := Params.default.linkRate, inHand := none } }

/-- What the end of the last stop bit of a record brings about (R184 to R186, R159). -/
def afterRecord (a : AfterSent) (s : State) : State :=
  match a with
  | .nothing => s
  | .rate r => applyRate r s
  | .softReset => performSoftReset s
  | .wipeDone => endWipeReply s

/-- The record being sent ends (R173). -/
def endRecord (s : State) : State :=
  match s.link.sending with
  | none => s
  | some r => afterRecord r.after { s with link := { s.link with sending := none } }

/-- The end of the record being sent brings this about. -/
def State.endsWith (s : State) (f : AfterSent → Bool) : Bool := s.link.sending.any fun r => f r.after

def AfterSent.switches : AfterSent → Bool
  | .rate _ => true
  | .wipeDone => true
  | .nothing => false
  | .softReset => false

def AfterSent.resets : AfterSent → Bool
  | .softReset => true
  | .rate _ => false
  | .wipeDone => false
  | .nothing => false

end Sys2Proof.Machine
end

