-- ==== Sys2Proof/Machine/Link.lean ====
section
/-! DEFINITION. The meanings of the Host Link's commands: the link receiver and transmitter, and the requests that the
link answers itself (09_the_host_link.md), with the Timebase's two requests (R20, R21). A row that names one outcome of
a byte or of a record's end is that byte or end in that case alone; BYTE_RECEIVED and RECORD_SENT are theirs in every
case (notes/assumptions/1.md). -/

namespace Sys2Proof.Machine

/-! ## The link receiver -/

/-- BYTE_RECEIVED (R170): a character, with or without framing error. -/
def execByteReceived (ch : Character) (s : State) : Host.Outcome State Fault Refusal :=
  when s.powered s (receiveChar ch s)

/-- RECORD_COMPLETE (R171): the character whose byte completes a record. -/
def execRecordComplete (ch : Character) (s : State) : Host.Outcome State Fault Refusal :=
  when (s.powered && (s.link.judgeChar ch).isComplete) s (receiveChar ch s)

/-- CRC_DISCARD (R170): the character of the last CRC byte, which does not agree. -/
def execCrcDiscard (ch : Character) (s : State) : Host.Outcome State Fault Refusal :=
  when (s.powered && s.link.judgeChar ch == .crcDiscard) s (receiveChar ch s)

/-- LENGTH_DISCARD (R170): the character of a length byte above 248. -/
def execLengthDiscard (ch : Character) (s : State) : Host.Outcome State Fault Refusal :=
  when (s.powered && s.link.judgeChar ch == .lengthDiscard) s (receiveChar ch s)

/-- FRAMING_DISCARD (R168, R170): the stop bit of a character is found low with a record in assembly. The character's
other bits say nothing: BYTE_RECEIVED with the stop bit low is this discard. -/
def execFramingDiscard (s : State) : Host.Outcome State Fault Refusal :=
  when (s.powered && s.assembling) s (discardRecord .framing s)

/-- GAP_DISCARD (R170). -/
def execGapDiscard (s : State) : Host.Outcome State Fault Refusal :=
  when (s.powered && s.assembling) s (discardRecord .gap s)

/-! ## The link transmitter -/

/-- TRANSMIT_START (R173): the transmitter is idle. -/
def execTransmitStart (s : State) : Host.Outcome State Fault Refusal :=
  when (s.powered && s.link.sending.isNone) s (startRecord s)

/-- RECORD_SENT (R173). -/
def execRecordSent (s : State) : Host.Outcome State Fault Refusal := when s.powered s (endRecord s)

/-- RATE_SWITCH (R184, R186): the end of the record that a change of rate awaits. -/
def execRateSwitch (s : State) : Host.Outcome State Fault Refusal :=
  when (s.powered && s.endsWith AfterSent.switches) s (endRecord s)

/-! ## Requests the link answers itself -/

/-- The request kinds (10_record_and_cell_formats, Codes). -/
def requestKinds : List Byte :=
  [0x01, 0x02, 0x03, 0x04, 0x05, 0x06, 0x08, 0x09, 0x10, 0x11, 0x12, 0x13, 0x14, 0x18, 0x19, 0x1A, 0x1B, 0x1C, 0x20]

/-- UNKNOWN_KIND (R172 step 1). -/
def execUnknownKind (s : State) : Host.Outcome State Fault Refusal :=
  takeRequest (fun q => decide (q.kind ∉ requestKinds)) (fun _ s => refuse .unknownKind s) s

/-- IDENT's handling (R181). -/
def handleIdent (_ : Request) (_ : Unit) (s : State) : Handled :=
  taken (bytesOf 2 Config.partCode ++ [byteOf Config.revision] ++ bytesOf 2 s.params.stationId.toNat) s

/-- IDENT (R181). -/
def execIdent (s : State) : Host.Outcome State Fault Refusal := takeKind 0x01 readNothing handleIdent s

/-- The offset of the transmission: on an exchange's first node's phase, or on the live phase whose window is latest
(R134). -/
def State.offset (s : State) : Nat :=
  match s.engine.transmission with
  | none => 0
  | some t =>
    match t.exchange with
    | some x => s.engine.seen.get x.first - 1
    | none =>
      let live := Phase.all.filter s.engine.live.get
      ((live.map fun p => s.engine.seen.get p - 1).min?).getD 0

/-- The count advances left of a cool-down, 0 when READY (R182). -/
def LineDriver.coolLeft (d : LineDriver) : Nat :=
  match d.state with
  | .ready => 0
  | .fault => Config.coolCount - d.cool

/-- The writes on the pending write list; those that wait for room stand behind them (R155). -/
def RetainedStore.listed (st : RetainedStore) : Nat := min Config.pendingWrites st.writes.length

def State.timebaseStatus (s : State) : List Byte :=
  countBytes s.count ++ [statusCode s.tb.status, timebaseCode s.tb.state, phaseCode s.tb.reference] ++
    (Phase.all.map fun p => trackerCode (s.tracker p).state) ++ [boolCode s.tb.beaconDue]

/-- The stored orders that satisfy a condition, as a byte. -/
def State.ordersThat (s : State) (f : Order → Bool) : Byte := byteOf (s.orders.orders.countP fun no => f no.2)

def State.orderStatus (s : State) : List Byte :=
  [byteOf s.orders.orders.length, s.ordersThat Order.isPending, s.ordersThat Order.isActive,
    s.ordersThat Order.isRevoking, s.ordersThat Order.isClosed, byteOf (Config.slots - s.slotOrders.length)]

def State.tableStatus (s : State) : List Byte :=
  bytesOf 2 s.table.length ++ bytesOf 2 (s.table.countP fun ir => ir.2.damaged)

def State.lineStatus (s : State) : List Byte :=
  [byteOf s.sched.hold, s.flightCode, byteOf s.sched.probes.length, engineCode s.engine.state, s.flightCode] ++
    countBytes ((s.engine.transmission.map (·.start)).getD 0) ++ [byteOf s.offset]

def State.driverStatus (s : State) : List Byte :=
  let d := s.driver
  [driverCode d.state, byteOf d.cap, byteOf s.params.levelMax, byteOf (d.history.count true)] ++
    bytesOf 2 d.coolLeft ++ [byteOf s.params.carrierPrimary, byteOf s.params.carrierAlternate]

def State.storeStatus (s : State) : List Byte :=
  bytesOf 2 s.store.corrections ++ bytesOf 2 s.store.listed ++ bytesOf 2 s.store.scrubNext ++
    [boolCode s.store.wiping.isSome]

def State.linkStatus (s : State) : List Byte :=
  let l := s.link
  [byteOf l.buffer.length, byteOf (l.queue.countP (·.urgent)), byteOf (l.queue.countP (!·.urgent)), boolCode l.lost,
    byteOf (modeCode s.params.noticeMode)] ++ bytesOf 4 (rateOf l.rate) ++ linkCounterBytes l.counters

/-- The STATUS reply after the result code (R182, R188). -/
def State.statusFields (s : State) : List Byte :=
  s.timebaseStatus ++ s.orderStatus ++ s.tableStatus ++ s.lineStatus ++ s.driverStatus ++ s.storeStatus ++ s.linkStatus

/-- STATUS's handling (R182). -/
def handleStatus (_ : Request) (_ : Unit) (s : State) : Handled := taken s.statusFields s

/-- STATUS (R182). -/
def execStatus (s : State) : Host.Outcome State Fault Refusal := takeKind 0x02 readNothing handleStatus s

/-- NOTICE_FETCH's handling: in HELD the head of the queue leaves it with the reply (R177). A rate that its sending is to
bring (R159) comes at the end of the reply: DESIGN CHOICE, notes/assumptions/73.md. -/
def handleNoticeFetch (_ : Request) (_ : Unit) (s : State) : Handled :=
  match s.params.noticeMode, s.link.queue with
  | .push, _ => refuse .state s
  | .held, [] => taken [] s
  | .held, n :: rest => ⟨resultByte .ok :: noticeCode n.kind :: leavingBody s n, n.after, takeNotice rest s⟩

/-- NOTICE_FETCH (R177). -/
def execNoticeFetch (s : State) : Host.Outcome State Fault Refusal := takeKind 0x06 readNothing handleNoticeFetch s

/-! ## The Timebase's requests -/

/-- What a TIME_READ says of one phase (R21, R188). -/
def State.phaseTime (s : State) (p : Phase) : List Byte :=
  [trackerCode (s.tracker p).state, boolCode (s.params.enable.get p)] ++ bytesOf 2 (s.tracker p).period

/-- The TIME_READ reply after the result code (R21, R188). -/
def State.timeFields (s : State) : List Byte :=
  countBytes s.count ++ [statusCode s.tb.status, timebaseCode s.tb.state, phaseCode s.tb.reference,
    phaseCode (some s.params.refPhase)] ++ s.phaseTime .l1 ++ s.phaseTime .l2 ++ s.phaseTime .l3

/-- TIME_READ's handling (R21). -/
def handleTimeRead (_ : Request) (_ : Unit) (s : State) : Handled := taken s.timeFields s

/-- TIME_READ (R21). -/
def execTimeRead (s : State) : Host.Outcome State Fault Refusal := takeKind 0x08 readNothing handleTimeRead s

/-- A COUNT_SET is taken (R20). -/
def State.takesCount (s : State) (q : CountSet) : Bool :=
  !s.confirmed || q.force || decide (-50 ≤ dist q.count s.count ∧ dist q.count s.count ≤ 50)

/-- An entry's next try moved by j (R105). -/
def Receiver.moveTries (r : Receiver) (j : Count) : Receiver :=
  { r with entries := r.entries.map fun e => { e with nextTry := e.nextTry + j } }

/-- The next repeat of every ACTIVE or REVOKING order and the next try of every entry moved by j: the receivers written,
then the orders (R105; notes/assumptions/23.md). -/
def moveTimes (j : Count) (s : State) : State :=
  let s := changeReceivers (fun _ r => !r.entries.isEmpty && j != 0) (fun _ r => r.moveTries j) s
  let move (s : State) (no : Nat × Order) : State :=
    if j = 0 then s else putOrder no.1 (no.2.mapFields fun f => { f with nextRepeat := f.nextRepeat + j }) s
  s.slotOrders.foldl move s

/-- A transmission in flight at a COUNT_SET: the displacement rises by d(X, L), and a beacon is cut (R146, R134). -/
def moveFlight (d : Int) (s : State) : State :=
  match s.engine.transmission with
  | none => s
  | some t =>
    let s := { s with engine := { s.engine with displacement := s.engine.displacement + d } }
    match t.burst with
    | .beacon _ _ => finishTransmission (endLeg false s)
    | .order _ _ _ _ _ _ _ => s
    | .revoke _ _ _ => s
    | .poll _ _ => s

/-- The Timebase at a taken COUNT_SET: L becomes X, the count CONFIRMED, a beacon due, and the count saved (R20). What
the last count advance still owed is put aside: the beacon is due already, the activation step waits for the next count
advance (R105), and of a save owed at cadence 1,024 nothing is left but the save of X, the cadence being 0. DESIGN CHOICE,
notes/assumptions/2.md. -/
def setCount (x : Count) (s : State) : State :=
  askSavedCount { s with
    tb := { s.tb with count := x, status := .confirmed, beaconDue := true, beaconTimer := 0, cadence := 0 }
    owed := { s.owed with beacon := false, activation := [] } }

/-- COUNT_SET's handling (R20, R105, R146). The closing step judges every seal point against X, those of orders that the
last count advance brought to a close not yet made among them: DESIGN CHOICE, notes/assumptions/2.md. -/
def handleCountSet (_ : Request) (q : CountSet) (s : State) : Handled :=
  if s.takesCount q then
    let j := q.count - s.count
    let s := closingStep (moveTimes j (moveFlight (dist q.count s.count) (setCount q.count s)))
    taken (countBytes s.count) s
  else ⟨resultByte .state :: countBytes s.count, .nothing, s⟩

/-- COUNT_SET (R20). -/
def execCountSet (s : State) : Host.Outcome State Fault Refusal := takeKind 0x09 readCountSet handleCountSet s

end Sys2Proof.Machine
end

