-- ==== Sys2Proof/Machine/Orders.lean ====
section
/-! DEFINITION. The meanings of the Order Store's commands (05_tariff_orders.md): activation and closing, and the five
order requests. -/

namespace Sys2Proof.Machine

/-! ## Activation and closing (R91 to R96) -/

/-- The activation step has an order to place, and the closing step has none left (R91, R92). -/
def State.activationNow (s : State) : Bool := s.working && s.confirmed && s.nothingToClose && !s.toActivate.isEmpty

/-- ORDER_ACTIVATE (R92): the next order of the activation step takes a slot. -/
def execOrderActivate (s : State) : Host.Outcome State Fault Refusal := when s.activationNow s (activateNext s)

/-- The order at a position, when its seal point is reached with the count CONFIRMED (R91). -/
def State.orderToSeal (s : State) (n : Nat) : Option Order :=
  if s.working && s.confirmed then (s.order n).filter s.sealReached else none

/-- ORDER_SEAL (R96): an ACTIVE or REVOKING order closes at its seal point. -/
def execOrderSeal (n : Nat) (s : State) : Host.Outcome State Fault Refusal :=
  match s.orderToSeal n with
  | none => .next s
  | some o =>
    match o.state with
    | .pending => .next s
    | .active f => .next (closeAtSeal n o f s)
    | .revoking f => .next (closeAtSeal n o f s)
    | .closed _ _ => .next s

/-- NOT_SENT (R95): a PENDING order closes at its seal point. -/
def execNotSent (n : Nat) (s : State) : Host.Outcome State Fault Refusal :=
  match s.orderToSeal n with
  | none => .next s
  | some o => when o.isPending s (closeNotSent n o s)

/-! ## ORDER_ADD (R85 to R90) -/

/-- The action of a code with its parameter in the action's range (R87). -/
def actionFor (code : Byte) (parameter : Nat) : Option Action :=
  (actionOfCode code).filter fun a =>
    match a with
    | .setTariff => decide (1 ≤ parameter ∧ parameter ≤ 8)
    | .loadOff => decide (1 ≤ parameter ∧ parameter ≤ 2)
    | .loadOn => decide (1 ≤ parameter ∧ parameter ≤ 2)

/-- The target and action of an order requested, when every field is in range (R87, check 2). -/
def OrderAdd.fields (q : OrderAdd) : Option (Target × Action) :=
  match targetOfAddr q.target, actionFor q.action q.parameter with
  | some t, some a => if q.spread ≤ 15 then some (t, a) else none
  | some _, none => none
  | none, _ => none

/-- A NORMAL record holds the address (R87, check 3). -/
def State.holdsNormal (s : State) (a : Addr) : Bool := (s.receiverAt a).any fun ir => !ir.2.damaged

/-- A NORMAL record holds the address and has the group (R88). -/
def State.holdsInGroup (s : State) (g : Nat) (a : Addr) : Bool :=
  (s.receiverAt a).any fun ir => !ir.2.damaged && decide (g ∈ ir.2.groups)

/-- A SINGLE target has its NORMAL record; the others need none (R87, check 3). -/
def State.targetFound (s : State) : Target → Bool
  | .all => true
  | .group _ => true
  | .single a => s.holdsNormal a

/-- Two targets overlap (R88). -/
def State.overlap (s : State) : Target → Target → Bool
  | .all, _ => true
  | .group _, .all => true
  | .group g, .group g' => g == g'
  | .group g, .single a => s.holdsInGroup g a
  | .single _, .all => true
  | .single a, .group g => s.holdsInGroup g a
  | .single a, .single b => a == b

/-- Two actions are of one class: the tariff, or the same load channel (R88). -/
def sameClass (a : Action) (p : Nat) (b : Action) (q : Nat) : Bool :=
  match a, b with
  | .setTariff, .setTariff => true
  | .setTariff, .loadOff => false
  | .setTariff, .loadOn => false
  | .loadOff, .setTariff => false
  | .loadOn, .setTariff => false
  | .loadOff, .loadOff => p == q
  | .loadOff, .loadOn => p == q
  | .loadOn, .loadOff => p == q
  | .loadOn, .loadOn => p == q

/-- A stored order conflicts with one requested (R88). -/
def State.conflicts (s : State) (o : Order) (t : Target) (a : Action) (q : OrderAdd) : Bool :=
  !o.isClosed && o.activation == q.activation && sameClass o.action o.parameter a q.parameter && s.overlap o.target t

/-- The store has room, by a free position or a CLOSED order to discard (R89). -/
def State.hasRoom (s : State) : Bool :=
  decide (s.orders.orders.length < Config.orderPositions) || s.orders.orders.any fun no => no.2.isClosed

/-- The minimum lead (R86). -/
def State.minLead (s : State) : Nat := s.params.minMargin + Config.revokeLead

/-- The position of the CLOSED order with the earliest close number (R89). -/
def earliestClosed : List (Nat × Order) → Option (Nat × Count)
  | [] => none
  | (n, o) :: rest =>
    match o.closeNumber, earliestClosed rest with
    | none, found => found
    | some c, none => some (n, c)
    | some c, some (m, d) => if dist d c < 0 then some (m, d) else some (n, c)

/-- Room made in a full store: its CLOSED order with the earliest close number discarded (R89). -/
def makeRoom (s : State) : State :=
  if s.orders.orders.length < Config.orderPositions then s
  else
    match earliestClosed s.orders.orders with
    | none => s
    | some (n, _) => dropOrder n s

/-- The tag after another: counting up, and from 255 to 1 (R85). -/
def nextTag (t : Nat) : Nat := if 255 ≤ t then 1 else t + 1

/-- The first tag from `t` on that is not held, within `fuel` steps (R85). -/
def findTag (held : List Nat) : Nat → Nat → Nat
  | 0, t => t
  | fuel + 1, t => if t ∈ held then findTag held fuel (nextTag t) else t

/-- The tag of the next order (R85). -/
def State.freeTag (s : State) : Nat :=
  findTag (s.orders.orders.map fun no => no.2.tag) Config.orderPositions (nextTag s.orders.lastTag)

/-- The repeats of an order: clamped to 8, and 0 for a SINGLE order (R87). -/
def repeatsFor (t : Target) (repeats : Nat) : Nat :=
  match t with
  | .all => min 8 repeats
  | .group _ => min 8 repeats
  | .single _ => 0

/-- An admitted order, from the state in which its admission number is the sequence value (R90). -/
def State.newOrder (s : State) (q : OrderAdd) (t : Target) (a : Action) : Order where
  tag := s.freeTag
  hostRef := q.hostRef
  target := t
  action := a
  parameter := q.parameter
  activation := q.activation
  spread := q.spread
  repeats := repeatsFor t q.repeats
  sealPoint := q.activation - BitVec.ofNat 32 s.params.minMargin
  admission := s.orders.sequence
  counters := Counters.zero
  state := .pending
  unreadable := []

/-- The order admitted at the lowest free position, and the reply (R90). -/
def placeAdmitted (q : OrderAdd) (t : Target) (a : Action) (s : State) : Handled :=
  let s := bumpSequence (makeRoom s)
  let n := lowestFree s.orders.orders 0
  let o := s.newOrder q t a
  let s := putOrder n o { s with orders := { s.orders with lastTag := o.tag } }
  taken ([byteOf o.tag, byteOf n] ++ countBytes o.sealPoint) s

/-- The checks of an ORDER_ADD after the count status and the ranges, in order, and its admission (R87). -/
def addOrder (q : OrderAdd) (t : Target) (a : Action) (s : State) : Handled :=
  if !s.targetFound t then refuse .notFound s
  else if dist q.activation s.count < s.minLead then refuse .tooLate s
  else if s.orders.orders.any fun no => s.conflicts no.2 t a q then refuse .conflict s
  else if !s.hasRoom then refuse .full s
  else placeAdmitted q t a s

/-- ORDER_ADD's handling (R87). -/
def handleOrderAdd (_ : Request) (q : OrderAdd) (s : State) : Handled :=
  if !s.confirmed then refuse .state s
  else
    match q.fields with
    | none => refuse .range s
    | some (t, a) => addOrder q t a s

/-- ORDER_ADD (R87 to R90). -/
def execOrderAdd (s : State) : Host.Outcome State Fault Refusal := takeKind 0x10 readOrderAdd handleOrderAdd s

/-! ## Naming an order (R99) -/

/-- The selector is in range: a tag 1..255, a position 0..31 (R99). -/
def OrderSelector.inRange : OrderSelector → Bool
  | .tag n => decide (1 ≤ n ∧ n ≤ 255)
  | .position n => decide (n < Config.orderPositions)

/-- The position and order a selector names (R99). -/
def State.findOrder (s : State) : OrderSelector → Option (Nat × Order)
  | .tag t => s.orders.orders.find? fun no => no.2.tag == t
  | .position n => (s.order n).map fun o => (n, o)

/-- A request that names an order: RANGE and NOT_FOUND first, then the owner's handling (R99). -/
def withOrder (sel : OrderSelector) (h : Nat → Order → State → Handled) (s : State) : Handled :=
  if !sel.inRange then refuse .range s
  else
    match s.findOrder sel with
    | none => refuse .notFound s
    | some (n, o) => h n o s

/-! ## ORDER_CANCEL (R99 to R101) -/

/-- A cancellation's reply (R99, R188). -/
def cancelReply (c : ResultCode) (n : Nat) (o : Order) (stateByte outcome : Byte) (s : State) : Handled :=
  ⟨[resultByte c, byteOf o.tag, byteOf n, stateByte, outcome], .nothing, s⟩

/-- The cancellation of an order by its state (R99). A withdrawn order has no state left, and its byte is 0. -/
def cancelOrder (n : Nat) (o : Order) (s : State) : Handled :=
  match o.state with
  | .pending => cancelReply .ok n o 0 withdrawnCode (withdraw n o s)
  | .active f =>
    if !f.started then cancelReply .ok n o 0 withdrawnCode (withdraw n o s)
    else if Config.revokeLead ≤ dist o.sealPoint s.count then cancelReply .ok n o 3 0 (convert n o f s)
    else cancelReply .tooLate n o 2 0 s
  | .revoking _ => cancelReply .state n o 3 0 s
  | .closed _ outcome => cancelReply .state n o 4 (outcomeCode outcome) s

/-- ORDER_CANCEL (R99 to R101). -/
def execOrderCancel (s : State) : Host.Outcome State Fault Refusal :=
  takeKind 0x11 readOrderSelector (fun _ sel => withOrder sel cancelOrder) s

/-! ## ORDER_READ, ORDER_LIST, ORDER_CLEAR (R103, R104) -/

/-- A field of an order record, zeros when it could not be read (R106, R188). -/
def Order.shown (o : Order) (w : OrderField) (bytes : List Byte) : List Byte :=
  if w ∈ o.unreadable then bytes.map fun _ => 0 else bytes

/-- The field is present (R106). -/
def Order.has (o : Order) (w : OrderField) : Bool := decide (w ∉ o.unreadable)

/-- The thirteen flags of an ORDER_READ reply, from bit 0 (R188). -/
def Order.flags (o : Order) : List Bool :=
  [o.hostRef.isSome, o.has .target, o.has .action, o.has .parameter, o.has .activation, o.has .spread, o.has .repeats,
    o.has .sealPoint, o.has .admission, o.fields.isSome, o.isClosed, o.fields.any (·.started),
    o.fields.any (·.abandoned)]

/-- The bytes of a signed difference, two's complement (R188). -/
def distBytes (x l : Count) : List Byte := countBytes (x - l)

/-- The slot fields of an ORDER_READ reply, zeros without a slot (R103, R188). -/
def State.slotBytes (s : State) (o : Order) : List Byte :=
  match o.fields with
  | none => [0, 0, 0, 0, 0, 0, 0, 0, 0, 0]
  | some f =>
    [byteOf f.slot, byteOf f.sent] ++ countBytes f.nextRepeat ++ bytesOf 2 f.roll.length ++
      bytesOf 2 (s.entriesNaming f.slot)

/-- The ORDER_READ reply after the result code (R103, R188). -/
def orderReadFields (n : Nat) (o : Order) (s : State) : List Byte :=
  [byteOf n, byteOf o.tag] ++ bytesOf 2 (flagByte o.flags) ++ hostRefBytes o ++
    o.shown .target (addrBytes (addrOfTarget o.target)) ++ o.shown .action [actionCode o.action] ++
    o.shown .parameter [byteOf o.parameter] ++ o.shown .activation (countBytes o.activation) ++
    o.shown .spread [byteOf o.spread] ++ o.shown .repeats [byteOf o.repeats] ++
    o.shown .sealPoint (countBytes o.sealPoint) ++ o.shown .admission (countBytes o.admission) ++
    [orderStateCode o.state] ++ counterBytes o.counters ++ o.shown .activation (distBytes o.activation s.count) ++
    s.slotBytes o ++ countBytes (o.closeNumber.getD 0) ++ [stateOutcomeCode o.state]

/-- ORDER_READ's handling (R103). -/
def readOrder (n : Nat) (o : Order) (s : State) : Handled := taken (orderReadFields n o s) s

/-- ORDER_READ (R103). -/
def execOrderRead (s : State) : Host.Outcome State Fault Refusal :=
  takeKind 0x12 readOrderSelector (fun _ sel => withOrder sel readOrder) s

/-- One order of an ORDER_LIST reply (R104, R188). -/
def orderListEntry (no : Nat × Order) : List Byte :=
  let o := no.2
  [byteOf no.1, byteOf o.tag, orderStateCode o.state, boolCode (o.has .activation)] ++
    o.shown .activation (countBytes o.activation) ++ [stateOutcomeCode o.state]

/-- ORDER_LIST's handling (R104). -/
def handleOrderList (_ : Request) (page : Byte) (s : State) : Handled :=
  if 2 ≤ page.toNat then refuse .range s
  else
    let shown := if page = 0 then s.storeOrder.take 16 else s.storeOrder.drop 16
    taken ([byteOf s.orders.orders.length, byteOf shown.length] ++ (shown.map orderListEntry).flatten) s

/-- ORDER_LIST (R104). -/
def execOrderList (s : State) : Host.Outcome State Fault Refusal := takeKind 0x13 readOne handleOrderList s

/-- ORDER_CLEAR's handling: a CLOSED order leaves the store (R104). -/
def clearOrder (n : Nat) (o : Order) (s : State) : Handled :=
  if o.isClosed then taken [] (dropOrder n s) else refuse .state s

/-- ORDER_CLEAR (R104). -/
def execOrderClear (s : State) : Host.Outcome State Fault Refusal :=
  takeKind 0x14 readOrderSelector (fun _ sel => withOrder sel clearOrder) s

end Sys2Proof.Machine
end

