-- ==== Sys2Proof/Machine/Params.lean ====
section
/-! DEFINITION. The meanings of PARAM_READ and PARAM_WRITE (R183). A row that names the write of one parameter is the
PARAM_WRITE in that case alone; PARAM_WRITE is every write of every parameter (notes/assumptions/1.md). -/

namespace Sys2Proof.Machine

/-- PARAM_READ's handling (R183). -/
def handleParamRead (_ : Request) (ident : Byte) (s : State) : Handled :=
  match paramOf ident with
  | none => refuse .notFound s
  | some p => taken (ident :: bytesOf 4 (s.params.read p)) s

/-- PARAM_READ (R183). -/
def execParamRead (s : State) : Host.Outcome State Fault Refusal := takeKind 0x03 readOne handleParamRead s

/-- A write taken: the value stored, the configuration record's write asked, the effect made, and the value as stored
returned (R183). -/
def storeParam (ident : Byte) (p : Param) (ps : Params) (s : State) : Handled :=
  let t := paramEffect s.params (askConfig { s with params := ps }) p
  ⟨resultByte .ok :: ident :: bytesOf 4 (ps.read p), rateAfter s.params ps, t⟩

/-- PARAM_WRITE's handling: its checks in order (R183). -/
def handleParamWrite (_ : Request) (q : ParamValue) (s : State) : Handled :=
  match paramOf q.ident with
  | none => refuse .notFound s
  | some p =>
    match s.params.write q.value p with
    | none => refuse .range s
    | some ps => storeParam q.ident p ps s

/-- PARAM_WRITE (R183). -/
def execParamWrite (s : State) : Host.Outcome State Fault Refusal := takeKind 0x04 readParamValue handleParamWrite s

/-- The request is a readable PARAM_WRITE of one of these parameters. -/
def writes (these : Param → Bool) (q : Request) : Bool :=
  q.kind == 0x04 && ((readParamValue q.body).bind fun v => paramOf v.ident).any these

/-- The PARAM_WRITE of one of these parameters taken. -/
def takeWrite (these : Param → Bool) (s : State) : Host.Outcome State Fault Refusal :=
  takeRequest (writes these) (readThen readParamValue handleParamWrite) s

/-- A ZC_FILTER identifier. -/
def Param.isFilter (p : Param) : Bool := p == .zcFilter .l1 || p == .zcFilter .l2 || p == .zcFilter .l3

/-- A ZC_EDGE identifier. -/
def Param.isEdge (p : Param) : Bool := p == .zcEdge .l1 || p == .zcEdge .l2 || p == .zcEdge .l3

/-- A NOTICE_LEVELS identifier. -/
def Param.isLevel (p : Param) : Bool :=
  p == .noticeLevel .orderActive || p == .noticeLevel .orderClosed || p == .noticeLevel .delivery ||
    p == .noticeLevel .probeDone || p == .noticeLevel .timebase || p == .noticeLevel .countUnconfirmed ||
    p == .noticeLevel .driver || p == .noticeLevel .store || p == .noticeLevel .link

/-- WRITE_NOMINAL_FREQ (R24). -/
def execWriteNominalFreq (s : State) : Host.Outcome State Fault Refusal := takeWrite (· == .nominalFreq) s

/-- WRITE_REF_PHASE (R14). -/
def execWriteRefPhase (s : State) : Host.Outcome State Fault Refusal := takeWrite (· == .refPhase) s

/-- WRITE_PHASE_ENABLE (R4, R24). -/
def execWritePhaseEnable (s : State) : Host.Outcome State Fault Refusal := takeWrite (· == .phaseEnable) s

/-- WRITE_ZC_FILTER (R4). -/
def execWriteZcFilter (s : State) : Host.Outcome State Fault Refusal := takeWrite Param.isFilter s

/-- WRITE_ZC_EDGE (R4). -/
def execWriteZcEdge (s : State) : Host.Outcome State Fault Refusal := takeWrite Param.isEdge s

/-- WRITE_SETTLE_COUNT (R24). -/
def execWriteSettleCount (s : State) : Host.Outcome State Fault Refusal := takeWrite (· == .settleCount) s

/-- WRITE_BEACON_INTERVAL (R24). -/
def execWriteBeaconInterval (s : State) : Host.Outcome State Fault Refusal := takeWrite (· == .beaconInterval) s

/-- WRITE_CARRIER_PRIMARY (R45, R149). -/
def execWriteCarrierPrimary (s : State) : Host.Outcome State Fault Refusal := takeWrite (· == .carrierPrimary) s

/-- WRITE_CARRIER_ALTERNATE (R45, R149). -/
def execWriteCarrierAlternate (s : State) : Host.Outcome State Fault Refusal := takeWrite (· == .carrierAlternate) s

/-- WRITE_LEVEL_MAX (R53). -/
def execWriteLevelMax (s : State) : Host.Outcome State Fault Refusal := takeWrite (· == .levelMax) s

/-- WRITE_MIN_MARGIN (R86). -/
def execWriteMinMargin (s : State) : Host.Outcome State Fault Refusal := takeWrite (· == .minMargin) s

/-- WRITE_LEVEL_BASE (R132). -/
def execWriteLevelBase (s : State) : Host.Outcome State Fault Refusal := takeWrite (· == .levelBase) s

/-- WRITE_Q_TARGET (R132). -/
def execWriteQTarget (s : State) : Host.Outcome State Fault Refusal := takeWrite (· == .qTarget) s

/-- WRITE_LEVEL_BROADCAST (R132). -/
def execWriteLevelBroadcast (s : State) : Host.Outcome State Fault Refusal := takeWrite (· == .levelBroadcast) s

/-- WRITE_RETRY_MAX (R66, R132). -/
def execWriteRetryMax (s : State) : Host.Outcome State Fault Refusal := takeWrite (· == .retryMax) s

/-- WRITE_RELAY_AFTER (R132). -/
def execWriteRelayAfter (s : State) : Host.Outcome State Fault Refusal := takeWrite (· == .relayAfter) s

/-- WRITE_REPEAT_SPACING (R132). -/
def execWriteRepeatSpacing (s : State) : Host.Outcome State Fault Refusal := takeWrite (· == .repeatSpacing) s

/-- WRITE_LINK_RATE (R184). -/
def execWriteLinkRate (s : State) : Host.Outcome State Fault Refusal := takeWrite (· == .linkRate) s

/-- WRITE_NOTICE_MODE (R176, R184). -/
def execWriteNoticeMode (s : State) : Host.Outcome State Fault Refusal := takeWrite (· == .noticeMode) s

/-- WRITE_STATION_ID (R184). -/
def execWriteStationId (s : State) : Host.Outcome State Fault Refusal := takeWrite (· == .stationId) s

/-- WRITE_NOTICE_LEVELS (R174, R184). -/
def execWriteNoticeLevels (s : State) : Host.Outcome State Fault Refusal := takeWrite Param.isLevel s

end Sys2Proof.Machine
end

