-- ==== Sys2Proof/Machine/Receivers.lean ====
section
/-! DEFINITION. The meanings of the Receiver Table's requests (R62 to R74) and of PROBE (R124). -/

namespace Sys2Proof.Machine

/-! ## Naming a receiver (R67) -/

/-- The selector names an individual address or an index 0..511 (R67). -/
def Selector.inRange : Selector → Bool
  | .address a => individual a
  | .index n => decide (n < Config.receiverPositions)

/-- The index and record a selector names (R67). -/
def State.findReceiver (s : State) : Selector → Option (Nat × Receiver)
  | .address a => s.receiverAt a
  | .index n => (s.receiver n).map fun r => (n, r)

/-- A request that names a receiver: RANGE and NOT_FOUND first, then the owner's handling (R67). -/
def withReceiver (sel : Selector) (h : Nat → Receiver → State → Handled) (s : State) : Handled :=
  if !sel.inRange then refuse .range s
  else
    match s.findReceiver sel with
    | none => refuse .notFound s
    | some (i, r) => h i r s

/-! ## The checks of the fields (R68) -/

/-- At most four groups, each 1..14, none repeated (R68). -/
def groupsInRange (groups : List Byte) : Bool :=
  decide (groups.length ≤ 4) && groups.all (fun g => decide (1 ≤ g.toNat ∧ g.toNat ≤ 14)) && decide groups.Nodup

/-- One or two individual addresses, not both the same and none the record's own (R68, R70). -/
def pathInRange (own : Option Addr) (path : List Addr) : Bool :=
  decide (1 ≤ path.length ∧ path.length ≤ 2) && path.all individual && decide path.Nodup &&
    path.all fun a => own != some a

/-- Every address of the path is held by a NORMAL record of known phase (R68). -/
def State.pathFound (s : State) (path : List Addr) : Bool := path.all s.relay

/-! ## RX_ADD (R68, R69) -/

/-- The path of an RX_ADD: none for a length of 0 (R68, R188). -/
def RxAdd.pathGiven (q : RxAdd) : Option (List Addr) := if q.path.isEmpty then none else some q.path

/-- The record a taken RX_ADD creates, before it joins any order (R69). -/
def RxAdd.record (q : RxAdd) (phase : Option Phase) (qTarget : Nat) : Receiver where
  address := some q.address
  phase := phase
  groups := q.groups.map (·.toNat)
  path := q.pathGiven
  stale := false
  quality := (q.quality.map (·.toNat)).getD qTarget
  carrier := .primary
  failures := 0
  reported := none
  damaged := false
  entries := []

/-- The ranges of an RX_ADD, the phase apart (R68). -/
def RxAdd.inRange (q : RxAdd) : Bool :=
  individual q.address && groupsInRange q.groups && q.quality.all (fun v => decide (v.toNat ≤ 63)) &&
    q.pathGiven.all (pathInRange (some q.address))

/-- A new record with these groups joins the order: ACTIVE, to ALL or to one of the groups (R69). -/
def joins (groups : List Nat) (o : Order) : Bool :=
  o.isActive &&
    match o.target with
    | .all => true
    | .group g => decide (g ∈ groups)
    | .single _ => false

/-- The order in a slot with a new receiver joined: targeted one more, the receiver in its roll (R69, R94). -/
def joinOrder (i : Nat) (s : State) (no : Nat × Order) : State :=
  let o := no.2.mapFields fun f => { f with roll := insertIndex i f.roll }
  putOrder no.1 { o with counters := { o.counters with targeted := bump o.counters.targeted 1 } } s

/-- The entries a new record is given, in ascending slot order (R69). -/
def entriesFor (joined : List (Nat × Order)) (l : Count) : List Entry :=
  joined.filterMap fun no => no.2.fields.map fun f => ⟨f.slot, 0, l, .noneYet⟩

/-- The record added, joined to the orders being delivered to it (R69). The record is written before the orders, and they in
ascending slot order: DESIGN CHOICE, notes/assumptions/58.md. -/
def addReceiver (r : Receiver) (joined : List (Nat × Order)) (s : State) : Handled :=
  let i := lowestFree s.table 0
  let entries := entriesFor joined s.count
  let t := joined.foldl (joinOrder i) (putReceiver i { r with entries := entries } s)
  taken (bytesOf 2 i ++ [byteOf entries.length]) t

/-- RX_ADD's handling: its checks in order (R68). -/
def handleRxAdd (_ : Request) (q : RxAdd) (s : State) : Handled :=
  match phaseOfCode q.phase with
  | none => refuse .range s
  | some phase =>
    let r := q.record phase s.params.qTarget
    let joined := s.slotOrders.filter fun no => joins r.groups no.2
    if !q.inRange then refuse .range s
    else if (s.receiverAt q.address).isSome then refuse .conflict s
    else if !s.pathFound q.path then refuse .notFound s
    else if Config.receiverPositions ≤ s.table.length ||
        joined.any fun no => decide (Config.counterMax ≤ no.2.counters.targeted) then refuse .full s
    else addReceiver r joined s

/-- RX_ADD (R68, R69). -/
def execRxAdd (s : State) : Host.Outcome State Fault Refusal := takeKind 0x18 readRxAdd handleRxAdd s

/-! ## RX_READ and RX_LIST (R73, R74) -/

/-- One entry of an RX_READ reply (R73, R188). -/
def State.entryBytes (s : State) (e : Entry) : List Byte :=
  let holder := s.orderInSlot e.slot
  [byteOf e.slot, byteOf ((holder.map fun no => no.2.tag).getD 0),
    (holder.map fun no => orderStateCode no.2.state).getD 0, byteOf e.attempts] ++
    countBytes e.nextTry ++ [lastResultCode e.last]

/-- The flags of an RX_READ reply, from bit 0 (R188). -/
def State.receiverFlags (s : State) (r : Receiver) : List Bool :=
  [r.address.isSome, r.damaged, r.path.isSome, r.stale, (s.usablePath r).isSome, r.reported.isSome,
    r.carrier == .alternate]

/-- The RX_READ reply after the result code (R73, R188). The groups stand in the order in which the host supplied them:
DESIGN CHOICE, notes/assumptions/66.md. -/
def rxReadFields (i : Nat) (r : Receiver) (s : State) : List Byte :=
  let path := r.path.getD []
  bytesOf 2 i ++ [byteOf (flagByte (s.receiverFlags r))] ++ addrBytes (r.address.getD 0) ++ [phaseCode r.phase] ++
    [byteOf r.groups.length] ++ ([0, 1, 2, 3].map fun k => byteOf (r.groups.getD k 0)) ++
    [byteOf path.length] ++ pathBytes path ++ [byteOf r.quality, byteOf r.failures] ++
    [(r.reported.map stateCell).getD 0] ++ countBytes ((r.reported.map (·.heard)).getD 0) ++
    [byteOf r.entries.length] ++ (r.entries.map s.entryBytes).flatten

/-- RX_READ's handling (R73). -/
def readReceiver (i : Nat) (r : Receiver) (s : State) : Handled := taken (rxReadFields i r s) s

/-- RX_READ (R73). -/
def execRxRead (s : State) : Host.Outcome State Fault Refusal :=
  takeKind 0x1B readSelector (fun _ sel => withReceiver sel readReceiver) s

/-- One record of an RX_LIST reply (R74, R188). -/
def rxListEntry (ir : Nat × Receiver) : List Byte :=
  bytesOf 2 ir.1 ++ [byteOf (flagByte [ir.2.address.isSome, ir.2.damaged])] ++ addrBytes (ir.2.address.getD 0)

/-- RX_LIST's handling (R74). -/
def handleRxList (_ : Request) (page : Byte) (s : State) : Handled :=
  if 16 ≤ page.toNat then refuse .range s
  else
    let shown := s.table.filter fun ir => decide (ir.1 / 32 = page.toNat)
    taken (bytesOf 2 s.table.length ++ [byteOf shown.length] ++ (shown.map rxListEntry).flatten) s

/-- RX_LIST (R74). -/
def execRxList (s : State) : Host.Outcome State Fault Refusal := takeKind 0x1C readOne handleRxList s

/-! ## RX_UPDATE (R70, R71) -/

/-- The path an update sets. -/
def RxUpdate.setPath (u : RxUpdate) : Option (List Addr) :=
  match u.path with
  | some (.set path) => some path
  | some .keep => none
  | some .clear => none
  | some .unknown => none
  | none => none

/-- The carrier preference a code names (R188). -/
def carrierOfCode (b : Byte) : Option CarrierSelection :=
  if b = 0 then some .primary else if b = 1 then some .alternate else none

/-- The fields supplied are in range, judged for a record with this address (R68, R70). A path instruction other than keep,
clear and set is out of range: DESIGN CHOICE, notes/assumptions/50.md. -/
def RxUpdate.inRange (u : RxUpdate) (own : Option Addr) : Bool :=
  u.phase.all (fun p => (phaseOfCode p).isSome) && u.groups.all groupsInRange && u.path != some .unknown &&
    u.setPath.all (pathInRange own) && u.quality.all (fun v => decide (v.toNat ≤ 63)) &&
    u.carrier.all (fun c => (carrierOfCode c).isSome) && u.address.all individual

/-- Every field that is supplied in place of the one held (R70). -/
def RxUpdate.onto (u : RxUpdate) (r : Receiver) : Receiver :=
  let r := { r with
    phase := ((u.phase.bind phaseOfCode)).getD r.phase
    groups := (u.groups.map fun gs => gs.map (·.toNat)).getD r.groups
    quality := (u.quality.map (·.toNat)).getD r.quality }
  let r :=
    match u.path with
    | some (.set path) => { r with path := some path, stale := false }
    | some .clear => { r with path := none, stale := false }
    | some .keep => r
    | some .unknown => r
    | none => r
  match u.carrier.bind carrierOfCode with
  | some c => { r with carrier := c, failures := 0 }
  | none => r

/-- The record stored after an update, written when it changed, and returned (R70; notes/assumptions/21.md). -/
def storeUpdate (i : Nat) (r r' : Receiver) (s : State) : Handled :=
  let t := if r' = r then s else putReceiver i r' s
  taken (rxReadFields i r' t) t

/-- RX_UPDATE of a NORMAL record (R70). -/
def updateNormal (u : RxUpdate) (i : Nat) (r : Receiver) (s : State) : Handled :=
  if u.address.isSome || !u.inRange r.address then refuse .range s
  else if !s.pathFound (u.setPath.getD []) then refuse .notFound s
  else storeUpdate i r (u.onto r) s

/-- The request supplies the whole record: every field, and a path instruction other than keep (R71). -/
def RxUpdate.whole (u : RxUpdate) : Bool :=
  u.phase.isSome && u.groups.isSome && u.path.isSome && u.path != some .keep && u.quality.isSome &&
    u.carrier.isSome && u.address.isSome

/-- The address a DAMAGED record may be rewritten with: its own where present, otherwise one that no other record holds
(R71). -/
def State.mayTakeAddress (s : State) (r : Receiver) (a : Addr) : Bool :=
  match r.address with
  | some own => own == a
  | none => (s.receiverAt a).isNone

/-- The record as a rewrite leaves it (R71). -/
def RxUpdate.rewritten (u : RxUpdate) (r : Receiver) : Receiver :=
  { u.onto r with
    address := u.address, stale := false, failures := 0, reported := none, damaged := false, entries := [] }

/-- RX_UPDATE of a DAMAGED record, which rewrites it whole (R71). -/
def updateDamaged (u : RxUpdate) (i : Nat) (r : Receiver) (s : State) : Handled :=
  if !u.whole then refuse .badFormat s
  else if !u.inRange u.address then refuse .range s
  else if !u.address.all (s.mayTakeAddress r) then refuse .conflict s
  else if !s.pathFound (u.setPath.getD []) then refuse .notFound s
  else storeUpdate i r (u.rewritten r) s

/-- RX_UPDATE's handling, by the record's status (R70, R71). -/
def handleRxUpdate (_ : Request) (u : RxUpdate) (s : State) : Handled :=
  withReceiver u.selector (fun i r => if r.damaged then updateDamaged u i r else updateNormal u i r) s

/-- RX_UPDATE (R70, R71). -/
def execRxUpdate (s : State) : Host.Outcome State Fault Refusal := takeKind 0x19 readRxUpdate handleRxUpdate s

/-! ## RX_REMOVE (R72) -/

/-- The record's position emptied in the table, and the write of the empty position asked. -/
def dropReceiver (i : Nat) (s : State) : State := askWrite (.receiver i none) true { s with table := eraseAt s.table i }

/-- The record's path names the address. -/
def namesRelay (a : Option Addr) (r : Receiver) : Bool := (r.path.getD []).any fun b => a == some b

/-- Every other record whose path names the removed address has its path marked stale (R72). -/
def stalePaths (a : Option Addr) (s : State) : State :=
  changeReceivers (fun _ r => namesRelay a r && !r.stale) (fun _ r => { r with stale := true }) s

/-- A record removed: its position emptied and other paths marked stale, its entries counted dropped and its index out
of every roll, its probes withdrawn, and a transmission in flight with it marked (R72, R94, R126, R127). The writes are
asked in that sequence, the empty position, the records made stale, the orders: DESIGN CHOICE,
notes/assumptions/51.md. -/
def removeReceiver (i : Nat) (r : Receiver) (s : State) : State :=
  let s := stalePaths r.address (dropReceiver i s)
  let s := forgetReceiver i (fun k c => c.drop (r.entries.countP (·.slot == k))) s
  markWithdrawn i (withdrawProbes i s)

/-- RX_REMOVE's handling (R72). -/
def handleRxRemove (i : Nat) (r : Receiver) (s : State) : Handled :=
  taken [byteOf r.entries.length] (removeReceiver i r s)

/-- RX_REMOVE (R72). -/
def execRxRemove (s : State) : Host.Outcome State Fault Refusal :=
  takeKind 0x1A readSelector (fun _ sel => withReceiver sel handleRxRemove) s

/-! ## PROBE (R124) -/

/-- The phase a PROBE supplies: the outer absence for a code that is refused (R124, R188). -/
def ProbeRequest.phaseGiven (q : ProbeRequest) : Option (Option Phase) := phaseOfCode q.phase

/-- The path choice is DIRECT or PATH, with no phase beside PATH (R124). -/
def ProbeRequest.choiceInRange (q : ProbeRequest) : Bool := q.choice == 0 || (q.choice == 1 && q.phase == 0)

/-- The PROBE of a record: STATE and BUSY, then the probe appended (R124). -/
def addProbe (ticket : Byte) (viaPath : Bool) (phase : Option Phase) (i : Nat) (r : Receiver) (s : State) : Handled :=
  if r.damaged || (viaPath && (s.usablePath r).isNone) then refuse .state s
  else if Config.probeLimit ≤ s.sched.probes.length then refuse .busy s
  else
    let probes := s.sched.probes ++ [⟨ticket, i, r.address.getD 0, viaPath, phase⟩]
    taken [byteOf probes.length] { s with sched := { s.sched with probes := probes } }

/-- PROBE's handling: its checks in order (R124). -/
def handleProbe (req : Request) (q : ProbeRequest) (s : State) : Handled :=
  match q.phaseGiven with
  | none => refuse .range s
  | some phase =>
    if !q.choiceInRange then refuse .range s
    else withReceiver q.selector (addProbe req.ticket (q.choice == 1) phase) s

/-- PROBE (R124). -/
def execProbe (s : State) : Host.Outcome State Fault Refusal := takeKind 0x20 readProbe handleProbe s

end Sys2Proof.Machine
end

