-- ==== Sys2Proof/Machine/StoreOps.lean ====
section
/-! DEFINITION. The Retained Store at work: record writes and reads (R154 to R157), what damage does (R158 to R161, R80,
R81, R106), the power-on restore (R162, R108, R82) and the WIPE (R164 to R166). -/

namespace Sys2Proof.Machine

/-! ## Positions -/

/-- The position a scrub pointer names (R157, R188). -/
def positionAt (n : Nat) : Position :=
  if n = 0 then .config
  else if n = 1 then .savedCount
  else if n < 34 then .order (n - 2)
  else .receiver (n - 34)

/-- The words of a position listed, unless they are the zeros of an empty one. -/
def keep (l : List (Nat × Words)) (n : Nat) (ws : Words) : List (Nat × Words) :=
  if ws = zeroWords 32 then eraseAt l n else insertAt l n ws

/-- The words of an order or receiver position: zeros where none are listed. -/
def keptAt (l : List (Nat × Words)) (n : Nat) : Words := (lookup l n).getD (zeroWords 32)

/-- The words of a position (R152). -/
def RetainedStore.wordsAt (st : RetainedStore) : Position → Words
  | .config => st.config
  | .savedCount => st.savedCount
  | .order n => keptAt st.orders n
  | .receiver n => keptAt st.receivers n

/-- The store with other words at a position. -/
def RetainedStore.setWords (st : RetainedStore) (ws : Words) : Position → RetainedStore
  | .config => { st with config := ws }
  | .savedCount => { st with savedCount := ws }
  | .order n => { st with orders := keep st.orders n ws }
  | .receiver n => { st with receivers := keep st.receivers n ws }

/-- The store with the bits turned that have turned at a position. -/
def RetainedStore.spoil (st : RetainedStore) (e : ReadErrors) (pos : Position) : RetainedStore :=
  st.setWords (turnWords e (st.wordsAt pos)) pos

/-- The store after a read of a position: every word written back, and the words corrected counted (R154). -/
def RetainedStore.readBack (st : RetainedStore) (e : ReadErrors) (pos : Position) : RetainedStore :=
  let ws := turnWords e (st.wordsAt pos)
  { st.setWords (ws.map (·.writtenBack)) pos with corrections := bump st.corrections (correctedWords ws) }

/-- The words that a write lays down, with fresh check bits (R156). `count` is L as the write begins. -/
def WriteContent.words (c : WriteContent) (count : Count) : Words :=
  match c with
  | .config r => wordsOf (configNumbers r)
  | .savedCount v => wordsOf (countNumbers (v.getD count))
  | .order _ o => wordsOf (orderNumbers o)
  | .receiver _ r => wordsOf (receiverNumbers r)

/-- The position of a write. -/
def WriteContent.position : WriteContent → Position
  | .config _ => .config
  | .savedCount _ => .savedCount
  | .order n _ => .order n
  | .receiver n _ => .receiver n

/-- The store with a record laid down at its position (R156). `count` is L as the write begins. -/
def RetainedStore.lay (st : RetainedStore) (c : WriteContent) (count : Count) : RetainedStore :=
  st.setWords (c.words count) c.position

/-- The header cannot be read (R158). -/
def headerBad (ws : Words) : Bool := decide (0 ∈ badWords ws)

/-- The header is readable and reads unoccupied (R152, R158). -/
def readsEmpty (ws : Words) : Bool := !headerBad ws && unoccupied (numbersOf ws)

/-! ## Damage to a receiver record (R80, R81) -/

/-- The DAMAGED form of a receiver record (R80). -/
def damagedReceiver (address : Option Addr) : Receiver where
  address := address
  phase := none
  groups := []
  path := none
  stale := false
  quality := 0
  carrier := .primary
  failures := 0
  reported := none
  damaged := true
  entries := []

/-- The working copy of a position, put in or taken out. -/
def State.placeReceiver (s : State) (i : Nat) (r : Option Receiver) : State :=
  match r with
  | none => { s with table := eraseAt s.table i }
  | some r => s.setReceiver i r

/-- A receiver position found damaged in operation: its form in both copies, its probes withdrawn, an exchange in flight
marked, the rolls and accounts of the orders in slots mended (R80, R81, R94, R126, R127). A position written empty afresh is
not read back (DESIGN CHOICE, notes/assumptions/71.md), and leaves the paths that name its record as they are (DESIGN
CHOICE, notes/assumptions/68.md). -/
def damageReceiver (i : Nat) (form : Option Receiver) (s : State) : State :=
  let s := askWrite (.receiver i form) false (s.placeReceiver i form)
  let s := markWithdrawn i (withdrawProbes i s)
  let entries := s.entriesNaming
  forgetReceiver i (fun k c => c.reconcile (entries k)) s

/-- The address that a record found damaged keeps: that of the working record; where there is none, that of the header
unless another record holds it (R62, R158). DESIGN CHOICE: notes/assumptions/24.md. -/
def State.keptAddress (s : State) (i : Nat) (ws : Words) : Option Addr :=
  if headerBad ws then none
  else
    match s.receiver i with
    | some r => r.address
    | none => ((receiverOf (numbersOf ws)).bind (·.address)).filter fun a => (s.receiverAt a).isNone

/-- A receiver position found damaged in operation, with its words (R158, R80). -/
def receiverDamage (i : Nat) (found : Found) (ws : Words) (s : State) : State :=
  let note (result : DamageResult) (s : State) := noteStore (.receiver i) found result (badWords ws).length s
  if readsEmpty ws then
    note .emptyRewritten
      (if (s.receiver i).isNone then askWrite (.receiver i none) false s else damageReceiver i none s)
  else
    let address := s.keptAddress i ws
    let r := damagedReceiver address
    note (.damaged (address.map (·.toNat)))
      (if (s.receiver i).any (·.damaged) then askWrite (.receiver i (some r)) false (s.setReceiver i r)
        else damageReceiver i (some r) s)

/-! ## Damage to an order record (R106) -/

/-- The field cannot be read: one of the words that hold it is among those that cannot (R152). A second word holds it in a
CLOSED order alone. -/
def fieldLost (bad : List Nat) (closed : Bool) (f : OrderField) : Bool :=
  decide (f.word ∈ bad) || (closed && f.markWord.any fun m => decide (m ∈ bad))

/-- The DAMAGED form of an order record, from what is kept of it, the words that could not be read, and whether the position
holds a CLOSED order (R106). The tag lies in the header. -/
def damagedOrder (o : Order) (bad : List Nat) (closed : Bool) (number : Count) : Order :=
  let lost := OrderField.all.filter fun f => fieldLost bad closed f || decide (f ∈ o.unreadable)
  { tag := if 0 ∈ bad then 0 else o.tag
    hostRef := if .hostRef ∈ lost then none else o.hostRef
    target := if .target ∈ lost then .all else o.target
    action := if .action ∈ lost then .setTariff else o.action
    parameter := if .parameter ∈ lost then 0 else o.parameter
    activation := if .activation ∈ lost then 0 else o.activation
    spread := if .spread ∈ lost then 0 else o.spread
    repeats := if .repeats ∈ lost then 0 else o.repeats
    sealPoint := if .sealPoint ∈ lost then 0 else o.sealPoint
    admission := if .admission ∈ lost then 0 else o.admission
    counters := Counters.zero
    state := .closed number .damaged
    unreadable := lost }

/-- The order stands DAMAGED. -/
def Order.isDamaged (o : Order) : Bool := stateOutcomeCode o.state == outcomeCode .damaged

/-- A slot is held by an ACTIVE or REVOKING order. -/
def State.slotHeld (s : State) (k : Nat) : Bool := (s.orderInSlot k).isSome

/-- Every entry naming a slot that no ACTIVE or REVOKING order holds removed, each receiver so changed written (R106,
R108). -/
def dropLooseEntries (s : State) : State :=
  changeReceivers (fun _ r => r.entries.any fun e => !s.slotHeld e.slot)
    (fun _ r => { r with entries := r.entries.filter fun e => s.slotHeld e.slot }) s

/-- The value a STORE notice keeps of a damaged order: its tag, where it could be read (R161). -/
def Order.keptTag (o : Order) : Option Nat := if o.tag = 0 then none else some o.tag

/-- The working copy of an order position, put in or taken out. -/
def State.placeOrder (s : State) (n : Nat) (o : Option Order) : State :=
  match o with
  | none => { s with orders := { s.orders with orders := eraseAt s.orders.orders n } }
  | some o => s.setOrder n o

/-- An order record found damaged in operation: its damaged form in both copies, then the entries that named its slot
removed (R106). -/
def damageOrder (n : Nat) (o : Order) (s : State) : State :=
  dropLooseEntries (askWrite (.order n (some o)) false (s.setOrder n o))

/-- An order position whose stored header reads empty, written empty afresh: an order in the working copy leaves it, with
the entries that named its slot (R158). DESIGN CHOICE: notes/assumptions/24.md; the write is not read back: DESIGN CHOICE,
notes/assumptions/71.md. -/
def emptyOrder (n : Nat) (s : State) : State :=
  let t := askWrite (.order n none) false (s.placeOrder n none)
  if (s.order n).isNone then t else dropLooseEntries t

/-- What a damaged order position becomes (R158, R106). -/
inductive OrderDamage where
  | empty
  /-- A DAMAGED order that keeps its close number. -/
  | again (o : Order)
  /-- An order to be made DAMAGED, with the close number it then takes. -/
  | fresh (o : Order)
  deriving DecidableEq, Repr

/-- The damage of an order position, as its words alone give it (R158, R106). An order that reads as DAMAGED, in words that
can be read, keeps its close number; any other is made DAMAGED. -/
def storedDamage (ws : Words) : OrderDamage :=
  let bad := badWords ws
  let ns := numbersOf ws
  let o := orderBody bad ns (wordAt ns 0 / 0x100 % 0x100) (orderStateFrom ns)
  let closed := (readsClosed bad ns).getD false
  if readsEmpty ws then .empty
  else if o.isDamaged && [0, outcomeWord, closeWord].all (fun i => decide (i ∉ bad)) then
    .again (damagedOrder o bad closed (o.closeNumber.getD 0))
  else .fresh (damagedOrder o bad closed 0)

/-- The order with its tag, unless an order at another position holds it (R83). -/
def Order.withTagFree (o : Order) (n : Nat) (s : State) : Order :=
  if s.orders.orders.any fun no => no.1 != n && no.2.tag == o.tag then { o with tag := 0 } else o

/-- The damage of an order position in operation: the fields are those of the working record; where there is none, those of
the words, with a tag that no other order holds (R83, R158). DESIGN CHOICE: notes/assumptions/24.md. -/
def State.damageAt (s : State) (n : Nat) (ws : Words) : OrderDamage :=
  match s.order n, storedDamage ws with
  | _, .empty => .empty
  | none, .again o => .again (o.withTagFree n s)
  | none, .fresh o => .fresh (o.withTagFree n s)
  | some o, _ =>
    let bad := badWords ws
    let o' := damagedOrder o bad ((readsClosed bad (numbersOf ws)).getD o.isClosed) (o.closeNumber.getD 0)
    if o.isDamaged then .again o' else .fresh o'

/-- An order position found damaged in operation, with its words (R158, R106). -/
def orderDamage (n : Nat) (found : Found) (ws : Words) (s : State) : State :=
  let note (result : DamageResult) (s : State) := noteStore (.order n) found result (badWords ws).length s
  match s.damageAt n ws with
  | .empty => note .emptyRewritten (emptyOrder n s)
  | .again o => note (.damaged o.keptTag) (askWrite (.order n (some o)) false (s.setOrder n o))
  | .fresh o =>
    let s := bumpSequence s
    note (.damaged o.keptTag) (damageOrder n { o with state := .closed s.orders.sequence .damaged } s)

/-! ## Damage to the configuration and the saved count (R159, R160) -/

/-- The STORE notice of a configuration damaged in operation, with a changed LINK_RATE applied after it has been sent, or
at once if it is not queued (R159). -/
def noteDefaults (found : Found) (words : Nat) (after : AfterSent) (s : State) : State :=
  let fields := storeFields .config found .defaults words s.store.corrections s.count
  if queueTakes true s.link.queue then queueNoticeThen .store 0 fields after s
  else afterRecord after (queueNoticeThen .store 0 fields .nothing s)

/-- The configuration record found damaged in operation: the defaults in both copies, each changed value with the effect
of a write (R159). The rewrite is not read back: DESIGN CHOICE, notes/assumptions/71.md. -/
def configDamage (found : Found) (words : Nat) (s : State) : State :=
  let t := applyDefaults (askWrite (.config ⟨.default, false⟩) false s)
  noteDefaults found words (rateAfter s.params t.params) t

/-- The saved count found damaged in operation: rewritten with L as the write begins; the notice carries L as it now
stands (R160, R161; notes/assumptions/16.md). The rewrite is not read back: DESIGN CHOICE, notes/assumptions/71.md. -/
def countDamage (found : Found) (words : Nat) (s : State) : State :=
  noteStore .savedCount found (.countRewritten s.count) words (askWrite (.savedCount none) false s)

/-- What follows when a read in operation classes words of a position uncorrectable (R158). -/
def handleDamage (pos : Position) (found : Found) (ws : Words) (s : State) : State :=
  match pos with
  | .config => configDamage found (badWords ws).length s
  | .savedCount => countDamage found (badWords ws).length s
  | .order n => orderDamage n found ws s
  | .receiver n => receiverDamage n found ws s

/-- A read of a position in operation, with all that follows (R154, R158). -/
def readPosition (pos : Position) (found : Found) (e : ReadErrors) (s : State) : State :=
  let s := { s with store := s.store.readBack e pos }
  let ws := s.store.wordsAt pos
  if (badWords ws).isEmpty then s else handleDamage pos found ws s

/-! ## The scrub and the record writes (R156, R157) -/

/-- The pointer after a read: the cycle of 546 positions (R157). -/
def nextScrub (n : Nat) : Nat := if n + 1 < Config.storePositions then n + 1 else 0

/-- The scrub reads the position its pointer names, and the pointer moves on (R157). -/
def scrub (e : ReadErrors) (s : State) : State :=
  let pos := positionAt s.store.scrubNext
  readPosition pos .scrub e
    { s with store := { s.store with scrubNext := nextScrub s.store.scrubNext, scrubDue := s.store.scrubDue - 1 } }

/-- The oldest write of the list is made, and read back where it is verified (R155, R156). The words of an unverified
write that will not hold are found by a later read. -/
def writeRecord (e : ReadErrors) (s : State) : State :=
  match s.store.writes with
  | [] => s
  | w :: rest =>
    let pos := w.content.position
    let st := { s.store.lay w.content s.count with writes := rest }
    if w.verify then readPosition pos .verify e { s with store := st } else { s with store := st.spoil e pos }

/-! ## The power-on restore (R162, R108, R82, R187) -/

/-- What the restore's read of a position finds: no error where the operand names none. -/
def errorsAt (errors : List PositionErrors) (pos : Position) : ReadErrors :=
  ((errors.find? fun e => e.position == pos).map (·.errors)).getD []

/-- The order positions to look at: those listed, and those whose read finds an error. -/
def orderReads (st : RetainedStore) (errors : List PositionErrors) : List Nat :=
  (errors.foldl
    (fun l e =>
      match e.position with
      | .order n => if n < Config.orderPositions then insertIndex n l else l
      | .config => l
      | .savedCount => l
      | .receiver _ => l)
    (st.orders.map Prod.fst))

/-- The receiver positions to look at: those listed, and those whose read finds an error. -/
def receiverReads (st : RetainedStore) (errors : List PositionErrors) : List Nat :=
  (errors.foldl
    (fun l e =>
      match e.position with
      | .receiver n => if n < Config.receiverPositions then insertIndex n l else l
      | .config => l
      | .savedCount => l
      | .order _ => l)
    (st.receivers.map Prod.fst))

/-- A position read at the restore (R154). -/
def noteRead (pos : Position) (e : ReadErrors) (s : State) : State := { s with store := s.store.readBack e pos }

/-- Whether the wipe mark of the configuration reads yes (R162, R166): a header that cannot be read gives no. -/
def wipeMarked (ws : Words) : Bool := !headerBad ws && (configOf (numbersOf ws)).wipeMark

/-- The parameters the configuration gives at power-on: the defaults where it is damaged or a WIPE is to be completed
(R159, R166). -/
def restoredParams (ws : Words) : Params :=
  if (badWords ws).isEmpty && !wipeMarked ws then (configOf (numbersOf ws)).params else .default

/-- Every block at its power-on value, with these parameters and this store (R25, R60, R133, R150, R187). -/
def blocksAtPowerOn (params : Params) (st : RetainedStore) (count : Count) (s : State) : State where
  powered := true
  params := params
  tb := .powerOn (nominalPeriod params.nominalFreq) count
  orders := ⟨[], 0, 0⟩
  table := []
  sched := .powerOn
  engine := .powerOn
  carrier := ⟨.primary, params.carrierPrimary⟩
  driver := .powerOn params.levelMax
  answer := .powerOn params.carrierPrimary
  store := st
  link := .powerOn params.linkRate
  owed := .nothing
  freeUses := s.freeUses
  pending := s.pending

/-- The store as the restore begins: no write pending, nothing of a WIPE in hand, the scrub at its start (R157, R167). -/
def RetainedStore.atPowerOn (st : RetainedStore) : RetainedStore :=
  { st with
    writes := [], corrections := 0, scrubNext := 0, scrubPace := 0, scrubDue := 0, wiping := none, restoring := true }

/-- The configuration's damage at the restore: the defaults rewritten with the wipe mark as read, and its STORE notice
(R159, R166, R187). The rewrite is not read back: DESIGN CHOICE, notes/assumptions/71.md. -/
def restoreConfig (s : State) : State :=
  let ws := s.store.config
  let bad := badWords ws
  if bad.isEmpty then s
  else
    noteStore .config .restore .defaults bad.length
      (if wipeMarked ws then { s with store := s.store.lay (.config ⟨.default, true⟩) s.count }
        else askWrite (.config ⟨.default, false⟩) false s)

/-- The COUNT_UNCONFIRMED notice, then the saved count's damage with its STORE notice (R180, R160, R187). The rewrite is not
read back: DESIGN CHOICE, notes/assumptions/71.md. -/
def restoreCount (wiping : Bool) (s : State) : State :=
  let bad := badWords s.store.savedCount
  let s := queueNotice .countUnconfirmed (byteOf (flagByte [false, !bad.isEmpty, wiping])) (countBytes s.count) s
  if bad.isEmpty then s
  else
    noteStore .savedCount .restore (.countRewritten 0) bad.length
      (if wiping then { s with store := s.store.lay (.savedCount (some 0)) s.count }
        else askWrite (.savedCount (some 0)) false s)

/-- The later of two sequence values (R83). -/
def latest (a : Option Count) (b : Count) : Option Count :=
  match a with
  | none => some b
  | some x => if dist x b < 0 then some b else some x

/-- The readable numbers of an order position: its admission number, and its close number where the state could be read
(R108, R152). -/
def readableNumbers (ws : Words) : List Count :=
  let ns := numbersOf ws
  let bad := badWords ws
  let o := orderBody bad ns 0 (orderStateFrom ns)
  if readsEmpty ws then []
  else
    (if fieldLost bad ((readsClosed bad ns).getD false) .admission || decide (.admission ∈ o.unreadable) then []
      else [o.admission]) ++
      (if headerBad ws ∨ closeWord ∈ bad then [] else o.closeNumber.toList)

/-- An order position read at the restore (R162 step 3): its record into the working copy, its damage noted. A position
written empty afresh is not read back: DESIGN CHOICE, notes/assumptions/71.md. -/
def restoreOrder (errors : List PositionErrors) (s : State) (n : Nat) : State :=
  let s := noteRead (.order n) (errorsAt errors (.order n)) s
  let ws := keptAt s.store.orders n
  let bad := badWords ws
  let note (result : DamageResult) (s : State) := noteStore (.order n) .restore result bad.length s
  if bad.isEmpty then s.placeOrder n (orderOf (numbersOf ws))
  else
    match storedDamage ws with
    | .empty => note .emptyRewritten (askWrite (.order n none) false s)
    | .again o => note (.damaged o.keptTag) (askWrite (.order n (some o)) false (s.setOrder n o))
    | .fresh o => note (.damaged o.keptTag) (s.setOrder n o)

/-- The sequence value and the last assigned tag as the readable numbers give them (R108). -/
def restoreSequence (s : State) : State :=
  let numbers := (s.store.orders.map fun nw => readableNumbers nw.2).flatten
  let tagged := s.orders.orders.filterMap fun no =>
    if no.2.tag ≠ 0 ∧ .admission ∉ no.2.unreadable then some (no.2.tag, no.2.admission) else none
  let newest := tagged.foldl
    (fun (acc : Option (Nat × Count)) (x : Nat × Count) =>
      match acc with
      | none => some x
      | some y => if dist y.2 x.2 < 0 then some x else some y)
    none
  { s with orders := { s.orders with
      sequence := (numbers.foldl latest none).getD 0
      lastTag := (newest.map Prod.fst).getD 0 } }

/-- An order found damaged at the restore takes its close number, and its damaged form is written (R108, R106). -/
def numberDamaged (s : State) (n : Nat) : State :=
  match s.order n with
  | none => s
  | some o =>
    let ws := keptAt s.store.orders n
    match (badWords ws).isEmpty, storedDamage ws with
    | false, .fresh _ =>
      let s := bumpSequence s
      let o' := { o with state := .closed s.orders.sequence .damaged }
      askWrite (.order n (some o')) false (s.setOrder n o')
    | _, _ => s

/-- The order positions read, in ascending position order, and the store's values restored (R162 step 3, R108). -/
def restoreOrders (errors : List PositionErrors) (s : State) : State :=
  let positions := orderReads s.store errors
  positions.foldl numberDamaged (restoreSequence (positions.foldl (restoreOrder errors) s))

/-- A receiver position read at the restore (R162 step 4): its record into the working copy, its damage noted. A record
found damaged leaves the rolls; the accounts are balanced at the end of the restore (R80, R82, R94). A position written
empty afresh is not read back: DESIGN CHOICE, notes/assumptions/71.md. -/
def restoreReceiver (errors : List PositionErrors) (s : State) (i : Nat) : State :=
  let s := noteRead (.receiver i) (errorsAt errors (.receiver i)) s
  let ws := keptAt s.store.receivers i
  let bad := badWords ws
  let record := receiverOf (numbersOf ws)
  let note (result : DamageResult) (s : State) := noteStore (.receiver i) .restore result bad.length s
  if bad.isEmpty then s.placeReceiver i record
  else if readsEmpty ws then note .emptyRewritten (askWrite (.receiver i none) false s)
  else
    let address := if headerBad ws then none else record.bind (·.address)
    let r := damagedReceiver address
    note (.damaged (address.map (·.toNat)))
      (forgetReceiver i (fun _ c => c) (askWrite (.receiver i (some r)) false (s.setReceiver i r)))

/-- The receiver positions read, in ascending position order (R162 step 4). -/
def restoreReceivers (errors : List PositionErrors) (s : State) : State :=
  (receiverReads s.store errors).foldl (restoreReceiver errors) s

/-- The STORE notice of a resumed WIPE (R166). It carries no uncorrectable words, also where the configuration was found
damaged, which has a notice of its own: DESIGN CHOICE, notes/assumptions/72.md. -/
def noteResumed (s : State) : State := noteStore .config .wipeResumed .defaults 0 s

/-- Power-on (R162): every block at its power-on value, the configuration and the saved count read, and either the orders
and receivers restored, or a WIPE found begun to be completed (R166). -/
def powerOn (errors : List PositionErrors) (s : State) : State :=
  let s := { s with store := s.store.atPowerOn }
  let s := noteRead .config (errorsAt errors .config) s
  let c := s.store.config
  let saved (s : State) := noteRead .savedCount (errorsAt errors .savedCount) s
  let kept := (saved s).store.savedCount
  let count := if (badWords kept).isEmpty then savedCountOf (numbersOf kept) else 0
  let s := restoreConfig (blocksAtPowerOn (restoredParams c) s.store count s)
  let s := restoreCount (wipeMarked c) (saved s)
  if wipeMarked c then
    noteResumed { s with store := { s.store with wiping := some .resumed, restoring := false } }
  else restoreReceivers errors (restoreOrders errors s)

/-- The end of the restore: the two steps that follow the last receiver position (R108, R162). An entry whose attempts
stand at or above the RETRY_MAX restored is kept as it was last written (R82, R66): DESIGN CHOICE,
notes/assumptions/52.md. -/
def completeRestore (s : State) : State :=
  let s := reconcileAll (dropLooseEntries s)
  { s with store := { s.store with restoring := false } }

/-! ## Loss of power (R156, R166) -/

/-- The positions a WIPE had rewritten when power failed: orders, receivers, the saved count, in that sequence (R164,
R165). -/
def RetainedStore.wipeFirst (st : RetainedStore) (k : Nat) (count : Count) : RetainedStore :=
  { st with
    orders := st.orders.filter fun nx => decide (k ≤ nx.1)
    receivers := st.receivers.filter fun nx => decide (k ≤ Config.orderPositions + nx.1)
    savedCount := if k ≤ Config.orderPositions + Config.receiverPositions then st.savedCount else wordsOf (countNumbers count) }

/-- Loss of power: a write in progress completes, those after it are lost, and a WIPE stops where it was (R156, R163,
R166). -/
def losePower (writing : Bool) (wiped : Nat) (s : State) : State :=
  let st :=
    if s.store.wiping.isSome then s.store.wipeFirst wiped s.count
    else
      match writing, s.store.writes with
      | true, w :: _ => s.store.lay w.content s.count
      | true, [] => s.store
      | false, _ => s.store
  { s with powered := false, store := { st with writes := [] } }

/-! ## The WIPE (R164, R165, R186) -/

/-- The Host Link's part in the beginning of a WIPE: the queue, the buffer and the waiting OVERRUN replies emptied, the
counters 0, the link parameters at their defaults, the RESET in hand (R186). The record being sent goes on, with a rate that
it is to bring: DESIGN CHOICE, notes/assumptions/64.md. -/
def wipeLink (q : Request) (s : State) : State :=
  { s with
    params := { s.params with noticeMode := .push, levels := Params.default.levels, stationId := 0 }
    link := { s.link with
      queue := [], lost := false, counters := ⟨0, 0, 0, 0, 0⟩, buffer := [], replies := [], inHand := some q } }

/-- The working copies of orders and receivers removed, and the sequence value and last assigned tag 0 (R109, R82). -/
def wipeRecords (s : State) : State :=
  { s with orders := ⟨[], 0, 0⟩, table := [], owed := { s.owed with activation := [] } }

/-- The WIPE's first write, of the configuration with the wipe mark yes, verified (R164 step 5). A record found damaged
is rewritten the same (R159). -/
def wipeConfig (e : ReadErrors) (s : State) : State :=
  let marked : WriteContent := .config ⟨.default, true⟩
  let st := (s.store.lay marked s.count).readBack e .config
  let bad := badWords st.config
  if bad.isEmpty then { s with store := st }
  else noteStore .config .verify .defaults bad.length { s with store := st.lay marked s.count }

/-- The WIPE begins (R164, R186). -/
def beginWipe (q : Request) (e : ReadErrors) (s : State) : State :=
  let s := resetBlocks (wipeLink q s)
  let s := { s with store := { s.store with writes := [], wiping := some .requested, scrubDue := 0 } }
  let s := resetLine (applyDefaults (wipeRecords s))
  wipeConfig e s

/-- The reply to the RESET made at the end of a WIPE that a RESET asked for (R186). -/
def wipeReply (w : WipeState) (s : State) : State :=
  match w, s.link.inHand with
  | .requested, some q => appendReply q [resultByte .ok] .wipeDone s
  | .requested, none => s
  | .resumed, _ => s

/-- The WIPE ends: every position rewritten, the saved count with L, the configuration with the wipe mark no; the scrub
starts again, and the reply is made (R165, R166, R186). -/
def endWipe (w : WipeState) (s : State) : State :=
  wipeReply w { s with store := { s.store with
    config := wordsOf (configNumbers ⟨.default, false⟩)
    savedCount := wordsOf (countNumbers s.count)
    orders := [], receivers := [], scrubNext := 0, scrubPace := 0, scrubDue := 0, wiping := none } }

end Sys2Proof.Machine
end

