-- ==== Sys2Proof/Machine/Store.lean ====
section
/-! DEFINITION. The meanings of the Retained Store's commands and of the resets (08_retained_store.md, R185, R186). -/

namespace Sys2Proof.Machine

/-- POWER_ON (R162): power-on or assertion of RESET_N. -/
def execPowerOn (errors : List PositionErrors) (s : State) : Host.Outcome State Fault Refusal :=
  .next (powerOn errors s)

/-- POWER_LOSS (R156). -/
def execPowerLoss (writing : Bool) (wiped : Nat) (s : State) : Host.Outcome State Fault Refusal :=
  when s.powered s (losePower writing wiped s)

/-- RESTORE_COMPLETE (R162, R108). -/
def execRestoreComplete (s : State) : Host.Outcome State Fault Refusal :=
  when (s.powered && s.store.restoring) s (completeRestore s)

/-- A scrub read is owed and the port may make it (R157). -/
def State.scrubOwed (s : State) : Bool := s.working && s.store.wiping.isNone && decide (0 < s.store.scrubDue)

/-- SCRUB_READ (R157). -/
def execScrubRead (e : ReadErrors) (s : State) : Host.Outcome State Fault Refusal := when s.scrubOwed s (scrub e s)

/-- RECORD_WRITE (R156). No write is made before the restore ends: DESIGN CHOICE, notes/assumptions/63.md. -/
def execRecordWrite (e : ReadErrors) (s : State) : Host.Outcome State Fault Refusal :=
  when (s.working && s.store.wiping.isNone) s (writeRecord e s)

/-- A RESET with mode WIPE. -/
def asksWipe (q : Request) : Bool := q.kind == 0x05 && readOne q.body == some 2

/-- A RESET of any other form: mode SOFT, another mode, or an unreadable body. -/
def asksReset (q : Request) : Bool := q.kind == 0x05 && !asksWipe q

/-- The SOFT reset taken: the queue emptied, the request kept in hand, the reply made with the reset to follow it (R185
step 1). -/
def takeSoftReset (q : Request) (s : State) : Handled :=
  let s := emptyQueue s
  ⟨[resultByte .ok], .softReset, { s with link := { s.link with inHand := some q } }⟩

/-- RESET's handling but for the WIPE: SOFT is taken, any other mode refused (R185). -/
def handleReset (q : Request) (mode : Byte) (s : State) : Handled :=
  if mode = 1 then takeSoftReset q s else refuse .range s

/-- RESET_SOFT (R185). -/
def execResetSoft (s : State) : Host.Outcome State Fault Refusal := takeRequest asksReset (readThen readOne handleReset) s

/-- SOFT_RESET_PERFORM (R185 step 3): the end of the record whose sending the reset awaits. -/
def execSoftResetPerform (s : State) : Host.Outcome State Fault Refusal :=
  when (s.powered && s.endsWith AfterSent.resets) s (endRecord s)

/-- RESET_WIPE (R186, R164): a RESET with mode WIPE is taken, and the WIPE begins. -/
def execResetWipe (e : ReadErrors) (s : State) : Host.Outcome State Fault Refusal :=
  match s.oldest with
  | none => .next s
  | some q => when (asksWipe q) s (beginWipe q e (dropRequest s))

/-- WIPE_END (R165, R166). -/
def execWipeEnd (s : State) : Host.Outcome State Fault Refusal :=
  match s.store.wiping with
  | none => .next s
  | some w => when s.working s (endWipe w s)

end Sys2Proof.Machine
end

