-- ==== Sys2Proof/Machine/Timebase.lean ====
section
/-! DEFINITION. The meanings of the Mains Timebase's commands (01_the_mains_timebase.md) and of the steps that follow
a count advance in the Line Driver (R51, R52). A command that names a case of an edge or of a window's close is that
edge or close in that case alone; ZC_EDGE and WINDOW_CLOSE are theirs in every case (notes/assumptions/1.md). -/

namespace Sys2Proof.Machine

/-- ZC_EDGE (R2 to R8). -/
def execZcEdge (p : Phase) (time : Nat) (level : Bool) (run : Nat) (s : State) :
    Host.Outcome State Fault Refusal :=
  when s.powered s (takeEdge p time level run s)

/-- WINDOW_CLOSE (R7, R9, R10). -/
def execWindowClose (p : Phase) (s : State) : Host.Outcome State Fault Refusal :=
  when s.powered s (closeWindow p s)

/-- DERIVED_CROSSING (R3). -/
def execDerivedCrossing (p : Phase) (s : State) : Host.Outcome State Fault Refusal :=
  when s.powered s (deriveCrossing p s)

/-- CRYSTAL_ADVANCE (R15): in OUTAGE; the restore ends before the first one (R162). -/
def execCrystalAdvance (s : State) : Host.Outcome State Fault Refusal :=
  when (s.working && s.tb.state == .outage) s (crystalStep s)

/-- The edge locks the phase from this state (R6, R10). -/
def State.edgeLocks (s : State) (p : Phase) (time : Nat) (level : Bool) (run : Nat) (from' : TrackerState) : Bool :=
  (s.tracker p).state == from' &&
    match edgeStep s p time level run with
    | .locks _ => true
    | .quiet _ => false
    | .crosses _ => false

/-- ACQUIRE_LOCK (R6): the edge, where it is the one that locks an ACQUIRING phase. -/
def execAcquireLock (p : Phase) (time : Nat) (level : Bool) (run : Nat) (s : State) :
    Host.Outcome State Fault Refusal :=
  when (s.powered && s.edgeLocks p time level run .acquiring) s (takeEdge p time level run s)

/-- SILENCE_TIMEOUT (R6, R5). -/
def execSilenceTimeout (p : Phase) (s : State) : Host.Outcome State Fault Refusal :=
  when s.powered s (timeOutSilence s p)

/-- MISS_LIMIT (R9): the window's close, where it is the third in succession in LOCKED. -/
def execMissLimit (p : Phase) (s : State) : Host.Outcome State Fault Refusal :=
  when (s.powered && s.locked p && decide (Config.missLimit ≤ (s.tracker p).miss + 1)) s (closeWindow p s)

/-- RETURN_LOCK (R10): the edge, where it is the fourth accepted in succession in COASTING. -/
def execReturnLock (p : Phase) (time : Nat) (level : Bool) (run : Nat) (s : State) :
    Host.Outcome State Fault Refusal :=
  when (s.powered && s.edgeLocks p time level run .coasting) s (takeEdge p time level run s)

/-- COAST_TIMEOUT (R10): the window's close, where it is the two-hundredth in succession in COASTING. -/
def execCoastTimeout (p : Phase) (s : State) : Host.Outcome State Fault Refusal :=
  when (s.powered && (s.tracker p).state == .coasting && decide (Config.coastLimit ≤ (s.tracker p).coast + 1)) s
    (closeWindow p s)

/-- SETTLE_END (R17). -/
def execSettleEnd (s : State) : Host.Outcome State Fault Refusal :=
  when (s.powered && s.owed.settleEnd) s (endSettling s)

/-- BEACON_TIMER_EXPIRY (R22). -/
def execBeaconTimerExpiry (s : State) : Host.Outcome State Fault Refusal :=
  when s.powered s (expireBeaconTimer s)

/-- SAVE_CADENCE (R23). -/
def execSaveCadence (s : State) : Host.Outcome State Fault Refusal :=
  when s.powered s (saveCount s)

/-- COOL_DOWN_END (R51). -/
def execCoolDownEnd (s : State) : Host.Outcome State Fault Refusal :=
  when s.powered s (endCoolDown s)

/-- CAP_RECOVERY (R52). -/
def execCapRecovery (s : State) : Host.Outcome State Fault Refusal :=
  when s.powered s (recoverCap s)

end Sys2Proof.Machine
end

