-- ==== Sys2Proof/Machine/Dispatch.lean ====
section
/-! DEFINITION. The meaning of every command: one arm per constructor of Instr, each a direct call. -/

namespace Sys2Proof.Machine

def exec (i : Instr) (s : State) : Host.Outcome State Fault Refusal :=
  match i with
  | .powerOn e => Sys2Proof.Machine.execPowerOn e s
  | .powerLoss w k => Sys2Proof.Machine.execPowerLoss w k s
  | .restoreComplete => Sys2Proof.Machine.execRestoreComplete s
  | .zcEdge p t l r => Sys2Proof.Machine.execZcEdge p t l r s
  | .windowClose p => Sys2Proof.Machine.execWindowClose p s
  | .derivedCrossing p => Sys2Proof.Machine.execDerivedCrossing p s
  | .crystalAdvance => Sys2Proof.Machine.execCrystalAdvance s
  | .acquireLock p t l r => Sys2Proof.Machine.execAcquireLock p t l r s
  | .silenceTimeout p => Sys2Proof.Machine.execSilenceTimeout p s
  | .missLimit p => Sys2Proof.Machine.execMissLimit p s
  | .returnLock p t l r => Sys2Proof.Machine.execReturnLock p t l r s
  | .coastTimeout p => Sys2Proof.Machine.execCoastTimeout p s
  | .settleEnd => Sys2Proof.Machine.execSettleEnd s
  | .beaconTimerExpiry => Sys2Proof.Machine.execBeaconTimerExpiry s
  | .saveCadence => Sys2Proof.Machine.execSaveCadence s
  | .coolDownEnd => Sys2Proof.Machine.execCoolDownEnd s
  | .capRecovery => Sys2Proof.Machine.execCapRecovery s
  | .scrubRead e => Sys2Proof.Machine.execScrubRead e s
  | .recordWrite e => Sys2Proof.Machine.execRecordWrite e s
  | .orderActivate => Sys2Proof.Machine.execOrderActivate s
  | .orderSeal n => Sys2Proof.Machine.execOrderSeal n s
  | .notSent n => Sys2Proof.Machine.execNotSent n s
  | .decisionPoint => Sys2Proof.Machine.execDecisionPoint s
  | .cellWindow p => Sys2Proof.Machine.execCellWindow p s
  | .legComplete => Sys2Proof.Machine.execLegComplete s
  | .overCurrent t => Sys2Proof.Machine.execOverCurrent s t
  | .relaySpanOpen g1 g2 => Sys2Proof.Machine.execRelaySpanOpen g1 g2 s
  | .relaySpanEnd h => Sys2Proof.Machine.execRelaySpanEnd h s
  | .answerWindowOpen g1 g2 => Sys2Proof.Machine.execAnswerWindowOpen g1 g2 s
  | .answerReport h => Sys2Proof.Machine.execAnswerReport h s
  | .recordComplete c => Sys2Proof.Machine.execRecordComplete c s
  | .framingDiscard => Sys2Proof.Machine.execFramingDiscard s
  | .lengthDiscard c => Sys2Proof.Machine.execLengthDiscard c s
  | .crcDiscard c => Sys2Proof.Machine.execCrcDiscard c s
  | .gapDiscard => Sys2Proof.Machine.execGapDiscard s
  | .transmitStart => Sys2Proof.Machine.execTransmitStart s
  | .rateSwitch => Sys2Proof.Machine.execRateSwitch s
  | .unknownKind => Sys2Proof.Machine.execUnknownKind s
  | .ident => Sys2Proof.Machine.execIdent s
  | .status => Sys2Proof.Machine.execStatus s
  | .paramRead => Sys2Proof.Machine.execParamRead s
  | .paramWrite => Sys2Proof.Machine.execParamWrite s
  | .writeNominalFreq => Sys2Proof.Machine.execWriteNominalFreq s
  | .writeRefPhase => Sys2Proof.Machine.execWriteRefPhase s
  | .writePhaseEnable => Sys2Proof.Machine.execWritePhaseEnable s
  | .writeZcFilter => Sys2Proof.Machine.execWriteZcFilter s
  | .writeZcEdge => Sys2Proof.Machine.execWriteZcEdge s
  | .writeSettleCount => Sys2Proof.Machine.execWriteSettleCount s
  | .writeBeaconInterval => Sys2Proof.Machine.execWriteBeaconInterval s
  | .writeCarrierPrimary => Sys2Proof.Machine.execWriteCarrierPrimary s
  | .writeCarrierAlternate => Sys2Proof.Machine.execWriteCarrierAlternate s
  | .writeLevelMax => Sys2Proof.Machine.execWriteLevelMax s
  | .writeMinMargin => Sys2Proof.Machine.execWriteMinMargin s
  | .writeLevelBase => Sys2Proof.Machine.execWriteLevelBase s
  | .writeQTarget => Sys2Proof.Machine.execWriteQTarget s
  | .writeLevelBroadcast => Sys2Proof.Machine.execWriteLevelBroadcast s
  | .writeRetryMax => Sys2Proof.Machine.execWriteRetryMax s
  | .writeRelayAfter => Sys2Proof.Machine.execWriteRelayAfter s
  | .writeRepeatSpacing => Sys2Proof.Machine.execWriteRepeatSpacing s
  | .writeLinkRate => Sys2Proof.Machine.execWriteLinkRate s
  | .writeNoticeMode => Sys2Proof.Machine.execWriteNoticeMode s
  | .writeStationId => Sys2Proof.Machine.execWriteStationId s
  | .writeNoticeLevels => Sys2Proof.Machine.execWriteNoticeLevels s
  | .resetSoft => Sys2Proof.Machine.execResetSoft s
  | .softResetPerform => Sys2Proof.Machine.execSoftResetPerform s
  | .resetWipe e => Sys2Proof.Machine.execResetWipe e s
  | .wipeEnd => Sys2Proof.Machine.execWipeEnd s
  | .noticeFetch => Sys2Proof.Machine.execNoticeFetch s
  | .timeRead => Sys2Proof.Machine.execTimeRead s
  | .countSet => Sys2Proof.Machine.execCountSet s
  | .orderAdd => Sys2Proof.Machine.execOrderAdd s
  | .orderCancel => Sys2Proof.Machine.execOrderCancel s
  | .orderRead => Sys2Proof.Machine.execOrderRead s
  | .orderList => Sys2Proof.Machine.execOrderList s
  | .orderClear => Sys2Proof.Machine.execOrderClear s
  | .rxAdd => Sys2Proof.Machine.execRxAdd s
  | .rxUpdate => Sys2Proof.Machine.execRxUpdate s
  | .rxRemove => Sys2Proof.Machine.execRxRemove s
  | .rxRead => Sys2Proof.Machine.execRxRead s
  | .rxList => Sys2Proof.Machine.execRxList s
  | .probe => Sys2Proof.Machine.execProbe s
  | .byteReceived c => Sys2Proof.Machine.execByteReceived c s
  | .recordSent => Sys2Proof.Machine.execRecordSent s

end Sys2Proof.Machine
end

