-- ==== Sys2Proof/WellFormed.lean ====
section
/-! DEFINITION. Which commands are well formed: the operands that some event of the part can carry. -/

namespace Sys2Proof

/-- The words of each position (08_retained_store, Organisation). -/
def Position.words : Position → Nat
  | .config => 16
  | .savedCount => 1
  | .order _ => 32
  | .receiver _ => 32

/-- A position that the store has (08_retained_store, Organisation). -/
def Position.wf : Position → Bool
  | .config => true
  | .savedCount => true
  | .order n => n < 32
  | .receiver n => n < 512

/-- A read of a position of `words` words meets turned bits in words that the position has, each word named once and for
bits that did turn (R152, R153). -/
def readWf (words : Nat) (e : Machine.ReadErrors) : Bool :=
  e.all (fun f => f.word < words && f.bits != ⟨0, 0⟩) && decide (e.map (·.word)).Nodup

/-- What a restore finds at one position can be found there. -/
def PositionErrors.wf (e : PositionErrors) : Bool := e.position.wf && readWf e.position.words e.errors

/-- A character that the link receiver takes: its start bit is low (R168). -/
def Character.wf (ch : Character) : Bool := !ch.getLsbD 0

/-- A character without framing error (R168). -/
def Character.whole (ch : Character) : Bool := Character.wf ch && !Machine.framingError ch

/-- The operands are those of an event that can happen. -/
def Instr.wf : Instr → Bool
  | .powerOn errors => errors.all PositionErrors.wf && decide (errors.map (·.position)).Nodup
  | .powerLoss _ wiped => wiped ≤ 545
  | .zcEdge _ _ _ run => 0 < run
  | .acquireLock _ _ _ run => 0 < run
  | .returnLock _ _ _ run => 0 < run
  | .scrubRead errors => readWf 32 errors
  | .recordWrite errors => readWf 32 errors
  | .resetWipe errors => readWf 16 errors
  | .orderSeal position => position < 32
  | .notSent position => position < 32
  | .relaySpanEnd heard => heard.length ≤ 15
  | .answerReport heard => heard.length ≤ 12
  | .lengthDiscard ch => Character.whole ch && decide (248 < (Machine.dataOfChar ch).toNat)
  | .recordComplete ch => Character.whole ch
  | .crcDiscard ch => Character.whole ch
  | .framingDiscard => true
  | .byteReceived ch => Character.wf ch
  | .restoreComplete => true
  | .windowClose _ => true
  | .derivedCrossing _ => true
  | .crystalAdvance => true
  | .silenceTimeout _ => true
  | .missLimit _ => true
  | .coastTimeout _ => true
  | .settleEnd => true
  | .beaconTimerExpiry => true
  | .saveCadence => true
  | .coolDownEnd => true
  | .capRecovery => true
  | .orderActivate => true
  | .decisionPoint => true
  | .cellWindow _ => true
  | .legComplete => true
  | .overCurrent _ => true
  | .relaySpanOpen _ _ => true
  | .answerWindowOpen _ _ => true
  | .gapDiscard => true
  | .transmitStart => true
  | .rateSwitch => true
  | .unknownKind => true
  | .ident => true
  | .status => true
  | .paramRead => true
  | .paramWrite => true
  | .writeNominalFreq => true
  | .writeRefPhase => true
  | .writePhaseEnable => true
  | .writeZcFilter => true
  | .writeZcEdge => true
  | .writeSettleCount => true
  | .writeBeaconInterval => true
  | .writeCarrierPrimary => true
  | .writeCarrierAlternate => true
  | .writeLevelMax => true
  | .writeMinMargin => true
  | .writeLevelBase => true
  | .writeQTarget => true
  | .writeLevelBroadcast => true
  | .writeRetryMax => true
  | .writeRelayAfter => true
  | .writeRepeatSpacing => true
  | .writeLinkRate => true
  | .writeNoticeMode => true
  | .writeStationId => true
  | .writeNoticeLevels => true
  | .resetSoft => true
  | .softResetPerform => true
  | .wipeEnd => true
  | .noticeFetch => true
  | .timeRead => true
  | .countSet => true
  | .orderAdd => true
  | .orderCancel => true
  | .orderRead => true
  | .orderList => true
  | .orderClear => true
  | .rxAdd => true
  | .rxUpdate => true
  | .rxRemove => true
  | .rxRead => true
  | .rxList => true
  | .probe => true
  | .recordSent => true

end Sys2Proof
end

