-- ==== Sys2Proof/Safety.lean ====
section
/-! DEFINITION. The laws of the device that the model keeps at every step, as predicates of one state. -/

namespace Sys2Proof.Safety

open Sys2Proof.Machine

/-- The law of R174: at most 16 notices, 4 requests and 4 probes wait, and every urgent notice stands before every normal
one. -/
def LinkBounded (s : State) : Prop :=
  s.link.queue.length ≤ 16 ∧ s.link.buffer.length ≤ 4 ∧ s.sched.probes.length ≤ 4 ∧
    s.link.queue.Pairwise fun a b => b.urgent = true → a.urgent = true

/-- The law of R52: LEVEL_CAP stays within max(0, LEVEL_MAX − 8) to LEVEL_MAX. -/
def CapInSpan (s : State) : Prop := s.params.levelMax - 8 ≤ s.driver.cap ∧ s.driver.cap ≤ s.params.levelMax

/-- A list by position is in its canonical form, with every position below `n`. -/
def Placed {α : Type} (n : Nat) (l : List (Nat × α)) : Prop := rising l = true ∧ ∀ x ∈ l, x.1 < n

/-- The words listed by position are in their canonical form: each of the positions below `n` that is listed has its 32
words, which are not the zeros of an unlisted one. -/
def WordsPlaced (n : Nat) (l : List (Nat × Words)) : Prop :=
  Placed n l ∧ ∀ x ∈ l, x.2.length = 32 ∧ x.2 ≠ zeroWords 32

/-- Every order and receiver stands at a position of its own that the part has, in the working copies and in the writes
asked (R62, R83); the Retained Store has its positions with their words (08_retained_store, Organisation). -/
def Canonical (s : State) : Prop :=
  Placed 32 s.orders.orders ∧ Placed 512 s.table ∧ WordsPlaced 32 s.store.orders ∧ WordsPlaced 512 s.store.receivers ∧
    s.store.config.length = 16 ∧ s.store.savedCount.length = 1 ∧
    (∀ w ∈ s.store.writes, w.content.position.wf = true) ∧ s.store.scrubNext < 546

/-- The laws of R65 and R80 for one record: no two entries for one slot, and none at all when DAMAGED. -/
def ListSound (r : Receiver) : Prop := (r.entries.map (·.slot)).Nodup ∧ (r.damaged = true → r.entries = [])

/-- Every delivery list is sound, in the table, in what the words of the Retained Store give and in the writes asked. -/
def ListsSound (s : State) : Prop :=
  (∀ x ∈ s.table, ListSound x.2) ∧ (∀ x ∈ s.store.receivers, ∀ r, receiverOf (numbersOf x.2) = some r → ListSound r) ∧
    ∀ w ∈ s.store.writes, ∀ i r, w.content = .receiver i (some r) → ListSound r

/-- Exactly one of the 39 bits of a word (R153). -/
def OneBit (b : StoredWord) : Prop :=
  (∃ i, i < 32 ∧ b = ⟨BitVec.twoPow 32 i, 0⟩) ∨ ∃ i, i < 7 ∧ b = ⟨0, BitVec.twoPow 7 i⟩

/-- A read that meets at most one turned bit in each word of a position of `n` words (R153). -/
def SingleBits (n : Nat) (e : ReadErrors) : Prop :=
  (e.map (·.word)).Nodup ∧ ∀ f ∈ e, f.word < n ∧ OneBit f.bits

/-- The parameters lie within their words. -/
def ParamsFit (p : Params) : Prop :=
  p.settleCount < 65536 ∧ p.beaconInterval < 65536 ∧ p.carrierPrimary < 65536 ∧ p.carrierAlternate < 65536 ∧
    p.levelMax < 256 ∧ p.levelBase < 256 ∧ p.levelBroadcast < 256 ∧ p.qTarget < 256 ∧ p.minMargin < 65536 ∧
    p.repeatSpacing < 65536 ∧ p.retryMax < 256 ∧ p.relayAfter < 256

/-- The fields of a receiver record lie within what 04_the_receiver_table gives them. -/
def ReceiverFits (r : Receiver) : Prop :=
  r.address ≠ some 0 ∧ r.groups.length ≤ 4 ∧ (∀ g ∈ r.groups, 1 ≤ g ∧ g < 256) ∧
    (∀ path, r.path = some path → path.length = 1 ∨ path.length = 2) ∧ r.quality < 65536 ∧ r.failures < 65536 ∧
    (∀ x, r.reported = some x → x.tariff < 256) ∧ r.entries.length ≤ 8 ∧
    (∀ e ∈ r.entries, e.slot < 8 ∧ e.attempts < 65536) ∧ ListSound r

/-- The target of an order is one that an address names (R87). -/
def TargetFits : Target → Prop
  | .all => True
  | .group g => 1 ≤ g ∧ g ≤ 14
  | .single a => individual a = true

/-- The fields of an order record lie within what 05_tariff_orders gives them; absent fields, which only a DAMAGED order has
(R106), stand in the order of the record. -/
def OrderFits (o : Order) : Prop :=
  o.tag < 256 ∧ TargetFits o.target ∧ o.parameter < 65536 ∧ o.spread < 65536 ∧ o.repeats < 65536 ∧
    o.counters.targeted < 65536 ∧ o.counters.confirmed < 65536 ∧ o.counters.refused < 65536 ∧
    o.counters.exhausted < 65536 ∧ o.counters.late < 65536 ∧ o.counters.dropped < 65536 ∧
    (∀ f, o.fields = some f → f.slot < 8 ∧ f.sent < 65536 ∧ f.roll.Pairwise (· < ·) ∧ ∀ i ∈ f.roll, i < 512) ∧
    (o.isClosed = false → o.unreadable = []) ∧ ∃ absent : OrderField → Bool, o.unreadable = OrderField.all.filter absent

/-- The account of an order in a slot balances: targeted equals its outcomes and the entries that name its slot (R96). -/
def Balanced (s : State) (o : Order) (f : SlotFields) : Prop :=
  o.counters.targeted = o.counters.outcomes + s.entriesNaming f.slot

/-- A run of samples that the phase's filter accepts as an edge to `level` (R2). -/
def EdgeAccepted (s : State) (p : Phase) (level : Bool) (run : Nat) : Prop :=
  (s.tracker p).settled = some (!level) ∧ filterSamples (s.params.filter.get p) ≤ run

/-- An edge inside the window of a LOCKED or COASTING phase whose last crossing is `last`, presented by the edge mode
(R3, R7). -/
def EdgeInside (s : State) (p : Phase) (last time : Nat) (level : Bool) : Prop :=
  (s.tracker p).last = some last ∧ presented (s.params.edge.get p) level = true ∧
    insideWindow s.params.nominalFreq (s.params.edge.get p) (s.tracker p) last time = true

/-- The count is CONFIRMED and nothing but a WIPE or the restore could hold the Order Store back (R91). -/
def Counting (s : State) : Prop := s.powered = true ∧ s.store.restoring = false ∧ s.tb.status = .confirmed

/-- The row of spec/opcode_table.json that names the write of a parameter. -/
def writeRow : Param → Instr
  | .nominalFreq => .writeNominalFreq
  | .refPhase => .writeRefPhase
  | .phaseEnable => .writePhaseEnable
  | .zcFilter _ => .writeZcFilter
  | .zcEdge _ => .writeZcEdge
  | .settleCount => .writeSettleCount
  | .beaconInterval => .writeBeaconInterval
  | .carrierPrimary => .writeCarrierPrimary
  | .carrierAlternate => .writeCarrierAlternate
  | .levelMax => .writeLevelMax
  | .minMargin => .writeMinMargin
  | .levelBase => .writeLevelBase
  | .qTarget => .writeQTarget
  | .levelBroadcast => .writeLevelBroadcast
  | .retryMax => .writeRetryMax
  | .relayAfter => .writeRelayAfter
  | .repeatSpacing => .writeRepeatSpacing
  | .linkRate => .writeLinkRate
  | .noticeMode => .writeNoticeMode
  | .stationId => .writeStationId
  | .noticeLevel _ => .writeNoticeLevels

/-- The range of a numeric parameter; none for an enumeration, the set and a divider (09_the_host_link, Parameters). -/
def numericRange : Param → Option (Nat × Nat)
  | .settleCount => some (50, 3000)
  | .beaconInterval => some (500, 30000)
  | .levelMax => some (0, 31)
  | .minMargin => some (10, 1000)
  | .levelBase => some (0, 31)
  | .qTarget => some (0, 63)
  | .levelBroadcast => some (0, 31)
  | .retryMax => some (1, 15)
  | .relayAfter => some (0, 15)
  | .repeatSpacing => some (20, 2000)
  | .stationId => some (0, 65535)
  | _ => none

/-- The state after the request `q` is answered with `body` and nothing else changes (R172). -/
def answered (q : Request) (body : List Byte) (s : State) : State :=
  appendReply q body .nothing (dropRequest s)

/-- Characters received one after another, each by its own BYTE_RECEIVED (R168, R170). -/
def received : List Character → State → Host.Outcome State Fault Refusal
  | [], s => .next s
  | ch :: rest, s =>
    match exec (.byteReceived ch) s with
    | .next t => received rest t
    | .fault f => .fault f
    | .refused r => .refused r

end Sys2Proof.Safety
end

