-- ==== Sys2Proof/Certificates/Slice0/Obligations.lean ====
section
/-! DEFINITION. The statements for the provers, family by family in the order of the opcode table. -/

open Sys2Proof Sys2Proof.Machine Sys2Proof.Safety

/-! ## The block as a machine -/

/-- A step runs the command at the front of the queue with the queue's rest; on an empty queue it idles (the model's
choice, notes/assumptions/8.md). -/
def Obligations.StepRunsTheFrontCommand : Prop :=
  (∀ (c : Instr) (rest : List Instr) (s : State), step { s with pending := c :: rest } = exec c { s with pending := rest }) ∧
    ∀ s : State, step { s with pending := [] } = .next { s with pending := [] }

/-- Every command answers a next state in every state, and leaves the queue of waiting commands as it is. The model's
choice in it: notes/assumptions/1.md. -/
def Obligations.EveryCommandAnswersNext : Prop :=
  ∀ (c : Instr) (s : State), ∃ t, exec c s = .next t ∧ t.pending = s.pending

/-! ## The laws of the device at every step -/

/-- The law of R174, kept by every command, with the order in which notices wait: urgent ones first. -/
def Obligations.QueuesStayBounded : Prop :=
  ∀ (c : Instr) (s t : State), LinkBounded s → exec c s = .next t → LinkBounded t

/-- The law of R52, kept by every command. -/
def Obligations.LevelCapStaysInItsSpan : Prop :=
  ∀ (c : Instr) (s t : State), CapInSpan s → exec c s = .next t → CapInSpan t

/-- Every well-formed command keeps each order and receiver at a position of its own that the part has. -/
def Obligations.PositionsStayCanonical : Prop :=
  ∀ (c : Instr) (s t : State), c.wf = true → Canonical s → exec c s = .next t → Canonical t

/-- Every command keeps the delivery lists sound, one entry a slot and none in a DAMAGED record, whatever the words of the
Retained Store come to. The model's choice in it: notes/assumptions/11.md and notes/assumptions/48.md. -/
def Obligations.DeliveryListsStaySound : Prop :=
  ∀ (c : Instr) (s t : State), ListsSound s → exec c s = .next t → ListsSound t

/-- The state after reset keeps the four laws. The model's choice in it: notes/assumptions/6.md and
notes/assumptions/44.md. -/
def Obligations.ResetKeepsTheLaws : Prop :=
  LinkBounded State.reset ∧ CapInSpan State.reset ∧ Canonical State.reset ∧ ListsSound State.reset

/-! ## The Mains Timebase -/

/-- ZC_EDGE: an edge inside the window of a LOCKED phase is its crossing. P follows the interval it ends, the miss
count becomes 0, and on a phase that is not the reference, with no transmission in flight, nothing else changes. The
model's choice in it: notes/assumptions/10.md. -/
def Obligations.EdgeInsideWindowUpdatesPeriod : Prop :=
  ∀ (s : State) (p : Phase) (time : Nat) (level : Bool) (run last : Nat),
    s.powered = true → (s.tracker p).state = .locked → EdgeAccepted s p level run → EdgeInside s p last time level →
    s.tb.reference ≠ some p → s.owed.settleEnd = false → s.engine.transmission = none →
    exec (.zcEdge p time level run) s = .next (s.setTracker p { s.tracker p with
      settled := some level
      period := (((s.tracker p).period : Int) +
        (intervalOf (s.params.edge.get p) last time - (s.tracker p).period).tdiv 8).toNat
      last := some time
      lastFull := if s.params.edge.get p = .rising then some (time - last) else (s.tracker p).lastFull
      miss := 0
      derivedDue := s.params.edge.get p == .rising
      lastHanded := some time })

/-- ZC_EDGE: an accepted edge outside the window of a LOCKED or COASTING phase, and in RISING mode every falling edge,
is discarded: the filter's settled level alone changes. A run shorter than the filter changes nothing. The model's
choice in it: notes/assumptions/10.md. -/
def Obligations.OtherEdgesAreDiscarded : Prop :=
  ∀ (s : State) (p : Phase) (time : Nat) (level : Bool) (run : Nat), s.powered = true →
    (EdgeAccepted s p level run →
      ((s.params.edge.get p = .rising ∧ level = false) ∨
        ((s.tracker p).tracked = true ∧ ∃ last, (s.tracker p).last = some last ∧
          insideWindow s.params.nominalFreq (s.params.edge.get p) (s.tracker p) last time = false)) →
      exec (.zcEdge p time level run) s = .next (s.setTracker p { s.tracker p with settled := some level })) ∧
    ((s.tracker p).settled = some (!level) → run < filterSamples (s.params.filter.get p) →
      exec (.zcEdge p time level run) s = .next (s.setTracker p (s.tracker p)))

/-- WINDOW_CLOSE: a window that closes with no edge accepted gives a crossing at the predicted time. P stays, the miss
count of a LOCKED phase rises, and in COASTING the return count becomes 0 and the coast count rises. -/
def Obligations.EmptyWindowSynthesises : Prop :=
  ∀ (s : State) (p : Phase) (last : Nat),
    s.powered = true → (s.tracker p).last = some last → s.tb.reference ≠ some p → s.owed.settleEnd = false →
    s.engine.transmission = none →
    ((s.tracker p).state = .locked → (s.tracker p).miss < 2 →
      exec (.windowClose p) s = .next (s.setTracker p { s.tracker p with
        last := some (predicted (s.params.edge.get p) (s.tracker p) last)
        lastFull := if s.params.edge.get p = .rising then some (2 * (s.tracker p).period) else (s.tracker p).lastFull
        miss := (s.tracker p).miss + 1
        derivedDue := s.params.edge.get p == .rising
        lastHanded := some (predicted (s.params.edge.get p) (s.tracker p) last) })) ∧
    ((s.tracker p).state = .coasting → (s.tracker p).coast < 199 →
      exec (.windowClose p) s = .next (s.setTracker p { s.tracker p with
        last := some (predicted (s.params.edge.get p) (s.tracker p) last)
        lastFull := if s.params.edge.get p = .rising then some (2 * (s.tracker p).period) else (s.tracker p).lastFull
        ret := 0
        coast := (s.tracker p).coast + 1
        derivedDue := s.params.edge.get p == .rising
        lastHanded := some (predicted (s.params.edge.get p) (s.tracker p) last) }))

/-- WINDOW_CLOSE of the reference in RUNNING: the synthesised crossing advances L by one where it lies at least P div 2
after the last advance time, or where no spacing is asked; the line hold is lowered. -/
def Obligations.ReferenceCrossingAdvancesCount : Prop :=
  ∀ (s : State) (p : Phase) (last : Nat),
    s.powered = true → (s.tracker p).last = some last → (s.tracker p).state = .locked → (s.tracker p).miss < 2 →
    s.tb.state = .running → s.tb.reference = some p →
    (s.tb.spacing = true → s.tb.lastAdvance + (s.tracker p).period / 2 ≤
      predicted (s.params.edge.get p) (s.tracker p) last) →
    ∃ t, exec (.windowClose p) s = .next t ∧ t.tb.count = s.tb.count + 1 ∧
      t.tb.lastAdvance = predicted (s.params.edge.get p) (s.tracker p) last ∧
      (t.tracker p).state = .locked ∧ (t.tracker p).miss = (s.tracker p).miss + 1 ∧
      (t.tracker p).period = (s.tracker p).period ∧ t.sched = { s.sched with hold := s.sched.hold - 1 } ∧
      t.params = s.params ∧ t.carrier = s.carrier ∧ t.answer = s.answer ∧ t.tb.reference = some p ∧
      t.tb.state = .running ∧ t.tb.status = s.tb.status

/-- DERIVED_CROSSING: the derived crossing falls at the last rising crossing plus the last full period div 2, or plus P
where there is none; the tracker counts it neither accepted nor missed. -/
def Obligations.DerivedCrossingIsHandedOn : Prop :=
  ∀ (s : State) (p : Phase) (last : Nat),
    s.powered = true → s.params.edge.get p = .rising → (s.tracker p).derivedDue = true →
    (s.tracker p).tracked = true → (s.tracker p).last = some last → s.tb.reference ≠ some p →
    s.owed.settleEnd = false → s.engine.transmission = none →
    exec (.derivedCrossing p) s = .next (s.setTracker p { s.tracker p with
      derivedDue := false
      lastHanded := some (last + ((s.tracker p).lastFull.getD (2 * (s.tracker p).period)) / 2) })

/-- CRYSTAL_ADVANCE: in OUTAGE each expiry of the crystal interval advances L, and the next interval is a nominal
half-cycle, 10,000 µs at 50 Hz and the next term of the pattern at 60 Hz. The model's choice in it:
notes/assumptions/18.md. -/
def Obligations.CrystalAdvancesCountInOutage : Prop :=
  ∀ s : State, s.powered = true → s.store.restoring = false → s.tb.state = .outage →
    ∃ t, exec .crystalAdvance s = .next t ∧ t.tb.count = s.tb.count + 1 ∧
      t.tb.lastAdvance = s.tb.lastAdvance + s.tb.crystalSpan ∧ t.tb.state = .outage ∧
      t.sched = { s.sched with hold := s.sched.hold - 1 } ∧ t.engine = s.engine ∧ t.params = s.params ∧
      (s.params.nominalFreq = .hz50 → t.tb.crystalSpan = 10000) ∧
      (s.params.nominalFreq = .hz60 → s.tb.crystalRestart = false → s.tb.crystalPos < 3 →
        t.tb.crystalPos = (s.tb.crystalPos + 1) % 3 ∧
          t.tb.crystalSpan = if t.tb.crystalPos = 2 then 8334 else 8333)

/-- ACQUIRE_LOCK and RETURN_LOCK: the sixteenth in-range interval in succession locks an ACQUIRING phase, and from OUTAGE
takes the device timebase to SETTLING with the phase as its reference; the fourth accepted crossing in succession returns
a COASTING phase to LOCKED. -/
def Obligations.CrossingsInSuccessionLock : Prop :=
  ∀ (s : State) (p : Phase) (time : Nat) (level : Bool) (run last : Nat), s.powered = true →
    EdgeAccepted s p level run → presented (s.params.edge.get p) level = true → (s.tracker p).last = some last →
    ((s.tracker p).state = .acquiring → (s.tracker p).ignoreNext = false →
      inRange s.params.nominalFreq (intervalOf (s.params.edge.get p) last time) = true → (s.tracker p).acquire = 15 →
      ∃ t, exec (.acquireLock p time level run) s = .next t ∧ (t.tracker p).state = .locked ∧
        (t.tracker p).miss = 0 ∧ (t.tracker p).last = some time ∧ t.params = s.params ∧
        (s.tb.state = .outage → s.owed.settleEnd = false → t.tb.state = .settling ∧ t.tb.reference = some p)) ∧
    ((s.tracker p).state = .coasting → (s.tracker p).ret = 3 →
      insideWindow s.params.nominalFreq (s.params.edge.get p) (s.tracker p) last time = true →
      ∃ t, exec (.returnLock p time level run) s = .next t ∧ (t.tracker p).state = .locked ∧
        (t.tracker p).miss = 0 ∧ (t.tracker p).last = some time ∧ t.params = s.params)

/-- MISS_LIMIT and COAST_TIMEOUT: the third synthesised crossing in succession takes a LOCKED phase to COASTING with the
return and coast counts 0; the two-hundredth takes a COASTING phase to ABSENT with its counts cleared and its last
crossing absent. -/
def Obligations.MissedCrossingsCoastThenEnd : Prop :=
  ∀ (s : State) (p : Phase) (last : Nat), s.powered = true → (s.tracker p).last = some last →
    ((s.tracker p).state = .locked → (s.tracker p).miss = 2 →
      ∃ t, exec (.missLimit p) s = .next t ∧ (t.tracker p).state = .coasting ∧ (t.tracker p).ret = 0 ∧
        (t.tracker p).coast = 0 ∧ (t.tracker p).last = some (predicted (s.params.edge.get p) (s.tracker p) last) ∧
        (t.tracker p).period = (s.tracker p).period ∧ t.params = s.params ∧ t.carrier = s.carrier) ∧
    ((s.tracker p).state = .coasting → (s.tracker p).coast = 199 →
      ∃ t, exec (.coastTimeout p) s = .next t ∧ (t.tracker p).state = .absent ∧ (t.tracker p).last = none ∧
        (t.tracker p).acquire = 0 ∧ (t.tracker p).silence = 0 ∧ (t.tracker p).miss = 0 ∧ (t.tracker p).ret = 0 ∧
        (t.tracker p).coast = 0 ∧ t.params = s.params ∧ t.carrier = s.carrier)

/-- SETTLE_END: the device timebase enters RUNNING, a beacon becomes due, and the reference is REF_PHASE if it is
LOCKED, otherwise the first of L1, L2, L3 that is; a TIMEBASE notice of it is queued. Only the Timebase, the notice queue
and what was owed change. The model's choice in it: notes/assumptions/2.md. -/
def Obligations.SettlingEndsInRunning : Prop :=
  ∀ s : State, s.powered = true → s.owed.settleEnd = true → s.tb.state = .settling → s.anyLocked = true →
    ∃ t, exec .settleEnd s = .next t ∧ t.tb.state = .running ∧ t.tb.beaconDue = true ∧
      t.tb.count = s.tb.count ∧ t.tb.trackers = s.tb.trackers ∧
      (s.locked s.params.refPhase = true → t.tb.reference = some s.params.refPhase) ∧
      (s.locked s.params.refPhase = false → t.tb.reference = Phase.all.find? s.locked) ∧
      (t.tb.reference ≠ s.tb.reference → t.tb.spacing = true) ∧
      t.link = (queueNotice .timebase 0 (timebaseFields
        (if t.tb.reference = s.tb.reference then .running else .settleChoice) s.tb.reference t.tb.reference .running
        s.tb.count) s).link ∧
      t = { s with tb := t.tb, link := t.link, owed := { s.owed with settleEnd := false } }

/-- SILENCE_TIMEOUT, BEACON_TIMER_EXPIRY and SAVE_CADENCE: an ACQUIRING phase whose silence count has reached 200
becomes ABSENT; the beacon becomes due and its timer 0; the cadence becomes 0 and the write of the saved count with L
is asked. Nothing else changes, ignore-next-edge among it. The model's choice in it: notes/assumptions/2.md and
notes/assumptions/19.md. -/
def Obligations.TimebaseCountsExpire : Prop :=
  (∀ (s : State) (p : Phase), s.powered = true → (s.tracker p).state = .acquiring → 200 ≤ (s.tracker p).silence →
    exec (.silenceTimeout p) s = .next (s.setTracker p { s.tracker p with
      state := .absent, last := none, acquire := 0, silence := 0, miss := 0, ret := 0, coast := 0 })) ∧
  (∀ s : State, s.powered = true → s.owed.beacon = true →
    exec .beaconTimerExpiry s = .next { s with
      tb := { s.tb with beaconDue := true, beaconTimer := 0 }
      owed := { s.owed with beacon := false } }) ∧
  ∀ s : State, s.powered = true → 1024 ≤ s.tb.cadence → s.store.wiping = none →
    exec .saveCadence s = .next { s with
      tb := { s.tb with cadence := 0 }
      store := { s.store with writes := s.store.writes ++ [⟨.savedCount (some s.tb.count), true⟩] } }

/-- COOL_DOWN_END and CAP_RECOVERY: after 3,000 count advances a FAULT ends in READY; after 4,096 LEVEL_CAP rises by
one and the recovery count becomes 0. The model's choice in it: notes/assumptions/2.md. -/
def Obligations.DriverRecovers : Prop :=
  (∀ s : State, s.powered = true → s.driver.state = .fault → 3000 ≤ s.driver.cool →
    ∃ t, exec .coolDownEnd s = .next t ∧ t.driver = { s.driver with state := .ready, cool := 0 } ∧
      t = { s with driver := t.driver, link := t.link } ∧ t.link.buffer = s.link.buffer ∧
      t.link.replies = s.link.replies ∧ t.link.counters = s.link.counters) ∧
  ∀ s : State, s.powered = true → 4096 ≤ s.driver.recovery → s.driver.cap < s.params.levelMax →
    exec .capRecovery s = .next { s with driver := { s.driver with cap := s.driver.cap + 1, recovery := 0 } }

/-! ## The line -/

/-- CELL_WINDOW of the lead cell: the leg opens at the lesser of the level buffer and LEVEL_CAP, its unmarked entry is
appended to the history, the selected divider is latched, the Engine enters SENDING, and the lead cell goes out from 1,200
to 5,200 µs after the phase's crossing, its nine symbols one after another for one ninth of that window each; before and
after that the output is quiet. The model's choice in it: notes/assumptions/12.md and notes/assumptions/42.md. -/
def Obligations.LeadCellOpensTheLeg : Prop :=
  ∀ (s : State) (p : Phase) (tx : Transmission) (crossed : Nat),
    s.powered = true → s.engine.transmission = some tx → s.engine.state = .preparing →
    s.engine.live.get p = true → s.engine.seen.get p = 1 → s.engine.opened.get p = 0 → s.maySend p = true →
    (s.tracker p).lastHanded = some crossed →
    ∃ t, exec (.cellWindow p) s = .next t ∧
      t.driver.legLevel = min s.driver.buffer s.driver.cap ∧
      t.driver.openLeg = some ⟨s.engine.live, min s.driver.buffer s.driver.cap, [0], false⟩ ∧
      t.driver.history = (if s.driver.history.length < 64 then s.driver.history else s.driver.history.drop 1) ++ [false] ∧
      t.carrier = { s.carrier with latched := s.selectedDivider } ∧ t.engine.state = .sending ∧
      (∀ time, t.outputAt p time = if crossed + 1200 ≤ time ∧ time < crossed + 5200 then
        some ⟨crossed + 1200, leadSymbols, min s.driver.buffer s.driver.cap, s.selectedDivider, false⟩ else none) ∧
      (∀ i time, i < 9 → 4000 * i + 9 * (crossed + 1200) ≤ 9 * time → 9 * time < 4000 * (i + 1) + 9 * (crossed + 1200) →
        t.toneAt p time = some (if leadSymbols.getLsbD i then upperTone s.selectedDivider
          else lowerTone s.selectedDivider)) ∧
      t = { s with driver := t.driver, carrier := t.carrier, answer := t.answer, engine := t.engine } ∧
      t.driver.cap = s.driver.cap ∧ t.answer.mode = s.answer.mode

/-- CELL_WINDOW of a later cell. With every condition of R47 met the cell of its offset goes out at the leg level, or
at LEVEL_CAP where that has fallen below it, in the window that opens 1,200 µs after the phase's crossing. With a
condition unmet, on a beacon or repeat that keeps another live phase, the cell is withheld and reported with its phase,
its offset and the conditions that failed, the phase leaves the live phases and its output is quiet. Nothing else changes.
The model's choice in it: notes/assumptions/12.md, notes/assumptions/42.md and notes/assumptions/55.md. -/
def Obligations.CellIsSentOrWithheld : Prop :=
  ∀ (s : State) (p : Phase) (tx : Transmission),
    s.powered = true → s.engine.transmission = some tx → s.engine.state = .sending →
    s.engine.live.get p = true → s.engine.opened.get p < s.engine.seen.get p →
    s.engine.seen.get p ≤ tx.burst.length →
    (s.maySend p = true →
      exec (.cellWindow p) s = .next { s with
        engine := { s.engine with opened := s.engine.opened.set p (s.engine.seen.get p) }
        driver := { s.driver with
          legLevel := min s.driver.legLevel s.driver.cap
          windows := s.driver.windows.set p (some ⟨(s.tracker p).lastHanded.getD 0 + 1200,
            tx.burst.symbolsAt (s.engine.seen.get p - 1), min s.driver.legLevel s.driver.cap, s.carrier.latched, false⟩)
          openLeg := s.driver.openLeg.map fun leg =>
            { leg with sent := noteSent (s.engine.seen.get p - 1) leg.sent } } }) ∧
    (s.maySend p = false → tx.exchange = none → noPhase (s.engine.live.set p false) = false →
      ∃ causes, exec (.cellWindow p) s = .next { s with
          engine := { s.engine with
            opened := s.engine.opened.set p (s.engine.seen.get p), live := s.engine.live.set p false
            withheld := s.engine.withheld ++ [⟨p, s.engine.seen.get p - 1, causes⟩] }
          driver := { s.driver with windows := s.driver.windows.set p none } } ∧
        (.phaseNotLocked ∈ causes ↔ s.locked p = false) ∧ (.notRunning ∈ causes ↔ s.tb.state ≠ .running) ∧
        (.unconfirmed ∈ causes ↔ s.tb.status = .unconfirmed) ∧ (.driverFault ∈ causes ↔ s.driver.state = .fault))

/-- LEG_COMPLETE: every output goes quiet and the leg is reported. A beacon clears beacon due and ends. A repeat whose slot
is still held by the same order in the same state raises repeats sent by one, sets next repeat to the start count plus
REPEAT_SPACING and the displacement, and ends. An exchange goes on to RELAYING where it has hops, to LISTENING where it has
none. -/
def Obligations.CompletedLegEndsOrGoesOn : Prop :=
  ∀ (s : State) (tx : Transmission) (leg : OpenLeg),
    s.powered = true → s.engine.transmission = some tx → s.driver.openLeg = some leg → s.legDone = true →
    (∀ h, tx.exchange = none → s.sched.handOver = some ⟨h, .beacon⟩ →
      exec .legComplete s = .next { s with
        tb := { s.tb with beaconDue := false }
        driver := { s.driver with openLeg := none, windows := .const none }
        sched := { s.sched with handOver := none }
        engine := { s.engine with
          state := .idle, transmission := none, live := .const false
          report := some ⟨true, leg.sent.length, leg.opening, s.driver.legLevel, leg.overCurrent⟩ } }) ∧
    (∀ h r n o f, tx.exchange = none → s.sched.handOver = some ⟨h, .repeats r⟩ →
      s.heldBy r.slot r.admission r.revoking = some (n, o) → o.fields = some f →
      ∃ t o', exec .legComplete s = .next t ∧ t.order n = some o' ∧
        o'.fields = some { f with
          sent := f.sent + 1
          nextRepeat := later h s.params.repeatSpacing + BitVec.ofInt 32 s.engine.displacement } ∧
        { o' with state := o.state } = o ∧ o'.isActive = o.isActive ∧
        (∀ m, m ≠ n → t.order m = s.order m) ∧ t.table = s.table ∧ t.tb = s.tb ∧ t.link = s.link ∧
        (∀ p time, t.outputAt p time = none) ∧ t.engine.state = .idle ∧ t.sched.handOver = none) ∧
    ∀ x, tx.exchange = some x →
      exec .legComplete s = .next { s with
        driver := { s.driver with openLeg := none, windows := .const none }
        engine := { s.engine with
          state := if 0 < x.hops then .relaying else .listening
          report := some ⟨true, leg.sent.length, leg.opening, s.driver.legLevel, leg.overCurrent⟩ } }

/-- OVER_CURRENT. The first report in a cell window in which a cell is sent is an event: it folds the leg level and the
cell in progress back by 4 and lowers LEVEL_CAP by one, not below its floor. The first event of a leg marks it and queues a
FOLD_BACK notice; a later one does neither. A report outside the cell windows of an open leg, or a further one in the same
window, changes nothing. The model's choice in it: notes/assumptions/12.md and notes/assumptions/57.md. -/
def Obligations.OverCurrentFoldsBack : Prop :=
  ∀ (s : State) (time : Nat), s.powered = true →
    ((∀ p w, s.outputAt p time = some w → w.reported = true) → exec (.overCurrent time) s = .next s) ∧
    ∀ leg p w, s.driver.openLeg = some leg → s.outputAt p time = some w → w.reported = false →
    (leg.overCurrent = true →
      exec (.overCurrent time) s = .next { s with
        driver := { s.driver with
          legLevel := s.driver.legLevel - 4
          windows := foldWindows time (s.driver.legLevel - 4) s.driver.windows
          cap := if s.params.levelMax - 8 < s.driver.cap then s.driver.cap - 1 else s.driver.cap
          recovery := 0 }
        engine := { s.engine with folded := true } }) ∧
    (leg.overCurrent = false → s.driver.history.count true < 2 →
      ∃ t, exec (.overCurrent time) s = .next t ∧
        t.driver = { s.driver with
          legLevel := s.driver.legLevel - 4
          windows := foldWindows time (s.driver.legLevel - 4) s.driver.windows
          openLeg := some { leg with overCurrent := true }
          cap := if s.params.levelMax - 8 < s.driver.cap then s.driver.cap - 1 else s.driver.cap
          recovery := 0
          history := s.driver.history.dropLast ++ [true] } ∧
        t.link = (queueNotice .driver 0 (driverFields .foldBack s.driver.legLevel (s.driver.legLevel - 4)
          (if s.params.levelMax - 8 < s.driver.cap then s.driver.cap - 1 else s.driver.cap)
          (s.driver.history.count true) s.flightCode s.tb.count) s).link ∧
        t = { s with driver := t.driver, engine := { s.engine with folded := true }, link := t.link })

/-- OVER_CURRENT that brings the third mark: the driver enters FAULT, the leg is cut, the history emptied, the cool count
0, every output quiet, and the transmission ends. -/
def Obligations.ThirdMarkBringsFault : Prop :=
  ∀ (s : State) (time : Nat) (leg : OpenLeg) (p : Phase) (w : CellWindow) (tx : Transmission), s.powered = true →
    s.driver.openLeg = some leg → s.outputAt p time = some w → w.reported = false → leg.overCurrent = false →
    s.engine.transmission = some tx → 2 ≤ s.driver.history.count true →
    ∃ t, exec (.overCurrent time) s = .next t ∧ t.driver.state = .fault ∧ t.driver.cool = 0 ∧ t.driver.history = [] ∧
      t.driver.openLeg = none ∧ (∀ p time, t.outputAt p time = none) ∧ t.driver.recovery = 0 ∧
      t.engine.state = .idle ∧ t.engine.transmission = none ∧ t.sched.handOver = none ∧
      t.tb = s.tb ∧ t.sched.hold = s.sched.hold

/-- RELAY_SPAN_OPEN, RELAY_SPAN_END and ANSWER_WINDOW_OPEN: the Answer Receiver listens for the first relay's burst in
its span, returns to ARMED with RELAY_HEARD judged, and listens for the answer in its window, the noise floor measured
before each; a relayed exchange, in RELAYING till then, enters LISTENING as its answer window opens. The model's choice in
it: notes/assumptions/13.md and notes/assumptions/41.md. -/
def Obligations.AnswerReceiverFollowsTheSpans : Prop :=
  ∀ (s : State) (tx : Transmission) (x : ExchangeTimes), s.powered = true → s.engine.transmission = some tx →
    tx.exchange = some x →
    (∀ g1 g2, s.engine.state = .relaying → s.answer.mode = .armed → 0 < x.hops →
      s.engine.seen.get x.first = tx.burst.length + 3 →
      exec (.relaySpanOpen g1 g2) s = .next { s with
        answer := { s.answer with mode := .relayWatch, floor2 := some (g1 + g2) } }) ∧
    (∀ heard, s.answer.mode = .relayWatch → tx.burst.length + x.relay + 2 ≤ s.engine.seen.get x.first →
      exec (.relaySpanEnd heard) s = .next { s with
        answer := { s.answer with
          mode := .armed
          relayHeard := relayBurstHeard (s.answer.floor2.getD 0) tx.burst.kind x.hops (heard.take x.relay) } }) ∧
    ∀ g1 g2, s.engine.state = .listening ∨ s.engine.state = .relaying → s.answer.mode = .armed →
      s.engine.seen.get x.first = x.span - x.window + 1 →
      exec (.answerWindowOpen g1 g2) s = .next { s with
        answer := { s.answer with mode := .answerWindow, floor2 := some (g1 + g2) }
        engine := { s.engine with state := .listening } }

/-- ANSWER_REPORT of an ACK with the order's tag to an ORDER or a REVOKE: the entry is removed, the order's confirmed
counter rises by one, quality learning moves Q a quarter of the way to M, and the transmission ends. -/
def Obligations.MatchingAckConfirms : Prop :=
  ∀ (s : State) (heard : List Window) (start : Count) (d : DeliveryRecord) (n : Nat) (o : Order) (r : Receiver)
    (low : BitVec 16) (m : Nat) (rh : Bool),
    s.powered = true → s.answerWindowEnds = true → s.sched.handOver = some ⟨start, .delivery d⟩ →
    d.withdrawn = false → s.heldBy d.slot d.admission d.revoking = some (n, o) →
    s.receiver d.index = some r → r.lists d.slot = true → d.build.kind ≠ .poll →
    s.answerOutcome heard = ⟨.ok low (.ack (byteOf d.tag)), m, rh⟩ →
    ∃ t r', exec (.answerReport heard) s = .next t ∧ t.receiver d.index = some r' ∧
      r'.entries = r.entries.filter (·.slot != d.slot) ∧
      r'.quality = ((r.quality : Int) + ((m : Int) - r.quality).tdiv 4).toNat ∧ r'.failures = 0 ∧
      r'.reported = r.reported ∧
      t.order n = some { o with counters := { o.counters with confirmed := bump o.counters.confirmed 1 } } ∧
      (∀ i, i ≠ d.index → t.receiver i = s.receiver i) ∧ (∀ k, k ≠ n → t.order k = s.order k) ∧
      t.engine.state = .idle ∧ t.sched.handOver = none ∧ t.tb = s.tb

/-- ANSWER_REPORT of no answer, the last attempt not yet made: the entry's attempts is the hand-over's plus one, its last
result NO_ANSWER, and its next try the end count plus the hold-off; no account moves, and Q falls by 4. -/
def Obligations.NoAnswerHoldsOff : Prop :=
  ∀ (s : State) (heard : List Window) (start : Count) (d : DeliveryRecord) (n : Nat) (o : Order) (r : Receiver)
    (rh : Bool),
    s.powered = true → s.answerWindowEnds = true → s.sched.handOver = some ⟨start, .delivery d⟩ →
    d.withdrawn = false → s.heldBy d.slot d.admission d.revoking = some (n, o) →
    s.receiver d.index = some r → r.lists d.slot = true → d.attempts + 1 < s.params.retryMax →
    s.answerOutcome heard = ⟨.none, 0, rh⟩ →
    ∃ t r', exec (.answerReport heard) s = .next t ∧ t.receiver d.index = some r' ∧
      r'.entries = r.entries.map (fun e => if e.slot = d.slot then
        { e with
          attempts := d.attempts + 1
          last := .noAnswer
          nextTry := start + BitVec.ofNat 32 (d.build.span - 1) + BitVec.ofInt 32 s.engine.displacement +
            BitVec.ofNat 32 (min 1600 (50 * 2 ^ d.attempts)) }
        else e) ∧
      r'.quality = r.quality - 4 ∧ (∀ i, i ≠ d.index → t.receiver i = s.receiver i) ∧
      t.orders = s.orders ∧ t.engine.state = .idle ∧ t.sched.handOver = none ∧ t.tb = s.tb

/-! ## The decision point -/

/-- DECISION_POINT with a beacon due and a phase LOCKED: a beacon with the station id and L goes to the Engine on every
LOCKED phase at LEVEL_BROADCAST, at most LEVEL_CAP, on the primary carrier, and the line hold becomes 14. -/
def Obligations.BeaconComesFirst : Prop :=
  ∀ s : State, s.powered = true → s.store.restoring = false → s.owed.decision = true → s.sched.hold = 0 →
    s.sched.handOver = none → s.driver.state = .ready → s.tb.state = .running → s.tb.status = .confirmed →
    s.tb.beaconDue = true → s.anyLocked = true →
    ∃ t, exec .decisionPoint s = .next t ∧
      t.sched = { s.sched with hold := 14, handOver := some ⟨s.tb.count, .beacon⟩ } ∧
      t.engine.state = .preparing ∧
      t.engine.transmission = some ⟨s.tb.count, .beacon s.params.stationId s.tb.count, s.lockedPhases,
        min s.driver.cap s.params.levelBroadcast, .primary, none, s.tb.lastAdvance⟩ ∧
      t.driver = { s.driver with buffer := min s.driver.cap s.params.levelBroadcast } ∧
      t.carrier = { s.carrier with selection := .primary } ∧ t.tb = s.tb ∧ t.table = s.table ∧ t.answer = s.answer

/-- DECISION_POINT: an exchange handed over on behalf of an order ends, started now, at or before the order's seal
point, and its order's transmission is started. -/
def Obligations.NoExchangeRunsPastTheSeal : Prop :=
  ∀ (s t : State) (start : Count) (d : DeliveryRecord), Canonical s → s.sched.handOver = none →
    exec .decisionPoint s = .next t → t.sched.handOver = some ⟨start, .delivery d⟩ →
    start = s.tb.count ∧ ∃ n o f, t.order n = some o ∧ o.fields = some f ∧ f.slot = d.slot ∧ f.started = true ∧
      o.admission = d.admission ∧ 0 ≤ dist o.sealPoint (later start d.build.span)

/-! ## Tariff orders -/

/-- ORDER_ACTIVATE: the next order of the activation step takes the lowest free slot and gives an entry to every receiver
in its target; a SINGLE order with no receiver left closes NO_TARGET. -/
def Obligations.ActivationTakesTheLowestSlot : Prop :=
  ∀ (s : State) (n k : Nat) (rest : List Nat) (o : Order), Counting s → s.nothingToClose = true →
    s.toActivate = n :: rest → s.order n = some o → s.freeSlot = some k →
    (((∃ a, o.target = .single a) → ∃ x ∈ s.table, inTarget o.target x.2 = true) →
      ∃ t, exec .orderActivate s = .next t ∧
        t.order n = some { o with
          state := .active ⟨k, false, 0, false, s.tb.count,
            (s.table.filter fun x => inTarget o.target x.2).map Prod.fst⟩
          counters := ⟨s.table.countP fun x => inTarget o.target x.2, 0, 0, 0, 0, 0⟩ } ∧
        (∀ i r, s.receiver i = some r → t.receiver i = some (if inTarget o.target r then
          { r with entries := r.entries.filter (·.slot != k) ++ [⟨k, 0, s.tb.count, .noneYet⟩] } else r)) ∧
        (∀ m, m ≠ n → t.order m = s.order m) ∧ t.tb = s.tb ∧ t.sched = s.sched ∧ t.params = s.params) ∧
    ((∃ a, o.target = .single a) → (∀ x ∈ s.table, inTarget o.target x.2 = false) →
      ∃ t, exec .orderActivate s = .next t ∧
        t.order n = some { o with
          state := .closed (s.orders.sequence + 1) .noTarget, counters := ⟨0, 0, 0, 0, 0, 0⟩ } ∧
        t.table = s.table ∧ (∀ m, m ≠ n → t.order m = s.order m) ∧ t.tb = s.tb ∧ t.sched = s.sched ∧
        t.params = s.params)

/-- ORDER_SEAL: an ACTIVE or REVOKING order with a balanced account closes at its seal point with the entries that named
its slot counted late. No entry names the slot then, and targeted equals the sum of the five outcome counters. -/
def Obligations.SealKeepsTheBalance : Prop :=
  ∀ (s : State) (n : Nat) (o : Order) (f : SlotFields), Counting s → s.order n = some o →
    (o.state = .active f ∨ o.state = .revoking f) → dist o.sealPoint s.tb.count ≤ 0 → Balanced s o f →
    o.counters.late + s.entriesNaming f.slot ≤ 65535 →
    ∃ t outcome, exec (.orderSeal n) s = .next t ∧
      t.order n = some { o with
        counters := { o.counters with late := o.counters.late + s.entriesNaming f.slot }
        state := .closed (s.orders.sequence + 1) outcome } ∧
      (o.state = .revoking f → outcome = .cancelled) ∧
      (o.state = .active f → o.counters.confirmed = 0 → outcome = .noneConfirmed) ∧
      (o.state = .active f → 0 < o.counters.confirmed → o.counters.confirmed = o.counters.targeted →
        outcome = .complete) ∧
      (o.state = .active f → 0 < o.counters.confirmed → o.counters.confirmed < o.counters.targeted →
        outcome = .partly) ∧
      t.entriesNaming f.slot = 0 ∧
      o.counters.targeted =
        Counters.outcomes { o.counters with late := o.counters.late + s.entriesNaming f.slot } ∧
      (∀ m, m ≠ n → t.order m = s.order m) ∧ t.tb = s.tb ∧ t.sched = s.sched ∧ t.engine = s.engine

/-- NOT_SENT: a PENDING order whose seal point is reached closes NOT_SENT with its counters as they were and the next
sequence value as its close number; an ORDER_CLOSED notice is queued, and no receiver changes. -/
def Obligations.PendingOrderClosesNotSent : Prop :=
  ∀ (s : State) (n : Nat) (o : Order), Counting s → s.order n = some o → o.state = .pending →
    dist o.sealPoint s.tb.count ≤ 0 →
    ∃ t, exec (.notSent n) s = .next t ∧
      t.order n = some { o with state := .closed (s.orders.sequence + 1) .notSent } ∧
      t.orders.sequence = s.orders.sequence + 1 ∧ (∀ m, m ≠ n → t.order m = s.order m) ∧
      t.link = (noteClosed n { o with state := .closed (s.orders.sequence + 1) .notSent } s).link ∧
      t = { s with orders := t.orders, link := t.link, store := t.store }

/-- ORDER_ADD taken with room to spare: the order stands PENDING at the lowest free position, with its seal point
MIN_MARGIN before A, the next sequence value as its admission number and every counter 0. -/
def Obligations.AdmissionPlacesTheOrder : Prop :=
  ∀ (s : State) (q : Request) (a : OrderAdd) (tg : Target) (act : Action),
    s.oldest = some q → q.kind = 0x10 → readOrderAdd q.body = some a → s.tb.status = .confirmed →
    a.fields = some (tg, act) → s.targetFound tg = true → (s.params.minMargin + 24 : Int) ≤ dist a.activation s.tb.count →
    (∀ x ∈ s.orders.orders, s.conflicts x.2 tg act a = false) → s.orders.orders.length < 32 →
    ∃ t o, exec .orderAdd s = .next t ∧ t.order (lowestFree s.orders.orders 0) = some o ∧
      1 ≤ o.tag ∧ o.tag ≤ 255 ∧ (∀ x ∈ s.orders.orders, x.2.tag ≠ o.tag) ∧ o.hostRef = a.hostRef ∧
      o.target = tg ∧ o.action = act ∧ o.parameter = a.parameter ∧
      o.activation = a.activation ∧ o.spread = a.spread ∧ o.repeats = repeatsFor tg a.repeats ∧
      o.sealPoint = a.activation - BitVec.ofNat 32 s.params.minMargin ∧ o.admission = s.orders.sequence + 1 ∧
      o.state = .pending ∧ o.counters = ⟨0, 0, 0, 0, 0, 0⟩ ∧
      (∀ m, m ≠ lowestFree s.orders.orders 0 → t.order m = s.order m) ∧
      t.orders.sequence = s.orders.sequence + 1 ∧ t.orders.lastTag = o.tag ∧
      t.link = { s.link with
        buffer := s.link.buffer.tail
        replies := s.link.replies ++ [⟨0x90, q.ticket,
          [0, byteOf o.tag, byteOf (lowestFree s.orders.orders 0)] ++ countBytes o.sealPoint, true, .nothing⟩] } ∧
      t = { s with orders := t.orders, link := t.link, store := t.store }

/-- ORDER_ADD refused: the first check that fails gives the reply, and nothing else changes. -/
def Obligations.AdmissionRefusesInOrder : Prop :=
  ∀ (s : State) (q : Request) (a : OrderAdd), s.oldest = some q → q.kind = 0x10 → readOrderAdd q.body = some a →
    (s.tb.status = .unconfirmed → exec .orderAdd s = .next (answered q [0x09] s)) ∧
    (s.tb.status = .confirmed → a.fields = none → exec .orderAdd s = .next (answered q [0x03] s)) ∧
    ∀ tg act, s.tb.status = .confirmed → a.fields = some (tg, act) →
      (s.targetFound tg = false → exec .orderAdd s = .next (answered q [0x07] s)) ∧
      (s.targetFound tg = true → dist a.activation s.tb.count < (s.params.minMargin + 24 : Int) →
        exec .orderAdd s = .next (answered q [0x06] s)) ∧
      (s.targetFound tg = true → (s.params.minMargin + 24 : Int) ≤ dist a.activation s.tb.count →
        (s.orders.orders.any fun x => s.conflicts x.2 tg act a) = true →
        exec .orderAdd s = .next (answered q [0x05] s)) ∧
      (s.targetFound tg = true → (s.params.minMargin + 24 : Int) ≤ dist a.activation s.tb.count →
        (s.orders.orders.any fun x => s.conflicts x.2 tg act a) = false → 32 ≤ s.orders.orders.length →
        (∀ x ∈ s.orders.orders, x.2.isClosed = false) →
        exec .orderAdd s = .next (answered q [0x04] s))

/-- ORDER_CANCEL of a PENDING order, or of an ACTIVE order whose transmission has not started: the order leaves the
store, no entry names its slot, no account moves, and the reply says WITHDRAWN (its order state byte is left open). -/
def Obligations.CancelBeforeSendingWithdraws : Prop :=
  ∀ (s : State) (q : Request) (sel : OrderSelector) (n : Nat) (o : Order), Canonical s →
    s.oldest = some q → q.kind = 0x11 → readOrderSelector q.body = some sel → sel.inRange = true →
    s.findOrder sel = some (n, o) →
    (o.state = .pending ∨ ∃ f, o.state = .active f ∧ f.started = false) →
    ∃ t, exec .orderCancel s = .next t ∧ t.order n = none ∧ (∀ m, m ≠ n → t.order m = s.order m) ∧
      (∀ f, o.state = .active f → t.entriesNaming f.slot = 0 ∧
        ∀ i, t.receiver i = (s.receiver i).map fun r => { r with entries := r.entries.filter (·.slot != f.slot) }) ∧
      (o.state = .pending → t.table = s.table) ∧ t.orders.sequence = s.orders.sequence ∧ t.orders.lastTag = s.orders.lastTag ∧
      (∃ b, t.link = { s.link with
        buffer := s.link.buffer.tail
        replies := s.link.replies ++ [⟨0x91, q.ticket, [0, byteOf o.tag, byteOf n, b, 8], true, .nothing⟩] }) ∧
      t = { s with orders := t.orders, table := t.table, link := t.link, store := t.store }

/-- ORDER_CANCEL of an order that has been on the line. An ACTIVE one with at least 24 half-cycles before its seal point
becomes REVOKING: every NORMAL receiver of its roll gets a fresh entry at the end of its list, and the account counts
those alone. Nearer the seal point it is refused as too late, and a REVOKING or CLOSED order is refused with STATE: nothing
but the reply follows. -/
def Obligations.LateCancelConvertsOrIsRefused : Prop :=
  ∀ (s : State) (q : Request) (sel : OrderSelector) (n : Nat) (o : Order),
    s.oldest = some q → q.kind = 0x11 → readOrderSelector q.body = some sel → sel.inRange = true →
    s.findOrder sel = some (n, o) →
    (∀ f, o.state = .active f → f.started = true → 24 ≤ dist o.sealPoint s.tb.count →
      ∃ t, exec .orderCancel s = .next t ∧
        t.order n = some { o with
          state := .revoking { f with sent := 0, abandoned := false, nextRepeat := s.tb.count }
          counters := ⟨s.table.countP (fun x => inRoll f.roll x.1 x.2), 0, 0, 0, 0, 0⟩ } ∧
        (∀ i r, s.receiver i = some r → t.receiver i = some (if inRoll f.roll i r then
          { r with entries := r.entries.filter (·.slot != f.slot) ++ [⟨f.slot, 0, s.tb.count, .noneYet⟩] } else r)) ∧
        (∀ m, m ≠ n → t.order m = s.order m) ∧ t.orders.sequence = s.orders.sequence ∧ t.tb = s.tb ∧
        t.engine = s.engine ∧ t.sched = s.sched ∧
        t.link.replies = s.link.replies ++ [⟨0x91, q.ticket, [0, byteOf o.tag, byteOf n, 3, 0], true, .nothing⟩]) ∧
    (∀ f, o.state = .active f → f.started = true → dist o.sealPoint s.tb.count < 24 →
      exec .orderCancel s = .next (answered q [6, byteOf o.tag, byteOf n, 2, 0] s)) ∧
    (∀ f, o.state = .revoking f →
      exec .orderCancel s = .next (answered q [9, byteOf o.tag, byteOf n, 3, 0] s)) ∧
    ∀ c out, o.state = .closed c out →
      exec .orderCancel s = .next (answered q [9, byteOf o.tag, byteOf n, 4, outcomeCode out] s)

/-- ORDER_READ, ORDER_LIST, RX_READ and RX_LIST answer with 58, 3 + 9r, 28 + 9e and 4 + 6r bytes and change nothing;
ORDER_CLEAR removes a CLOSED order from the store. -/
def Obligations.RecordsAreReadAndCleared : Prop :=
  (∀ (s : State) (q : Request) (sel : Selector) (i : Nat) (r : Receiver), s.oldest = some q → q.kind = 0x1B →
    readSelector q.body = some sel → sel.inRange = true → s.findReceiver sel = some (i, r) →
    ∃ rest, exec .rxRead s = .next (answered q (0 :: (bytesOf 2 i ++ rest)) s) ∧
      rest.length + 3 = 28 + 9 * r.entries.length) ∧
  (∀ (s : State) (q : Request) (page : Byte), s.oldest = some q → q.kind = 0x1C → readOne q.body = some page →
    page.toNat < 16 →
    ∃ rest, exec .rxList s = .next (answered q (0 :: (bytesOf 2 s.table.length ++ rest)) s) ∧
      rest.length + 3 = 4 + 6 * (s.table.countP fun x => decide (x.1 / 32 = page.toNat))) ∧
  (∀ (s : State) (q : Request) (sel : OrderSelector) (n : Nat) (o : Order), s.oldest = some q → q.kind = 0x12 →
    readOrderSelector q.body = some sel → sel.inRange = true → s.findOrder sel = some (n, o) →
    ∃ rest, exec .orderRead s = .next (answered q ([0, byteOf n, byteOf o.tag] ++ rest) s) ∧ rest.length = 55) ∧
  (∀ (s : State) (q : Request) (page : Byte), s.oldest = some q → q.kind = 0x13 → readOne q.body = some page →
    page.toNat < 2 → s.orders.orders.length ≤ 32 →
    ∃ r rest, exec .orderList s = .next (answered q ([0, byteOf s.orders.orders.length, byteOf r] ++ rest) s) ∧
      r = (if page = 0 then min 16 s.orders.orders.length else s.orders.orders.length - 16) ∧ rest.length = 9 * r) ∧
  ∀ (s : State) (q : Request) (sel : OrderSelector) (n : Nat) (o : Order), Canonical s → s.oldest = some q →
    q.kind = 0x14 → readOrderSelector q.body = some sel → sel.inRange = true → s.findOrder sel = some (n, o) →
    o.isClosed = true →
    ∃ t, exec .orderClear s = .next t ∧ t.order n = none ∧ (∀ m, m ≠ n → t.order m = s.order m) ∧
      t.table = s.table ∧ t.tb = s.tb ∧ t.orders.sequence = s.orders.sequence ∧
      t.link.replies = s.link.replies ++ [⟨0x94, q.ticket, [0], true, .nothing⟩]

/-! ## The Receiver Table -/

/-- RX_ADD taken: the record stands at the lowest free index, NORMAL, with one fresh entry for each ACTIVE order to ALL or
to one of its groups, and each of those orders counts one more targeted. The model's choice in it:
notes/assumptions/66.md. -/
def Obligations.NewReceiverJoinsActiveOrders : Prop :=
  ∀ (s : State) (q : Request) (a : RxAdd) (ph : Option Phase), Canonical s → s.oldest = some q → q.kind = 0x18 →
    readRxAdd q.body = some a → phaseOfCode a.phase = some ph → a.inRange = true → s.receiverAt a.address = none →
    s.pathFound a.path = true → s.table.length < 512 →
    (∀ x ∈ s.slotOrders, joins (a.groups.map (·.toNat)) x.2 = true → x.2.counters.targeted < 65535) →
    ∃ t r, exec .rxAdd s = .next t ∧ t.receiver (lowestFree s.table 0) = some r ∧
      r.address = some a.address ∧ r.phase = ph ∧ r.groups = a.groups.map (·.toNat) ∧ r.path = a.pathGiven ∧
      r.stale = false ∧ r.quality = (a.quality.map (·.toNat)).getD s.params.qTarget ∧ r.carrier = .primary ∧
      r.failures = 0 ∧ r.reported = none ∧ r.damaged = false ∧
      r.entries = (s.slotOrders.filter fun x => joins (a.groups.map (·.toNat)) x.2).filterMap (fun x =>
        x.2.fields.map fun f => ⟨f.slot, 0, s.tb.count, .noneYet⟩) ∧
      (∀ i, i ≠ lowestFree s.table 0 → t.receiver i = s.receiver i) ∧
      (∀ n o, (n, o) ∈ s.slotOrders → joins (a.groups.map (·.toNat)) o = true →
        ∃ o', t.order n = some o' ∧ o'.counters = { o.counters with targeted := o.counters.targeted + 1 }) ∧
      t.tb = s.tb ∧ t.sched = s.sched ∧ t.engine = s.engine

/-- RX_UPDATE of a NORMAL record, taken: every field supplied replaces the one held, the others stay, and neither the
delivery list nor any order or other record changes. A carrier preference supplied makes the consecutive failures 0. The
model's choice in it: notes/assumptions/66.md. -/
def Obligations.UpdateReplacesSuppliedFields : Prop :=
  ∀ (s : State) (q : Request) (u : RxUpdate) (i : Nat) (r : Receiver), s.oldest = some q → q.kind = 0x19 →
    readRxUpdate q.body = some u → u.selector.inRange = true → s.findReceiver u.selector = some (i, r) →
    s.receiver i = some r → r.damaged = false → u.address = none → u.inRange r.address = true →
    s.pathFound (u.setPath.getD []) = true →
    ∃ t r', exec .rxUpdate s = .next t ∧ t.receiver i = some r' ∧
      r'.phase = ((u.phase.bind phaseOfCode).getD r.phase) ∧
      r'.groups = ((u.groups.map fun gs => gs.map (·.toNat)).getD r.groups) ∧
      r'.quality = ((u.quality.map (·.toNat)).getD r.quality) ∧
      r'.carrier = ((u.carrier.bind carrierOfCode).getD r.carrier) ∧
      r'.failures = (if u.carrier.isSome then 0 else r.failures) ∧
      (∀ path, u.path = some (.set path) → r'.path = some path ∧ r'.stale = false) ∧
      (u.path = some .clear → r'.path = none ∧ r'.stale = false) ∧
      (u.path = none ∨ u.path = some .keep → r'.path = r.path ∧ r'.stale = r.stale) ∧
      r'.address = r.address ∧ r'.reported = r.reported ∧ r'.damaged = false ∧ r'.entries = r.entries ∧
      (∀ j, j ≠ i → t.receiver j = s.receiver j) ∧ t.orders = s.orders ∧ t.sched = s.sched ∧ t.engine = s.engine ∧
      t.tb = s.tb

/-- RX_REMOVE: the record leaves the table, the path of every other record that names its address is stale, no probe
names its index, and the reply counts the entries dropped. -/
def Obligations.RemovalStalesPathsAndDropsEntries : Prop :=
  ∀ (s : State) (q : Request) (sel : Selector) (i : Nat) (r : Receiver), Canonical s → s.oldest = some q →
    q.kind = 0x1A → readSelector q.body = some sel → sel.inRange = true → s.findReceiver sel = some (i, r) →
    ∃ t, exec .rxRemove s = .next t ∧ t.receiver i = none ∧
      (∀ j r', j ≠ i → s.receiver j = some r' →
        t.receiver j = some (if namesRelay r.address r' then { r' with stale := true } else r')) ∧
      (∀ n o, (n, o) ∈ s.slotOrders → ∃ o', t.order n = some o' ∧ ∀ f, o.fields = some f →
        o'.counters = { o.counters with
          dropped := min 65535 (o.counters.dropped + r.entries.countP (·.slot == f.slot)) } ∧
        o'.fields = some { f with roll := f.roll.filter (· != i) }) ∧
      t.sched.probes = s.sched.probes.filter (·.index != i) ∧
      t.link.replies = s.link.replies ++ [⟨0x9A, q.ticket, [0, byteOf r.entries.length], true, .nothing⟩] ∧
      t.tb = s.tb ∧ t.engine = s.engine

/-- PROBE of a NORMAL record, with room in the queue and with PATH a usable path: the probe joins the queue at its end,
with the request's ticket, and nothing else changes. -/
def Obligations.ProbeJoinsTheQueue : Prop :=
  ∀ (s : State) (q : Request) (a : ProbeRequest) (ph : Option Phase) (i : Nat) (r : Receiver),
    s.oldest = some q → q.kind = 0x20 → readProbe q.body = some a → phaseOfCode a.phase = some ph →
    a.choiceInRange = true → a.selector.inRange = true → s.findReceiver a.selector = some (i, r) →
    r.damaged = false → (a.choice = 1 → (s.usablePath r).isSome = true) → s.sched.probes.length < 4 →
    ∃ t, exec .probe s = .next t ∧
      t.sched = { s.sched with probes := s.sched.probes ++ [⟨q.ticket, i, r.address.getD 0, a.choice == 1, ph⟩] } ∧
      t.link = { s.link with
        buffer := s.link.buffer.tail
        replies := s.link.replies ++ [⟨0xA0, q.ticket, [0, byteOf (s.sched.probes.length + 1)], true, .nothing⟩] } ∧
      t = { s with sched := t.sched, link := t.link }

/-! ## The Retained Store -/

/-- RECORD_WRITE, whatever bits turn in the cells: the oldest write lays every word of its record down with fresh check
bits, and no other position changes. The verify read writes every word back, the corrected ones counted, and where it finds
uncorrectable words the damage is handled; the write of a damaged form is not verified. Where no bit turns, the position gives
the record back that was asked to be written. Before the restore ends, and with no write asked, nothing changes. The model's
choice in it: notes/assumptions/1.md, notes/assumptions/11.md, notes/assumptions/35.md, notes/assumptions/36.md,
notes/assumptions/39.md, notes/assumptions/48.md and notes/assumptions/63.md. -/
def Obligations.OldestWriteIsLaidDown : Prop :=
  ∀ (s : State) (e : ReadErrors), Canonical s → s.powered = true → s.store.wiping = none →
    (s.store.writes = [] ∨ s.store.restoring = true → exec (.recordWrite e) s = .next s) ∧
    ∀ w rest, s.store.restoring = false → s.store.writes = w :: rest →
    ∃ st : RetainedStore,
      let pos := w.content.position
      let laid := turnWords e (w.content.words s.tb.count)
      exec (.recordWrite e) s = .next (if w.verify = true ∧ badWords (st.wordsAt pos) ≠ [] then
        handleDamage pos .verify (st.wordsAt pos) { s with store := st } else { s with store := st }) ∧
      st.writes = rest ∧
      st.corrections =
        (if w.verify then min 65535 (s.store.corrections + correctedWords laid) else s.store.corrections) ∧
      st.wordsAt pos = (if w.verify then laid.map (·.writtenBack) else laid) ∧
      (∀ p, p ≠ pos → st.wordsAt p = s.store.wordsAt p) ∧
      (e = [] → badWords (st.wordsAt pos) = [] ∧
        (∀ r, w.content = .config r → ParamsFit r.params → configOf (numbersOf st.config) = r) ∧
        (∀ v, w.content = .savedCount v → savedCountOf (numbersOf st.savedCount) = v.getD s.tb.count) ∧
        (∀ n o, w.content = .order n o → (∀ x, o = some x → OrderFits x) →
          orderOf (numbersOf (keptAt st.orders n)) = o) ∧
        ∀ i r, w.content = .receiver i r → (∀ x, r = some x → ReceiverFits x) →
          receiverOf (numbersOf (keptAt st.receivers i)) = r) ∧
      st.scrubNext = s.store.scrubNext ∧ st.scrubDue = s.store.scrubDue ∧ st.wiping = none

/-- SCRUB_READ of a position whose words are as the store wrote them but for at most one turned bit in each: each such word
is corrected and counted, every word is written back as it was first written, the pointer moves on in its cycle of 546, and
no record changes. The model's choice in it: notes/assumptions/37.md and notes/assumptions/48.md. -/
def Obligations.CleanScrubMovesOn : Prop :=
  ∀ (s : State) (e : ReadErrors), Canonical s → s.scrubOwed = true →
    (∀ w ∈ s.store.wordsAt (positionAt s.store.scrubNext), w = .of w.data) →
    SingleBits (s.store.wordsAt (positionAt s.store.scrubNext)).length e →
    ∃ t, exec (.scrubRead e) s = .next t ∧ t = { s with store := t.store } ∧
      t.store.scrubNext = (s.store.scrubNext + 1) % 546 ∧ t.store.scrubDue = s.store.scrubDue - 1 ∧
      t.store.corrections = min 65535 (s.store.corrections + e.length) ∧ t.store.writes = s.store.writes ∧
      ∀ p, t.store.wordsAt p = s.store.wordsAt p

/-- SCRUB_READ that finds a receiver position damaged. A header that reads occupied, or cannot be read: the NORMAL record
there becomes DAMAGED, with its address kept where the header is readable and absent otherwise, no phase, group, path, quality
or entry, and its probes leave the queue; where no record stands in the table, a DAMAGED one arises. A header that reads
empty: the position is written empty afresh, and no record stands there in the table. Every other record stays as it was; that
those whose path names a record which leaves with an emptied position stay too is the model's choice
(notes/assumptions/68.md). Its other choices: notes/assumptions/24.md, notes/assumptions/48.md and
notes/assumptions/71.md. -/
def Obligations.ScrubDamagesTheReceiver : Prop :=
  ∀ (s : State) (e : ReadErrors) (i : Nat), Canonical s → s.scrubOwed = true → i < 512 → s.store.scrubNext = 34 + i →
    let ws := (turnWords e (keptAt s.store.receivers i)).map (·.writtenBack)
    let damaged (address : Option Addr) : Receiver :=
      ⟨address, none, [], none, false, 0, .primary, 0, none, true, []⟩
    badWords ws ≠ [] →
    ∃ t, exec (.scrubRead e) s = .next t ∧ (∀ j, j ≠ i → t.receiver j = s.receiver j) ∧
      t.tb = s.tb ∧ t.params = s.params ∧ t.engine = s.engine ∧
      (readsEmpty ws = false → ∀ old, s.receiver i = some old → old.damaged = false →
        t.receiver i = some (damaged (if 0 ∈ badWords ws then none else old.address)) ∧
          ∀ x ∈ t.sched.probes, x.index ≠ i) ∧
      (readsEmpty ws = false → s.receiver i = none →
        ∃ address, t.receiver i = some (damaged address) ∧ (0 ∈ badWords ws → address = none) ∧
          ∀ a, address = some a → s.receiverAt a = none) ∧
      (readsEmpty ws = true → t.receiver i = none) ∧
      (readsEmpty ws = true → s.receiver i = none → t.table = s.table ∧ t.orders = s.orders ∧ t.sched = s.sched ∧
        t.store.writes = s.store.writes ++ [⟨.receiver i none, false⟩])

/-- POWER_LOSS: a record write in progress completes whole, whatever its position, every other write asked is lost, and
no other stored position changes. A WIPE in progress stops where it was: the order positions, the receiver positions and
the saved count that it had rewritten, in that sequence, hold what it wrote, every other position what it held. The model's
choice in it: notes/assumptions/11.md, notes/assumptions/35.md, notes/assumptions/36.md, notes/assumptions/38.md and
notes/assumptions/39.md. -/
def Obligations.PowerLossKeepsWholeRecords : Prop :=
  ∀ s : State, s.powered = true →
    (∀ k, s.store.wiping = none → exec (.powerLoss false k) s = .next { s with
      powered := false, store := { s.store with writes := [] } }) ∧
    (∀ k w rest, Canonical s → s.store.wiping = none → s.store.writes = w :: rest →
      ∃ st : RetainedStore,
        exec (.powerLoss true k) s = .next { s with powered := false, store := st } ∧ st.writes = [] ∧
        st.wordsAt w.content.position = w.content.words s.tb.count ∧
        (∀ p, p ≠ w.content.position → st.wordsAt p = s.store.wordsAt p) ∧
        st.corrections = s.store.corrections) ∧
    ∀ x writing k, s.store.wiping = some x →
      ∃ st : RetainedStore,
        exec (.powerLoss writing k) s = .next { s with powered := false, store := st } ∧ st.writes = [] ∧
        st.config = s.store.config ∧
        st.savedCount = (if 544 < k then wordsOf [s.tb.count.toNat] else s.store.savedCount) ∧
        (∀ n, keptAt st.orders n = if n < k then zeroWords 32 else keptAt s.store.orders n) ∧
        ∀ i, keptAt st.receivers i = if 32 + i < k then zeroWords 32 else keptAt s.store.receivers i

/-- POWER_ON over a store in which no word reads uncorrectable: L is the saved count, UNCONFIRMED, in OUTAGE with a line hold
of 81, and every order and receiver comes back as the words of its position give it. The model's choice in it:
notes/assumptions/11.md. -/
def Obligations.PowerOnRestoresTheStore : Prop :=
  ∀ s : State, Canonical s → badWords s.store.config = [] → (configOf (numbersOf s.store.config)).wipeMark = false →
    badWords s.store.savedCount = [] → (∀ x ∈ s.store.orders, badWords x.2 = []) →
    (∀ x ∈ s.store.receivers, badWords x.2 = []) →
    ∃ t, exec (.powerOn []) s = .next t ∧ t.powered = true ∧
      t.params = (configOf (numbersOf s.store.config)).params ∧
      t.tb.count = savedCountOf (numbersOf s.store.savedCount) ∧ t.tb.status = .unconfirmed ∧ t.tb.state = .outage ∧
      t.tb.reference = none ∧ t.tb.beaconDue = false ∧ t.sched = ⟨81, none, []⟩ ∧ t.engine.state = .idle ∧
      t.driver.cap = t.params.levelMax ∧ t.driver.state = .ready ∧ t.link.rate = t.params.linkRate ∧
      t.link.buffer = [] ∧ t.link.inHand = none ∧ t.store.restoring = true ∧ t.store.writes = [] ∧
      (∀ n, t.order n = orderOf (numbersOf (keptAt s.store.orders n))) ∧
      ∀ i, t.receiver i = receiverOf (numbersOf (keptAt s.store.receivers i))

/-- RESTORE_COMPLETE: every entry then names a slot that an ACTIVE or REVOKING order holds, every account whose counters
stay in range balances, with no counter but targeted and dropped moved, and requests may be taken. -/
def Obligations.RestoreLeavesNoLooseEntry : Prop :=
  ∀ s : State, s.powered = true → s.store.restoring = true → Canonical s →
    ∃ t, exec .restoreComplete s = .next t ∧ t.store.restoring = false ∧
      (∀ x ∈ t.table, ∀ e ∈ x.2.entries, t.slotHeld e.slot = true) ∧
      (∀ k n o, k < 8 → s.orderInSlot k = some (n, o) → o.counters.targeted ≤ 65535 →
        o.counters.outcomes + t.entriesNaming k ≤ 65535 →
        ∃ c, t.order n = some { o with counters := c } ∧ c.targeted = c.outcomes + t.entriesNaming k ∧
          c = { o.counters with targeted := c.targeted, dropped := c.dropped } ∧ o.counters.targeted ≤ c.targeted ∧
          o.counters.dropped ≤ c.dropped) ∧
      (∀ k, t.slotHeld k = s.slotHeld k) ∧ t.tb = s.tb ∧ t.sched = s.sched ∧ t.link = s.link ∧ t.params = s.params

/-- RESET_WIPE, whatever bits turn under its first write: orders, receivers and pending writes are gone, every parameter
is at its default, the configuration is written with the wipe mark, read back with the corrected words counted, and written
again where it reads damaged, the RESET stays in hand, and L and the link rate in force go on. The model's choice in it:
notes/assumptions/11.md, notes/assumptions/33.md and notes/assumptions/48.md. -/
def Obligations.WipeEmptiesTheStores : Prop :=
  ∀ (s : State) (q : Request) (e : ReadErrors), s.oldest = some q → q.kind = 0x05 → q.body = [2] →
    let marked := wordsOf (configNumbers ⟨.default, true⟩)
    let read := (turnWords e marked).map (·.writtenBack)
    ∃ t, exec (.resetWipe e) s = .next t ∧ t.orders = ⟨[], 0, 0⟩ ∧ t.table = [] ∧ t.params = .default ∧
      t.store.wiping = some .requested ∧ t.store.writes = [] ∧
      t.store.config = (if badWords read = [] then read else marked) ∧ t.link.inHand = some q ∧
      t.link.buffer = [] ∧ t.link.replies = [] ∧ t.link.lost = false ∧ t.link.counters = ⟨0, 0, 0, 0, 0⟩ ∧
      t.link.rate = s.link.rate ∧ t.driver.cap = 24 ∧ t.driver.history = [] ∧ t.sched.probes = [] ∧
      t.engine.transmission = none ∧ t.tb.count = s.tb.count ∧ t.tb.status = s.tb.status ∧
      t.driver.state = s.driver.state ∧
      t.store.corrections = min 65535 (s.store.corrections + correctedWords (turnWords e marked))

/-- WIPE_END of a WIPE that a RESET asked for: every position is empty, the saved count holds L, the wipe mark is no, the
scrub starts at the configuration, and the reply is made. The model's choice in it: notes/assumptions/11.md. -/
def Obligations.WipeEndLeavesTheStoreEmpty : Prop :=
  ∀ (s : State) (q : Request), s.powered = true → s.store.restoring = false → s.store.wiping = some .requested →
    s.link.inHand = some q →
    exec .wipeEnd s = .next { s with
      store := { s.store with
        config := wordsOf (configNumbers ⟨.default, false⟩), savedCount := wordsOf [s.tb.count.toNat]
        orders := [], receivers := [], scrubNext := 0, scrubPace := 0, scrubDue := 0, wiping := none }
      link := { s.link with
        replies := s.link.replies ++ [⟨replyKind q.kind, q.ticket, [0], true, .wipeDone⟩] } }

/-! ## The Host Link -/

/-- A record of R169 received in HUNT as the characters of R168, a low start bit, the data bits and a high stop bit, with
room in the request buffer, gives its request back, and the receiver hunts again. -/
def Obligations.ReceivedRecordGivesItsRequest : Prop :=
  ∀ (s : State) (kind ticket : Byte) (body : List Byte), s.powered = true → s.link.receive = .hunt →
    body.length ≤ 248 → s.link.buffer.length < 4 →
    received ((recordBytes kind ticket body).map fun b => (1#1 ++ b ++ 0#1 : Character)) s = .next { s with
      link := { s.link with
        receive := .hunt, assembly := [], buffer := s.link.buffer ++ [⟨kind, ticket, body⟩] } }

/-- BYTE_RECEIVED and RECORD_COMPLETE. In HUNT a character of the start mark begins a record, and any other character is
ignored, one with its stop bit low among them. A complete record joins the request buffer while RDY is asserted. Otherwise
it is lost: an OVERRUN reply is made while fewer than four wait, and after that the unanswered-overruns counter rises. -/
def Obligations.RecordsAreBufferedOrOverrun : Prop :=
  (∀ (s : State) (ch : Character), s.powered = true → s.link.receive = .hunt →
    exec (.byteReceived ch) s = .next (if ch.getLsbD 9 = true ∧ ch.extractLsb' 1 8 = 0xC3 then
      { s with link := { s.link with receive := .length, assembly := [] } } else s)) ∧
  ∀ (s : State) (ch : Character) (q : Request), s.powered = true → ch.getLsbD 9 = true →
    s.link.receiveByte (ch.extractLsb' 1 8) = .complete q →
    (s.rdy = true →
      exec (.recordComplete ch) s = .next { s with
        link := { s.link with receive := .hunt, assembly := [], buffer := s.link.buffer ++ [q] } }) ∧
    (s.rdy = false → s.link.overruns < 4 →
      exec (.recordComplete ch) s = .next { s with
        link := { s.link with
          receive := .hunt, assembly := []
          replies := s.link.replies ++ [⟨q.kind ||| 0x80, q.ticket, [0x0A], false, .nothing⟩] } }) ∧
    (s.rdy = false → 4 ≤ s.link.overruns →
      ∃ t, exec (.recordComplete ch) s = .next t ∧ t.link.buffer = s.link.buffer ∧
        t.link.replies = s.link.replies ∧ t.link.receive = .hunt ∧
        t.link.counters = { s.link.counters with unanswered := min 65535 (s.link.counters.unanswered + 1) } ∧
        t = { s with link := t.link })

/-- CRC_DISCARD, LENGTH_DISCARD, FRAMING_DISCARD (a character whose stop bit is low) and GAP_DISCARD: the receiver hunts
again, the counter of the discard alone rises, held at 65,535, and neither the request buffer nor the reply list
changes. -/
def Obligations.DiscardsRaiseTheirCounters : Prop :=
  ∀ s : State, s.powered = true →
    let after (t : State) (c : LinkCounters) : Prop :=
      t.link.receive = .hunt ∧ t.link.assembly = [] ∧ t.link.counters = c ∧ t.link.buffer = s.link.buffer ∧
        t.link.replies = s.link.replies ∧ t = { s with link := t.link }
    (∀ ch, ch.getLsbD 9 = true → s.link.receiveByte (ch.extractLsb' 1 8) = .crcDiscard →
      ∃ t, exec (.crcDiscard ch) s = .next t ∧
      after t { s.link.counters with crc := min 65535 (s.link.counters.crc + 1) }) ∧
    (∀ ch, ch.getLsbD 9 = true → s.link.receive = .length → 248 < (ch.extractLsb' 1 8).toNat →
      ∃ t, exec (.lengthDiscard ch) s = .next t ∧
      after t { s.link.counters with length := min 65535 (s.link.counters.length + 1) }) ∧
    (s.link.receive ≠ .hunt → ∃ t, exec .framingDiscard s = .next t ∧
      after t { s.link.counters with framing := min 65535 (s.link.counters.framing + 1) }) ∧
    (∀ ch, ch.getLsbD 9 = false → s.link.receive ≠ .hunt →
      exec (.byteReceived ch) s = exec .framingDiscard s) ∧
    (s.link.receive ≠ .hunt → ∃ t, exec .gapDiscard s = .next t ∧
      after t { s.link.counters with gap := min 65535 (s.link.counters.gap + 1) })

/-- TRANSMIT_START: the oldest reply goes before every notice; with none, in PUSH, the head of the notice queue goes and
the LOST flag is cleared. -/
def Obligations.RepliesGoBeforeNotices : Prop :=
  ∀ s : State, s.powered = true → s.link.sending = none →
    (∀ r rest, s.link.replies = r :: rest →
      exec .transmitStart s = .next { s with
        link := { s.link with
          replies := rest, sending := some ⟨(recordBytes r.kind r.ticket r.body).map charOf, r.after⟩ } }) ∧
    ∀ n rest, s.link.replies = [] → s.link.queue = n :: rest → s.params.noticeMode = .push →
      s.store.restoring = false → s.store.wiping = none →
      exec .transmitStart s = .next { s with
        link := { s.link with
          queue := rest, lost := false
          sending := some ⟨(recordBytes (noticeCode n.kind) 0 (leavingBody s n)).map charOf, n.after⟩ } }

/-- RECORD_SENT, RATE_SWITCH and SOFT_RESET_PERFORM at the end of a record: an ordinary one leaves the transmitter
idle; a new rate comes into force and the receiver hunts; a SOFT reset empties the link and the probe queue, makes
LEVEL_CAP LEVEL_MAX, and keeps the Timebase and the link rate. The model's choice in it: notes/assumptions/22.md. -/
def Obligations.EndOfRecordBringsItsEffect : Prop :=
  ∀ (s : State) (chars : List Character), s.powered = true →
    (s.link.sending = some ⟨chars, .nothing⟩ →
      exec .recordSent s = .next { s with link := { s.link with sending := none } }) ∧
    (∀ r, s.link.sending = some ⟨chars, .rate r⟩ → r ≠ s.link.rate →
      exec .rateSwitch s = .next { s with
        link := { s.link with sending := none, receive := .hunt, assembly := [], rate := r } }) ∧
    (s.link.sending = some ⟨chars, .softReset⟩ →
      ∃ t, exec .softResetPerform s = .next t ∧ t.link.queue = [] ∧ t.link.lost = false ∧ t.link.buffer = [] ∧
        t.link.replies = [] ∧ t.link.inHand = none ∧ t.link.receive = .hunt ∧
        t.link.counters = ⟨0, 0, 0, 0, 0⟩ ∧ t.link.rate = s.link.rate ∧ t.sched.probes = [] ∧
        t.sched.hold = s.sched.hold ∧ t.driver.history = [] ∧ t.driver.cap = s.params.levelMax ∧
        t.driver.recovery = 0 ∧ t.driver.buffer = 0 ∧ t.driver.state = s.driver.state ∧
        t.answer.mode = .idle ∧ t.engine.transmission = none ∧ t.tb = s.tb ∧ t.params = s.params ∧
        t.orders = s.orders)

/-- UNKNOWN_KIND, IDENT, STATUS, TIME_READ and PARAM_READ: each answers with its reply and changes nothing. IDENT's reply
carries the part code 0x3A13, the revision 2 and the station id, TIME_READ's what the Timebase holds. IDENT with a body is
refused with BAD_FORMAT. -/
def Obligations.ReadingsChangeNothing : Prop :=
  ∀ (s : State) (q : Request), s.oldest = some q →
    (q.kind ∉ requestKinds → exec .unknownKind s = .next (answered q [2] s)) ∧
    (q.body = [] → q.kind = 0x01 →
      exec .ident s = .next (answered q ([0, 0x3A, 0x13, 2] ++ bytesOf 2 s.params.stationId.toNat) s)) ∧
    (q.body ≠ [] → q.kind = 0x01 → exec .ident s = .next (answered q [1] s)) ∧
    (q.body = [] → q.kind = 0x02 →
      ∃ rest, exec .status s = .next (answered q (0 :: (countBytes s.tb.count ++ rest)) s) ∧ rest.length + 5 = 66) ∧
    (q.body = [] → q.kind = 0x08 →
      exec .timeRead s = .next (answered q ([0] ++ countBytes s.tb.count ++
        [statusCode s.tb.status, timebaseCode s.tb.state, phaseCode s.tb.reference, phaseCode (some s.params.refPhase)] ++
        (Phase.all.map fun p => [trackerCode (s.tracker p).state, boolCode (s.params.enable.get p)] ++
          bytesOf 2 (s.tracker p).period).flatten) s)) ∧
    ∀ b, q.body = [b] → q.kind = 0x03 →
      (paramOf b = none → exec .paramRead s = .next (answered q [7] s)) ∧
      ∀ p, paramOf b = some p →
        exec .paramRead s = .next (answered q (0 :: b :: bytesOf 4 (s.params.read p)) s)

/-- PARAM_WRITE, and the row that names the parameter's write: a taken write stores the value, a numeric one clamped into
its range, and no other parameter; it asks for the configuration record's write and returns the value as stored. L, the
sequence value and the last tag stay. A write of NOMINAL_FREQ or PHASE_ENABLE restarts every phase, one of ZC_FILTER or
ZC_EDGE its phase, and no other write a phase; in RUNNING a write of REF_PHASE moves the reference to that phase if it is
LOCKED, and changes nothing of the Timebase otherwise; a changed LINK_RATE comes with the end of the reply. A value that is
none of an enumeration's, the set's or a divider's is refused with RANGE, an identifier the table does not hold with
NOT_FOUND, and nothing else changes. The model's choice in it: notes/assumptions/4.md, notes/assumptions/32.md and
notes/assumptions/62.md. -/
def Obligations.WriteIsStoredOrRefused : Prop :=
  ∀ (s : State) (q : Request) (v : ParamValue), s.oldest = some q → q.kind = 0x04 → readParamValue q.body = some v →
    (paramOf v.ident = none → exec .paramWrite s = .next (answered q [7] s)) ∧
    ∀ p c, paramOf v.ident = some p → c = .paramWrite ∨ c = writeRow p →
    (s.params.write v.value p = none → numericRange p = none ∧ exec c s = .next (answered q [3] s)) ∧
    ∀ ps, s.params.write v.value p = some ps →
    (∀ lo hi, numericRange p = some (lo, hi) → ps.read p = max lo (min hi v.value)) ∧
    (numericRange p = none → ps.read p = v.value) ∧ (∀ x, x ≠ p → ps.read x = s.params.read x) ∧
    ∃ t ws, exec c s = .next t ∧ t.params = ps ∧ t.tb.count = s.tb.count ∧
      t.link.replies = s.link.replies ++ [⟨0x84, q.ticket, 0 :: v.ident :: bytesOf 4 (ps.read p), true,
        if ps.linkRate = s.params.linkRate then .nothing else .rate ps.linkRate⟩] ∧
      t.store.writes = s.store.writes ++ ⟨.config ⟨ps, false⟩, true⟩ :: ws ∧ t.orders.lastTag = s.orders.lastTag ∧
      t.orders.sequence = s.orders.sequence ∧ t.link.rate = s.link.rate ∧
      (∀ ph, t.tracker ph =
        if p = .nominalFreq ∨ p = .phaseEnable ∨ p = .zcFilter ph ∨ p = .zcEdge ph then
          { s.tracker ph with
            state := if ps.enable.get ph then .acquiring else .absent
            period := if ps.nominalFreq = .hz50 then 10000 else 8333
            last := none, lastFull := none, acquire := 0, silence := 0, miss := 0, ret := 0, coast := 0
            ignoreNext := true, derivedDue := false }
        else s.tracker ph) ∧
      (p = .nominalFreq → s.tb.state = .outage → t.tb.crystalRestart = true) ∧
      (p = .refPhase → s.tb.state = .running → s.locked ps.refPhase = true →
        t.tb = { s.tb with
          reference := some ps.refPhase
          spacing := if s.tb.reference = some ps.refPhase then s.tb.spacing else true }) ∧
      (p = .refPhase → s.tb.state ≠ .running ∨ s.locked ps.refPhase = false → t.tb = s.tb)

/-- WRITE_RETRY_MAX and WRITE_LEVEL_MAX: a lowered RETRY_MAX leaves no entry at or above it, and LEVEL_CAP is brought into
the span of the LEVEL_MAX written. -/
def Obligations.LoweredLimitsTakeEffect : Prop :=
  ∀ (s : State) (q : Request) (v : ParamValue), Canonical s → s.oldest = some q → q.kind = 0x04 →
    readParamValue q.body = some v →
    (v.ident = 0x23 → v.value < s.params.retryMax → 1 ≤ v.value → v.value ≤ 15 →
      ∃ t, exec .writeRetryMax s = .next t ∧ t.params.retryMax = v.value ∧
        ∀ i r, t.receiver i = some r → ∀ e ∈ r.entries, e.attempts < v.value) ∧
    (v.ident = 0x12 → v.value ≤ 31 →
      ∃ t, exec .writeLevelMax s = .next t ∧ t.params.levelMax = v.value ∧
        t.driver.cap = max (v.value - 8) (min v.value s.driver.cap))

/-- RESET_SOFT: the notice queue is emptied and the LOST flag cleared, the link rate kept, and the reply is made with the
request kept in hand; any mode but SOFT and WIPE is refused. The model's choice in it: notes/assumptions/22.md. -/
def Obligations.SoftResetIsRepliedToFirst : Prop :=
  ∀ (s : State) (q : Request), s.oldest = some q → q.kind = 0x05 →
    (q.body = [1] →
      exec .resetSoft s = .next { s with
        link := { s.link with
          buffer := s.link.buffer.tail, queue := [], lost := false, inHand := some q
          replies := s.link.replies ++ [⟨0x85, q.ticket, [0], true, .softReset⟩] } }) ∧
    ∀ m, q.body = [m] → m ≠ 1 → m ≠ 2 → exec .resetSoft s = .next (answered q [3] s)

/-- NOTICE_FETCH: in HELD the head of the queue leaves with the reply, which carries its kind, the LOST flag in its flags
byte and its fields, and the LOST flag is cleared; an empty queue is answered OK and keeps the flag; in PUSH the request is
refused with STATE; a body is refused with BAD_FORMAT. The model's choice in it: notes/assumptions/73.md, for a notice whose
sending is to bring a rate. -/
def Obligations.FetchTakesTheHead : Prop :=
  ∀ (s : State) (q : Request), s.oldest = some q → q.kind = 0x06 →
    (∀ n rest, q.body = [] → s.params.noticeMode = .held → s.link.queue = n :: rest →
      exec .noticeFetch s = .next { s with
        link := { s.link with
          buffer := s.link.buffer.tail, queue := rest, lost := false
          replies := s.link.replies ++ [⟨0x86, q.ticket,
            [0, noticeCode n.kind, n.flags ||| boolCode s.link.lost] ++
              (if n.kind = .link then linkFields s else n.fields), true, n.after⟩] } }) ∧
    (q.body = [] → s.params.noticeMode = .held → s.link.queue = [] → exec .noticeFetch s = .next (answered q [0] s)) ∧
    (q.body = [] → s.params.noticeMode = .push → exec .noticeFetch s = .next (answered q [9] s)) ∧
    (q.body ≠ [] → exec .noticeFetch s = .next (answered q [1] s))

/-- COUNT_SET: taken while the count is UNCONFIRMED, within 50 of L, or with FORCE; L becomes X, CONFIRMED, a beacon
is due, the timer and the cadence are 0 and the saved count's write is asked. Otherwise it is refused with STATE and
L. The model's choice in it: notes/assumptions/23.md. -/
def Obligations.CountSetSetsTheCount : Prop :=
  ∀ (s : State) (q : Request) (x : CountSet), s.oldest = some q → q.kind = 0x09 → readCountSet q.body = some x →
    ((s.tb.status = .unconfirmed ∨ x.force = true ∨
        (-50 ≤ dist x.count s.tb.count ∧ dist x.count s.tb.count ≤ 50)) →
      ∃ t ws, exec .countSet s = .next t ∧
        t.tb = { s.tb with
          count := x.count, status := .confirmed, beaconDue := true, beaconTimer := 0, cadence := 0 } ∧
        t.store.writes = s.store.writes ++ ⟨.savedCount (some x.count), true⟩ :: ws ∧
        t.link.replies = s.link.replies ++ [⟨0x89, q.ticket, 0 :: countBytes x.count, true, .nothing⟩] ∧
        t.sched.hold = s.sched.hold ∧ t.params = s.params ∧
        (∀ n o, t.order n = some o → o.isClosed = false → 0 < dist o.sealPoint x.count)) ∧
    (s.tb.status = .confirmed → x.force = false →
      (dist x.count s.tb.count < -50 ∨ 50 < dist x.count s.tb.count) →
      exec .countSet s = .next (answered q (9 :: countBytes s.tb.count) s))

/-- A leg of windows that carry, over the floor, a lead cell, data cells and their CRC reads back its data cells. The
model's choice in it: notes/assumptions/13.md and notes/assumptions/41.md. -/
def Obligations.AWholeLegIsRead : Prop :=
  ∀ (floor2 energy : Nat) (data : List Byte), data ≠ [] → carriesCarrier floor2 ⟨energy, 0⟩ = true →
    wholeLeg floor2 (data.length + 3)
      (⟨energy, leadSymbols⟩ :: (data ++ crcBytes data).map fun b => ⟨energy, dataSymbols b⟩) = some data
end

