-- ==== Sys2Proof/Laws/Keyed.lean ====
section
/-! SUPPORT. The lists by position: what reading gives after a change, and that every change keeps the canonical form. -/

namespace Sys2Proof.Machine

variable {α β : Type}

theorem rising_iff (l : List (Nat × α)) : rising l = true ↔ (l.map Prod.fst).Pairwise (· < ·) := by
  simp [rising]

theorem rising_nil : rising ([] : List (Nat × α)) = true := by simp [rising]

theorem rising_cons (x : Nat × α) (l : List (Nat × α)) :
    rising (x :: l) = true ↔ (∀ y ∈ l, x.1 < y.1) ∧ rising l = true := by
  simp [rising, List.pairwise_cons]

/-- What stands in a list after an insertion stood there before, or is what was inserted. -/
theorem mem_insertAt {l : List (Nat × α)} {n : Nat} {v : α} {x : Nat × α} (h : x ∈ insertAt l n v) :
    x = (n, v) ∨ x ∈ l := by
  induction l with
  | nil => simpa [insertAt] using h
  | cons y l ih =>
    simp only [insertAt] at h
    split at h
    · simpa using h
    · split at h
      · simp only [List.mem_cons] at h ⊢; tauto
      · simp only [List.mem_cons] at h ⊢
        rcases h with h | h
        · exact .inr (.inl h)
        · exact (ih h).imp id .inr

theorem mem_eraseAt {l : List (Nat × α)} {n : Nat} {x : Nat × α} (h : x ∈ eraseAt l n) : x ∈ l := by
  induction l with
  | nil => simp [eraseAt] at h
  | cons y l ih =>
    simp only [eraseAt] at h
    split at h
    · exact List.mem_cons_of_mem _ h
    · simp only [List.mem_cons] at h ⊢
      exact h.imp id ih

theorem rising_insertAt {l : List (Nat × α)} (n : Nat) (v : α) (h : rising l = true) :
    rising (insertAt l n v) = true := by
  induction l with
  | nil => simp [insertAt, rising_cons, rising_nil]
  | cons y l ih =>
    rw [rising_cons] at h
    simp only [insertAt]
    split
    · rename_i hn
      rw [rising_cons, rising_cons]
      refine ⟨?_, h⟩
      intro z hz
      rcases List.mem_cons.1 hz with rfl | hz
      · exact hn
      · exact lt_trans hn (h.1 z hz)
    · split
      · rename_i _ he
        rw [rising_cons]
        exact ⟨fun z hz => by simpa [he] using h.1 z hz, h.2⟩
      · rename_i h1 h2
        rw [rising_cons]
        refine ⟨?_, ih h.2⟩
        intro z hz
        rcases mem_insertAt hz with rfl | hz
        · exact lt_of_le_of_ne (not_lt.1 h1) (Ne.symm h2)
        · exact h.1 z hz

theorem rising_eraseAt {l : List (Nat × α)} (n : Nat) (h : rising l = true) : rising (eraseAt l n) = true := by
  induction l with
  | nil => exact h
  | cons y l ih =>
    rw [rising_cons] at h
    simp only [eraseAt]
    split
    · exact h.2
    · rw [rising_cons]
      exact ⟨fun z hz => h.1 z (mem_eraseAt hz), ih h.2⟩

theorem rising_filter {l : List (Nat × α)} (p : Nat × α → Bool) (h : rising l = true) :
    rising (l.filter p) = true := by
  induction l with
  | nil => exact h
  | cons y l ih =>
    rw [rising_cons] at h
    simp only [List.filter]
    split
    · rw [rising_cons]
      exact ⟨fun z hz => h.1 z (List.mem_filter.1 hz).1, ih h.2⟩
    · exact ih h.2

@[simp] theorem mapAll_fst (f : Nat → α → β) (l : List (Nat × α)) :
    (mapAll f l).map Prod.fst = l.map Prod.fst := by simp [mapAll, Function.comp_def]

theorem rising_mapAll {l : List (Nat × α)} (f : Nat → α → β) (h : rising l = true) :
    rising (mapAll f l) = true := by
  rw [rising_iff] at h ⊢
  simpa using h

theorem lookup_insertAt_self (l : List (Nat × α)) (n : Nat) (v : α) : lookup (insertAt l n v) n = some v := by
  induction l with
  | nil => simp [insertAt, lookup]
  | cons y l ih =>
    simp only [insertAt]
    split
    · simp [lookup]
    · split
      · simp [lookup]
      · rename_i h
        simp [lookup, Ne.symm h, ih]

theorem lookup_insertAt_ne (l : List (Nat × α)) {n m : Nat} (v : α) (h : m ≠ n) :
    lookup (insertAt l n v) m = lookup l m := by
  induction l with
  | nil => simp [insertAt, lookup, Ne.symm h]
  | cons y l ih =>
    simp only [insertAt]
    split
    · simp [lookup, Ne.symm h]
    · split
      · rename_i he
        simp only [lookup]
        rw [if_neg (Ne.symm h), if_neg (by rw [← he]; exact Ne.symm h)]
      · simp only [lookup]
        split
        · rfl
        · exact ih

theorem lookup_eraseAt_ne (l : List (Nat × α)) {n m : Nat} (h : m ≠ n) : lookup (eraseAt l n) m = lookup l m := by
  induction l with
  | nil => rfl
  | cons y l ih =>
    simp only [eraseAt]
    split
    · rename_i he
      simp only [lookup]
      rw [if_neg (by rw [he]; exact Ne.symm h)]
    · simp only [lookup]
      split
      · rfl
      · exact ih

theorem lookup_none_of_lt {l : List (Nat × α)} {n : Nat} (h : ∀ x ∈ l, n < x.1) : lookup l n = none := by
  induction l with
  | nil => rfl
  | cons y l ih =>
    simp only [lookup]
    rw [if_neg (Nat.ne_of_gt (h y (by simp)))]
    exact ih fun x hx => h x (by simp [hx])

theorem lookup_eraseAt_self {l : List (Nat × α)} (n : Nat) (h : rising l = true) : lookup (eraseAt l n) n = none := by
  induction l with
  | nil => rfl
  | cons y l ih =>
    rw [rising_cons] at h
    simp only [eraseAt]
    split
    · rename_i he
      exact lookup_none_of_lt fun x hx => he ▸ h.1 x hx
    · rename_i he
      simp only [lookup]
      rw [if_neg he]
      exact ih h.2

theorem mem_of_lookup {l : List (Nat × α)} {n : Nat} {v : α} (h : lookup l n = some v) : (n, v) ∈ l := by
  induction l with
  | nil => simp [lookup] at h
  | cons y l ih =>
    simp only [lookup] at h
    split at h
    · rename_i he
      cases h; subst he; simp
    · exact List.mem_cons_of_mem _ (ih h)

/-- A free position lies at most as far from the start as the list is long. -/
theorem lowestFree_le (l : List (Nat × α)) (n : Nat) : lowestFree l n ≤ n + l.length := by
  induction l generalizing n with
  | nil => simp [lowestFree]
  | cons y l ih =>
    simp only [lowestFree, List.length_cons]
    split
    · have := ih (n + 1); omega
    · omega

/-- No value stands at the free position found in a rising list. -/
theorem lookup_lowestFree {l : List (Nat × α)} (n : Nat) (h : rising l = true) (hn : ∀ x ∈ l, n ≤ x.1) :
    lookup l (lowestFree l n) = none := by
  induction l generalizing n with
  | nil => rfl
  | cons y l ih =>
    rw [rising_cons] at h
    simp only [lowestFree]
    split
    · rename_i he
      have hl : n + 1 ≤ lowestFree l (n + 1) := by
        clear ih h hn
        generalize n + 1 = m
        induction l generalizing m with
        | nil => simp [lowestFree]
        | cons z l ih =>
          simp only [lowestFree]
          split
          · exact le_trans (Nat.le_succ m) (ih (m + 1))
          · exact le_refl m
      simp only [lookup]
      rw [if_neg (by omega)]
      exact ih (n + 1) h.2 fun x hx => he ▸ h.1 x hx
    · rename_i he
      have hy : n < y.1 := lt_of_le_of_ne (hn y (by simp)) (Ne.symm he)
      exact lookup_none_of_lt fun x hx => by
        rcases List.mem_cons.1 hx with rfl | hx
        · exact hy
        · exact lt_trans hy (h.1 x hx)

end Sys2Proof.Machine
end

