-- ==== Sys2Proof/Laws/State.lean ====
section
/-! SUPPORT. What each plain update of the state changes and what it leaves alone, one equation a field, true by unfolding. -/

namespace Sys2Proof.Machine

/-! ## One value for each phase -/

@[simp] theorem PerPhase.get_set_self {α : Type} (x : PerPhase α) (p : Phase) (v : α) : (x.set p v).get p = v := by
  cases p <;> rfl

theorem PerPhase.get_set_ne {α : Type} (x : PerPhase α) {p q : Phase} (v : α) (h : q ≠ p) :
    (x.set p v).get q = x.get q := by
  cases p <;> cases q <;> first | rfl | exact absurd rfl h

@[simp] theorem PerPhase.get_const {α : Type} (v : α) (p : Phase) : (PerPhase.const v).get p = v := by cases p <;> rfl

@[simp] theorem PerPhase.set_get_self {α : Type} (x : PerPhase α) (p : Phase) : x.set p (x.get p) = x := by
  cases p <;> rfl

@[simp] theorem PerPhase.set_set {α : Type} (x : PerPhase α) (p : Phase) (v w : α) : (x.set p v).set p w = x.set p w := by
  cases p <;> rfl

/-! ## The Timebase's trackers -/

@[simp] theorem setTracker_tracker_self (s : State) (p : Phase) (t : Tracker) : (s.setTracker p t).tracker p = t := by
  cases p <;> rfl

theorem setTracker_tracker_ne (s : State) {p q : Phase} (t : Tracker) (h : q ≠ p) :
    (s.setTracker p t).tracker q = s.tracker q := PerPhase.get_set_ne _ t h

/-- A tracker replaced is the only change of the Timebase. -/
@[simp] theorem setTracker_tb (s : State) (p : Phase) (t : Tracker) :
    (s.setTracker p t).tb = { s.tb with trackers := s.tb.trackers.set p t } := rfl

/-- A tracker replaced changes the Timebase alone. -/
@[simp] theorem setTracker_frame (s : State) (p : Phase) (t : Tracker) :
    (s.setTracker p t).powered = s.powered ∧ (s.setTracker p t).params = s.params ∧
    (s.setTracker p t).orders = s.orders ∧ (s.setTracker p t).table = s.table ∧ (s.setTracker p t).sched = s.sched ∧
    (s.setTracker p t).engine = s.engine ∧ (s.setTracker p t).carrier = s.carrier ∧
    (s.setTracker p t).driver = s.driver ∧ (s.setTracker p t).answer = s.answer ∧
    (s.setTracker p t).store = s.store ∧ (s.setTracker p t).link = s.link ∧ (s.setTracker p t).owed = s.owed ∧
    (s.setTracker p t).freeUses = s.freeUses ∧ (s.setTracker p t).pending = s.pending :=
  ⟨rfl, rfl, rfl, rfl, rfl, rfl, rfl, rfl, rfl, rfl, rfl, rfl, rfl, rfl⟩

/-! ## Orders and receivers -/

@[simp] theorem setOrder_orders (s : State) (n : Nat) (o : Order) :
    (s.setOrder n o).orders = { s.orders with orders := insertAt s.orders.orders n o } := rfl

/-- An order replaced changes the Order Store alone. -/
@[simp] theorem setOrder_frame (s : State) (n : Nat) (o : Order) :
    (s.setOrder n o).powered = s.powered ∧ (s.setOrder n o).params = s.params ∧ (s.setOrder n o).tb = s.tb ∧
    (s.setOrder n o).table = s.table ∧ (s.setOrder n o).sched = s.sched ∧ (s.setOrder n o).engine = s.engine ∧
    (s.setOrder n o).carrier = s.carrier ∧ (s.setOrder n o).driver = s.driver ∧ (s.setOrder n o).answer = s.answer ∧
    (s.setOrder n o).store = s.store ∧ (s.setOrder n o).link = s.link ∧ (s.setOrder n o).owed = s.owed ∧
    (s.setOrder n o).freeUses = s.freeUses ∧ (s.setOrder n o).pending = s.pending :=
  ⟨rfl, rfl, rfl, rfl, rfl, rfl, rfl, rfl, rfl, rfl, rfl, rfl, rfl, rfl⟩

@[simp] theorem bumpSequence_orders (s : State) :
    (bumpSequence s).orders = { s.orders with sequence := s.orders.sequence + 1 } := rfl

/-- The sequence value raised changes the Order Store alone. -/
@[simp] theorem bumpSequence_frame (s : State) :
    (bumpSequence s).powered = s.powered ∧ (bumpSequence s).params = s.params ∧ (bumpSequence s).tb = s.tb ∧
    (bumpSequence s).table = s.table ∧ (bumpSequence s).sched = s.sched ∧ (bumpSequence s).engine = s.engine ∧
    (bumpSequence s).carrier = s.carrier ∧ (bumpSequence s).driver = s.driver ∧ (bumpSequence s).answer = s.answer ∧
    (bumpSequence s).store = s.store ∧ (bumpSequence s).link = s.link ∧ (bumpSequence s).owed = s.owed ∧
    (bumpSequence s).freeUses = s.freeUses ∧ (bumpSequence s).pending = s.pending :=
  ⟨rfl, rfl, rfl, rfl, rfl, rfl, rfl, rfl, rfl, rfl, rfl, rfl, rfl, rfl⟩

@[simp] theorem setReceiver_table (s : State) (i : Nat) (r : Receiver) :
    (s.setReceiver i r).table = insertAt s.table i r := rfl

/-- A record replaced changes the table alone. -/
@[simp] theorem setReceiver_frame (s : State) (i : Nat) (r : Receiver) :
    (s.setReceiver i r).powered = s.powered ∧ (s.setReceiver i r).params = s.params ∧ (s.setReceiver i r).tb = s.tb ∧
    (s.setReceiver i r).orders = s.orders ∧ (s.setReceiver i r).sched = s.sched ∧
    (s.setReceiver i r).engine = s.engine ∧ (s.setReceiver i r).carrier = s.carrier ∧
    (s.setReceiver i r).driver = s.driver ∧ (s.setReceiver i r).answer = s.answer ∧
    (s.setReceiver i r).store = s.store ∧ (s.setReceiver i r).link = s.link ∧ (s.setReceiver i r).owed = s.owed ∧
    (s.setReceiver i r).freeUses = s.freeUses ∧ (s.setReceiver i r).pending = s.pending :=
  ⟨rfl, rfl, rfl, rfl, rfl, rfl, rfl, rfl, rfl, rfl, rfl, rfl, rfl, rfl⟩

/-- The working copies removed. -/
@[simp] theorem wipeRecords_frame (s : State) :
    (wipeRecords s).powered = s.powered ∧ (wipeRecords s).params = s.params ∧ (wipeRecords s).tb = s.tb ∧
    (wipeRecords s).sched = s.sched ∧ (wipeRecords s).engine = s.engine ∧ (wipeRecords s).carrier = s.carrier ∧
    (wipeRecords s).driver = s.driver ∧ (wipeRecords s).answer = s.answer ∧ (wipeRecords s).store = s.store ∧
    (wipeRecords s).link = s.link ∧ (wipeRecords s).freeUses = s.freeUses ∧ (wipeRecords s).pending = s.pending :=
  ⟨rfl, rfl, rfl, rfl, rfl, rfl, rfl, rfl, rfl, rfl, rfl, rfl⟩

/-! ## The line -/

@[simp] theorem answerIdle_answer (s : State) :
    (answerIdle s).answer = { s.answer with mode := .idle, phase := none, relayHeard := false } := rfl

/-- The Answer Receiver returned to IDLE. -/
@[simp] theorem answerIdle_frame (s : State) :
    (answerIdle s).powered = s.powered ∧ (answerIdle s).params = s.params ∧ (answerIdle s).tb = s.tb ∧
    (answerIdle s).orders = s.orders ∧ (answerIdle s).table = s.table ∧ (answerIdle s).sched = s.sched ∧
    (answerIdle s).engine = s.engine ∧ (answerIdle s).carrier = s.carrier ∧ (answerIdle s).driver = s.driver ∧
    (answerIdle s).store = s.store ∧ (answerIdle s).link = s.link ∧ (answerIdle s).owed = s.owed ∧
    (answerIdle s).freeUses = s.freeUses ∧ (answerIdle s).pending = s.pending :=
  ⟨rfl, rfl, rfl, rfl, rfl, rfl, rfl, rfl, rfl, rfl, rfl, rfl, rfl, rfl⟩

@[simp] theorem finishTransmission_sched (s : State) :
    (finishTransmission s).sched = { s.sched with handOver := none } := rfl

@[simp] theorem finishTransmission_engine (s : State) : (finishTransmission s).engine =
    { s.engine with state := .idle, transmission := none, live := .const false } := rfl

/-- A transmission ended changes the hand-over record and the Engine alone. -/
@[simp] theorem finishTransmission_frame (s : State) :
    (finishTransmission s).powered = s.powered ∧ (finishTransmission s).params = s.params ∧
    (finishTransmission s).tb = s.tb ∧ (finishTransmission s).orders = s.orders ∧
    (finishTransmission s).table = s.table ∧ (finishTransmission s).carrier = s.carrier ∧
    (finishTransmission s).driver = s.driver ∧ (finishTransmission s).answer = s.answer ∧
    (finishTransmission s).store = s.store ∧ (finishTransmission s).link = s.link ∧
    (finishTransmission s).owed = s.owed ∧ (finishTransmission s).freeUses = s.freeUses ∧
    (finishTransmission s).pending = s.pending :=
  ⟨rfl, rfl, rfl, rfl, rfl, rfl, rfl, rfl, rfl, rfl, rfl, rfl, rfl⟩

@[simp] theorem setAbortCause_engine (c : AbortCause) (s : State) :
    (setAbortCause c s).engine = { s.engine with abortCause := some c } := rfl

/-- The abort cause changes the Engine alone. -/
@[simp] theorem setAbortCause_frame (c : AbortCause) (s : State) :
    (setAbortCause c s).powered = s.powered ∧ (setAbortCause c s).params = s.params ∧ (setAbortCause c s).tb = s.tb ∧
    (setAbortCause c s).orders = s.orders ∧ (setAbortCause c s).table = s.table ∧
    (setAbortCause c s).sched = s.sched ∧ (setAbortCause c s).carrier = s.carrier ∧
    (setAbortCause c s).driver = s.driver ∧ (setAbortCause c s).answer = s.answer ∧
    (setAbortCause c s).store = s.store ∧ (setAbortCause c s).link = s.link ∧ (setAbortCause c s).owed = s.owed ∧
    (setAbortCause c s).freeUses = s.freeUses ∧ (setAbortCause c s).pending = s.pending :=
  ⟨rfl, rfl, rfl, rfl, rfl, rfl, rfl, rfl, rfl, rfl, rfl, rfl, rfl, rfl⟩

/-- A measured floor changes the Answer Receiver alone. -/
@[simp] theorem measureFloor_frame (g1 g2 : Nat) (s : State) :
    (measureFloor g1 g2 s).powered = s.powered ∧ (measureFloor g1 g2 s).params = s.params ∧
    (measureFloor g1 g2 s).tb = s.tb ∧ (measureFloor g1 g2 s).orders = s.orders ∧
    (measureFloor g1 g2 s).table = s.table ∧ (measureFloor g1 g2 s).sched = s.sched ∧
    (measureFloor g1 g2 s).engine = s.engine ∧ (measureFloor g1 g2 s).carrier = s.carrier ∧
    (measureFloor g1 g2 s).driver = s.driver ∧ (measureFloor g1 g2 s).store = s.store ∧
    (measureFloor g1 g2 s).link = s.link ∧ (measureFloor g1 g2 s).owed = s.owed ∧
    (measureFloor g1 g2 s).freeUses = s.freeUses ∧ (measureFloor g1 g2 s).pending = s.pending :=
  ⟨rfl, rfl, rfl, rfl, rfl, rfl, rfl, rfl, rfl, rfl, rfl, rfl, rfl, rfl⟩

/-- A window noted changes the Engine alone. -/
@[simp] theorem noteOpened_frame (p : Phase) (s : State) :
    (noteOpened p s).powered = s.powered ∧ (noteOpened p s).params = s.params ∧ (noteOpened p s).tb = s.tb ∧
    (noteOpened p s).orders = s.orders ∧ (noteOpened p s).table = s.table ∧ (noteOpened p s).sched = s.sched ∧
    (noteOpened p s).carrier = s.carrier ∧ (noteOpened p s).driver = s.driver ∧ (noteOpened p s).answer = s.answer ∧
    (noteOpened p s).store = s.store ∧ (noteOpened p s).link = s.link ∧ (noteOpened p s).owed = s.owed ∧
    (noteOpened p s).freeUses = s.freeUses ∧ (noteOpened p s).pending = s.pending :=
  ⟨rfl, rfl, rfl, rfl, rfl, rfl, rfl, rfl, rfl, rfl, rfl, rfl, rfl, rfl⟩

/-- A leg opened reaches the four blocks of the line. -/
@[simp] theorem openTheLeg_frame (s : State) :
    (openTheLeg s).powered = s.powered ∧ (openTheLeg s).params = s.params ∧ (openTheLeg s).tb = s.tb ∧
    (openTheLeg s).orders = s.orders ∧ (openTheLeg s).table = s.table ∧ (openTheLeg s).sched = s.sched ∧
    (openTheLeg s).store = s.store ∧ (openTheLeg s).link = s.link ∧ (openTheLeg s).owed = s.owed ∧
    (openTheLeg s).freeUses = s.freeUses ∧ (openTheLeg s).pending = s.pending :=
  ⟨rfl, rfl, rfl, rfl, rfl, rfl, rfl, rfl, rfl, rfl, rfl⟩

/-- A cell sent changes the Line Driver alone. -/
@[simp] theorem sendCell_frame (p : Phase) (k : Nat) (b : Burst) (s : State) :
    (sendCell p k b s).powered = s.powered ∧ (sendCell p k b s).params = s.params ∧ (sendCell p k b s).tb = s.tb ∧
    (sendCell p k b s).orders = s.orders ∧ (sendCell p k b s).table = s.table ∧ (sendCell p k b s).sched = s.sched ∧
    (sendCell p k b s).engine = s.engine ∧ (sendCell p k b s).carrier = s.carrier ∧
    (sendCell p k b s).answer = s.answer ∧ (sendCell p k b s).store = s.store ∧ (sendCell p k b s).link = s.link ∧
    (sendCell p k b s).owed = s.owed ∧ (sendCell p k b s).freeUses = s.freeUses ∧
    (sendCell p k b s).pending = s.pending :=
  ⟨rfl, rfl, rfl, rfl, rfl, rfl, rfl, rfl, rfl, rfl, rfl, rfl, rfl, rfl⟩

/-- Fold-back changes the Line Driver and the folded mark. -/
@[simp] theorem foldBack_frame (time : Nat) (s : State) :
    (foldBack time s).powered = s.powered ∧ (foldBack time s).params = s.params ∧ (foldBack time s).tb = s.tb ∧
    (foldBack time s).orders = s.orders ∧ (foldBack time s).table = s.table ∧ (foldBack time s).sched = s.sched ∧
    (foldBack time s).carrier = s.carrier ∧ (foldBack time s).answer = s.answer ∧ (foldBack time s).store = s.store ∧
    (foldBack time s).link = s.link ∧ (foldBack time s).owed = s.owed ∧ (foldBack time s).freeUses = s.freeUses ∧
    (foldBack time s).pending = s.pending :=
  ⟨rfl, rfl, rfl, rfl, rfl, rfl, rfl, rfl, rfl, rfl, rfl, rfl, rfl⟩

/-- The oldest probe dropped changes the Scheduler alone. -/
@[simp] theorem dropProbe_frame (s : State) :
    (dropProbe s).powered = s.powered ∧ (dropProbe s).params = s.params ∧ (dropProbe s).tb = s.tb ∧
    (dropProbe s).orders = s.orders ∧ (dropProbe s).table = s.table ∧ (dropProbe s).engine = s.engine ∧
    (dropProbe s).carrier = s.carrier ∧ (dropProbe s).driver = s.driver ∧ (dropProbe s).answer = s.answer ∧
    (dropProbe s).store = s.store ∧ (dropProbe s).link = s.link ∧ (dropProbe s).owed = s.owed ∧
    (dropProbe s).freeUses = s.freeUses ∧ (dropProbe s).pending = s.pending :=
  ⟨rfl, rfl, rfl, rfl, rfl, rfl, rfl, rfl, rfl, rfl, rfl, rfl, rfl, rfl⟩

/-- A hand-over reaches the Scheduler and the blocks of the line. -/
@[simp] theorem handOver_frame (k : HandOverKind) (b : Burst) (ps : PerPhase Bool) (level : Nat) (c : CarrierSelection) (span : Nat)
    (x : Option ExchangeTimes) (s : State) :
    (handOver k b ps level c span x s).powered = s.powered ∧ (handOver k b ps level c span x s).params = s.params ∧
    (handOver k b ps level c span x s).tb = s.tb ∧ (handOver k b ps level c span x s).orders = s.orders ∧
    (handOver k b ps level c span x s).table = s.table ∧ (handOver k b ps level c span x s).store = s.store ∧
    (handOver k b ps level c span x s).link = s.link ∧ (handOver k b ps level c span x s).owed = s.owed ∧
    (handOver k b ps level c span x s).freeUses = s.freeUses ∧
    (handOver k b ps level c span x s).pending = s.pending :=
  ⟨rfl, rfl, rfl, rfl, rfl, rfl, rfl, rfl, rfl, rfl⟩

/-- The line reset changes the Line Driver and the Answer Receiver. -/
@[simp] theorem resetLine_frame (s : State) :
    (resetLine s).powered = s.powered ∧ (resetLine s).params = s.params ∧ (resetLine s).tb = s.tb ∧
    (resetLine s).orders = s.orders ∧ (resetLine s).table = s.table ∧ (resetLine s).sched = s.sched ∧
    (resetLine s).engine = s.engine ∧ (resetLine s).carrier = s.carrier ∧ (resetLine s).store = s.store ∧
    (resetLine s).link = s.link ∧ (resetLine s).owed = s.owed ∧ (resetLine s).freeUses = s.freeUses ∧
    (resetLine s).pending = s.pending :=
  ⟨rfl, rfl, rfl, rfl, rfl, rfl, rfl, rfl, rfl, rfl, rfl, rfl, rfl⟩

/-! ## The Host Link -/

@[simp] theorem dropRequest_link (s : State) :
    (dropRequest s).link = { s.link with buffer := s.link.buffer.tail } := rfl

/-- A request dropped changes the link alone. -/
@[simp] theorem dropRequest_frame (s : State) :
    (dropRequest s).powered = s.powered ∧ (dropRequest s).params = s.params ∧ (dropRequest s).tb = s.tb ∧
    (dropRequest s).orders = s.orders ∧ (dropRequest s).table = s.table ∧ (dropRequest s).sched = s.sched ∧
    (dropRequest s).engine = s.engine ∧ (dropRequest s).carrier = s.carrier ∧ (dropRequest s).driver = s.driver ∧
    (dropRequest s).answer = s.answer ∧ (dropRequest s).store = s.store ∧ (dropRequest s).owed = s.owed ∧
    (dropRequest s).freeUses = s.freeUses ∧ (dropRequest s).pending = s.pending :=
  ⟨rfl, rfl, rfl, rfl, rfl, rfl, rfl, rfl, rfl, rfl, rfl, rfl, rfl, rfl⟩

@[simp] theorem appendReply_link (q : Request) (b : List Byte) (a : AfterSent) (s : State) :
    (appendReply q b a s).link =
      { s.link with replies := s.link.replies ++ [⟨replyKind q.kind, q.ticket, b, true, a⟩] } := rfl

/-- A reply appended changes the link alone. -/
@[simp] theorem appendReply_frame (q : Request) (b : List Byte) (a : AfterSent) (s : State) :
    (appendReply q b a s).powered = s.powered ∧ (appendReply q b a s).params = s.params ∧
    (appendReply q b a s).tb = s.tb ∧ (appendReply q b a s).orders = s.orders ∧
    (appendReply q b a s).table = s.table ∧ (appendReply q b a s).sched = s.sched ∧
    (appendReply q b a s).engine = s.engine ∧ (appendReply q b a s).carrier = s.carrier ∧
    (appendReply q b a s).driver = s.driver ∧ (appendReply q b a s).answer = s.answer ∧
    (appendReply q b a s).store = s.store ∧ (appendReply q b a s).owed = s.owed ∧
    (appendReply q b a s).freeUses = s.freeUses ∧ (appendReply q b a s).pending = s.pending :=
  ⟨rfl, rfl, rfl, rfl, rfl, rfl, rfl, rfl, rfl, rfl, rfl, rfl, rfl, rfl⟩

/-- A notice taken changes the link alone. -/
@[simp] theorem takeNotice_frame (q : List Notice) (s : State) :
    (takeNotice q s).powered = s.powered ∧ (takeNotice q s).params = s.params ∧ (takeNotice q s).tb = s.tb ∧
    (takeNotice q s).orders = s.orders ∧ (takeNotice q s).table = s.table ∧ (takeNotice q s).sched = s.sched ∧
    (takeNotice q s).engine = s.engine ∧ (takeNotice q s).carrier = s.carrier ∧ (takeNotice q s).driver = s.driver ∧
    (takeNotice q s).answer = s.answer ∧ (takeNotice q s).store = s.store ∧ (takeNotice q s).owed = s.owed ∧
    (takeNotice q s).freeUses = s.freeUses ∧ (takeNotice q s).pending = s.pending :=
  ⟨rfl, rfl, rfl, rfl, rfl, rfl, rfl, rfl, rfl, rfl, rfl, rfl, rfl, rfl⟩

/-- A record begun changes the link alone. -/
@[simp] theorem beginRecord_frame (b : List Byte) (a : AfterSent) (s : State) :
    (beginRecord b a s).powered = s.powered ∧ (beginRecord b a s).params = s.params ∧ (beginRecord b a s).tb = s.tb ∧
    (beginRecord b a s).orders = s.orders ∧ (beginRecord b a s).table = s.table ∧
    (beginRecord b a s).sched = s.sched ∧ (beginRecord b a s).engine = s.engine ∧
    (beginRecord b a s).carrier = s.carrier ∧ (beginRecord b a s).driver = s.driver ∧
    (beginRecord b a s).answer = s.answer ∧ (beginRecord b a s).store = s.store ∧ (beginRecord b a s).owed = s.owed ∧
    (beginRecord b a s).freeUses = s.freeUses ∧ (beginRecord b a s).pending = s.pending :=
  ⟨rfl, rfl, rfl, rfl, rfl, rfl, rfl, rfl, rfl, rfl, rfl, rfl, rfl, rfl⟩

/-! ## Count advance -/

/-- The counts of an advance: Timebase, Line Driver, line hold, scrub pace and what is owed. -/
@[simp] theorem advanceCounts_frame (time : Nat) (s : State) :
    (advanceCounts time s).powered = s.powered ∧ (advanceCounts time s).params = s.params ∧
    (advanceCounts time s).orders = s.orders ∧ (advanceCounts time s).table = s.table ∧
    (advanceCounts time s).engine = s.engine ∧ (advanceCounts time s).carrier = s.carrier ∧
    (advanceCounts time s).answer = s.answer ∧ (advanceCounts time s).link = s.link ∧
    (advanceCounts time s).freeUses = s.freeUses ∧ (advanceCounts time s).pending = s.pending :=
  ⟨rfl, rfl, rfl, rfl, rfl, rfl, rfl, rfl, rfl, rfl⟩

/-! ## The queue of commands -/

@[simp] theorem withFront_pending (s : State) (i : Instr) : (s.withFront i).pending = i :: s.pending := rfl

/-- A command put in front changes the queue alone. -/
@[simp] theorem withFront_frame (s : State) (i : Instr) :
    (s.withFront i).powered = s.powered ∧ (s.withFront i).params = s.params ∧ (s.withFront i).tb = s.tb ∧
    (s.withFront i).orders = s.orders ∧ (s.withFront i).table = s.table ∧ (s.withFront i).sched = s.sched ∧
    (s.withFront i).engine = s.engine ∧ (s.withFront i).carrier = s.carrier ∧ (s.withFront i).driver = s.driver ∧
    (s.withFront i).answer = s.answer ∧ (s.withFront i).store = s.store ∧ (s.withFront i).link = s.link ∧
    (s.withFront i).owed = s.owed ∧ (s.withFront i).freeUses = s.freeUses :=
  ⟨rfl, rfl, rfl, rfl, rfl, rfl, rfl, rfl, rfl, rfl, rfl, rfl, rfl, rfl⟩

theorem step_nil {s : State} (h : s.pending = []) : step s = .next s := by simp [step, h]

theorem step_cons {s : State} {i : Instr} {rest : List Instr} (h : s.pending = i :: rest) :
    step s = exec i { s with pending := rest } := by simp [step, h]

end Sys2Proof.Machine
end

