-- ==== Sys2Proof/Laws/Ops.lean ====
section
/-! SUPPORT. The shared operations over the state: for each, what it can change, field by field, and what reading gives
afterwards. -/

namespace Sys2Proof.Machine

open Sys2Proof.Safety

/-- A property of the state that every step of a fold keeps is kept by the fold. -/
theorem foldl_keeps {α : Type} {P : State → Prop} {f : State → α → State} (h : ∀ s x, P s → P (f s x)) (l : List α)
    {s : State} (hs : P s) : P (l.foldl f s) := by
  induction l generalizing s with
  | nil => exact hs
  | cons x l ih => exact ih (h s x hs)

/-- The same over the elements of the list alone. -/
theorem foldl_keeps_mem {α : Type} {P : State → Prop} {f : State → α → State} (l : List α)
    (h : ∀ s, ∀ x ∈ l, P s → P (f s x)) {s : State} (hs : P s) : P (l.foldl f s) := by
  induction l generalizing s with
  | nil => exact hs
  | cons x l ih =>
    exact ih (fun s y hy => h s y (List.mem_cons_of_mem x hy)) (h s x (List.mem_cons_self ..) hs)

/-- A reading of the state that every step of a fold leaves alone is left alone by the fold. -/
theorem foldl_same {α β : Type} {g : State → β} {f : State → α → State} (h : ∀ s x, g (f s x) = g s) (l : List α)
    (s : State) : g (l.foldl f s) = g s :=
  foldl_keeps (P := fun t => g t = g s) (fun t x ht => (h t x).trans ht) l rfl

/-! ## Notices -/

/-- The order in which notices wait: every urgent one before every normal one (R174). -/
def UrgentFirst (q : List Notice) : Prop := q.Pairwise fun a b => b.urgent = true → a.urgent = true

theorem insertNotice_length (n : Notice) (q : List Notice) : (insertNotice n q).length = q.length + 1 := by
  unfold insertNotice
  split
  · simp only [List.length_append, List.length_cons]
    have h : (q.takeWhile (·.urgent)).length + (q.dropWhile (·.urgent)).length = q.length := by
      rw [← List.length_append, List.takeWhile_append_dropWhile]
    omega
  · simp

theorem mem_insertNotice {n x : Notice} {q : List Notice} : x ∈ insertNotice n q ↔ x = n ∨ x ∈ q := by
  unfold insertNotice
  split
  · conv_rhs => rw [← List.takeWhile_append_dropWhile (p := (·.urgent)) (l := q)]
    simp only [List.mem_append, List.mem_cons]
    tauto
  · simp only [List.mem_append, List.mem_cons, List.not_mem_nil, or_false]
    exact or_comm

/-- In a queue with its urgent notices first, none that follows the last of them is urgent. -/
theorem urgent_of_mem_dropWhile {q : List Notice} (h : UrgentFirst q) {x : Notice}
    (hx : x ∈ q.dropWhile (·.urgent)) : x.urgent = false := by
  induction q with
  | nil => simp at hx
  | cons y q ih =>
    rw [UrgentFirst, List.pairwise_cons] at h
    simp only [List.dropWhile_cons] at hx
    split at hx
    · exact ih h.2 hx
    · rename_i hy
      rcases List.mem_cons.1 hx with rfl | hx
      · simpa using hy
      · by_contra hne
        exact hy (h.1 x hx (by simpa using hne))

theorem urgentFirst_insertNotice {n : Notice} {q : List Notice} (h : UrgentFirst q) : UrgentFirst (insertNotice n q) := by
  unfold insertNotice
  split
  · rename_i hn
    have hq : UrgentFirst (q.takeWhile (·.urgent) ++ q.dropWhile (·.urgent)) := by
      rwa [List.takeWhile_append_dropWhile]
    rw [UrgentFirst, List.pairwise_append] at hq ⊢
    refine ⟨hq.1, List.pairwise_cons.2 ⟨fun _ _ _ => hn, hq.2.1⟩, ?_⟩
    intro a ha b hb hu
    rcases List.mem_cons.1 hb with rfl | hb
    · simpa using List.mem_takeWhile_imp ha
    · exact hq.2.2 a ha b hb hu
  · rename_i hn
    rw [UrgentFirst, List.pairwise_append]
    refine ⟨h, by simp, fun a _ b hb hu => ?_⟩
    simp only [List.mem_cons, List.not_mem_nil, or_false] at hb
    exact absurd (hb ▸ hu) hn

theorem dropNewestNormal_sublist (q : List Notice) : (dropNewestNormal q).Sublist q := by
  unfold dropNewestNormal
  have h := (List.eraseP_sublist (p := fun n : Notice => !n.urgent) (l := q.reverse)).reverse
  rwa [List.reverse_reverse] at h

theorem dropNewestNormal_length {q : List Notice} (h : q.any (!·.urgent) = true) :
    (dropNewestNormal q).length = q.length - 1 := by
  obtain ⟨n, hn, hu⟩ := List.any_eq_true.1 h
  simp only [dropNewestNormal, List.length_reverse]
  rw [List.length_eraseP_of_mem (List.mem_reverse.2 hn) (by simpa using hu), List.length_reverse]

/-- What placing a notice can do to the link: the queue and the LOST flag change, and nothing else. -/
@[simp] theorem placeNotice_frame (n : Notice) (l : HostLink) :
    (placeNotice n l).rate = l.rate ∧ (placeNotice n l).receive = l.receive ∧
      (placeNotice n l).assembly = l.assembly ∧ (placeNotice n l).buffer = l.buffer ∧
      (placeNotice n l).inHand = l.inHand ∧ (placeNotice n l).replies = l.replies ∧
      (placeNotice n l).counters = l.counters ∧ (placeNotice n l).sending = l.sending := by
  unfold placeNotice
  split
  · simp
  · split <;> simp

/-- A notice placed stands in the queue with notices that stood there before. -/
theorem mem_placeNotice {n x : Notice} {l : HostLink} (h : x ∈ (placeNotice n l).queue) : x = n ∨ x ∈ l.queue := by
  unfold placeNotice at h
  split at h
  · exact mem_insertNotice.1 h
  · split at h
    · exact (mem_insertNotice.1 h).imp id fun h => (dropNewestNormal_sublist _).subset h
    · exact .inr h

/-- The queue keeps its bound and its order (R174, R175). -/
theorem placeNotice_bounded {n : Notice} {l : HostLink} (hl : l.queue.length ≤ 16) (hu : UrgentFirst l.queue) :
    (placeNotice n l).queue.length ≤ 16 ∧ UrgentFirst (placeNotice n l).queue := by
  unfold placeNotice
  split
  · rename_i h
    have h16 : l.queue.length < 16 := h
    exact ⟨by simp only [insertNotice_length]; omega, urgentFirst_insertNotice hu⟩
  · rename_i h
    split
    · rename_i ht
      simp only [queueTakes, h, decide_false, Bool.false_or, Bool.and_eq_true] at ht
      refine ⟨?_, urgentFirst_insertNotice (hu.sublist (dropNewestNormal_sublist _))⟩
      have : 1 ≤ l.queue.length := by simp only [Config.queueLimit] at h; omega
      simp only [insertNotice_length, dropNewestNormal_length ht.2]
      omega
    · exact ⟨hl, hu⟩

/-- Queuing a notice changes the link alone. -/
@[simp] theorem queueNoticeThen_frame (k : NoticeKind) (f : Byte) (b : List Byte) (a : AfterSent) (s : State) :
    (queueNoticeThen k f b a s).powered = s.powered ∧ (queueNoticeThen k f b a s).params = s.params ∧
    (queueNoticeThen k f b a s).tb = s.tb ∧ (queueNoticeThen k f b a s).orders = s.orders ∧
    (queueNoticeThen k f b a s).table = s.table ∧ (queueNoticeThen k f b a s).sched = s.sched ∧
    (queueNoticeThen k f b a s).engine = s.engine ∧ (queueNoticeThen k f b a s).carrier = s.carrier ∧
    (queueNoticeThen k f b a s).driver = s.driver ∧ (queueNoticeThen k f b a s).answer = s.answer ∧
    (queueNoticeThen k f b a s).store = s.store ∧ (queueNoticeThen k f b a s).owed = s.owed ∧
    (queueNoticeThen k f b a s).freeUses = s.freeUses ∧ (queueNoticeThen k f b a s).pending = s.pending := by
  unfold queueNoticeThen
  split <;> simp

/-- In the link it changes the queue and the LOST flag alone. -/
@[simp] theorem queueNoticeThen_link (k : NoticeKind) (f : Byte) (b : List Byte) (a : AfterSent) (s : State) :
    (queueNoticeThen k f b a s).link.rate = s.link.rate ∧ (queueNoticeThen k f b a s).link.receive = s.link.receive ∧
      (queueNoticeThen k f b a s).link.assembly = s.link.assembly ∧
      (queueNoticeThen k f b a s).link.buffer = s.link.buffer ∧
      (queueNoticeThen k f b a s).link.inHand = s.link.inHand ∧
      (queueNoticeThen k f b a s).link.replies = s.link.replies ∧
      (queueNoticeThen k f b a s).link.counters = s.link.counters ∧
      (queueNoticeThen k f b a s).link.sending = s.link.sending := by
  unfold queueNoticeThen
  split <;> simp

/-- The state after a notice queued is the state with another link. -/
theorem queueNoticeThen_eq (k : NoticeKind) (f : Byte) (b : List Byte) (a : AfterSent) (s : State) :
    queueNoticeThen k f b a s = { s with link := (queueNoticeThen k f b a s).link } := by
  unfold queueNoticeThen
  split <;> rfl

/-- The laws of the link hold after a notice is queued (R174). -/
theorem queueNoticeThen_bounded (k : NoticeKind) (f : Byte) (b : List Byte) (a : AfterSent) {s : State}
    (h : LinkBounded s) : LinkBounded (queueNoticeThen k f b a s) := by
  obtain ⟨hq, hb, hp, hu⟩ := h
  unfold queueNoticeThen
  split
  · exact ⟨hq, hb, hp, hu⟩
  · exact ⟨(placeNotice_bounded hq hu).1, by simpa using hb, hp, (placeNotice_bounded hq hu).2⟩
  · exact ⟨(placeNotice_bounded hq hu).1, by simpa using hb, hp, (placeNotice_bounded hq hu).2⟩

/-- A notice queued: the link alone changes. -/
@[simp] theorem queueNotice_frame (k : NoticeKind) (f : Byte) (b : List Byte) (s : State) :
    (queueNotice k f b s).powered = s.powered ∧ (queueNotice k f b s).params = s.params ∧
    (queueNotice k f b s).tb = s.tb ∧ (queueNotice k f b s).orders = s.orders ∧
    (queueNotice k f b s).table = s.table ∧ (queueNotice k f b s).sched = s.sched ∧
    (queueNotice k f b s).engine = s.engine ∧ (queueNotice k f b s).carrier = s.carrier ∧
    (queueNotice k f b s).driver = s.driver ∧ (queueNotice k f b s).answer = s.answer ∧
    (queueNotice k f b s).store = s.store ∧ (queueNotice k f b s).owed = s.owed ∧
    (queueNotice k f b s).freeUses = s.freeUses ∧ (queueNotice k f b s).pending = s.pending := by
  simp [queueNotice]

@[simp] theorem queueNotice_link (k : NoticeKind) (f : Byte) (b : List Byte) (s : State) :
    (queueNotice k f b s).link.rate = s.link.rate ∧ (queueNotice k f b s).link.receive = s.link.receive ∧
    (queueNotice k f b s).link.assembly = s.link.assembly ∧ (queueNotice k f b s).link.buffer = s.link.buffer ∧
    (queueNotice k f b s).link.inHand = s.link.inHand ∧ (queueNotice k f b s).link.replies = s.link.replies ∧
    (queueNotice k f b s).link.counters = s.link.counters ∧ (queueNotice k f b s).link.sending = s.link.sending := by
  simp [queueNotice]

theorem queueNotice_eq (k : NoticeKind) (f : Byte) (b : List Byte) (s : State) :
    queueNotice k f b s = { s with link := (queueNotice k f b s).link } := queueNoticeThen_eq ..

/-- What a notice does to the link rests on the link and the parameters alone. -/
theorem queueNotice_link_congr (k : NoticeKind) (f : Byte) (b : List Byte) {s t : State} (hl : s.link = t.link)
    (hp : s.params = t.params) : (queueNotice k f b s).link = (queueNotice k f b t).link := by
  unfold queueNotice queueNoticeThen
  rw [hp]
  split <;> simp [hl]

theorem queueNotice_bounded (k : NoticeKind) (f : Byte) (b : List Byte) {s : State} (h : LinkBounded s) :
    LinkBounded (queueNotice k f b s) := queueNoticeThen_bounded _ _ _ _ h

/-- A notice queued: the link alone changes. -/
@[simp] theorem noteTimebase_frame (c : TimebaseCause) (b : Option Phase) (s : State) :
    (noteTimebase c b s).powered = s.powered ∧ (noteTimebase c b s).params = s.params ∧
    (noteTimebase c b s).tb = s.tb ∧ (noteTimebase c b s).orders = s.orders ∧ (noteTimebase c b s).table = s.table ∧
    (noteTimebase c b s).sched = s.sched ∧ (noteTimebase c b s).engine = s.engine ∧
    (noteTimebase c b s).carrier = s.carrier ∧ (noteTimebase c b s).driver = s.driver ∧
    (noteTimebase c b s).answer = s.answer ∧ (noteTimebase c b s).store = s.store ∧
    (noteTimebase c b s).owed = s.owed ∧ (noteTimebase c b s).freeUses = s.freeUses ∧
    (noteTimebase c b s).pending = s.pending := by
  simp [noteTimebase]

@[simp] theorem noteTimebase_link (c : TimebaseCause) (b : Option Phase) (s : State) :
    (noteTimebase c b s).link.rate = s.link.rate ∧ (noteTimebase c b s).link.receive = s.link.receive ∧
    (noteTimebase c b s).link.assembly = s.link.assembly ∧ (noteTimebase c b s).link.buffer = s.link.buffer ∧
    (noteTimebase c b s).link.inHand = s.link.inHand ∧ (noteTimebase c b s).link.replies = s.link.replies ∧
    (noteTimebase c b s).link.counters = s.link.counters ∧ (noteTimebase c b s).link.sending = s.link.sending := by
  simp [noteTimebase]

/-- A notice queued: the link alone changes. -/
@[simp] theorem noteClosed_frame (n : Nat) (o : Order) (s : State) :
    (noteClosed n o s).powered = s.powered ∧ (noteClosed n o s).params = s.params ∧ (noteClosed n o s).tb = s.tb ∧
    (noteClosed n o s).orders = s.orders ∧ (noteClosed n o s).table = s.table ∧ (noteClosed n o s).sched = s.sched ∧
    (noteClosed n o s).engine = s.engine ∧ (noteClosed n o s).carrier = s.carrier ∧
    (noteClosed n o s).driver = s.driver ∧ (noteClosed n o s).answer = s.answer ∧
    (noteClosed n o s).store = s.store ∧ (noteClosed n o s).owed = s.owed ∧
    (noteClosed n o s).freeUses = s.freeUses ∧ (noteClosed n o s).pending = s.pending := by
  simp [noteClosed]

@[simp] theorem noteClosed_link (n : Nat) (o : Order) (s : State) :
    (noteClosed n o s).link.rate = s.link.rate ∧ (noteClosed n o s).link.receive = s.link.receive ∧
    (noteClosed n o s).link.assembly = s.link.assembly ∧ (noteClosed n o s).link.buffer = s.link.buffer ∧
    (noteClosed n o s).link.inHand = s.link.inHand ∧ (noteClosed n o s).link.replies = s.link.replies ∧
    (noteClosed n o s).link.counters = s.link.counters ∧ (noteClosed n o s).link.sending = s.link.sending := by
  simp [noteClosed]

/-- A notice queued: the link alone changes. -/
@[simp] theorem noteProbe_frame (e : ProbeEnd) (s : State) :
    (noteProbe e s).powered = s.powered ∧ (noteProbe e s).params = s.params ∧ (noteProbe e s).tb = s.tb ∧
    (noteProbe e s).orders = s.orders ∧ (noteProbe e s).table = s.table ∧ (noteProbe e s).sched = s.sched ∧
    (noteProbe e s).engine = s.engine ∧ (noteProbe e s).carrier = s.carrier ∧ (noteProbe e s).driver = s.driver ∧
    (noteProbe e s).answer = s.answer ∧ (noteProbe e s).store = s.store ∧ (noteProbe e s).owed = s.owed ∧
    (noteProbe e s).freeUses = s.freeUses ∧ (noteProbe e s).pending = s.pending := by
  simp [noteProbe]

@[simp] theorem noteProbe_link (e : ProbeEnd) (s : State) :
    (noteProbe e s).link.rate = s.link.rate ∧ (noteProbe e s).link.receive = s.link.receive ∧
    (noteProbe e s).link.assembly = s.link.assembly ∧ (noteProbe e s).link.buffer = s.link.buffer ∧
    (noteProbe e s).link.inHand = s.link.inHand ∧ (noteProbe e s).link.replies = s.link.replies ∧
    (noteProbe e s).link.counters = s.link.counters ∧ (noteProbe e s).link.sending = s.link.sending := by
  simp [noteProbe]

/-- A PROBE_DONE for a withdrawn probe: the link changes, and two free values are used. -/
@[simp] theorem noteWithdrawn_frame (s : State) (p : Probe) :
    (noteWithdrawn s p).powered = s.powered ∧ (noteWithdrawn s p).params = s.params ∧ (noteWithdrawn s p).tb = s.tb ∧
    (noteWithdrawn s p).orders = s.orders ∧ (noteWithdrawn s p).table = s.table ∧
    (noteWithdrawn s p).sched = s.sched ∧ (noteWithdrawn s p).engine = s.engine ∧
    (noteWithdrawn s p).carrier = s.carrier ∧ (noteWithdrawn s p).driver = s.driver ∧
    (noteWithdrawn s p).answer = s.answer ∧ (noteWithdrawn s p).store = s.store ∧ (noteWithdrawn s p).owed = s.owed ∧
    (noteWithdrawn s p).pending = s.pending := by
  simp [noteWithdrawn]

@[simp] theorem noteWithdrawn_link (s : State) (p : Probe) :
    (noteWithdrawn s p).link.rate = s.link.rate ∧ (noteWithdrawn s p).link.receive = s.link.receive ∧
    (noteWithdrawn s p).link.assembly = s.link.assembly ∧ (noteWithdrawn s p).link.buffer = s.link.buffer ∧
    (noteWithdrawn s p).link.inHand = s.link.inHand ∧ (noteWithdrawn s p).link.replies = s.link.replies ∧
    (noteWithdrawn s p).link.counters = s.link.counters ∧ (noteWithdrawn s p).link.sending = s.link.sending := by
  simp [noteWithdrawn]

/-- A notice queued: the link alone changes. -/
@[simp] theorem noteStore_frame (p : Position) (f : Found) (r : DamageResult) (w : Nat) (s : State) :
    (noteStore p f r w s).powered = s.powered ∧ (noteStore p f r w s).params = s.params ∧
    (noteStore p f r w s).tb = s.tb ∧ (noteStore p f r w s).orders = s.orders ∧
    (noteStore p f r w s).table = s.table ∧ (noteStore p f r w s).sched = s.sched ∧
    (noteStore p f r w s).engine = s.engine ∧ (noteStore p f r w s).carrier = s.carrier ∧
    (noteStore p f r w s).driver = s.driver ∧ (noteStore p f r w s).answer = s.answer ∧
    (noteStore p f r w s).store = s.store ∧ (noteStore p f r w s).owed = s.owed ∧
    (noteStore p f r w s).freeUses = s.freeUses ∧ (noteStore p f r w s).pending = s.pending := by
  simp [noteStore]

@[simp] theorem noteStore_link (p : Position) (f : Found) (r : DamageResult) (w : Nat) (s : State) :
    (noteStore p f r w s).link.rate = s.link.rate ∧ (noteStore p f r w s).link.receive = s.link.receive ∧
    (noteStore p f r w s).link.assembly = s.link.assembly ∧ (noteStore p f r w s).link.buffer = s.link.buffer ∧
    (noteStore p f r w s).link.inHand = s.link.inHand ∧ (noteStore p f r w s).link.replies = s.link.replies ∧
    (noteStore p f r w s).link.counters = s.link.counters ∧ (noteStore p f r w s).link.sending = s.link.sending := by
  simp [noteStore]

/-- A notice queued: the link alone changes. -/
@[simp] theorem noteLink_frame (s : State) :
    (noteLink s).powered = s.powered ∧ (noteLink s).params = s.params ∧ (noteLink s).tb = s.tb ∧
    (noteLink s).orders = s.orders ∧ (noteLink s).table = s.table ∧ (noteLink s).sched = s.sched ∧
    (noteLink s).engine = s.engine ∧ (noteLink s).carrier = s.carrier ∧ (noteLink s).driver = s.driver ∧
    (noteLink s).answer = s.answer ∧ (noteLink s).store = s.store ∧ (noteLink s).owed = s.owed ∧
    (noteLink s).freeUses = s.freeUses ∧ (noteLink s).pending = s.pending := by
  unfold noteLink
  split <;> simp

@[simp] theorem noteLink_link (s : State) :
    (noteLink s).link.rate = s.link.rate ∧ (noteLink s).link.receive = s.link.receive ∧
    (noteLink s).link.assembly = s.link.assembly ∧ (noteLink s).link.buffer = s.link.buffer ∧
    (noteLink s).link.inHand = s.link.inHand ∧ (noteLink s).link.replies = s.link.replies ∧
    (noteLink s).link.counters = s.link.counters ∧ (noteLink s).link.sending = s.link.sending := by
  unfold noteLink
  split <;> simp

/-- A DELIVERY notice: the link changes, and free values may be used. -/
@[simp] theorem noteDelivery_frame (st e : Count) (d : DeliveryRecord) (o : Outcome) (disp : Disposition) (r : Option EntryResult)
    (a : Option Receiver) (s : State) :
    (noteDelivery st e d o disp r a s).powered = s.powered ∧ (noteDelivery st e d o disp r a s).params = s.params ∧
    (noteDelivery st e d o disp r a s).tb = s.tb ∧ (noteDelivery st e d o disp r a s).orders = s.orders ∧
    (noteDelivery st e d o disp r a s).table = s.table ∧ (noteDelivery st e d o disp r a s).sched = s.sched ∧
    (noteDelivery st e d o disp r a s).engine = s.engine ∧ (noteDelivery st e d o disp r a s).carrier = s.carrier ∧
    (noteDelivery st e d o disp r a s).driver = s.driver ∧ (noteDelivery st e d o disp r a s).answer = s.answer ∧
    (noteDelivery st e d o disp r a s).store = s.store ∧ (noteDelivery st e d o disp r a s).owed = s.owed ∧
    (noteDelivery st e d o disp r a s).pending = s.pending := by
  simp [noteDelivery]

@[simp] theorem noteDelivery_link (st e : Count) (d : DeliveryRecord) (o : Outcome) (disp : Disposition) (r : Option EntryResult)
    (a : Option Receiver) (s : State) :
    (noteDelivery st e d o disp r a s).link.rate = s.link.rate ∧
    (noteDelivery st e d o disp r a s).link.receive = s.link.receive ∧
    (noteDelivery st e d o disp r a s).link.assembly = s.link.assembly ∧
    (noteDelivery st e d o disp r a s).link.buffer = s.link.buffer ∧
    (noteDelivery st e d o disp r a s).link.inHand = s.link.inHand ∧
    (noteDelivery st e d o disp r a s).link.replies = s.link.replies ∧
    (noteDelivery st e d o disp r a s).link.counters = s.link.counters ∧
    (noteDelivery st e d o disp r a s).link.sending = s.link.sending := by
  simp [noteDelivery]

/-! ## Writes asked of the store -/

/-- A write asked changes the store alone. -/
@[simp] theorem askWrite_frame (c : WriteContent) (v : Bool) (s : State) :
    (askWrite c v s).powered = s.powered ∧ (askWrite c v s).params = s.params ∧ (askWrite c v s).tb = s.tb ∧
    (askWrite c v s).orders = s.orders ∧ (askWrite c v s).table = s.table ∧ (askWrite c v s).sched = s.sched ∧
    (askWrite c v s).engine = s.engine ∧ (askWrite c v s).carrier = s.carrier ∧ (askWrite c v s).driver = s.driver ∧
    (askWrite c v s).answer = s.answer ∧ (askWrite c v s).link = s.link ∧ (askWrite c v s).owed = s.owed ∧
    (askWrite c v s).freeUses = s.freeUses ∧ (askWrite c v s).pending = s.pending := by
  unfold askWrite
  split <;> simp

/-- In the store it changes the write list alone. -/
@[simp] theorem askWrite_store (c : WriteContent) (v : Bool) (s : State) :
    (askWrite c v s).store.config = s.store.config ∧ (askWrite c v s).store.savedCount = s.store.savedCount ∧
    (askWrite c v s).store.orders = s.store.orders ∧ (askWrite c v s).store.receivers = s.store.receivers ∧
    (askWrite c v s).store.corrections = s.store.corrections ∧ (askWrite c v s).store.scrubNext = s.store.scrubNext ∧
    (askWrite c v s).store.scrubPace = s.store.scrubPace ∧ (askWrite c v s).store.scrubDue = s.store.scrubDue ∧
    (askWrite c v s).store.wiping = s.store.wiping ∧ (askWrite c v s).store.restoring = s.store.restoring := by
  unfold askWrite
  split <;> simp

/-- The write joins the end of the list, except during a WIPE (R155, R164). -/
theorem askWrite_writes (c : WriteContent) (v : Bool) (s : State) : (askWrite c v s).store.writes =
    if s.store.wiping.isSome then s.store.writes else s.store.writes ++ [⟨c, v⟩] := by
  unfold askWrite
  split <;> rfl

theorem askWrite_of_not_wiping {s : State} (h : s.store.wiping = none) (c : WriteContent) (v : Bool) :
    askWrite c v s = { s with store := { s.store with writes := s.store.writes ++ [⟨c, v⟩] } } := by
  simp [askWrite, h]

theorem mem_askWrite {c : WriteContent} {v : Bool} {s : State} {w : PendingWrite}
    (h : w ∈ (askWrite c v s).store.writes) : w = ⟨c, v⟩ ∨ w ∈ s.store.writes := by
  rw [askWrite_writes] at h
  split at h
  · exact .inr h
  · simpa [or_comm] using h

/-- The configuration's write asked. -/
@[simp] theorem askConfig_frame (s : State) :
    (askConfig s).powered = s.powered ∧ (askConfig s).params = s.params ∧ (askConfig s).tb = s.tb ∧
    (askConfig s).orders = s.orders ∧ (askConfig s).table = s.table ∧ (askConfig s).sched = s.sched ∧
    (askConfig s).engine = s.engine ∧ (askConfig s).carrier = s.carrier ∧ (askConfig s).driver = s.driver ∧
    (askConfig s).answer = s.answer ∧ (askConfig s).link = s.link ∧ (askConfig s).owed = s.owed ∧
    (askConfig s).freeUses = s.freeUses ∧ (askConfig s).pending = s.pending := by
  simp [askConfig]

/-- The saved count's write asked. -/
@[simp] theorem askSavedCount_frame (s : State) :
    (askSavedCount s).powered = s.powered ∧ (askSavedCount s).params = s.params ∧ (askSavedCount s).tb = s.tb ∧
    (askSavedCount s).orders = s.orders ∧ (askSavedCount s).table = s.table ∧ (askSavedCount s).sched = s.sched ∧
    (askSavedCount s).engine = s.engine ∧ (askSavedCount s).carrier = s.carrier ∧
    (askSavedCount s).driver = s.driver ∧ (askSavedCount s).answer = s.answer ∧ (askSavedCount s).link = s.link ∧
    (askSavedCount s).owed = s.owed ∧ (askSavedCount s).freeUses = s.freeUses ∧
    (askSavedCount s).pending = s.pending := by
  simp [askSavedCount]

@[simp] theorem askConfig_store (s : State) :
    (askConfig s).store.config = s.store.config ∧ (askConfig s).store.savedCount = s.store.savedCount ∧
    (askConfig s).store.orders = s.store.orders ∧ (askConfig s).store.receivers = s.store.receivers ∧
    (askConfig s).store.corrections = s.store.corrections ∧ (askConfig s).store.scrubNext = s.store.scrubNext ∧
    (askConfig s).store.scrubPace = s.store.scrubPace ∧ (askConfig s).store.scrubDue = s.store.scrubDue ∧
    (askConfig s).store.wiping = s.store.wiping ∧ (askConfig s).store.restoring = s.store.restoring := by
  simp [askConfig]

@[simp] theorem askSavedCount_store (s : State) :
    (askSavedCount s).store.config = s.store.config ∧ (askSavedCount s).store.savedCount = s.store.savedCount ∧
    (askSavedCount s).store.orders = s.store.orders ∧ (askSavedCount s).store.receivers = s.store.receivers ∧
    (askSavedCount s).store.corrections = s.store.corrections ∧
    (askSavedCount s).store.scrubNext = s.store.scrubNext ∧ (askSavedCount s).store.scrubPace = s.store.scrubPace ∧
    (askSavedCount s).store.scrubDue = s.store.scrubDue ∧ (askSavedCount s).store.wiping = s.store.wiping ∧
    (askSavedCount s).store.restoring = s.store.restoring := by
  simp [askSavedCount]

/-! ## Orders -/

/-- An order put at its position changes the Order Store and the write list. -/
@[simp] theorem putOrder_frame (n : Nat) (o : Order) (s : State) :
    (putOrder n o s).powered = s.powered ∧ (putOrder n o s).params = s.params ∧ (putOrder n o s).tb = s.tb ∧
    (putOrder n o s).table = s.table ∧ (putOrder n o s).sched = s.sched ∧ (putOrder n o s).engine = s.engine ∧
    (putOrder n o s).carrier = s.carrier ∧ (putOrder n o s).driver = s.driver ∧ (putOrder n o s).answer = s.answer ∧
    (putOrder n o s).link = s.link ∧ (putOrder n o s).owed = s.owed ∧ (putOrder n o s).freeUses = s.freeUses ∧
    (putOrder n o s).pending = s.pending := by
  simp [putOrder]

@[simp] theorem putOrder_store (n : Nat) (o : Order) (s : State) :
    (putOrder n o s).store.config = s.store.config ∧ (putOrder n o s).store.savedCount = s.store.savedCount ∧
    (putOrder n o s).store.orders = s.store.orders ∧ (putOrder n o s).store.receivers = s.store.receivers ∧
    (putOrder n o s).store.corrections = s.store.corrections ∧ (putOrder n o s).store.scrubNext = s.store.scrubNext ∧
    (putOrder n o s).store.scrubPace = s.store.scrubPace ∧ (putOrder n o s).store.scrubDue = s.store.scrubDue ∧
    (putOrder n o s).store.wiping = s.store.wiping ∧ (putOrder n o s).store.restoring = s.store.restoring := by
  simp [putOrder]

/-- An order dropped changes the Order Store and the write list. -/
@[simp] theorem dropOrder_frame (n : Nat) (s : State) :
    (dropOrder n s).powered = s.powered ∧ (dropOrder n s).params = s.params ∧ (dropOrder n s).tb = s.tb ∧
    (dropOrder n s).table = s.table ∧ (dropOrder n s).sched = s.sched ∧ (dropOrder n s).engine = s.engine ∧
    (dropOrder n s).carrier = s.carrier ∧ (dropOrder n s).driver = s.driver ∧ (dropOrder n s).answer = s.answer ∧
    (dropOrder n s).link = s.link ∧ (dropOrder n s).owed = s.owed ∧ (dropOrder n s).freeUses = s.freeUses ∧
    (dropOrder n s).pending = s.pending := by
  simp [dropOrder]

@[simp] theorem dropOrder_store (n : Nat) (s : State) :
    (dropOrder n s).store.config = s.store.config ∧ (dropOrder n s).store.savedCount = s.store.savedCount ∧
    (dropOrder n s).store.orders = s.store.orders ∧ (dropOrder n s).store.receivers = s.store.receivers ∧
    (dropOrder n s).store.corrections = s.store.corrections ∧ (dropOrder n s).store.scrubNext = s.store.scrubNext ∧
    (dropOrder n s).store.scrubPace = s.store.scrubPace ∧ (dropOrder n s).store.scrubDue = s.store.scrubDue ∧
    (dropOrder n s).store.wiping = s.store.wiping ∧ (dropOrder n s).store.restoring = s.store.restoring := by
  simp [dropOrder]

@[simp] theorem putOrder_orders (n : Nat) (o : Order) (s : State) :
    (putOrder n o s).orders = { s.orders with orders := insertAt s.orders.orders n o } := by simp [putOrder]

@[simp] theorem dropOrder_orders (n : Nat) (s : State) :
    (dropOrder n s).orders = { s.orders with orders := eraseAt s.orders.orders n } := by simp [dropOrder]

@[simp] theorem putOrder_order_self (n : Nat) (o : Order) (s : State) : (putOrder n o s).order n = some o := by
  simp [State.order, lookup_insertAt_self]

theorem putOrder_order_ne {n m : Nat} (o : Order) (s : State) (h : m ≠ n) : (putOrder n o s).order m = s.order m := by
  simp [State.order, lookup_insertAt_ne _ _ h]

theorem dropOrder_order_ne {n m : Nat} (s : State) (h : m ≠ n) : (dropOrder n s).order m = s.order m := by
  simp [State.order, lookup_eraseAt_ne _ h]

theorem dropOrder_order_self {n : Nat} {s : State} (h : rising s.orders.orders = true) :
    (dropOrder n s).order n = none := by
  simp [State.order, lookup_eraseAt_self n h]

/-- What stands in the Order Store after an order is put there. -/
theorem mem_putOrder {n : Nat} {o : Order} {s : State} {x : Nat × Order} (h : x ∈ (putOrder n o s).orders.orders) :
    x = (n, o) ∨ x ∈ s.orders.orders := by
  rw [putOrder_orders] at h
  exact mem_insertAt h

/-- An order changed reaches the Order Store and the write list. -/
@[simp] theorem changeOrder_frame (n : Nat) (g : Order → Order) (s : State) :
    (changeOrder n g s).powered = s.powered ∧ (changeOrder n g s).params = s.params ∧ (changeOrder n g s).tb = s.tb ∧
    (changeOrder n g s).table = s.table ∧ (changeOrder n g s).sched = s.sched ∧
    (changeOrder n g s).engine = s.engine ∧ (changeOrder n g s).carrier = s.carrier ∧
    (changeOrder n g s).driver = s.driver ∧ (changeOrder n g s).answer = s.answer ∧
    (changeOrder n g s).link = s.link ∧ (changeOrder n g s).owed = s.owed ∧
    (changeOrder n g s).freeUses = s.freeUses ∧ (changeOrder n g s).pending = s.pending := by
  unfold changeOrder
  split <;> simp

/-- An account changed reaches the Order Store and the write list. -/
@[simp] theorem countFor_frame (k : Nat) (g : Counters → Counters) (s : State) :
    (countFor k g s).powered = s.powered ∧ (countFor k g s).params = s.params ∧ (countFor k g s).tb = s.tb ∧
    (countFor k g s).table = s.table ∧ (countFor k g s).sched = s.sched ∧ (countFor k g s).engine = s.engine ∧
    (countFor k g s).carrier = s.carrier ∧ (countFor k g s).driver = s.driver ∧ (countFor k g s).answer = s.answer ∧
    (countFor k g s).link = s.link ∧ (countFor k g s).owed = s.owed ∧ (countFor k g s).freeUses = s.freeUses ∧
    (countFor k g s).pending = s.pending := by
  unfold countFor
  split <;> simp

/-- Transmission started reaches the Order Store and the write list. -/
@[simp] theorem startTransmission_frame (n : Nat) (s : State) :
    (startTransmission n s).powered = s.powered ∧ (startTransmission n s).params = s.params ∧
    (startTransmission n s).tb = s.tb ∧ (startTransmission n s).table = s.table ∧
    (startTransmission n s).sched = s.sched ∧ (startTransmission n s).engine = s.engine ∧
    (startTransmission n s).carrier = s.carrier ∧ (startTransmission n s).driver = s.driver ∧
    (startTransmission n s).answer = s.answer ∧ (startTransmission n s).link = s.link ∧
    (startTransmission n s).owed = s.owed ∧ (startTransmission n s).freeUses = s.freeUses ∧
    (startTransmission n s).pending = s.pending := by
  simp [startTransmission]

/-! ## Receivers -/

/-- A record put at its index changes the table and the write list. -/
@[simp] theorem putReceiver_frame (i : Nat) (r : Receiver) (s : State) :
    (putReceiver i r s).powered = s.powered ∧ (putReceiver i r s).params = s.params ∧ (putReceiver i r s).tb = s.tb ∧
    (putReceiver i r s).orders = s.orders ∧ (putReceiver i r s).sched = s.sched ∧
    (putReceiver i r s).engine = s.engine ∧ (putReceiver i r s).carrier = s.carrier ∧
    (putReceiver i r s).driver = s.driver ∧ (putReceiver i r s).answer = s.answer ∧
    (putReceiver i r s).link = s.link ∧ (putReceiver i r s).owed = s.owed ∧
    (putReceiver i r s).freeUses = s.freeUses ∧ (putReceiver i r s).pending = s.pending := by
  simp [putReceiver]

@[simp] theorem putReceiver_store (i : Nat) (r : Receiver) (s : State) :
    (putReceiver i r s).store.config = s.store.config ∧ (putReceiver i r s).store.savedCount = s.store.savedCount ∧
    (putReceiver i r s).store.orders = s.store.orders ∧ (putReceiver i r s).store.receivers = s.store.receivers ∧
    (putReceiver i r s).store.corrections = s.store.corrections ∧
    (putReceiver i r s).store.scrubNext = s.store.scrubNext ∧
    (putReceiver i r s).store.scrubPace = s.store.scrubPace ∧ (putReceiver i r s).store.scrubDue = s.store.scrubDue ∧
    (putReceiver i r s).store.wiping = s.store.wiping ∧ (putReceiver i r s).store.restoring = s.store.restoring := by
  simp [putReceiver]

/-- A record dropped changes the table and the write list. -/
@[simp] theorem dropReceiver_frame (i : Nat) (s : State) :
    (dropReceiver i s).powered = s.powered ∧ (dropReceiver i s).params = s.params ∧ (dropReceiver i s).tb = s.tb ∧
    (dropReceiver i s).orders = s.orders ∧ (dropReceiver i s).sched = s.sched ∧
    (dropReceiver i s).engine = s.engine ∧ (dropReceiver i s).carrier = s.carrier ∧
    (dropReceiver i s).driver = s.driver ∧ (dropReceiver i s).answer = s.answer ∧ (dropReceiver i s).link = s.link ∧
    (dropReceiver i s).owed = s.owed ∧ (dropReceiver i s).freeUses = s.freeUses ∧
    (dropReceiver i s).pending = s.pending := by
  simp [dropReceiver]

/-- Records changed reach the table and the write list. -/
@[simp] theorem changeReceivers_frame (sel : Nat → Receiver → Bool) (g : Nat → Receiver → Receiver) (s : State) :
    (changeReceivers sel g s).powered = s.powered ∧ (changeReceivers sel g s).params = s.params ∧
    (changeReceivers sel g s).tb = s.tb ∧ (changeReceivers sel g s).orders = s.orders ∧
    (changeReceivers sel g s).sched = s.sched ∧ (changeReceivers sel g s).engine = s.engine ∧
    (changeReceivers sel g s).carrier = s.carrier ∧ (changeReceivers sel g s).driver = s.driver ∧
    (changeReceivers sel g s).answer = s.answer ∧ (changeReceivers sel g s).link = s.link ∧
    (changeReceivers sel g s).owed = s.owed ∧ (changeReceivers sel g s).freeUses = s.freeUses ∧
    (changeReceivers sel g s).pending = s.pending := by
  unfold changeReceivers
  dsimp only
  split <;> simp

@[simp] theorem changeReceivers_store (sel : Nat → Receiver → Bool) (g : Nat → Receiver → Receiver) (s : State) :
    (changeReceivers sel g s).store.config = s.store.config ∧
    (changeReceivers sel g s).store.savedCount = s.store.savedCount ∧
    (changeReceivers sel g s).store.orders = s.store.orders ∧
    (changeReceivers sel g s).store.receivers = s.store.receivers ∧
    (changeReceivers sel g s).store.corrections = s.store.corrections ∧
    (changeReceivers sel g s).store.scrubNext = s.store.scrubNext ∧
    (changeReceivers sel g s).store.scrubPace = s.store.scrubPace ∧
    (changeReceivers sel g s).store.scrubDue = s.store.scrubDue ∧
    (changeReceivers sel g s).store.wiping = s.store.wiping ∧
    (changeReceivers sel g s).store.restoring = s.store.restoring := by
  unfold changeReceivers
  dsimp only
  split <;> simp

@[simp] theorem putReceiver_table (i : Nat) (r : Receiver) (s : State) :
    (putReceiver i r s).table = insertAt s.table i r := by simp [putReceiver]

@[simp] theorem dropReceiver_table (i : Nat) (s : State) : (dropReceiver i s).table = eraseAt s.table i := by
  simp [dropReceiver]

@[simp] theorem putReceiver_receiver_self (i : Nat) (r : Receiver) (s : State) :
    (putReceiver i r s).receiver i = some r := by
  simp [State.receiver, lookup_insertAt_self]

theorem putReceiver_receiver_ne {i j : Nat} (r : Receiver) (s : State) (h : j ≠ i) :
    (putReceiver i r s).receiver j = s.receiver j := by
  simp [State.receiver, lookup_insertAt_ne _ _ h]

theorem dropReceiver_receiver_ne {i j : Nat} (s : State) (h : j ≠ i) : (dropReceiver i s).receiver j = s.receiver j := by
  simp [State.receiver, lookup_eraseAt_ne _ h]

theorem dropReceiver_receiver_self {i : Nat} {s : State} (h : rising s.table = true) :
    (dropReceiver i s).receiver i = none := by
  simp [State.receiver, lookup_eraseAt_self i h]

@[simp] theorem changeReceivers_table (sel : Nat → Receiver → Bool) (g : Nat → Receiver → Receiver) (s : State) :
    (changeReceivers sel g s).table = mapAll (fun i r => if sel i r then g i r else r) s.table := by
  unfold changeReceivers
  dsimp only
  split <;> rfl

/-- The value at a position of a list whose values were all put through a function. -/
theorem lookup_mapAll {α β : Type} (f : Nat → α → β) (l : List (Nat × α)) (n : Nat) :
    lookup (mapAll f l) n = (lookup l n).map (f n) := by
  induction l with
  | nil => rfl
  | cons x l ih =>
    simp only [mapAll, List.map_cons, lookup] at ih ⊢
    split
    · rename_i h
      simp [h]
    · exact ih

/-- Every record after a change: the chosen ones changed, the others as they were. -/
theorem changeReceivers_receiver (sel : Nat → Receiver → Bool) (g : Nat → Receiver → Receiver) (s : State) (i : Nat) :
    (changeReceivers sel g s).receiver i = (s.receiver i).map fun r => if sel i r then g i r else r := by
  simp [State.receiver, lookup_mapAll]

/-- The writes a change of records asks: one for each record chosen, in ascending index order. -/
theorem changeReceivers_writes (sel : Nat → Receiver → Bool) (g : Nat → Receiver → Receiver) (s : State) :
    (changeReceivers sel g s).store.writes = if s.store.wiping.isSome then s.store.writes else
      s.store.writes ++ (s.table.filter fun ir => sel ir.1 ir.2).map fun ir =>
        ⟨.receiver ir.1 (some (g ir.1 ir.2)), true⟩ := by
  unfold changeReceivers
  dsimp only
  split <;> rfl

/-- A slot's entries removed: the table and the write list. -/
@[simp] theorem dropSlotEntries_frame (k : Nat) (s : State) :
    (dropSlotEntries k s).powered = s.powered ∧ (dropSlotEntries k s).params = s.params ∧
    (dropSlotEntries k s).tb = s.tb ∧ (dropSlotEntries k s).orders = s.orders ∧
    (dropSlotEntries k s).sched = s.sched ∧ (dropSlotEntries k s).engine = s.engine ∧
    (dropSlotEntries k s).carrier = s.carrier ∧ (dropSlotEntries k s).driver = s.driver ∧
    (dropSlotEntries k s).answer = s.answer ∧ (dropSlotEntries k s).link = s.link ∧
    (dropSlotEntries k s).owed = s.owed ∧ (dropSlotEntries k s).freeUses = s.freeUses ∧
    (dropSlotEntries k s).pending = s.pending := by
  simp [dropSlotEntries]

/-- The entries of a slot once they are removed: the others stay in their order. -/
theorem dropSlotEntries_receiver (k : Nat) (s : State) (i : Nat) :
    (dropSlotEntries k s).receiver i = (s.receiver i).map fun r => r.dropEntry k := by
  rw [dropSlotEntries, changeReceivers_receiver]
  congr 1
  funext r
  split
  · rfl
  · rename_i h
    simp only [Receiver.lists, Bool.not_eq_true, List.any_eq_false, beq_iff_eq] at h
    have : r.entries.filter (·.slot != k) = r.entries := List.filter_eq_self.2 fun e he => by simpa using h e he
    simp [Receiver.dropEntry, this]

/-- No entry names a slot whose entries are removed. -/
theorem dropSlotEntries_entriesNaming (k : Nat) (s : State) : (dropSlotEntries k s).entriesNaming k = 0 := by
  simp only [State.entriesNaming, dropSlotEntries, changeReceivers_table, mapAll, List.map_map, List.sum_eq_zero_iff,
    List.mem_map, Function.comp_apply, forall_exists_index, and_imp]
  rintro _ ⟨i, r⟩ _ rfl
  dsimp only
  rw [List.countP_eq_zero]
  intro e he
  split at he
  · have := (List.mem_filter.1 he).2
    simpa using this
  · rename_i h
    simp only [Receiver.lists, Bool.not_eq_true, List.any_eq_false] at h
    simpa using h e he

end Sys2Proof.Machine
end

