-- ==== Sys2Proof/Laws/Orders.lean ====
section
/-! SUPPORT. What the transitions of orders can change: closing, activation, withdrawal, conversion, the rolls and the
accounts. -/

namespace Sys2Proof.Machine

/-- NOT_SENT reaches the Order Store, the write list and the notice queue. -/
@[simp] theorem closeNotSent_frame (n : Nat) (o : Order) (s : State) :
    (closeNotSent n o s).powered = s.powered ∧ (closeNotSent n o s).params = s.params ∧
    (closeNotSent n o s).tb = s.tb ∧ (closeNotSent n o s).table = s.table ∧ (closeNotSent n o s).sched = s.sched ∧
    (closeNotSent n o s).engine = s.engine ∧ (closeNotSent n o s).carrier = s.carrier ∧
    (closeNotSent n o s).driver = s.driver ∧ (closeNotSent n o s).answer = s.answer ∧
    (closeNotSent n o s).owed = s.owed ∧ (closeNotSent n o s).freeUses = s.freeUses ∧
    (closeNotSent n o s).pending = s.pending := by
  simp [closeNotSent]

@[simp] theorem closeNotSent_link (n : Nat) (o : Order) (s : State) :
    (closeNotSent n o s).link.rate = s.link.rate ∧ (closeNotSent n o s).link.receive = s.link.receive ∧
    (closeNotSent n o s).link.assembly = s.link.assembly ∧ (closeNotSent n o s).link.buffer = s.link.buffer ∧
    (closeNotSent n o s).link.inHand = s.link.inHand ∧ (closeNotSent n o s).link.replies = s.link.replies ∧
    (closeNotSent n o s).link.counters = s.link.counters ∧ (closeNotSent n o s).link.sending = s.link.sending := by
  simp [closeNotSent]

@[simp] theorem closeNotSent_store (n : Nat) (o : Order) (s : State) :
    (closeNotSent n o s).store.config = s.store.config ∧ (closeNotSent n o s).store.savedCount = s.store.savedCount ∧
    (closeNotSent n o s).store.orders = s.store.orders ∧ (closeNotSent n o s).store.receivers = s.store.receivers ∧
    (closeNotSent n o s).store.corrections = s.store.corrections ∧
    (closeNotSent n o s).store.scrubNext = s.store.scrubNext ∧
    (closeNotSent n o s).store.scrubPace = s.store.scrubPace ∧
    (closeNotSent n o s).store.scrubDue = s.store.scrubDue ∧ (closeNotSent n o s).store.wiping = s.store.wiping ∧
    (closeNotSent n o s).store.restoring = s.store.restoring := by
  simp [closeNotSent]

/-- A close at the seal point reaches the orders, the table, the write list and the notice queue. -/
@[simp] theorem closeAtSeal_frame (n : Nat) (o : Order) (f : SlotFields) (s : State) :
    (closeAtSeal n o f s).powered = s.powered ∧ (closeAtSeal n o f s).params = s.params ∧
    (closeAtSeal n o f s).tb = s.tb ∧ (closeAtSeal n o f s).sched = s.sched ∧
    (closeAtSeal n o f s).engine = s.engine ∧ (closeAtSeal n o f s).carrier = s.carrier ∧
    (closeAtSeal n o f s).driver = s.driver ∧ (closeAtSeal n o f s).answer = s.answer ∧
    (closeAtSeal n o f s).owed = s.owed ∧ (closeAtSeal n o f s).freeUses = s.freeUses ∧
    (closeAtSeal n o f s).pending = s.pending := by
  simp [closeAtSeal]

@[simp] theorem closeAtSeal_link (n : Nat) (o : Order) (f : SlotFields) (s : State) :
    (closeAtSeal n o f s).link.rate = s.link.rate ∧ (closeAtSeal n o f s).link.receive = s.link.receive ∧
    (closeAtSeal n o f s).link.assembly = s.link.assembly ∧ (closeAtSeal n o f s).link.buffer = s.link.buffer ∧
    (closeAtSeal n o f s).link.inHand = s.link.inHand ∧ (closeAtSeal n o f s).link.replies = s.link.replies ∧
    (closeAtSeal n o f s).link.counters = s.link.counters ∧ (closeAtSeal n o f s).link.sending = s.link.sending := by
  simp [closeAtSeal]

/-- The closing step for one position. -/
@[simp] theorem sealOrder_frame (s : State) (n : Nat) :
    (sealOrder s n).powered = s.powered ∧ (sealOrder s n).params = s.params ∧ (sealOrder s n).tb = s.tb ∧
    (sealOrder s n).sched = s.sched ∧ (sealOrder s n).engine = s.engine ∧ (sealOrder s n).carrier = s.carrier ∧
    (sealOrder s n).driver = s.driver ∧ (sealOrder s n).answer = s.answer ∧ (sealOrder s n).owed = s.owed ∧
    (sealOrder s n).freeUses = s.freeUses ∧ (sealOrder s n).pending = s.pending := by
  unfold sealOrder
  repeat' split
  all_goals simp

@[simp] theorem sealOrder_link (s : State) (n : Nat) :
    (sealOrder s n).link.rate = s.link.rate ∧ (sealOrder s n).link.receive = s.link.receive ∧
    (sealOrder s n).link.assembly = s.link.assembly ∧ (sealOrder s n).link.buffer = s.link.buffer ∧
    (sealOrder s n).link.inHand = s.link.inHand ∧ (sealOrder s n).link.replies = s.link.replies ∧
    (sealOrder s n).link.counters = s.link.counters ∧ (sealOrder s n).link.sending = s.link.sending := by
  unfold sealOrder
  repeat' split
  all_goals simp

/-- The closing step. -/
@[simp] theorem closingStep_frame (s : State) :
    (closingStep s).powered = s.powered ∧ (closingStep s).params = s.params ∧ (closingStep s).tb = s.tb ∧
    (closingStep s).sched = s.sched ∧ (closingStep s).engine = s.engine ∧ (closingStep s).carrier = s.carrier ∧
    (closingStep s).driver = s.driver ∧ (closingStep s).answer = s.answer ∧ (closingStep s).owed = s.owed ∧
    (closingStep s).freeUses = s.freeUses ∧ (closingStep s).pending = s.pending := by
  unfold closingStep
  exact ⟨foldl_same (g := State.powered) (by simp) _ _,
    foldl_same (g := State.params) (by simp) _ _,
    foldl_same (g := State.tb) (by simp) _ _,
    foldl_same (g := State.sched) (by simp) _ _,
    foldl_same (g := State.engine) (by simp) _ _,
    foldl_same (g := State.carrier) (by simp) _ _,
    foldl_same (g := State.driver) (by simp) _ _,
    foldl_same (g := State.answer) (by simp) _ _,
    foldl_same (g := State.owed) (by simp) _ _,
    foldl_same (g := State.freeUses) (by simp) _ _,
    foldl_same (g := State.pending) (by simp) _ _⟩

@[simp] theorem closingStep_link (s : State) :
    (closingStep s).link.rate = s.link.rate ∧ (closingStep s).link.receive = s.link.receive ∧
    (closingStep s).link.assembly = s.link.assembly ∧ (closingStep s).link.buffer = s.link.buffer ∧
    (closingStep s).link.inHand = s.link.inHand ∧ (closingStep s).link.replies = s.link.replies ∧
    (closingStep s).link.counters = s.link.counters ∧ (closingStep s).link.sending = s.link.sending := by
  unfold closingStep
  exact ⟨foldl_same (g := fun t => t.link.rate) (by simp) _ _,
    foldl_same (g := fun t => t.link.receive) (by simp) _ _,
    foldl_same (g := fun t => t.link.assembly) (by simp) _ _,
    foldl_same (g := fun t => t.link.buffer) (by simp) _ _,
    foldl_same (g := fun t => t.link.inHand) (by simp) _ _,
    foldl_same (g := fun t => t.link.replies) (by simp) _ _,
    foldl_same (g := fun t => t.link.counters) (by simp) _ _,
    foldl_same (g := fun t => t.link.sending) (by simp) _ _⟩

/-- An order activated. -/
@[simp] theorem activate_frame (n k : Nat) (o : Order) (s : State) :
    (activate n k o s).powered = s.powered ∧ (activate n k o s).params = s.params ∧ (activate n k o s).tb = s.tb ∧
    (activate n k o s).sched = s.sched ∧ (activate n k o s).engine = s.engine ∧
    (activate n k o s).carrier = s.carrier ∧ (activate n k o s).driver = s.driver ∧
    (activate n k o s).answer = s.answer ∧ (activate n k o s).owed = s.owed ∧
    (activate n k o s).freeUses = s.freeUses ∧ (activate n k o s).pending = s.pending := by
  unfold activate
  dsimp only
  repeat' split
  all_goals simp

@[simp] theorem activate_link (n k : Nat) (o : Order) (s : State) :
    (activate n k o s).link.rate = s.link.rate ∧ (activate n k o s).link.receive = s.link.receive ∧
    (activate n k o s).link.assembly = s.link.assembly ∧ (activate n k o s).link.buffer = s.link.buffer ∧
    (activate n k o s).link.inHand = s.link.inHand ∧ (activate n k o s).link.replies = s.link.replies ∧
    (activate n k o s).link.counters = s.link.counters ∧ (activate n k o s).link.sending = s.link.sending := by
  unfold activate
  dsimp only
  repeat' split
  all_goals simp

/-- The next order of the activation step. -/
@[simp] theorem activateNext_frame (s : State) :
    (activateNext s).powered = s.powered ∧ (activateNext s).params = s.params ∧ (activateNext s).tb = s.tb ∧
    (activateNext s).sched = s.sched ∧ (activateNext s).engine = s.engine ∧ (activateNext s).carrier = s.carrier ∧
    (activateNext s).driver = s.driver ∧ (activateNext s).answer = s.answer ∧
    (activateNext s).freeUses = s.freeUses ∧ (activateNext s).pending = s.pending := by
  unfold activateNext
  dsimp only
  repeat' split
  all_goals simp

@[simp] theorem activateNext_link (s : State) :
    (activateNext s).link.rate = s.link.rate ∧ (activateNext s).link.receive = s.link.receive ∧
    (activateNext s).link.assembly = s.link.assembly ∧ (activateNext s).link.buffer = s.link.buffer ∧
    (activateNext s).link.inHand = s.link.inHand ∧ (activateNext s).link.replies = s.link.replies ∧
    (activateNext s).link.counters = s.link.counters ∧ (activateNext s).link.sending = s.link.sending := by
  unfold activateNext
  dsimp only
  repeat' split
  all_goals simp

/-- The activation step brought to its end. -/
@[simp] theorem activateAll_frame (n : Nat) (s : State) :
    (activateAll n s).powered = s.powered ∧ (activateAll n s).params = s.params ∧ (activateAll n s).tb = s.tb ∧
    (activateAll n s).sched = s.sched ∧ (activateAll n s).engine = s.engine ∧ (activateAll n s).carrier = s.carrier ∧
    (activateAll n s).driver = s.driver ∧ (activateAll n s).answer = s.answer ∧
    (activateAll n s).freeUses = s.freeUses ∧ (activateAll n s).pending = s.pending := by
  induction n generalizing s with
  | zero => simp [activateAll]
  | succ n ih =>
    unfold activateAll
    split
    · simp
    · simp [ih]

@[simp] theorem activateAll_link (n : Nat) (s : State) :
    (activateAll n s).link.rate = s.link.rate ∧ (activateAll n s).link.receive = s.link.receive ∧
    (activateAll n s).link.assembly = s.link.assembly ∧ (activateAll n s).link.buffer = s.link.buffer ∧
    (activateAll n s).link.inHand = s.link.inHand ∧ (activateAll n s).link.replies = s.link.replies ∧
    (activateAll n s).link.counters = s.link.counters ∧ (activateAll n s).link.sending = s.link.sending := by
  induction n generalizing s with
  | zero => simp [activateAll]
  | succ n ih =>
    unfold activateAll
    split
    · simp
    · simp [ih]

/-- An order withdrawn. -/
@[simp] theorem withdraw_frame (n : Nat) (o : Order) (s : State) :
    (withdraw n o s).powered = s.powered ∧ (withdraw n o s).params = s.params ∧ (withdraw n o s).tb = s.tb ∧
    (withdraw n o s).sched = s.sched ∧ (withdraw n o s).engine = s.engine ∧ (withdraw n o s).carrier = s.carrier ∧
    (withdraw n o s).driver = s.driver ∧ (withdraw n o s).answer = s.answer ∧ (withdraw n o s).link = s.link ∧
    (withdraw n o s).owed = s.owed ∧ (withdraw n o s).freeUses = s.freeUses ∧ (withdraw n o s).pending = s.pending := by
  unfold withdraw
  split <;> simp

/-- An order converted to REVOKING. -/
@[simp] theorem convert_frame (n : Nat) (o : Order) (f : SlotFields) (s : State) :
    (convert n o f s).powered = s.powered ∧ (convert n o f s).params = s.params ∧ (convert n o f s).tb = s.tb ∧
    (convert n o f s).sched = s.sched ∧ (convert n o f s).engine = s.engine ∧ (convert n o f s).carrier = s.carrier ∧
    (convert n o f s).driver = s.driver ∧ (convert n o f s).answer = s.answer ∧ (convert n o f s).link = s.link ∧
    (convert n o f s).owed = s.owed ∧ (convert n o f s).freeUses = s.freeUses ∧
    (convert n o f s).pending = s.pending := by
  simp [convert]

/-- A receiver out of one roll. -/
@[simp] theorem forgetIn_frame (i : Nat) (g : Nat → Counters → Counters) (s : State) (k : Nat) :
    (forgetIn i g s k).powered = s.powered ∧ (forgetIn i g s k).params = s.params ∧ (forgetIn i g s k).tb = s.tb ∧
    (forgetIn i g s k).table = s.table ∧ (forgetIn i g s k).sched = s.sched ∧ (forgetIn i g s k).engine = s.engine ∧
    (forgetIn i g s k).carrier = s.carrier ∧ (forgetIn i g s k).driver = s.driver ∧
    (forgetIn i g s k).answer = s.answer ∧ (forgetIn i g s k).link = s.link ∧ (forgetIn i g s k).owed = s.owed ∧
    (forgetIn i g s k).freeUses = s.freeUses ∧ (forgetIn i g s k).pending = s.pending := by
  unfold forgetIn
  dsimp only
  repeat' split
  all_goals simp

@[simp] theorem forgetIn_store (i : Nat) (g : Nat → Counters → Counters) (s : State) (k : Nat) :
    (forgetIn i g s k).store.config = s.store.config ∧ (forgetIn i g s k).store.savedCount = s.store.savedCount ∧
    (forgetIn i g s k).store.orders = s.store.orders ∧ (forgetIn i g s k).store.receivers = s.store.receivers ∧
    (forgetIn i g s k).store.corrections = s.store.corrections ∧
    (forgetIn i g s k).store.scrubNext = s.store.scrubNext ∧ (forgetIn i g s k).store.scrubPace = s.store.scrubPace ∧
    (forgetIn i g s k).store.scrubDue = s.store.scrubDue ∧ (forgetIn i g s k).store.wiping = s.store.wiping ∧
    (forgetIn i g s k).store.restoring = s.store.restoring := by
  unfold forgetIn
  dsimp only
  repeat' split
  all_goals simp

/-- A receiver out of every roll. -/
@[simp] theorem forgetReceiver_frame (i : Nat) (g : Nat → Counters → Counters) (s : State) :
    (forgetReceiver i g s).powered = s.powered ∧ (forgetReceiver i g s).params = s.params ∧
    (forgetReceiver i g s).tb = s.tb ∧ (forgetReceiver i g s).table = s.table ∧
    (forgetReceiver i g s).sched = s.sched ∧ (forgetReceiver i g s).engine = s.engine ∧
    (forgetReceiver i g s).carrier = s.carrier ∧ (forgetReceiver i g s).driver = s.driver ∧
    (forgetReceiver i g s).answer = s.answer ∧ (forgetReceiver i g s).link = s.link ∧
    (forgetReceiver i g s).owed = s.owed ∧ (forgetReceiver i g s).freeUses = s.freeUses ∧
    (forgetReceiver i g s).pending = s.pending := by
  unfold forgetReceiver
  exact ⟨foldl_same (g := State.powered) (by simp) _ _,
    foldl_same (g := State.params) (by simp) _ _,
    foldl_same (g := State.tb) (by simp) _ _,
    foldl_same (g := State.table) (by simp) _ _,
    foldl_same (g := State.sched) (by simp) _ _,
    foldl_same (g := State.engine) (by simp) _ _,
    foldl_same (g := State.carrier) (by simp) _ _,
    foldl_same (g := State.driver) (by simp) _ _,
    foldl_same (g := State.answer) (by simp) _ _,
    foldl_same (g := State.link) (by simp) _ _,
    foldl_same (g := State.owed) (by simp) _ _,
    foldl_same (g := State.freeUses) (by simp) _ _,
    foldl_same (g := State.pending) (by simp) _ _⟩

@[simp] theorem forgetReceiver_store (i : Nat) (g : Nat → Counters → Counters) (s : State) :
    (forgetReceiver i g s).store.config = s.store.config ∧
    (forgetReceiver i g s).store.savedCount = s.store.savedCount ∧
    (forgetReceiver i g s).store.orders = s.store.orders ∧
    (forgetReceiver i g s).store.receivers = s.store.receivers ∧
    (forgetReceiver i g s).store.corrections = s.store.corrections ∧
    (forgetReceiver i g s).store.scrubNext = s.store.scrubNext ∧
    (forgetReceiver i g s).store.scrubPace = s.store.scrubPace ∧
    (forgetReceiver i g s).store.scrubDue = s.store.scrubDue ∧ (forgetReceiver i g s).store.wiping = s.store.wiping ∧
    (forgetReceiver i g s).store.restoring = s.store.restoring := by
  unfold forgetReceiver
  exact ⟨foldl_same (g := fun t => t.store.config) (by simp) _ _,
    foldl_same (g := fun t => t.store.savedCount) (by simp) _ _,
    foldl_same (g := fun t => t.store.orders) (by simp) _ _,
    foldl_same (g := fun t => t.store.receivers) (by simp) _ _,
    foldl_same (g := fun t => t.store.corrections) (by simp) _ _,
    foldl_same (g := fun t => t.store.scrubNext) (by simp) _ _,
    foldl_same (g := fun t => t.store.scrubPace) (by simp) _ _,
    foldl_same (g := fun t => t.store.scrubDue) (by simp) _ _,
    foldl_same (g := fun t => t.store.wiping) (by simp) _ _,
    foldl_same (g := fun t => t.store.restoring) (by simp) _ _⟩

/-- One account reconciled. -/
@[simp] theorem reconcileSlot_frame (s : State) (k : Nat) :
    (reconcileSlot s k).powered = s.powered ∧ (reconcileSlot s k).params = s.params ∧ (reconcileSlot s k).tb = s.tb ∧
    (reconcileSlot s k).table = s.table ∧ (reconcileSlot s k).sched = s.sched ∧
    (reconcileSlot s k).engine = s.engine ∧ (reconcileSlot s k).carrier = s.carrier ∧
    (reconcileSlot s k).driver = s.driver ∧ (reconcileSlot s k).answer = s.answer ∧
    (reconcileSlot s k).link = s.link ∧ (reconcileSlot s k).owed = s.owed ∧
    (reconcileSlot s k).freeUses = s.freeUses ∧ (reconcileSlot s k).pending = s.pending := by
  unfold reconcileSlot
  dsimp only
  repeat' split
  all_goals simp

@[simp] theorem reconcileSlot_store (s : State) (k : Nat) :
    (reconcileSlot s k).store.config = s.store.config ∧ (reconcileSlot s k).store.savedCount = s.store.savedCount ∧
    (reconcileSlot s k).store.orders = s.store.orders ∧ (reconcileSlot s k).store.receivers = s.store.receivers ∧
    (reconcileSlot s k).store.corrections = s.store.corrections ∧
    (reconcileSlot s k).store.scrubNext = s.store.scrubNext ∧
    (reconcileSlot s k).store.scrubPace = s.store.scrubPace ∧ (reconcileSlot s k).store.scrubDue = s.store.scrubDue ∧
    (reconcileSlot s k).store.wiping = s.store.wiping ∧ (reconcileSlot s k).store.restoring = s.store.restoring := by
  unfold reconcileSlot
  dsimp only
  repeat' split
  all_goals simp

/-- Every account reconciled. -/
@[simp] theorem reconcileAll_frame (s : State) :
    (reconcileAll s).powered = s.powered ∧ (reconcileAll s).params = s.params ∧ (reconcileAll s).tb = s.tb ∧
    (reconcileAll s).table = s.table ∧ (reconcileAll s).sched = s.sched ∧ (reconcileAll s).engine = s.engine ∧
    (reconcileAll s).carrier = s.carrier ∧ (reconcileAll s).driver = s.driver ∧ (reconcileAll s).answer = s.answer ∧
    (reconcileAll s).link = s.link ∧ (reconcileAll s).owed = s.owed ∧ (reconcileAll s).freeUses = s.freeUses ∧
    (reconcileAll s).pending = s.pending := by
  unfold reconcileAll
  exact ⟨foldl_same (g := State.powered) (by simp) _ _,
    foldl_same (g := State.params) (by simp) _ _,
    foldl_same (g := State.tb) (by simp) _ _,
    foldl_same (g := State.table) (by simp) _ _,
    foldl_same (g := State.sched) (by simp) _ _,
    foldl_same (g := State.engine) (by simp) _ _,
    foldl_same (g := State.carrier) (by simp) _ _,
    foldl_same (g := State.driver) (by simp) _ _,
    foldl_same (g := State.answer) (by simp) _ _,
    foldl_same (g := State.link) (by simp) _ _,
    foldl_same (g := State.owed) (by simp) _ _,
    foldl_same (g := State.freeUses) (by simp) _ _,
    foldl_same (g := State.pending) (by simp) _ _⟩

@[simp] theorem reconcileAll_store (s : State) :
    (reconcileAll s).store.config = s.store.config ∧ (reconcileAll s).store.savedCount = s.store.savedCount ∧
    (reconcileAll s).store.orders = s.store.orders ∧ (reconcileAll s).store.receivers = s.store.receivers ∧
    (reconcileAll s).store.corrections = s.store.corrections ∧ (reconcileAll s).store.scrubNext = s.store.scrubNext ∧
    (reconcileAll s).store.scrubPace = s.store.scrubPace ∧ (reconcileAll s).store.scrubDue = s.store.scrubDue ∧
    (reconcileAll s).store.wiping = s.store.wiping ∧ (reconcileAll s).store.restoring = s.store.restoring := by
  unfold reconcileAll
  exact ⟨foldl_same (g := fun t => t.store.config) (by simp) _ _,
    foldl_same (g := fun t => t.store.savedCount) (by simp) _ _,
    foldl_same (g := fun t => t.store.orders) (by simp) _ _,
    foldl_same (g := fun t => t.store.receivers) (by simp) _ _,
    foldl_same (g := fun t => t.store.corrections) (by simp) _ _,
    foldl_same (g := fun t => t.store.scrubNext) (by simp) _ _,
    foldl_same (g := fun t => t.store.scrubPace) (by simp) _ _,
    foldl_same (g := fun t => t.store.scrubDue) (by simp) _ _,
    foldl_same (g := fun t => t.store.wiping) (by simp) _ _,
    foldl_same (g := fun t => t.store.restoring) (by simp) _ _⟩

/-- Entries for slots nobody holds removed. -/
@[simp] theorem dropLooseEntries_frame (s : State) :
    (dropLooseEntries s).powered = s.powered ∧ (dropLooseEntries s).params = s.params ∧
    (dropLooseEntries s).tb = s.tb ∧ (dropLooseEntries s).orders = s.orders ∧ (dropLooseEntries s).sched = s.sched ∧
    (dropLooseEntries s).engine = s.engine ∧ (dropLooseEntries s).carrier = s.carrier ∧
    (dropLooseEntries s).driver = s.driver ∧ (dropLooseEntries s).answer = s.answer ∧
    (dropLooseEntries s).link = s.link ∧ (dropLooseEntries s).owed = s.owed ∧
    (dropLooseEntries s).freeUses = s.freeUses ∧ (dropLooseEntries s).pending = s.pending := by
  simp [dropLooseEntries]

@[simp] theorem dropLooseEntries_store (s : State) :
    (dropLooseEntries s).store.config = s.store.config ∧ (dropLooseEntries s).store.savedCount = s.store.savedCount ∧
    (dropLooseEntries s).store.orders = s.store.orders ∧ (dropLooseEntries s).store.receivers = s.store.receivers ∧
    (dropLooseEntries s).store.corrections = s.store.corrections ∧
    (dropLooseEntries s).store.scrubNext = s.store.scrubNext ∧
    (dropLooseEntries s).store.scrubPace = s.store.scrubPace ∧
    (dropLooseEntries s).store.scrubDue = s.store.scrubDue ∧ (dropLooseEntries s).store.wiping = s.store.wiping ∧
    (dropLooseEntries s).store.restoring = s.store.restoring := by
  simp [dropLooseEntries]

end Sys2Proof.Machine
end

