-- ==== Sys2Proof/Laws/Exchange.lean ====
section
/-! SUPPORT. What the end of a transmission can change: the leg, the results applied, the closes, aborts and cuts. -/

namespace Sys2Proof.Machine

/-- The leg ended changes the Line Driver and the Engine's report. -/
@[simp] theorem endLeg_frame (c : Bool) (s : State) :
    (endLeg c s).powered = s.powered ∧ (endLeg c s).params = s.params ∧ (endLeg c s).tb = s.tb ∧
    (endLeg c s).orders = s.orders ∧ (endLeg c s).table = s.table ∧ (endLeg c s).sched = s.sched ∧
    (endLeg c s).carrier = s.carrier ∧ (endLeg c s).answer = s.answer ∧ (endLeg c s).store = s.store ∧
    (endLeg c s).link = s.link ∧ (endLeg c s).owed = s.owed ∧ (endLeg c s).freeUses = s.freeUses ∧
    (endLeg c s).pending = s.pending := by
  unfold endLeg
  split <;> simp

@[simp] theorem endLeg_driver (c : Bool) (s : State) :
    (endLeg c s).driver.buffer = s.driver.buffer ∧ (endLeg c s).driver.legLevel = s.driver.legLevel ∧
    (endLeg c s).driver.cap = s.driver.cap ∧ (endLeg c s).driver.recovery = s.driver.recovery ∧
    (endLeg c s).driver.history = s.driver.history ∧ (endLeg c s).driver.state = s.driver.state ∧
    (endLeg c s).driver.cool = s.driver.cool := by
  unfold endLeg
  split <;> simp

@[simp] theorem endLeg_engine (c : Bool) (s : State) :
    (endLeg c s).engine.state = s.engine.state ∧ (endLeg c s).engine.transmission = s.engine.transmission ∧
    (endLeg c s).engine.live = s.engine.live ∧ (endLeg c s).engine.seen = s.engine.seen ∧
    (endLeg c s).engine.opened = s.engine.opened ∧ (endLeg c s).engine.displacement = s.engine.displacement ∧
    (endLeg c s).engine.folded = s.engine.folded ∧ (endLeg c s).engine.abortCause = s.engine.abortCause ∧
    (endLeg c s).engine.outcome = s.engine.outcome := by
  unfold endLeg
  split <;> simp

/-- A result counted. -/
@[simp] theorem countResult_frame (k : Nat) (r : EntryResult) (s : State) :
    (countResult k r s).powered = s.powered ∧ (countResult k r s).params = s.params ∧ (countResult k r s).tb = s.tb ∧
    (countResult k r s).table = s.table ∧ (countResult k r s).sched = s.sched ∧
    (countResult k r s).engine = s.engine ∧ (countResult k r s).carrier = s.carrier ∧
    (countResult k r s).driver = s.driver ∧ (countResult k r s).answer = s.answer ∧
    (countResult k r s).link = s.link ∧ (countResult k r s).owed = s.owed ∧
    (countResult k r s).freeUses = s.freeUses ∧ (countResult k r s).pending = s.pending := by
  unfold countResult
  split <;> simp

/-- The other entries a STATE confirms, counted. -/
@[simp] theorem countConfirmed_frame (l : List Nat) (s : State) :
    let t := l.foldl (fun s k => countFor k Counters.confirm s) s
    t.powered = s.powered ∧ t.params = s.params ∧ t.tb = s.tb ∧ t.table = s.table ∧ t.sched = s.sched ∧
      t.engine = s.engine ∧ t.carrier = s.carrier ∧ t.driver = s.driver ∧ t.answer = s.answer ∧ t.link = s.link ∧
      t.owed = s.owed ∧ t.freeUses = s.freeUses ∧ t.pending = s.pending :=
  ⟨foldl_same (g := State.powered) (by simp) _ _, foldl_same (g := State.params) (by simp) _ _,
    foldl_same (g := State.tb) (by simp) _ _, foldl_same (g := State.table) (by simp) _ _,
    foldl_same (g := State.sched) (by simp) _ _, foldl_same (g := State.engine) (by simp) _ _,
    foldl_same (g := State.carrier) (by simp) _ _, foldl_same (g := State.driver) (by simp) _ _,
    foldl_same (g := State.answer) (by simp) _ _, foldl_same (g := State.link) (by simp) _ _,
    foldl_same (g := State.owed) (by simp) _ _, foldl_same (g := State.freeUses) (by simp) _ _,
    foldl_same (g := State.pending) (by simp) _ _⟩

/-- The close of a delivery. -/
@[simp] theorem closeDelivery_frame (st : Count) (d : DeliveryRecord) (o : Outcome) (s : State) :
    (closeDelivery st d o s).powered = s.powered ∧ (closeDelivery st d o s).params = s.params ∧
    (closeDelivery st d o s).tb = s.tb ∧ (closeDelivery st d o s).carrier = s.carrier ∧
    (closeDelivery st d o s).driver = s.driver ∧ (closeDelivery st d o s).answer = s.answer ∧
    (closeDelivery st d o s).owed = s.owed ∧ (closeDelivery st d o s).pending = s.pending := by
  unfold closeDelivery
  dsimp only
  repeat' split
  all_goals simp

@[simp] theorem closeDelivery_link (st : Count) (d : DeliveryRecord) (o : Outcome) (s : State) :
    (closeDelivery st d o s).link.rate = s.link.rate ∧ (closeDelivery st d o s).link.receive = s.link.receive ∧
    (closeDelivery st d o s).link.assembly = s.link.assembly ∧ (closeDelivery st d o s).link.buffer = s.link.buffer ∧
    (closeDelivery st d o s).link.inHand = s.link.inHand ∧ (closeDelivery st d o s).link.replies = s.link.replies ∧
    (closeDelivery st d o s).link.counters = s.link.counters ∧
    (closeDelivery st d o s).link.sending = s.link.sending := by
  unfold closeDelivery
  dsimp only
  repeat' split
  all_goals simp

@[simp] theorem closeDelivery_sched (st : Count) (d : DeliveryRecord) (o : Outcome) (s : State) :
    (closeDelivery st d o s).sched.hold = s.sched.hold ∧ (closeDelivery st d o s).sched.probes = s.sched.probes := by
  unfold closeDelivery
  dsimp only
  repeat' split
  all_goals simp

@[simp] theorem closeDelivery_engine (st : Count) (d : DeliveryRecord) (o : Outcome) (s : State) :
    (closeDelivery st d o s).engine.seen = s.engine.seen ∧ (closeDelivery st d o s).engine.opened = s.engine.opened ∧
    (closeDelivery st d o s).engine.displacement = s.engine.displacement ∧
    (closeDelivery st d o s).engine.folded = s.engine.folded := by
  unfold closeDelivery
  dsimp only
  repeat' split
  all_goals simp

/-- The close of a probe. -/
@[simp] theorem closeProbe_frame (st : Count) (p : ProbeRecord) (o : Outcome) (s : State) :
    (closeProbe st p o s).powered = s.powered ∧ (closeProbe st p o s).params = s.params ∧
    (closeProbe st p o s).tb = s.tb ∧ (closeProbe st p o s).carrier = s.carrier ∧
    (closeProbe st p o s).driver = s.driver ∧ (closeProbe st p o s).answer = s.answer ∧
    (closeProbe st p o s).owed = s.owed ∧ (closeProbe st p o s).pending = s.pending := by
  unfold closeProbe
  dsimp only
  repeat' split
  all_goals simp

@[simp] theorem closeProbe_link (st : Count) (p : ProbeRecord) (o : Outcome) (s : State) :
    (closeProbe st p o s).link.rate = s.link.rate ∧ (closeProbe st p o s).link.receive = s.link.receive ∧
    (closeProbe st p o s).link.assembly = s.link.assembly ∧ (closeProbe st p o s).link.buffer = s.link.buffer ∧
    (closeProbe st p o s).link.inHand = s.link.inHand ∧ (closeProbe st p o s).link.replies = s.link.replies ∧
    (closeProbe st p o s).link.counters = s.link.counters ∧ (closeProbe st p o s).link.sending = s.link.sending := by
  unfold closeProbe
  dsimp only
  repeat' split
  all_goals simp

@[simp] theorem closeProbe_sched (st : Count) (p : ProbeRecord) (o : Outcome) (s : State) :
    (closeProbe st p o s).sched.hold = s.sched.hold ∧ (closeProbe st p o s).sched.probes = s.sched.probes := by
  unfold closeProbe
  dsimp only
  repeat' split
  all_goals simp

@[simp] theorem closeProbe_engine (st : Count) (p : ProbeRecord) (o : Outcome) (s : State) :
    (closeProbe st p o s).engine.seen = s.engine.seen ∧ (closeProbe st p o s).engine.opened = s.engine.opened ∧
    (closeProbe st p o s).engine.displacement = s.engine.displacement ∧
    (closeProbe st p o s).engine.folded = s.engine.folded := by
  unfold closeProbe
  dsimp only
  repeat' split
  all_goals simp

/-- CLOSING. -/
@[simp] theorem closeExchange_frame (o : Outcome) (s : State) :
    (closeExchange o s).powered = s.powered ∧ (closeExchange o s).params = s.params ∧ (closeExchange o s).tb = s.tb ∧
    (closeExchange o s).carrier = s.carrier ∧ (closeExchange o s).driver = s.driver ∧
    (closeExchange o s).answer = s.answer ∧ (closeExchange o s).owed = s.owed ∧
    (closeExchange o s).pending = s.pending := by
  unfold closeExchange
  dsimp only
  repeat' split
  all_goals simp

@[simp] theorem closeExchange_link (o : Outcome) (s : State) :
    (closeExchange o s).link.rate = s.link.rate ∧ (closeExchange o s).link.receive = s.link.receive ∧
    (closeExchange o s).link.assembly = s.link.assembly ∧ (closeExchange o s).link.buffer = s.link.buffer ∧
    (closeExchange o s).link.inHand = s.link.inHand ∧ (closeExchange o s).link.replies = s.link.replies ∧
    (closeExchange o s).link.counters = s.link.counters ∧ (closeExchange o s).link.sending = s.link.sending := by
  unfold closeExchange
  dsimp only
  repeat' split
  all_goals simp

@[simp] theorem closeExchange_sched (o : Outcome) (s : State) :
    (closeExchange o s).sched.hold = s.sched.hold ∧ (closeExchange o s).sched.probes = s.sched.probes := by
  unfold closeExchange
  dsimp only
  repeat' split
  all_goals simp

@[simp] theorem closeExchange_engine (o : Outcome) (s : State) :
    (closeExchange o s).engine.seen = s.engine.seen ∧ (closeExchange o s).engine.opened = s.engine.opened ∧
    (closeExchange o s).engine.displacement = s.engine.displacement ∧
    (closeExchange o s).engine.folded = s.engine.folded := by
  unfold closeExchange
  dsimp only
  repeat' split
  all_goals simp

/-- An exchange aborted. -/
@[simp] theorem abortExchange_frame (c : AbortCause) (s : State) :
    (abortExchange c s).powered = s.powered ∧ (abortExchange c s).params = s.params ∧ (abortExchange c s).tb = s.tb ∧
    (abortExchange c s).carrier = s.carrier ∧ (abortExchange c s).owed = s.owed ∧
    (abortExchange c s).pending = s.pending := by
  simp [abortExchange]

@[simp] theorem abortExchange_link (c : AbortCause) (s : State) :
    (abortExchange c s).link.rate = s.link.rate ∧ (abortExchange c s).link.receive = s.link.receive ∧
    (abortExchange c s).link.assembly = s.link.assembly ∧ (abortExchange c s).link.buffer = s.link.buffer ∧
    (abortExchange c s).link.inHand = s.link.inHand ∧ (abortExchange c s).link.replies = s.link.replies ∧
    (abortExchange c s).link.counters = s.link.counters ∧ (abortExchange c s).link.sending = s.link.sending := by
  simp [abortExchange]

@[simp] theorem abortExchange_sched (c : AbortCause) (s : State) :
    (abortExchange c s).sched.hold = s.sched.hold ∧ (abortExchange c s).sched.probes = s.sched.probes := by
  simp [abortExchange]

@[simp] theorem abortExchange_engine (c : AbortCause) (s : State) :
    (abortExchange c s).engine.seen = s.engine.seen ∧ (abortExchange c s).engine.opened = s.engine.opened ∧
    (abortExchange c s).engine.displacement = s.engine.displacement ∧
    (abortExchange c s).engine.folded = s.engine.folded := by
  simp [abortExchange]

@[simp] theorem abortExchange_driver (c : AbortCause) (s : State) :
    (abortExchange c s).driver.buffer = s.driver.buffer ∧ (abortExchange c s).driver.legLevel = s.driver.legLevel ∧
    (abortExchange c s).driver.cap = s.driver.cap ∧ (abortExchange c s).driver.recovery = s.driver.recovery ∧
    (abortExchange c s).driver.history = s.driver.history ∧ (abortExchange c s).driver.state = s.driver.state ∧
    (abortExchange c s).driver.cool = s.driver.cool := by
  simp [abortExchange]

/-- A beacon or repeat cut. -/
@[simp] theorem cutBroadcast_frame (c : AbortCause) (s : State) :
    (cutBroadcast c s).powered = s.powered ∧ (cutBroadcast c s).params = s.params ∧ (cutBroadcast c s).tb = s.tb ∧
    (cutBroadcast c s).orders = s.orders ∧ (cutBroadcast c s).table = s.table ∧
    (cutBroadcast c s).carrier = s.carrier ∧ (cutBroadcast c s).answer = s.answer ∧
    (cutBroadcast c s).store = s.store ∧ (cutBroadcast c s).link = s.link ∧ (cutBroadcast c s).owed = s.owed ∧
    (cutBroadcast c s).freeUses = s.freeUses ∧ (cutBroadcast c s).pending = s.pending := by
  simp [cutBroadcast]

@[simp] theorem cutBroadcast_sched (c : AbortCause) (s : State) :
    (cutBroadcast c s).sched.hold = s.sched.hold ∧ (cutBroadcast c s).sched.probes = s.sched.probes := by
  simp [cutBroadcast]

@[simp] theorem cutBroadcast_engine (c : AbortCause) (s : State) :
    (cutBroadcast c s).engine.seen = s.engine.seen ∧ (cutBroadcast c s).engine.opened = s.engine.opened ∧
    (cutBroadcast c s).engine.displacement = s.engine.displacement ∧
    (cutBroadcast c s).engine.folded = s.engine.folded := by
  simp [cutBroadcast]

@[simp] theorem cutBroadcast_driver (c : AbortCause) (s : State) :
    (cutBroadcast c s).driver.buffer = s.driver.buffer ∧ (cutBroadcast c s).driver.legLevel = s.driver.legLevel ∧
    (cutBroadcast c s).driver.cap = s.driver.cap ∧ (cutBroadcast c s).driver.recovery = s.driver.recovery ∧
    (cutBroadcast c s).driver.history = s.driver.history ∧ (cutBroadcast c s).driver.state = s.driver.state ∧
    (cutBroadcast c s).driver.cool = s.driver.cool := by
  simp [cutBroadcast]

/-- A transmission ended early. -/
@[simp] theorem endEarly_frame (c : AbortCause) (s : State) :
    (endEarly c s).powered = s.powered ∧ (endEarly c s).params = s.params ∧ (endEarly c s).tb = s.tb ∧
    (endEarly c s).carrier = s.carrier ∧ (endEarly c s).owed = s.owed ∧ (endEarly c s).pending = s.pending := by
  unfold endEarly
  repeat' split
  all_goals simp

@[simp] theorem endEarly_link (c : AbortCause) (s : State) :
    (endEarly c s).link.rate = s.link.rate ∧ (endEarly c s).link.receive = s.link.receive ∧
    (endEarly c s).link.assembly = s.link.assembly ∧ (endEarly c s).link.buffer = s.link.buffer ∧
    (endEarly c s).link.inHand = s.link.inHand ∧ (endEarly c s).link.replies = s.link.replies ∧
    (endEarly c s).link.counters = s.link.counters ∧ (endEarly c s).link.sending = s.link.sending := by
  unfold endEarly
  repeat' split
  all_goals simp

@[simp] theorem endEarly_sched (c : AbortCause) (s : State) :
    (endEarly c s).sched.hold = s.sched.hold ∧ (endEarly c s).sched.probes = s.sched.probes := by
  unfold endEarly
  repeat' split
  all_goals simp

@[simp] theorem endEarly_engine (c : AbortCause) (s : State) :
    (endEarly c s).engine.seen = s.engine.seen ∧ (endEarly c s).engine.opened = s.engine.opened ∧
    (endEarly c s).engine.displacement = s.engine.displacement ∧ (endEarly c s).engine.folded = s.engine.folded := by
  unfold endEarly
  repeat' split
  all_goals simp

@[simp] theorem endEarly_driver (c : AbortCause) (s : State) :
    (endEarly c s).driver.buffer = s.driver.buffer ∧ (endEarly c s).driver.legLevel = s.driver.legLevel ∧
    (endEarly c s).driver.cap = s.driver.cap ∧ (endEarly c s).driver.recovery = s.driver.recovery ∧
    (endEarly c s).driver.history = s.driver.history ∧ (endEarly c s).driver.state = s.driver.state ∧
    (endEarly c s).driver.cool = s.driver.cool := by
  unfold endEarly
  repeat' split
  all_goals simp

/-- A phase lost to the Engine. -/
@[simp] theorem losePhase_frame (p : Phase) (s : State) :
    (losePhase p s).powered = s.powered ∧ (losePhase p s).params = s.params ∧ (losePhase p s).tb = s.tb ∧
    (losePhase p s).carrier = s.carrier ∧ (losePhase p s).owed = s.owed ∧ (losePhase p s).pending = s.pending := by
  unfold losePhase
  dsimp only
  repeat' split
  all_goals simp

@[simp] theorem losePhase_link (p : Phase) (s : State) :
    (losePhase p s).link.rate = s.link.rate ∧ (losePhase p s).link.receive = s.link.receive ∧
    (losePhase p s).link.assembly = s.link.assembly ∧ (losePhase p s).link.buffer = s.link.buffer ∧
    (losePhase p s).link.inHand = s.link.inHand ∧ (losePhase p s).link.replies = s.link.replies ∧
    (losePhase p s).link.counters = s.link.counters ∧ (losePhase p s).link.sending = s.link.sending := by
  unfold losePhase
  dsimp only
  repeat' split
  all_goals simp

@[simp] theorem losePhase_sched (p : Phase) (s : State) :
    (losePhase p s).sched.hold = s.sched.hold ∧ (losePhase p s).sched.probes = s.sched.probes := by
  unfold losePhase
  dsimp only
  repeat' split
  all_goals simp

@[simp] theorem losePhase_engine (p : Phase) (s : State) :
    (losePhase p s).engine.seen = s.engine.seen ∧ (losePhase p s).engine.opened = s.engine.opened ∧
    (losePhase p s).engine.displacement = s.engine.displacement ∧ (losePhase p s).engine.folded = s.engine.folded := by
  unfold losePhase
  dsimp only
  repeat' split
  all_goals simp

@[simp] theorem losePhase_driver (p : Phase) (s : State) :
    (losePhase p s).driver.buffer = s.driver.buffer ∧ (losePhase p s).driver.legLevel = s.driver.legLevel ∧
    (losePhase p s).driver.cap = s.driver.cap ∧ (losePhase p s).driver.recovery = s.driver.recovery ∧
    (losePhase p s).driver.history = s.driver.history ∧ (losePhase p s).driver.state = s.driver.state ∧
    (losePhase p s).driver.cool = s.driver.cool := by
  unfold losePhase
  dsimp only
  repeat' split
  all_goals simp

/-- A delivery settled at a reset. -/
@[simp] theorem settleAtReset_frame (d : DeliveryRecord) (s : State) :
    (settleAtReset d s).powered = s.powered ∧ (settleAtReset d s).params = s.params ∧ (settleAtReset d s).tb = s.tb ∧
    (settleAtReset d s).orders = s.orders ∧ (settleAtReset d s).sched = s.sched ∧
    (settleAtReset d s).engine = s.engine ∧ (settleAtReset d s).carrier = s.carrier ∧
    (settleAtReset d s).driver = s.driver ∧ (settleAtReset d s).answer = s.answer ∧
    (settleAtReset d s).link = s.link ∧ (settleAtReset d s).owed = s.owed ∧
    (settleAtReset d s).freeUses = s.freeUses ∧ (settleAtReset d s).pending = s.pending := by
  unfold settleAtReset
  repeat' split
  all_goals simp

/-- The hand-over record settled at a reset. -/
@[simp] theorem settleHandOver_frame (s : State) :
    (settleHandOver s).powered = s.powered ∧ (settleHandOver s).params = s.params ∧ (settleHandOver s).tb = s.tb ∧
    (settleHandOver s).orders = s.orders ∧ (settleHandOver s).sched = s.sched ∧
    (settleHandOver s).engine = s.engine ∧ (settleHandOver s).carrier = s.carrier ∧
    (settleHandOver s).driver = s.driver ∧ (settleHandOver s).answer = s.answer ∧ (settleHandOver s).link = s.link ∧
    (settleHandOver s).owed = s.owed ∧ (settleHandOver s).freeUses = s.freeUses ∧
    (settleHandOver s).pending = s.pending := by
  unfold settleHandOver
  repeat' split
  all_goals simp

/-- A transmission ended by a reset. -/
@[simp] theorem resetTransmission_frame (s : State) :
    (resetTransmission s).powered = s.powered ∧ (resetTransmission s).params = s.params ∧
    (resetTransmission s).tb = s.tb ∧ (resetTransmission s).orders = s.orders ∧
    (resetTransmission s).carrier = s.carrier ∧ (resetTransmission s).answer = s.answer ∧
    (resetTransmission s).link = s.link ∧ (resetTransmission s).owed = s.owed ∧
    (resetTransmission s).freeUses = s.freeUses ∧ (resetTransmission s).pending = s.pending := by
  unfold resetTransmission
  dsimp only
  repeat' split
  all_goals simp

@[simp] theorem resetTransmission_sched (s : State) :
    (resetTransmission s).sched.hold = s.sched.hold ∧ (resetTransmission s).sched.probes = s.sched.probes := by
  unfold resetTransmission
  dsimp only
  repeat' split
  all_goals simp

@[simp] theorem resetTransmission_driver (s : State) :
    (resetTransmission s).driver.buffer = s.driver.buffer ∧
    (resetTransmission s).driver.legLevel = s.driver.legLevel ∧ (resetTransmission s).driver.cap = s.driver.cap ∧
    (resetTransmission s).driver.recovery = s.driver.recovery ∧
    (resetTransmission s).driver.history = s.driver.history ∧ (resetTransmission s).driver.state = s.driver.state ∧
    (resetTransmission s).driver.cool = s.driver.cool := by
  unfold resetTransmission
  dsimp only
  repeat' split
  all_goals simp

/-- The mark receiver withdrawn. -/
@[simp] theorem markWithdrawn_frame (i : Nat) (s : State) :
    (markWithdrawn i s).powered = s.powered ∧ (markWithdrawn i s).params = s.params ∧ (markWithdrawn i s).tb = s.tb ∧
    (markWithdrawn i s).orders = s.orders ∧ (markWithdrawn i s).table = s.table ∧
    (markWithdrawn i s).engine = s.engine ∧ (markWithdrawn i s).carrier = s.carrier ∧
    (markWithdrawn i s).driver = s.driver ∧ (markWithdrawn i s).answer = s.answer ∧
    (markWithdrawn i s).store = s.store ∧ (markWithdrawn i s).link = s.link ∧ (markWithdrawn i s).owed = s.owed ∧
    (markWithdrawn i s).freeUses = s.freeUses ∧ (markWithdrawn i s).pending = s.pending := by
  unfold markWithdrawn
  repeat' split
  all_goals simp

@[simp] theorem markWithdrawn_sched (i : Nat) (s : State) :
    (markWithdrawn i s).sched.hold = s.sched.hold ∧ (markWithdrawn i s).sched.probes = s.sched.probes := by
  unfold markWithdrawn
  repeat' split
  all_goals simp

/-- A receiver's probes withdrawn. -/
@[simp] theorem withdrawProbes_frame (i : Nat) (s : State) :
    (withdrawProbes i s).powered = s.powered ∧ (withdrawProbes i s).params = s.params ∧
    (withdrawProbes i s).tb = s.tb ∧ (withdrawProbes i s).orders = s.orders ∧ (withdrawProbes i s).table = s.table ∧
    (withdrawProbes i s).engine = s.engine ∧ (withdrawProbes i s).carrier = s.carrier ∧
    (withdrawProbes i s).driver = s.driver ∧ (withdrawProbes i s).answer = s.answer ∧
    (withdrawProbes i s).store = s.store ∧ (withdrawProbes i s).owed = s.owed ∧
    (withdrawProbes i s).pending = s.pending := by
  unfold withdrawProbes
  exact ⟨(foldl_same (g := State.powered) (by simp) _ _).trans rfl,
    (foldl_same (g := State.params) (by simp) _ _).trans rfl,
    (foldl_same (g := State.tb) (by simp) _ _).trans rfl,
    (foldl_same (g := State.orders) (by simp) _ _).trans rfl,
    (foldl_same (g := State.table) (by simp) _ _).trans rfl,
    (foldl_same (g := State.engine) (by simp) _ _).trans rfl,
    (foldl_same (g := State.carrier) (by simp) _ _).trans rfl,
    (foldl_same (g := State.driver) (by simp) _ _).trans rfl,
    (foldl_same (g := State.answer) (by simp) _ _).trans rfl,
    (foldl_same (g := State.store) (by simp) _ _).trans rfl,
    (foldl_same (g := State.owed) (by simp) _ _).trans rfl,
    (foldl_same (g := State.pending) (by simp) _ _).trans rfl⟩

@[simp] theorem withdrawProbes_link (i : Nat) (s : State) :
    (withdrawProbes i s).link.rate = s.link.rate ∧ (withdrawProbes i s).link.receive = s.link.receive ∧
    (withdrawProbes i s).link.assembly = s.link.assembly ∧ (withdrawProbes i s).link.buffer = s.link.buffer ∧
    (withdrawProbes i s).link.inHand = s.link.inHand ∧ (withdrawProbes i s).link.replies = s.link.replies ∧
    (withdrawProbes i s).link.counters = s.link.counters ∧ (withdrawProbes i s).link.sending = s.link.sending := by
  unfold withdrawProbes
  exact ⟨(foldl_same (g := fun t => t.link.rate) (by simp) _ _).trans rfl,
    (foldl_same (g := fun t => t.link.receive) (by simp) _ _).trans rfl,
    (foldl_same (g := fun t => t.link.assembly) (by simp) _ _).trans rfl,
    (foldl_same (g := fun t => t.link.buffer) (by simp) _ _).trans rfl,
    (foldl_same (g := fun t => t.link.inHand) (by simp) _ _).trans rfl,
    (foldl_same (g := fun t => t.link.replies) (by simp) _ _).trans rfl,
    (foldl_same (g := fun t => t.link.counters) (by simp) _ _).trans rfl,
    (foldl_same (g := fun t => t.link.sending) (by simp) _ _).trans rfl⟩

@[simp] theorem withdrawProbes_sched (i : Nat) (s : State) : (withdrawProbes i s).sched =
    { s.sched with probes := s.sched.probes.filter (·.index != i) } := by
  unfold withdrawProbes
  exact (foldl_same (g := State.sched) (by simp) _ _).trans rfl

end Sys2Proof.Machine
end

