-- ==== Sys2Proof/Laws/Timebase.lean ====
section
/-! SUPPORT. What the Timebase's operations can change: the steps that follow a count advance, the reference and the device
timebase states, and crossings. -/

namespace Sys2Proof.Machine

/-- The beacon timer's expiry. -/
@[simp] theorem expireBeaconTimer_frame (s : State) :
    (expireBeaconTimer s).powered = s.powered ∧ (expireBeaconTimer s).params = s.params ∧
    (expireBeaconTimer s).orders = s.orders ∧ (expireBeaconTimer s).table = s.table ∧
    (expireBeaconTimer s).sched = s.sched ∧ (expireBeaconTimer s).engine = s.engine ∧
    (expireBeaconTimer s).carrier = s.carrier ∧ (expireBeaconTimer s).driver = s.driver ∧
    (expireBeaconTimer s).answer = s.answer ∧ (expireBeaconTimer s).store = s.store ∧
    (expireBeaconTimer s).link = s.link ∧ (expireBeaconTimer s).freeUses = s.freeUses ∧
    (expireBeaconTimer s).pending = s.pending := by
  unfold expireBeaconTimer
  split <;> simp

/-- The save cadence. -/
@[simp] theorem saveCount_frame (s : State) :
    (saveCount s).powered = s.powered ∧ (saveCount s).params = s.params ∧ (saveCount s).orders = s.orders ∧
    (saveCount s).table = s.table ∧ (saveCount s).sched = s.sched ∧ (saveCount s).engine = s.engine ∧
    (saveCount s).carrier = s.carrier ∧ (saveCount s).driver = s.driver ∧ (saveCount s).answer = s.answer ∧
    (saveCount s).link = s.link ∧ (saveCount s).owed = s.owed ∧ (saveCount s).freeUses = s.freeUses ∧
    (saveCount s).pending = s.pending := by
  unfold saveCount
  split <;> simp

@[simp] theorem saveCount_store (s : State) :
    (saveCount s).store.config = s.store.config ∧ (saveCount s).store.savedCount = s.store.savedCount ∧
    (saveCount s).store.orders = s.store.orders ∧ (saveCount s).store.receivers = s.store.receivers ∧
    (saveCount s).store.corrections = s.store.corrections ∧ (saveCount s).store.scrubNext = s.store.scrubNext ∧
    (saveCount s).store.scrubPace = s.store.scrubPace ∧ (saveCount s).store.scrubDue = s.store.scrubDue ∧
    (saveCount s).store.wiping = s.store.wiping ∧ (saveCount s).store.restoring = s.store.restoring := by
  unfold saveCount
  split <;> simp

/-- OUTAGE entered. -/
@[simp] theorem enterOutage_frame (s : State) :
    (enterOutage s).powered = s.powered ∧ (enterOutage s).params = s.params ∧ (enterOutage s).carrier = s.carrier ∧
    (enterOutage s).pending = s.pending := by
  simp [enterOutage]

@[simp] theorem enterOutage_link (s : State) :
    (enterOutage s).link.rate = s.link.rate ∧ (enterOutage s).link.receive = s.link.receive ∧
    (enterOutage s).link.assembly = s.link.assembly ∧ (enterOutage s).link.buffer = s.link.buffer ∧
    (enterOutage s).link.inHand = s.link.inHand ∧ (enterOutage s).link.replies = s.link.replies ∧
    (enterOutage s).link.counters = s.link.counters ∧ (enterOutage s).link.sending = s.link.sending := by
  simp [enterOutage]

@[simp] theorem enterOutage_sched (s : State) :
    (enterOutage s).sched.hold = s.sched.hold ∧ (enterOutage s).sched.probes = s.sched.probes := by
  simp [enterOutage]

@[simp] theorem enterOutage_engine (s : State) :
    (enterOutage s).engine.seen = s.engine.seen ∧ (enterOutage s).engine.opened = s.engine.opened ∧
    (enterOutage s).engine.displacement = s.engine.displacement ∧ (enterOutage s).engine.folded = s.engine.folded := by
  simp [enterOutage]

@[simp] theorem enterOutage_driver (s : State) :
    (enterOutage s).driver.buffer = s.driver.buffer ∧ (enterOutage s).driver.legLevel = s.driver.legLevel ∧
    (enterOutage s).driver.cap = s.driver.cap ∧ (enterOutage s).driver.recovery = s.driver.recovery ∧
    (enterOutage s).driver.history = s.driver.history ∧ (enterOutage s).driver.state = s.driver.state ∧
    (enterOutage s).driver.cool = s.driver.cool := by
  simp [enterOutage]

/-- The reference moved. -/
@[simp] theorem moveReference_frame (c : TimebaseCause) (p : Phase) (s : State) :
    (moveReference c p s).powered = s.powered ∧ (moveReference c p s).params = s.params ∧
    (moveReference c p s).orders = s.orders ∧ (moveReference c p s).table = s.table ∧
    (moveReference c p s).sched = s.sched ∧ (moveReference c p s).engine = s.engine ∧
    (moveReference c p s).carrier = s.carrier ∧ (moveReference c p s).driver = s.driver ∧
    (moveReference c p s).answer = s.answer ∧ (moveReference c p s).store = s.store ∧
    (moveReference c p s).owed = s.owed ∧ (moveReference c p s).freeUses = s.freeUses ∧
    (moveReference c p s).pending = s.pending := by
  simp [moveReference]

@[simp] theorem moveReference_link (c : TimebaseCause) (p : Phase) (s : State) :
    (moveReference c p s).link.rate = s.link.rate ∧ (moveReference c p s).link.receive = s.link.receive ∧
    (moveReference c p s).link.assembly = s.link.assembly ∧ (moveReference c p s).link.buffer = s.link.buffer ∧
    (moveReference c p s).link.inHand = s.link.inHand ∧ (moveReference c p s).link.replies = s.link.replies ∧
    (moveReference c p s).link.counters = s.link.counters ∧ (moveReference c p s).link.sending = s.link.sending := by
  simp [moveReference]

/-- The reference checked. -/
@[simp] theorem checkReference_frame (s : State) :
    (checkReference s).powered = s.powered ∧ (checkReference s).params = s.params ∧
    (checkReference s).carrier = s.carrier ∧ (checkReference s).pending = s.pending := by
  unfold checkReference
  repeat' split
  all_goals simp

@[simp] theorem checkReference_link (s : State) :
    (checkReference s).link.rate = s.link.rate ∧ (checkReference s).link.receive = s.link.receive ∧
    (checkReference s).link.assembly = s.link.assembly ∧ (checkReference s).link.buffer = s.link.buffer ∧
    (checkReference s).link.inHand = s.link.inHand ∧ (checkReference s).link.replies = s.link.replies ∧
    (checkReference s).link.counters = s.link.counters ∧ (checkReference s).link.sending = s.link.sending := by
  unfold checkReference
  repeat' split
  all_goals simp

@[simp] theorem checkReference_sched (s : State) :
    (checkReference s).sched.hold = s.sched.hold ∧ (checkReference s).sched.probes = s.sched.probes := by
  unfold checkReference
  repeat' split
  all_goals simp

@[simp] theorem checkReference_engine (s : State) :
    (checkReference s).engine.seen = s.engine.seen ∧ (checkReference s).engine.opened = s.engine.opened ∧
    (checkReference s).engine.displacement = s.engine.displacement ∧
    (checkReference s).engine.folded = s.engine.folded := by
  unfold checkReference
  repeat' split
  all_goals simp

@[simp] theorem checkReference_driver (s : State) :
    (checkReference s).driver.buffer = s.driver.buffer ∧ (checkReference s).driver.legLevel = s.driver.legLevel ∧
    (checkReference s).driver.cap = s.driver.cap ∧ (checkReference s).driver.recovery = s.driver.recovery ∧
    (checkReference s).driver.history = s.driver.history ∧ (checkReference s).driver.state = s.driver.state ∧
    (checkReference s).driver.cool = s.driver.cool := by
  unfold checkReference
  repeat' split
  all_goals simp

/-- SETTLING entered. -/
@[simp] theorem enterSettling_frame (p : Phase) (s : State) :
    (enterSettling p s).powered = s.powered ∧ (enterSettling p s).params = s.params ∧
    (enterSettling p s).orders = s.orders ∧ (enterSettling p s).table = s.table ∧
    (enterSettling p s).sched = s.sched ∧ (enterSettling p s).engine = s.engine ∧
    (enterSettling p s).carrier = s.carrier ∧ (enterSettling p s).driver = s.driver ∧
    (enterSettling p s).answer = s.answer ∧ (enterSettling p s).store = s.store ∧ (enterSettling p s).owed = s.owed ∧
    (enterSettling p s).freeUses = s.freeUses ∧ (enterSettling p s).pending = s.pending := by
  simp [enterSettling]

@[simp] theorem enterSettling_link (p : Phase) (s : State) :
    (enterSettling p s).link.rate = s.link.rate ∧ (enterSettling p s).link.receive = s.link.receive ∧
    (enterSettling p s).link.assembly = s.link.assembly ∧ (enterSettling p s).link.buffer = s.link.buffer ∧
    (enterSettling p s).link.inHand = s.link.inHand ∧ (enterSettling p s).link.replies = s.link.replies ∧
    (enterSettling p s).link.counters = s.link.counters ∧ (enterSettling p s).link.sending = s.link.sending := by
  simp [enterSettling]

/-- A phase locked. -/
@[simp] theorem phaseLocked_frame (p : Phase) (s : State) :
    (phaseLocked p s).powered = s.powered ∧ (phaseLocked p s).params = s.params ∧
    (phaseLocked p s).orders = s.orders ∧ (phaseLocked p s).table = s.table ∧ (phaseLocked p s).sched = s.sched ∧
    (phaseLocked p s).engine = s.engine ∧ (phaseLocked p s).carrier = s.carrier ∧
    (phaseLocked p s).driver = s.driver ∧ (phaseLocked p s).answer = s.answer ∧ (phaseLocked p s).store = s.store ∧
    (phaseLocked p s).owed = s.owed ∧ (phaseLocked p s).freeUses = s.freeUses ∧
    (phaseLocked p s).pending = s.pending := by
  unfold phaseLocked
  repeat' split
  all_goals simp

@[simp] theorem phaseLocked_link (p : Phase) (s : State) :
    (phaseLocked p s).link.rate = s.link.rate ∧ (phaseLocked p s).link.receive = s.link.receive ∧
    (phaseLocked p s).link.assembly = s.link.assembly ∧ (phaseLocked p s).link.buffer = s.link.buffer ∧
    (phaseLocked p s).link.inHand = s.link.inHand ∧ (phaseLocked p s).link.replies = s.link.replies ∧
    (phaseLocked p s).link.counters = s.link.counters ∧ (phaseLocked p s).link.sending = s.link.sending := by
  unfold phaseLocked
  repeat' split
  all_goals simp

/-- The end of settling. -/
@[simp] theorem endSettling_frame (s : State) :
    (endSettling s).powered = s.powered ∧ (endSettling s).params = s.params ∧ (endSettling s).orders = s.orders ∧
    (endSettling s).table = s.table ∧ (endSettling s).sched = s.sched ∧ (endSettling s).engine = s.engine ∧
    (endSettling s).carrier = s.carrier ∧ (endSettling s).driver = s.driver ∧ (endSettling s).answer = s.answer ∧
    (endSettling s).store = s.store ∧ (endSettling s).freeUses = s.freeUses ∧ (endSettling s).pending = s.pending := by
  unfold endSettling
  dsimp only
  repeat' split
  all_goals simp

@[simp] theorem endSettling_link (s : State) :
    (endSettling s).link.rate = s.link.rate ∧ (endSettling s).link.receive = s.link.receive ∧
    (endSettling s).link.assembly = s.link.assembly ∧ (endSettling s).link.buffer = s.link.buffer ∧
    (endSettling s).link.inHand = s.link.inHand ∧ (endSettling s).link.replies = s.link.replies ∧
    (endSettling s).link.counters = s.link.counters ∧ (endSettling s).link.sending = s.link.sending := by
  unfold endSettling
  dsimp only
  repeat' split
  all_goals simp

/-- The end of settling where it is owed. -/
@[simp] theorem meetSettling_frame (s : State) :
    (meetSettling s).powered = s.powered ∧ (meetSettling s).params = s.params ∧ (meetSettling s).orders = s.orders ∧
    (meetSettling s).table = s.table ∧ (meetSettling s).sched = s.sched ∧ (meetSettling s).engine = s.engine ∧
    (meetSettling s).carrier = s.carrier ∧ (meetSettling s).driver = s.driver ∧ (meetSettling s).answer = s.answer ∧
    (meetSettling s).store = s.store ∧ (meetSettling s).freeUses = s.freeUses ∧
    (meetSettling s).pending = s.pending := by
  unfold meetSettling
  split <;> simp

@[simp] theorem meetSettling_link (s : State) :
    (meetSettling s).link.rate = s.link.rate ∧ (meetSettling s).link.receive = s.link.receive ∧
    (meetSettling s).link.assembly = s.link.assembly ∧ (meetSettling s).link.buffer = s.link.buffer ∧
    (meetSettling s).link.inHand = s.link.inHand ∧ (meetSettling s).link.replies = s.link.replies ∧
    (meetSettling s).link.counters = s.link.counters ∧ (meetSettling s).link.sending = s.link.sending := by
  unfold meetSettling
  split <;> simp

/-- A silence count judged. -/
@[simp] theorem timeOutSilence_frame (s : State) (p : Phase) :
    (timeOutSilence s p).powered = s.powered ∧ (timeOutSilence s p).params = s.params ∧
    (timeOutSilence s p).orders = s.orders ∧ (timeOutSilence s p).table = s.table ∧
    (timeOutSilence s p).sched = s.sched ∧ (timeOutSilence s p).engine = s.engine ∧
    (timeOutSilence s p).carrier = s.carrier ∧ (timeOutSilence s p).driver = s.driver ∧
    (timeOutSilence s p).answer = s.answer ∧ (timeOutSilence s p).store = s.store ∧
    (timeOutSilence s p).link = s.link ∧ (timeOutSilence s p).owed = s.owed ∧
    (timeOutSilence s p).freeUses = s.freeUses ∧ (timeOutSilence s p).pending = s.pending := by
  unfold timeOutSilence
  dsimp only
  repeat' split
  all_goals simp

/-- A cool-down judged. -/
@[simp] theorem endCoolDown_frame (s : State) :
    (endCoolDown s).powered = s.powered ∧ (endCoolDown s).params = s.params ∧ (endCoolDown s).tb = s.tb ∧
    (endCoolDown s).orders = s.orders ∧ (endCoolDown s).table = s.table ∧ (endCoolDown s).sched = s.sched ∧
    (endCoolDown s).engine = s.engine ∧ (endCoolDown s).carrier = s.carrier ∧ (endCoolDown s).answer = s.answer ∧
    (endCoolDown s).store = s.store ∧ (endCoolDown s).owed = s.owed ∧ (endCoolDown s).freeUses = s.freeUses ∧
    (endCoolDown s).pending = s.pending := by
  unfold endCoolDown
  split <;> simp

@[simp] theorem endCoolDown_link (s : State) :
    (endCoolDown s).link.rate = s.link.rate ∧ (endCoolDown s).link.receive = s.link.receive ∧
    (endCoolDown s).link.assembly = s.link.assembly ∧ (endCoolDown s).link.buffer = s.link.buffer ∧
    (endCoolDown s).link.inHand = s.link.inHand ∧ (endCoolDown s).link.replies = s.link.replies ∧
    (endCoolDown s).link.counters = s.link.counters ∧ (endCoolDown s).link.sending = s.link.sending := by
  unfold endCoolDown
  split <;> simp

@[simp] theorem endCoolDown_driver (s : State) :
    (endCoolDown s).driver.buffer = s.driver.buffer ∧ (endCoolDown s).driver.legLevel = s.driver.legLevel ∧
    (endCoolDown s).driver.openLeg = s.driver.openLeg ∧ (endCoolDown s).driver.cap = s.driver.cap ∧
    (endCoolDown s).driver.recovery = s.driver.recovery ∧ (endCoolDown s).driver.history = s.driver.history ∧
    (endCoolDown s).driver.windows = s.driver.windows := by
  unfold endCoolDown
  split <;> simp

/-- A recovery judged. -/
@[simp] theorem recoverCap_frame (s : State) :
    (recoverCap s).powered = s.powered ∧ (recoverCap s).params = s.params ∧ (recoverCap s).tb = s.tb ∧
    (recoverCap s).orders = s.orders ∧ (recoverCap s).table = s.table ∧ (recoverCap s).sched = s.sched ∧
    (recoverCap s).engine = s.engine ∧ (recoverCap s).carrier = s.carrier ∧ (recoverCap s).answer = s.answer ∧
    (recoverCap s).store = s.store ∧ (recoverCap s).link = s.link ∧ (recoverCap s).owed = s.owed ∧
    (recoverCap s).freeUses = s.freeUses ∧ (recoverCap s).pending = s.pending := by
  unfold recoverCap
  split <;> simp

/-- The silence counts of the three phases judged. -/
@[simp] theorem timeOutAll_frame (s : State) :
    let t := Phase.all.foldl timeOutSilence s
    t.powered = s.powered ∧ t.params = s.params ∧ t.orders = s.orders ∧ t.table = s.table ∧ t.sched = s.sched ∧
      t.engine = s.engine ∧ t.carrier = s.carrier ∧ t.driver = s.driver ∧ t.answer = s.answer ∧ t.store = s.store ∧
      t.link = s.link ∧ t.owed = s.owed ∧ t.freeUses = s.freeUses ∧ t.pending = s.pending := by
  simp [Phase.all]

/-- What the last count advance owes, made. -/
@[simp] theorem catchUp_frame (s : State) :
    (catchUp s).powered = s.powered ∧ (catchUp s).params = s.params ∧ (catchUp s).sched = s.sched ∧
    (catchUp s).engine = s.engine ∧ (catchUp s).carrier = s.carrier ∧ (catchUp s).answer = s.answer ∧
    (catchUp s).freeUses = s.freeUses ∧ (catchUp s).pending = s.pending := by
  simp [catchUp]

@[simp] theorem catchUp_link (s : State) :
    (catchUp s).link.rate = s.link.rate ∧ (catchUp s).link.receive = s.link.receive ∧
    (catchUp s).link.assembly = s.link.assembly ∧ (catchUp s).link.buffer = s.link.buffer ∧
    (catchUp s).link.inHand = s.link.inHand ∧ (catchUp s).link.replies = s.link.replies ∧
    (catchUp s).link.counters = s.link.counters ∧ (catchUp s).link.sending = s.link.sending := by
  simp [catchUp]

/-- A count advance. -/
@[simp] theorem countAdvance_frame (time : Nat) (s : State) :
    (countAdvance time s).powered = s.powered ∧ (countAdvance time s).params = s.params ∧
    (countAdvance time s).engine = s.engine ∧ (countAdvance time s).carrier = s.carrier ∧
    (countAdvance time s).answer = s.answer ∧ (countAdvance time s).freeUses = s.freeUses ∧
    (countAdvance time s).pending = s.pending := by
  simp [countAdvance]

@[simp] theorem countAdvance_link (time : Nat) (s : State) :
    (countAdvance time s).link.rate = s.link.rate ∧ (countAdvance time s).link.receive = s.link.receive ∧
    (countAdvance time s).link.assembly = s.link.assembly ∧ (countAdvance time s).link.buffer = s.link.buffer ∧
    (countAdvance time s).link.inHand = s.link.inHand ∧ (countAdvance time s).link.replies = s.link.replies ∧
    (countAdvance time s).link.counters = s.link.counters ∧ (countAdvance time s).link.sending = s.link.sending := by
  simp [countAdvance]

/-- A crossing handed on. -/
@[simp] theorem handOn_frame (p : Phase) (time : Nat) (s : State) :
    (handOn p time s).powered = s.powered ∧ (handOn p time s).params = s.params ∧
    (handOn p time s).orders = s.orders ∧ (handOn p time s).table = s.table ∧ (handOn p time s).sched = s.sched ∧
    (handOn p time s).carrier = s.carrier ∧ (handOn p time s).answer = s.answer ∧ (handOn p time s).store = s.store ∧
    (handOn p time s).link = s.link ∧ (handOn p time s).owed = s.owed ∧ (handOn p time s).freeUses = s.freeUses ∧
    (handOn p time s).pending = s.pending := by
  unfold handOn
  dsimp only
  repeat' split
  all_goals simp

/-- A crossing handed on leaves the Line Driver and every cell window as they are. -/
@[simp] theorem handOn_driver (p : Phase) (time : Nat) (s : State) : (handOn p time s).driver = s.driver := by
  unfold handOn
  dsimp only
  repeat' split
  all_goals simp

@[simp] theorem handOn_engine (p : Phase) (time : Nat) (s : State) :
    (handOn p time s).engine.state = s.engine.state ∧ (handOn p time s).engine.transmission = s.engine.transmission ∧
    (handOn p time s).engine.live = s.engine.live ∧ (handOn p time s).engine.opened = s.engine.opened ∧
    (handOn p time s).engine.displacement = s.engine.displacement ∧
    (handOn p time s).engine.folded = s.engine.folded ∧ (handOn p time s).engine.abortCause = s.engine.abortCause ∧
    (handOn p time s).engine.outcome = s.engine.outcome ∧ (handOn p time s).engine.report = s.engine.report ∧
    (handOn p time s).engine.withheld = s.engine.withheld := by
  unfold handOn
  dsimp only
  repeat' split
  all_goals simp

/-- A crossing. -/
@[simp] theorem crossing_frame (p : Phase) (time : Nat) (s : State) :
    (crossing p time s).powered = s.powered ∧ (crossing p time s).params = s.params ∧
    (crossing p time s).carrier = s.carrier ∧ (crossing p time s).answer = s.answer ∧
    (crossing p time s).freeUses = s.freeUses ∧ (crossing p time s).pending = s.pending := by
  unfold crossing
  dsimp only
  repeat' split
  all_goals simp

@[simp] theorem crossing_link (p : Phase) (time : Nat) (s : State) :
    (crossing p time s).link.rate = s.link.rate ∧ (crossing p time s).link.receive = s.link.receive ∧
    (crossing p time s).link.assembly = s.link.assembly ∧ (crossing p time s).link.buffer = s.link.buffer ∧
    (crossing p time s).link.inHand = s.link.inHand ∧ (crossing p time s).link.replies = s.link.replies ∧
    (crossing p time s).link.counters = s.link.counters ∧ (crossing p time s).link.sending = s.link.sending := by
  unfold crossing
  dsimp only
  repeat' split
  all_goals simp

/-- COASTING entered. -/
@[simp] theorem enterCoasting_frame (p : Phase) (s : State) :
    (enterCoasting p s).powered = s.powered ∧ (enterCoasting p s).params = s.params ∧
    (enterCoasting p s).carrier = s.carrier ∧ (enterCoasting p s).pending = s.pending := by
  simp [enterCoasting]

@[simp] theorem enterCoasting_link (p : Phase) (s : State) :
    (enterCoasting p s).link.rate = s.link.rate ∧ (enterCoasting p s).link.receive = s.link.receive ∧
    (enterCoasting p s).link.assembly = s.link.assembly ∧ (enterCoasting p s).link.buffer = s.link.buffer ∧
    (enterCoasting p s).link.inHand = s.link.inHand ∧ (enterCoasting p s).link.replies = s.link.replies ∧
    (enterCoasting p s).link.counters = s.link.counters ∧ (enterCoasting p s).link.sending = s.link.sending := by
  simp [enterCoasting]

@[simp] theorem enterCoasting_sched (p : Phase) (s : State) :
    (enterCoasting p s).sched.hold = s.sched.hold ∧ (enterCoasting p s).sched.probes = s.sched.probes := by
  simp [enterCoasting]

@[simp] theorem enterCoasting_driver (p : Phase) (s : State) :
    (enterCoasting p s).driver.buffer = s.driver.buffer ∧ (enterCoasting p s).driver.legLevel = s.driver.legLevel ∧
    (enterCoasting p s).driver.cap = s.driver.cap ∧ (enterCoasting p s).driver.recovery = s.driver.recovery ∧
    (enterCoasting p s).driver.history = s.driver.history ∧ (enterCoasting p s).driver.state = s.driver.state ∧
    (enterCoasting p s).driver.cool = s.driver.cool := by
  simp [enterCoasting]

/-- A coast ended. -/
@[simp] theorem endCoast_frame (p : Phase) (s : State) :
    (endCoast p s).powered = s.powered ∧ (endCoast p s).params = s.params ∧ (endCoast p s).carrier = s.carrier ∧
    (endCoast p s).pending = s.pending := by
  simp [endCoast]

@[simp] theorem endCoast_link (p : Phase) (s : State) :
    (endCoast p s).link.rate = s.link.rate ∧ (endCoast p s).link.receive = s.link.receive ∧
    (endCoast p s).link.assembly = s.link.assembly ∧ (endCoast p s).link.buffer = s.link.buffer ∧
    (endCoast p s).link.inHand = s.link.inHand ∧ (endCoast p s).link.replies = s.link.replies ∧
    (endCoast p s).link.counters = s.link.counters ∧ (endCoast p s).link.sending = s.link.sending := by
  simp [endCoast]

@[simp] theorem endCoast_sched (p : Phase) (s : State) :
    (endCoast p s).sched.hold = s.sched.hold ∧ (endCoast p s).sched.probes = s.sched.probes := by
  simp [endCoast]

@[simp] theorem endCoast_driver (p : Phase) (s : State) :
    (endCoast p s).driver.buffer = s.driver.buffer ∧ (endCoast p s).driver.legLevel = s.driver.legLevel ∧
    (endCoast p s).driver.cap = s.driver.cap ∧ (endCoast p s).driver.recovery = s.driver.recovery ∧
    (endCoast p s).driver.history = s.driver.history ∧ (endCoast p s).driver.state = s.driver.state ∧
    (endCoast p s).driver.cool = s.driver.cool := by
  simp [endCoast]

/-- A window closed. -/
@[simp] theorem closeWindow_frame (p : Phase) (s : State) :
    (closeWindow p s).powered = s.powered ∧ (closeWindow p s).params = s.params ∧
    (closeWindow p s).carrier = s.carrier ∧ (closeWindow p s).pending = s.pending := by
  unfold closeWindow
  dsimp only
  repeat' split
  all_goals simp

@[simp] theorem closeWindow_link (p : Phase) (s : State) :
    (closeWindow p s).link.rate = s.link.rate ∧ (closeWindow p s).link.receive = s.link.receive ∧
    (closeWindow p s).link.assembly = s.link.assembly ∧ (closeWindow p s).link.buffer = s.link.buffer ∧
    (closeWindow p s).link.inHand = s.link.inHand ∧ (closeWindow p s).link.replies = s.link.replies ∧
    (closeWindow p s).link.counters = s.link.counters ∧ (closeWindow p s).link.sending = s.link.sending := by
  unfold closeWindow
  dsimp only
  repeat' split
  all_goals simp

/-- A derived crossing. -/
@[simp] theorem deriveCrossing_frame (p : Phase) (s : State) :
    (deriveCrossing p s).powered = s.powered ∧ (deriveCrossing p s).params = s.params ∧
    (deriveCrossing p s).carrier = s.carrier ∧ (deriveCrossing p s).answer = s.answer ∧
    (deriveCrossing p s).freeUses = s.freeUses ∧ (deriveCrossing p s).pending = s.pending := by
  unfold deriveCrossing
  dsimp only
  repeat' split
  all_goals simp

@[simp] theorem deriveCrossing_link (p : Phase) (s : State) :
    (deriveCrossing p s).link.rate = s.link.rate ∧ (deriveCrossing p s).link.receive = s.link.receive ∧
    (deriveCrossing p s).link.assembly = s.link.assembly ∧ (deriveCrossing p s).link.buffer = s.link.buffer ∧
    (deriveCrossing p s).link.inHand = s.link.inHand ∧ (deriveCrossing p s).link.replies = s.link.replies ∧
    (deriveCrossing p s).link.counters = s.link.counters ∧ (deriveCrossing p s).link.sending = s.link.sending := by
  unfold deriveCrossing
  dsimp only
  repeat' split
  all_goals simp

/-- A tracker's step. -/
@[simp] theorem respond_frame (p : Phase) (time : Nat) (s : State) (x : TrackerStep) :
    (respond p time s x).powered = s.powered ∧ (respond p time s x).params = s.params ∧
    (respond p time s x).carrier = s.carrier ∧ (respond p time s x).answer = s.answer ∧
    (respond p time s x).freeUses = s.freeUses ∧ (respond p time s x).pending = s.pending := by
  unfold respond
  repeat' split
  all_goals simp

@[simp] theorem respond_link (p : Phase) (time : Nat) (s : State) (x : TrackerStep) :
    (respond p time s x).link.rate = s.link.rate ∧ (respond p time s x).link.receive = s.link.receive ∧
    (respond p time s x).link.assembly = s.link.assembly ∧ (respond p time s x).link.buffer = s.link.buffer ∧
    (respond p time s x).link.inHand = s.link.inHand ∧ (respond p time s x).link.replies = s.link.replies ∧
    (respond p time s x).link.counters = s.link.counters ∧ (respond p time s x).link.sending = s.link.sending := by
  unfold respond
  repeat' split
  all_goals simp

/-- A run of samples. -/
@[simp] theorem takeEdge_frame (p : Phase) (time : Nat) (l : Bool) (r : Nat) (s : State) :
    (takeEdge p time l r s).powered = s.powered ∧ (takeEdge p time l r s).params = s.params ∧
    (takeEdge p time l r s).carrier = s.carrier ∧ (takeEdge p time l r s).answer = s.answer ∧
    (takeEdge p time l r s).freeUses = s.freeUses ∧ (takeEdge p time l r s).pending = s.pending := by
  simp [takeEdge]

@[simp] theorem takeEdge_link (p : Phase) (time : Nat) (l : Bool) (r : Nat) (s : State) :
    (takeEdge p time l r s).link.rate = s.link.rate ∧ (takeEdge p time l r s).link.receive = s.link.receive ∧
    (takeEdge p time l r s).link.assembly = s.link.assembly ∧ (takeEdge p time l r s).link.buffer = s.link.buffer ∧
    (takeEdge p time l r s).link.inHand = s.link.inHand ∧ (takeEdge p time l r s).link.replies = s.link.replies ∧
    (takeEdge p time l r s).link.counters = s.link.counters ∧ (takeEdge p time l r s).link.sending = s.link.sending := by
  simp [takeEdge]

/-- A crystal advance. -/
@[simp] theorem crystalStep_frame (s : State) :
    (crystalStep s).powered = s.powered ∧ (crystalStep s).params = s.params ∧ (crystalStep s).engine = s.engine ∧
    (crystalStep s).carrier = s.carrier ∧ (crystalStep s).answer = s.answer ∧ (crystalStep s).freeUses = s.freeUses ∧
    (crystalStep s).pending = s.pending := by
  simp [crystalStep]

@[simp] theorem crystalStep_link (s : State) :
    (crystalStep s).link.rate = s.link.rate ∧ (crystalStep s).link.receive = s.link.receive ∧
    (crystalStep s).link.assembly = s.link.assembly ∧ (crystalStep s).link.buffer = s.link.buffer ∧
    (crystalStep s).link.inHand = s.link.inHand ∧ (crystalStep s).link.replies = s.link.replies ∧
    (crystalStep s).link.counters = s.link.counters ∧ (crystalStep s).link.sending = s.link.sending := by
  simp [crystalStep]

/-- A tracker restarted. -/
@[simp] theorem restartTracker_frame (s : State) (p : Phase) :
    (restartTracker s p).powered = s.powered ∧ (restartTracker s p).params = s.params ∧
    (restartTracker s p).orders = s.orders ∧ (restartTracker s p).table = s.table ∧
    (restartTracker s p).sched = s.sched ∧ (restartTracker s p).engine = s.engine ∧
    (restartTracker s p).carrier = s.carrier ∧ (restartTracker s p).driver = s.driver ∧
    (restartTracker s p).answer = s.answer ∧ (restartTracker s p).store = s.store ∧
    (restartTracker s p).link = s.link ∧ (restartTracker s p).owed = s.owed ∧
    (restartTracker s p).freeUses = s.freeUses ∧ (restartTracker s p).pending = s.pending := by
  simp [restartTracker]

end Sys2Proof.Machine
end

