-- ==== Sys2Proof/Laws/Link.lean ====
section
/-! SUPPORT. What requests, parameters, the link and the resets can change. -/

namespace Sys2Proof.Machine

/-! ## Requests (R172) -/

/-- The request to take, and what it says of the state. -/
theorem oldest_some {s : State} {q : Request} (h : s.oldest = some q) :
    s.powered = true ∧ s.store.restoring = false ∧ s.store.wiping = none ∧ s.link.inHand = none ∧
      (∀ r ∈ s.link.replies, r.taken = false) ∧ s.link.buffer = q :: s.link.buffer.tail := by
  unfold State.oldest at h
  split at h
  · rename_i hm
    simp only [State.mayTake, State.working, Bool.and_eq_true, Bool.not_eq_true', Option.isNone_iff_eq_none,
      List.any_eq_false] at hm
    obtain ⟨⟨⟨⟨hp, hr⟩, hw⟩, hi⟩, ht⟩ := hm
    refine ⟨hp, hr, hw, hi, fun r hr' => by simpa using ht r hr', ?_⟩
    cases hb : s.link.buffer with
    | nil => simp [hb] at h
    | cons x l => simp [hb] at h; simp [h]
  · simp at h

/-- A command that takes requests answers a next state: the request handled, or the state as it was. -/
theorem takeRequest_eq (mine : Request → Bool) (h : Request → State → Handled) (s : State) :
    takeRequest mine h s = .next (match s.oldest with
      | none => s
      | some q => if mine q then answerRequest q h s else s) := by
  unfold takeRequest
  split <;> simp_all [when]

theorem takeRequest_mine {mine : Request → Bool} {h : Request → State → Handled} {s : State} {q : Request}
    (ho : s.oldest = some q) (hm : mine q = true) : takeRequest mine h s = .next (answerRequest q h s) := by
  simp [takeRequest_eq, ho, hm]

/-- A readable request of the command's kind: its owner's handling on the state without it, and the reply. -/
theorem takeKind_read {α : Type} {kind : Byte} {read : List Byte → Option α} {own : Request → α → State → Handled}
    {s : State} {q : Request} {x : α} (ho : s.oldest = some q) (hk : q.kind = kind) (hr : read q.body = some x) :
    takeKind kind read own s = .next (appendReply q (own q x (dropRequest s)).body (own q x (dropRequest s)).after
      (own q x (dropRequest s)).state) := by
  simp [takeKind, takeRequest_eq, ho, hk, answerRequest, readThen, hr]

/-- An unreadable one: BAD_FORMAT, and nothing else changes (R172 step 2). -/
theorem takeKind_unreadable {α : Type} {kind : Byte} {read : List Byte → Option α}
    {own : Request → α → State → Handled} {s : State} {q : Request} (ho : s.oldest = some q) (hk : q.kind = kind)
    (hr : read q.body = none) :
    takeKind kind read own s = .next (appendReply q [resultByte .badFormat] .nothing (dropRequest s)) := by
  simp [takeKind, takeRequest_eq, ho, hk, answerRequest, readThen, hr, refuse]

/-- What no handling of a request changes is not changed by the command that takes it. -/
theorem takeRequest_same {β : Type} {g : State → β} {mine : Request → Bool} {h : Request → State → Handled} {s t : State}
    (hg : ∀ (s : State) (l : HostLink), g { s with link := l } = g s) (hh : ∀ q s, g (h q s).state = g s)
    (ht : takeRequest mine h s = .next t) : g t = g s := by
  rw [takeRequest_eq] at ht
  cases ht
  split
  · rfl
  · split
    · exact (hg _ _).trans ((hh _ _).trans (hg _ _))
    · rfl

/-! ## Parameters -/

/-- One record at a lowered RETRY_MAX. -/
@[simp] theorem exhaustRecord_frame (n : Nat) (s : State) (ir : Nat × Receiver) :
    (exhaustRecord n s ir).powered = s.powered ∧ (exhaustRecord n s ir).params = s.params ∧
    (exhaustRecord n s ir).tb = s.tb ∧ (exhaustRecord n s ir).sched = s.sched ∧
    (exhaustRecord n s ir).engine = s.engine ∧ (exhaustRecord n s ir).carrier = s.carrier ∧
    (exhaustRecord n s ir).driver = s.driver ∧ (exhaustRecord n s ir).answer = s.answer ∧
    (exhaustRecord n s ir).link = s.link ∧ (exhaustRecord n s ir).owed = s.owed ∧
    (exhaustRecord n s ir).freeUses = s.freeUses ∧ (exhaustRecord n s ir).pending = s.pending := by
  unfold exhaustRecord
  dsimp only
  split
  · simp
  · exact ⟨(foldl_same (g := State.powered) (by simp) _ _).trans (by simp),
      (foldl_same (g := State.params) (by simp) _ _).trans (by simp),
      (foldl_same (g := State.tb) (by simp) _ _).trans (by simp),
      (foldl_same (g := State.sched) (by simp) _ _).trans (by simp),
      (foldl_same (g := State.engine) (by simp) _ _).trans (by simp),
      (foldl_same (g := State.carrier) (by simp) _ _).trans (by simp),
      (foldl_same (g := State.driver) (by simp) _ _).trans (by simp),
      (foldl_same (g := State.answer) (by simp) _ _).trans (by simp),
      (foldl_same (g := State.link) (by simp) _ _).trans (by simp),
      (foldl_same (g := State.owed) (by simp) _ _).trans (by simp),
      (foldl_same (g := State.freeUses) (by simp) _ _).trans (by simp),
      (foldl_same (g := State.pending) (by simp) _ _).trans (by simp)⟩

/-- RETRY_MAX lowered. -/
@[simp] theorem retryMaxEffect_frame (n : Nat) (s : State) :
    (retryMaxEffect n s).powered = s.powered ∧ (retryMaxEffect n s).params = s.params ∧
    (retryMaxEffect n s).tb = s.tb ∧ (retryMaxEffect n s).sched = s.sched ∧ (retryMaxEffect n s).engine = s.engine ∧
    (retryMaxEffect n s).carrier = s.carrier ∧ (retryMaxEffect n s).driver = s.driver ∧
    (retryMaxEffect n s).answer = s.answer ∧ (retryMaxEffect n s).link = s.link ∧
    (retryMaxEffect n s).owed = s.owed ∧ (retryMaxEffect n s).freeUses = s.freeUses ∧
    (retryMaxEffect n s).pending = s.pending := by
  unfold retryMaxEffect
  split
  · exact ⟨foldl_same (g := State.powered) (by simp) _ _,
      foldl_same (g := State.params) (by simp) _ _,
      foldl_same (g := State.tb) (by simp) _ _,
      foldl_same (g := State.sched) (by simp) _ _,
      foldl_same (g := State.engine) (by simp) _ _,
      foldl_same (g := State.carrier) (by simp) _ _,
      foldl_same (g := State.driver) (by simp) _ _,
      foldl_same (g := State.answer) (by simp) _ _,
      foldl_same (g := State.link) (by simp) _ _,
      foldl_same (g := State.owed) (by simp) _ _,
      foldl_same (g := State.freeUses) (by simp) _ _,
      foldl_same (g := State.pending) (by simp) _ _⟩
  · simp

/-- LEVEL_MAX written. -/
@[simp] theorem levelMaxEffect_frame (s : State) :
    (levelMaxEffect s).powered = s.powered ∧ (levelMaxEffect s).params = s.params ∧ (levelMaxEffect s).tb = s.tb ∧
    (levelMaxEffect s).orders = s.orders ∧ (levelMaxEffect s).table = s.table ∧ (levelMaxEffect s).sched = s.sched ∧
    (levelMaxEffect s).engine = s.engine ∧ (levelMaxEffect s).carrier = s.carrier ∧
    (levelMaxEffect s).answer = s.answer ∧ (levelMaxEffect s).store = s.store ∧ (levelMaxEffect s).link = s.link ∧
    (levelMaxEffect s).owed = s.owed ∧ (levelMaxEffect s).freeUses = s.freeUses ∧
    (levelMaxEffect s).pending = s.pending := by
  simp [levelMaxEffect]

/-- REF_PHASE written. -/
@[simp] theorem refPhaseEffect_frame (s : State) :
    (refPhaseEffect s).powered = s.powered ∧ (refPhaseEffect s).params = s.params ∧
    (refPhaseEffect s).orders = s.orders ∧ (refPhaseEffect s).table = s.table ∧ (refPhaseEffect s).sched = s.sched ∧
    (refPhaseEffect s).engine = s.engine ∧ (refPhaseEffect s).carrier = s.carrier ∧
    (refPhaseEffect s).driver = s.driver ∧ (refPhaseEffect s).answer = s.answer ∧
    (refPhaseEffect s).store = s.store ∧ (refPhaseEffect s).owed = s.owed ∧
    (refPhaseEffect s).freeUses = s.freeUses ∧ (refPhaseEffect s).pending = s.pending := by
  unfold refPhaseEffect
  dsimp only
  repeat' split
  all_goals simp

@[simp] theorem refPhaseEffect_link (s : State) :
    (refPhaseEffect s).link.rate = s.link.rate ∧ (refPhaseEffect s).link.receive = s.link.receive ∧
    (refPhaseEffect s).link.assembly = s.link.assembly ∧ (refPhaseEffect s).link.buffer = s.link.buffer ∧
    (refPhaseEffect s).link.inHand = s.link.inHand ∧ (refPhaseEffect s).link.replies = s.link.replies ∧
    (refPhaseEffect s).link.counters = s.link.counters ∧ (refPhaseEffect s).link.sending = s.link.sending := by
  unfold refPhaseEffect
  dsimp only
  repeat' split
  all_goals simp

/-- Phases restarted. -/
@[simp] theorem restartPhases_frame (ps : List Phase) (s : State) :
    (restartPhases ps s).powered = s.powered ∧ (restartPhases ps s).params = s.params ∧
    (restartPhases ps s).carrier = s.carrier ∧ (restartPhases ps s).pending = s.pending := by
  unfold restartPhases
  dsimp only
  simp only [checkReference_frame]
  exact ⟨((foldl_same (g := State.powered) (by simp) _ _).trans (foldl_same (g := State.powered) (by simp) _ _)).trans (by simp),
    ((foldl_same (g := State.params) (by simp) _ _).trans (foldl_same (g := State.params) (by simp) _ _)).trans (by simp),
    ((foldl_same (g := State.carrier) (by simp) _ _).trans (foldl_same (g := State.carrier) (by simp) _ _)).trans (by simp),
    ((foldl_same (g := State.pending) (by simp) _ _).trans (foldl_same (g := State.pending) (by simp) _ _)).trans (by simp)⟩

@[simp] theorem restartPhases_link (ps : List Phase) (s : State) :
    (restartPhases ps s).link.rate = s.link.rate ∧ (restartPhases ps s).link.receive = s.link.receive ∧
    (restartPhases ps s).link.assembly = s.link.assembly ∧ (restartPhases ps s).link.buffer = s.link.buffer ∧
    (restartPhases ps s).link.inHand = s.link.inHand ∧ (restartPhases ps s).link.replies = s.link.replies ∧
    (restartPhases ps s).link.counters = s.link.counters ∧ (restartPhases ps s).link.sending = s.link.sending := by
  unfold restartPhases
  dsimp only
  simp only [checkReference_link]
  exact ⟨((foldl_same (g := fun t => t.link.rate) (by simp) _ _).trans (foldl_same (g := fun t => t.link.rate) (by simp) _ _)).trans (by simp),
    ((foldl_same (g := fun t => t.link.receive) (by simp) _ _).trans (foldl_same (g := fun t => t.link.receive) (by simp) _ _)).trans (by simp),
    ((foldl_same (g := fun t => t.link.assembly) (by simp) _ _).trans (foldl_same (g := fun t => t.link.assembly) (by simp) _ _)).trans (by simp),
    ((foldl_same (g := fun t => t.link.buffer) (by simp) _ _).trans (foldl_same (g := fun t => t.link.buffer) (by simp) _ _)).trans (by simp),
    ((foldl_same (g := fun t => t.link.inHand) (by simp) _ _).trans (foldl_same (g := fun t => t.link.inHand) (by simp) _ _)).trans (by simp),
    ((foldl_same (g := fun t => t.link.replies) (by simp) _ _).trans (foldl_same (g := fun t => t.link.replies) (by simp) _ _)).trans (by simp),
    ((foldl_same (g := fun t => t.link.counters) (by simp) _ _).trans (foldl_same (g := fun t => t.link.counters) (by simp) _ _)).trans (by simp),
    ((foldl_same (g := fun t => t.link.sending) (by simp) _ _).trans (foldl_same (g := fun t => t.link.sending) (by simp) _ _)).trans (by simp)⟩

@[simp] theorem restartPhases_sched (ps : List Phase) (s : State) :
    (restartPhases ps s).sched.hold = s.sched.hold ∧ (restartPhases ps s).sched.probes = s.sched.probes := by
  unfold restartPhases
  dsimp only
  simp only [checkReference_sched]
  exact ⟨((foldl_same (g := fun t => t.sched.hold) (by simp) _ _).trans (foldl_same (g := fun t => t.sched.hold) (by simp) _ _)).trans (by simp),
    ((foldl_same (g := fun t => t.sched.probes) (by simp) _ _).trans (foldl_same (g := fun t => t.sched.probes) (by simp) _ _)).trans (by simp)⟩

@[simp] theorem restartPhases_driver (ps : List Phase) (s : State) :
    (restartPhases ps s).driver.buffer = s.driver.buffer ∧ (restartPhases ps s).driver.legLevel = s.driver.legLevel ∧
    (restartPhases ps s).driver.cap = s.driver.cap ∧ (restartPhases ps s).driver.recovery = s.driver.recovery ∧
    (restartPhases ps s).driver.history = s.driver.history ∧ (restartPhases ps s).driver.state = s.driver.state ∧
    (restartPhases ps s).driver.cool = s.driver.cool := by
  unfold restartPhases
  dsimp only
  simp only [checkReference_driver]
  exact ⟨((foldl_same (g := fun t => t.driver.buffer) (by simp) _ _).trans (foldl_same (g := fun t => t.driver.buffer) (by simp) _ _)).trans (by simp),
    ((foldl_same (g := fun t => t.driver.legLevel) (by simp) _ _).trans (foldl_same (g := fun t => t.driver.legLevel) (by simp) _ _)).trans (by simp),
    ((foldl_same (g := fun t => t.driver.cap) (by simp) _ _).trans (foldl_same (g := fun t => t.driver.cap) (by simp) _ _)).trans (by simp),
    ((foldl_same (g := fun t => t.driver.recovery) (by simp) _ _).trans (foldl_same (g := fun t => t.driver.recovery) (by simp) _ _)).trans (by simp),
    ((foldl_same (g := fun t => t.driver.history) (by simp) _ _).trans (foldl_same (g := fun t => t.driver.history) (by simp) _ _)).trans (by simp),
    ((foldl_same (g := fun t => t.driver.state) (by simp) _ _).trans (foldl_same (g := fun t => t.driver.state) (by simp) _ _)).trans (by simp),
    ((foldl_same (g := fun t => t.driver.cool) (by simp) _ _).trans (foldl_same (g := fun t => t.driver.cool) (by simp) _ _)).trans (by simp)⟩

/-- NOMINAL_FREQ written. -/
@[simp] theorem nominalFreqEffect_frame (s : State) :
    (nominalFreqEffect s).powered = s.powered ∧ (nominalFreqEffect s).params = s.params ∧
    (nominalFreqEffect s).carrier = s.carrier ∧ (nominalFreqEffect s).pending = s.pending := by
  unfold nominalFreqEffect
  dsimp only
  repeat' split
  all_goals simp

@[simp] theorem nominalFreqEffect_link (s : State) :
    (nominalFreqEffect s).link.rate = s.link.rate ∧ (nominalFreqEffect s).link.receive = s.link.receive ∧
    (nominalFreqEffect s).link.assembly = s.link.assembly ∧ (nominalFreqEffect s).link.buffer = s.link.buffer ∧
    (nominalFreqEffect s).link.inHand = s.link.inHand ∧ (nominalFreqEffect s).link.replies = s.link.replies ∧
    (nominalFreqEffect s).link.counters = s.link.counters ∧ (nominalFreqEffect s).link.sending = s.link.sending := by
  unfold nominalFreqEffect
  dsimp only
  repeat' split
  all_goals simp

@[simp] theorem nominalFreqEffect_sched (s : State) :
    (nominalFreqEffect s).sched.hold = s.sched.hold ∧ (nominalFreqEffect s).sched.probes = s.sched.probes := by
  unfold nominalFreqEffect
  dsimp only
  repeat' split
  all_goals simp

@[simp] theorem nominalFreqEffect_driver (s : State) :
    (nominalFreqEffect s).driver.buffer = s.driver.buffer ∧
    (nominalFreqEffect s).driver.legLevel = s.driver.legLevel ∧ (nominalFreqEffect s).driver.cap = s.driver.cap ∧
    (nominalFreqEffect s).driver.recovery = s.driver.recovery ∧
    (nominalFreqEffect s).driver.history = s.driver.history ∧ (nominalFreqEffect s).driver.state = s.driver.state ∧
    (nominalFreqEffect s).driver.cool = s.driver.cool := by
  unfold nominalFreqEffect
  dsimp only
  repeat' split
  all_goals simp

/-- LINK_RATE written. -/
@[simp] theorem linkRateEffect_frame (b : Params) (s : State) :
    (linkRateEffect b s).powered = s.powered ∧ (linkRateEffect b s).params = s.params ∧
    (linkRateEffect b s).tb = s.tb ∧ (linkRateEffect b s).orders = s.orders ∧ (linkRateEffect b s).table = s.table ∧
    (linkRateEffect b s).sched = s.sched ∧ (linkRateEffect b s).engine = s.engine ∧
    (linkRateEffect b s).carrier = s.carrier ∧ (linkRateEffect b s).driver = s.driver ∧
    (linkRateEffect b s).answer = s.answer ∧ (linkRateEffect b s).store = s.store ∧
    (linkRateEffect b s).owed = s.owed ∧ (linkRateEffect b s).freeUses = s.freeUses ∧
    (linkRateEffect b s).pending = s.pending := by
  unfold linkRateEffect
  split <;> simp

@[simp] theorem linkRateEffect_link (b : Params) (s : State) :
    (linkRateEffect b s).link.rate = s.link.rate ∧ (linkRateEffect b s).link.receive = s.link.receive ∧
    (linkRateEffect b s).link.assembly = s.link.assembly ∧ (linkRateEffect b s).link.buffer = s.link.buffer ∧
    (linkRateEffect b s).link.inHand = s.link.inHand ∧ (linkRateEffect b s).link.replies = s.link.replies ∧
    (linkRateEffect b s).link.lost = s.link.lost ∧ (linkRateEffect b s).link.counters = s.link.counters ∧
    (linkRateEffect b s).link.sending = s.link.sending := by
  unfold linkRateEffect
  split <;> simp

/-- A taken write's effect. -/
@[simp] theorem paramEffect_frame (b : Params) (s : State) (p : Param) :
    (paramEffect b s p).powered = s.powered ∧ (paramEffect b s p).params = s.params ∧
    (paramEffect b s p).carrier = s.carrier ∧ (paramEffect b s p).pending = s.pending := by
  cases p <;> simp [paramEffect]

@[simp] theorem paramEffect_link (b : Params) (s : State) (p : Param) :
    (paramEffect b s p).link.rate = s.link.rate ∧ (paramEffect b s p).link.receive = s.link.receive ∧
    (paramEffect b s p).link.assembly = s.link.assembly ∧ (paramEffect b s p).link.buffer = s.link.buffer ∧
    (paramEffect b s p).link.inHand = s.link.inHand ∧ (paramEffect b s p).link.replies = s.link.replies ∧
    (paramEffect b s p).link.counters = s.link.counters ∧ (paramEffect b s p).link.sending = s.link.sending := by
  cases p <;> simp [paramEffect]

@[simp] theorem paramEffect_sched (b : Params) (s : State) (p : Param) :
    (paramEffect b s p).sched.hold = s.sched.hold ∧ (paramEffect b s p).sched.probes = s.sched.probes := by
  cases p <;> simp [paramEffect]

/-- Every value given its default. -/
@[simp] theorem applyDefaults_frame (s : State) :
    (applyDefaults s).powered = s.powered ∧ (applyDefaults s).carrier = s.carrier ∧
    (applyDefaults s).pending = s.pending := by
  unfold applyDefaults
  dsimp only
  repeat' split
  all_goals simp

@[simp] theorem applyDefaults_link (s : State) :
    (applyDefaults s).link.rate = s.link.rate ∧ (applyDefaults s).link.receive = s.link.receive ∧
    (applyDefaults s).link.assembly = s.link.assembly ∧ (applyDefaults s).link.buffer = s.link.buffer ∧
    (applyDefaults s).link.inHand = s.link.inHand ∧ (applyDefaults s).link.replies = s.link.replies ∧
    (applyDefaults s).link.counters = s.link.counters ∧ (applyDefaults s).link.sending = s.link.sending := by
  unfold applyDefaults
  dsimp only
  repeat' split
  all_goals simp

@[simp] theorem applyDefaults_sched (s : State) :
    (applyDefaults s).sched.hold = s.sched.hold ∧ (applyDefaults s).sched.probes = s.sched.probes := by
  unfold applyDefaults
  dsimp only
  repeat' split
  all_goals simp

@[simp] theorem applyDefaults_params (s : State) : (applyDefaults s).params = .default := by
  unfold applyDefaults
  dsimp only
  repeat' split
  all_goals simp

/-! ## The link -/

/-- A loss counted. -/
@[simp] theorem countLoss_frame (x : LinkLoss) (s : State) :
    (countLoss x s).powered = s.powered ∧ (countLoss x s).params = s.params ∧ (countLoss x s).tb = s.tb ∧
    (countLoss x s).orders = s.orders ∧ (countLoss x s).table = s.table ∧ (countLoss x s).sched = s.sched ∧
    (countLoss x s).engine = s.engine ∧ (countLoss x s).carrier = s.carrier ∧ (countLoss x s).driver = s.driver ∧
    (countLoss x s).answer = s.answer ∧ (countLoss x s).store = s.store ∧ (countLoss x s).owed = s.owed ∧
    (countLoss x s).freeUses = s.freeUses ∧ (countLoss x s).pending = s.pending := by
  simp [countLoss]

/-- A record discarded. -/
@[simp] theorem discardRecord_frame (x : LinkLoss) (s : State) :
    (discardRecord x s).powered = s.powered ∧ (discardRecord x s).params = s.params ∧ (discardRecord x s).tb = s.tb ∧
    (discardRecord x s).orders = s.orders ∧ (discardRecord x s).table = s.table ∧
    (discardRecord x s).sched = s.sched ∧ (discardRecord x s).engine = s.engine ∧
    (discardRecord x s).carrier = s.carrier ∧ (discardRecord x s).driver = s.driver ∧
    (discardRecord x s).answer = s.answer ∧ (discardRecord x s).store = s.store ∧ (discardRecord x s).owed = s.owed ∧
    (discardRecord x s).freeUses = s.freeUses ∧ (discardRecord x s).pending = s.pending := by
  simp [discardRecord]

theorem noteLink_eq (s : State) : noteLink s = { s with link := (noteLink s).link } := by
  unfold noteLink
  split
  · rfl
  · exact queueNotice_eq _ _ _ _

/-- A discard: the receiver hunts, its counter rises, and no request and no reply is touched. -/
@[simp] theorem discardRecord_link (x : LinkLoss) (s : State) :
    (discardRecord x s).link.receive = .hunt ∧ (discardRecord x s).link.assembly = [] ∧
    (discardRecord x s).link.counters = s.link.counters.raise x ∧ (discardRecord x s).link.buffer = s.link.buffer ∧
    (discardRecord x s).link.replies = s.link.replies ∧ (discardRecord x s).link.rate = s.link.rate ∧
    (discardRecord x s).link.inHand = s.link.inHand ∧ (discardRecord x s).link.sending = s.link.sending := by
  simp [discardRecord, countLoss, hunt]

theorem discardRecord_eq (x : LinkLoss) (s : State) :
    discardRecord x s = { s with link := (discardRecord x s).link } := noteLink_eq _

/-- A character with its stop bit high is its byte. -/
theorem receiveChar_of_stop {ch : Character} (s : State) (h : ch.getLsbD 9 = true) :
    receiveChar ch s = receive (dataOfChar ch) s := by
  have : framingError ch = false := by rw [framingError, h]; rfl
  simp [receiveChar, this]

/-- A character with its stop bit low discards the record in assembly, and is ignored where there is none. -/
theorem receiveChar_of_framing {ch : Character} (s : State) (h : ch.getLsbD 9 = false) :
    receiveChar ch s = if s.assembling then discardRecord .framing s else s := by
  have : framingError ch = true := by rw [framingError, h]; rfl
  simp [receiveChar, this]

/-- What a character with its stop bit high means is what its byte means. -/
theorem judgeChar_of_stop {ch : Character} (l : HostLink) (h : ch.getLsbD 9 = true) :
    l.judgeChar ch = l.receiveByte (dataOfChar ch) := by
  have : framingError ch = false := by rw [framingError, h]; rfl
  simp [HostLink.judgeChar, this]

/-- A complete record. -/
@[simp] theorem acceptRecord_frame (q : Request) (s : State) :
    (acceptRecord q s).powered = s.powered ∧ (acceptRecord q s).params = s.params ∧ (acceptRecord q s).tb = s.tb ∧
    (acceptRecord q s).orders = s.orders ∧ (acceptRecord q s).table = s.table ∧ (acceptRecord q s).sched = s.sched ∧
    (acceptRecord q s).engine = s.engine ∧ (acceptRecord q s).carrier = s.carrier ∧
    (acceptRecord q s).driver = s.driver ∧ (acceptRecord q s).answer = s.answer ∧
    (acceptRecord q s).store = s.store ∧ (acceptRecord q s).owed = s.owed ∧
    (acceptRecord q s).freeUses = s.freeUses ∧ (acceptRecord q s).pending = s.pending := by
  unfold acceptRecord
  dsimp only
  repeat' split
  all_goals simp

/-- A byte received. -/
@[simp] theorem receive_frame (b : Byte) (s : State) :
    (receive b s).powered = s.powered ∧ (receive b s).params = s.params ∧ (receive b s).tb = s.tb ∧
    (receive b s).orders = s.orders ∧ (receive b s).table = s.table ∧ (receive b s).sched = s.sched ∧
    (receive b s).engine = s.engine ∧ (receive b s).carrier = s.carrier ∧ (receive b s).driver = s.driver ∧
    (receive b s).answer = s.answer ∧ (receive b s).store = s.store ∧ (receive b s).owed = s.owed ∧
    (receive b s).freeUses = s.freeUses ∧ (receive b s).pending = s.pending := by
  unfold receive
  dsimp only
  repeat' split
  all_goals simp

/-- A record begun. -/
@[simp] theorem startRecord_frame (s : State) :
    (startRecord s).powered = s.powered ∧ (startRecord s).params = s.params ∧ (startRecord s).tb = s.tb ∧
    (startRecord s).orders = s.orders ∧ (startRecord s).table = s.table ∧ (startRecord s).sched = s.sched ∧
    (startRecord s).engine = s.engine ∧ (startRecord s).carrier = s.carrier ∧ (startRecord s).driver = s.driver ∧
    (startRecord s).answer = s.answer ∧ (startRecord s).store = s.store ∧ (startRecord s).owed = s.owed ∧
    (startRecord s).freeUses = s.freeUses ∧ (startRecord s).pending = s.pending := by
  unfold startRecord
  dsimp only
  repeat' split
  all_goals simp

/-- A rate in force. -/
@[simp] theorem applyRate_frame (r : LinkRate) (s : State) :
    (applyRate r s).powered = s.powered ∧ (applyRate r s).params = s.params ∧ (applyRate r s).tb = s.tb ∧
    (applyRate r s).orders = s.orders ∧ (applyRate r s).table = s.table ∧ (applyRate r s).sched = s.sched ∧
    (applyRate r s).engine = s.engine ∧ (applyRate r s).carrier = s.carrier ∧ (applyRate r s).driver = s.driver ∧
    (applyRate r s).answer = s.answer ∧ (applyRate r s).store = s.store ∧ (applyRate r s).owed = s.owed ∧
    (applyRate r s).freeUses = s.freeUses ∧ (applyRate r s).pending = s.pending := by
  unfold applyRate
  dsimp only
  repeat' split
  all_goals simp

@[simp] theorem applyRate_link (r : LinkRate) (s : State) :
    (applyRate r s).link.buffer = s.link.buffer ∧ (applyRate r s).link.inHand = s.link.inHand ∧
    (applyRate r s).link.replies = s.link.replies ∧ (applyRate r s).link.queue = s.link.queue ∧
    (applyRate r s).link.lost = s.link.lost ∧ (applyRate r s).link.counters = s.link.counters ∧
    (applyRate r s).link.sending = s.link.sending := by
  unfold applyRate
  split <;> simp [hunt]

/-- The queue emptied. -/
@[simp] theorem emptyQueue_frame (s : State) :
    (emptyQueue s).powered = s.powered ∧ (emptyQueue s).params = s.params ∧ (emptyQueue s).tb = s.tb ∧
    (emptyQueue s).orders = s.orders ∧ (emptyQueue s).table = s.table ∧ (emptyQueue s).sched = s.sched ∧
    (emptyQueue s).engine = s.engine ∧ (emptyQueue s).carrier = s.carrier ∧ (emptyQueue s).driver = s.driver ∧
    (emptyQueue s).answer = s.answer ∧ (emptyQueue s).store = s.store ∧ (emptyQueue s).owed = s.owed ∧
    (emptyQueue s).freeUses = s.freeUses ∧ (emptyQueue s).pending = s.pending :=
  ⟨rfl, rfl, rfl, rfl, rfl, rfl, rfl, rfl, rfl, rfl, rfl, rfl, rfl, rfl⟩

/-- The queue emptied, with nothing else of the link changed: its rate is kept (R185). -/
@[simp] theorem emptyQueue_link (s : State) : (emptyQueue s).link = { s.link with queue := [], lost := false } := rfl

/-- The SOFT-reset effects of every block but the link. -/
@[simp] theorem resetBlocks_frame (s : State) :
    (resetBlocks s).powered = s.powered ∧ (resetBlocks s).params = s.params ∧ (resetBlocks s).tb = s.tb ∧
    (resetBlocks s).orders = s.orders ∧ (resetBlocks s).carrier = s.carrier ∧ (resetBlocks s).link = s.link ∧
    (resetBlocks s).owed = s.owed ∧ (resetBlocks s).freeUses = s.freeUses ∧ (resetBlocks s).pending = s.pending := by
  simp [resetBlocks]

/-- The SOFT reset performed. -/
@[simp] theorem performSoftReset_frame (s : State) :
    (performSoftReset s).powered = s.powered ∧ (performSoftReset s).params = s.params ∧
    (performSoftReset s).tb = s.tb ∧ (performSoftReset s).orders = s.orders ∧
    (performSoftReset s).carrier = s.carrier ∧ (performSoftReset s).owed = s.owed ∧
    (performSoftReset s).freeUses = s.freeUses ∧ (performSoftReset s).pending = s.pending := by
  simp [performSoftReset]

/-- The end of a WIPE's reply. -/
@[simp] theorem endWipeReply_frame (s : State) :
    (endWipeReply s).powered = s.powered ∧ (endWipeReply s).params = s.params ∧ (endWipeReply s).tb = s.tb ∧
    (endWipeReply s).orders = s.orders ∧ (endWipeReply s).table = s.table ∧ (endWipeReply s).sched = s.sched ∧
    (endWipeReply s).engine = s.engine ∧ (endWipeReply s).carrier = s.carrier ∧ (endWipeReply s).driver = s.driver ∧
    (endWipeReply s).answer = s.answer ∧ (endWipeReply s).store = s.store ∧ (endWipeReply s).owed = s.owed ∧
    (endWipeReply s).freeUses = s.freeUses ∧ (endWipeReply s).pending = s.pending := by
  simp [endWipeReply]

/-- What the end of a record brings. -/
@[simp] theorem afterRecord_frame (a : AfterSent) (s : State) :
    (afterRecord a s).powered = s.powered ∧ (afterRecord a s).params = s.params ∧ (afterRecord a s).tb = s.tb ∧
    (afterRecord a s).orders = s.orders ∧ (afterRecord a s).carrier = s.carrier ∧ (afterRecord a s).owed = s.owed ∧
    (afterRecord a s).freeUses = s.freeUses ∧ (afterRecord a s).pending = s.pending := by
  unfold afterRecord
  repeat' split
  all_goals simp

/-- The end of the record being sent. -/
@[simp] theorem endRecord_frame (s : State) :
    (endRecord s).powered = s.powered ∧ (endRecord s).params = s.params ∧ (endRecord s).tb = s.tb ∧
    (endRecord s).orders = s.orders ∧ (endRecord s).carrier = s.carrier ∧ (endRecord s).owed = s.owed ∧
    (endRecord s).freeUses = s.freeUses ∧ (endRecord s).pending = s.pending := by
  unfold endRecord
  dsimp only
  repeat' split
  all_goals simp

/-! ## The store -/

/-- A receiver put into its working copy, or taken out. -/
@[simp] theorem placeReceiver_frame (s : State) (i : Nat) (r : Option Receiver) :
    (s.placeReceiver i r).powered = s.powered ∧ (s.placeReceiver i r).params = s.params ∧
    (s.placeReceiver i r).tb = s.tb ∧ (s.placeReceiver i r).orders = s.orders ∧
    (s.placeReceiver i r).sched = s.sched ∧ (s.placeReceiver i r).engine = s.engine ∧
    (s.placeReceiver i r).carrier = s.carrier ∧ (s.placeReceiver i r).driver = s.driver ∧
    (s.placeReceiver i r).answer = s.answer ∧ (s.placeReceiver i r).store = s.store ∧
    (s.placeReceiver i r).link = s.link ∧ (s.placeReceiver i r).owed = s.owed ∧
    (s.placeReceiver i r).freeUses = s.freeUses ∧ (s.placeReceiver i r).pending = s.pending := by
  cases r <;> simp [State.placeReceiver]

/-- An order put into its working copy, or taken out. -/
@[simp] theorem placeOrder_frame (s : State) (n : Nat) (o : Option Order) :
    (s.placeOrder n o).powered = s.powered ∧ (s.placeOrder n o).params = s.params ∧ (s.placeOrder n o).tb = s.tb ∧
    (s.placeOrder n o).table = s.table ∧ (s.placeOrder n o).sched = s.sched ∧
    (s.placeOrder n o).engine = s.engine ∧ (s.placeOrder n o).carrier = s.carrier ∧
    (s.placeOrder n o).driver = s.driver ∧ (s.placeOrder n o).answer = s.answer ∧
    (s.placeOrder n o).store = s.store ∧ (s.placeOrder n o).link = s.link ∧ (s.placeOrder n o).owed = s.owed ∧
    (s.placeOrder n o).freeUses = s.freeUses ∧ (s.placeOrder n o).pending = s.pending := by
  cases o <;> simp [State.placeOrder]

/-- A receiver found damaged. -/
@[simp] theorem damageReceiver_frame (i : Nat) (a : Option Receiver) (s : State) :
    (damageReceiver i a s).powered = s.powered ∧ (damageReceiver i a s).params = s.params ∧
    (damageReceiver i a s).tb = s.tb ∧ (damageReceiver i a s).engine = s.engine ∧
    (damageReceiver i a s).carrier = s.carrier ∧ (damageReceiver i a s).driver = s.driver ∧
    (damageReceiver i a s).answer = s.answer ∧ (damageReceiver i a s).owed = s.owed ∧
    (damageReceiver i a s).pending = s.pending := by
  simp [damageReceiver]

@[simp] theorem damageReceiver_link (i : Nat) (a : Option Receiver) (s : State) :
    (damageReceiver i a s).link.rate = s.link.rate ∧ (damageReceiver i a s).link.receive = s.link.receive ∧
    (damageReceiver i a s).link.assembly = s.link.assembly ∧ (damageReceiver i a s).link.buffer = s.link.buffer ∧
    (damageReceiver i a s).link.inHand = s.link.inHand ∧ (damageReceiver i a s).link.replies = s.link.replies ∧
    (damageReceiver i a s).link.counters = s.link.counters ∧ (damageReceiver i a s).link.sending = s.link.sending := by
  simp [damageReceiver]

/-- Damage at a receiver position. -/
@[simp] theorem receiverDamage_frame (i : Nat) (f : Found) (ws : Words) (s : State) :
    (receiverDamage i f ws s).powered = s.powered ∧ (receiverDamage i f ws s).params = s.params ∧
    (receiverDamage i f ws s).tb = s.tb ∧ (receiverDamage i f ws s).engine = s.engine ∧
    (receiverDamage i f ws s).carrier = s.carrier ∧ (receiverDamage i f ws s).driver = s.driver ∧
    (receiverDamage i f ws s).answer = s.answer ∧ (receiverDamage i f ws s).owed = s.owed ∧
    (receiverDamage i f ws s).pending = s.pending := by
  unfold receiverDamage
  dsimp only
  repeat' split
  all_goals simp

@[simp] theorem receiverDamage_link (i : Nat) (f : Found) (ws : Words) (s : State) :
    (receiverDamage i f ws s).link.rate = s.link.rate ∧ (receiverDamage i f ws s).link.receive = s.link.receive ∧
    (receiverDamage i f ws s).link.assembly = s.link.assembly ∧
    (receiverDamage i f ws s).link.buffer = s.link.buffer ∧ (receiverDamage i f ws s).link.inHand = s.link.inHand ∧
    (receiverDamage i f ws s).link.replies = s.link.replies ∧
    (receiverDamage i f ws s).link.counters = s.link.counters ∧
    (receiverDamage i f ws s).link.sending = s.link.sending := by
  unfold receiverDamage
  dsimp only
  repeat' split
  all_goals simp

/-- An order found damaged. -/
@[simp] theorem damageOrder_frame (n : Nat) (o : Order) (s : State) :
    (damageOrder n o s).powered = s.powered ∧ (damageOrder n o s).params = s.params ∧ (damageOrder n o s).tb = s.tb ∧
    (damageOrder n o s).sched = s.sched ∧ (damageOrder n o s).engine = s.engine ∧
    (damageOrder n o s).carrier = s.carrier ∧ (damageOrder n o s).driver = s.driver ∧
    (damageOrder n o s).answer = s.answer ∧ (damageOrder n o s).link = s.link ∧ (damageOrder n o s).owed = s.owed ∧
    (damageOrder n o s).freeUses = s.freeUses ∧ (damageOrder n o s).pending = s.pending := by
  simp [damageOrder]

/-- An order position written empty afresh. -/
@[simp] theorem emptyOrder_frame (n : Nat) (s : State) :
    (emptyOrder n s).powered = s.powered ∧ (emptyOrder n s).params = s.params ∧ (emptyOrder n s).tb = s.tb ∧
    (emptyOrder n s).sched = s.sched ∧ (emptyOrder n s).engine = s.engine ∧
    (emptyOrder n s).carrier = s.carrier ∧ (emptyOrder n s).driver = s.driver ∧
    (emptyOrder n s).answer = s.answer ∧ (emptyOrder n s).link = s.link ∧ (emptyOrder n s).owed = s.owed ∧
    (emptyOrder n s).freeUses = s.freeUses ∧ (emptyOrder n s).pending = s.pending := by
  unfold emptyOrder
  dsimp only
  split <;> simp

/-- Damage at an order position. -/
@[simp] theorem orderDamage_frame (n : Nat) (f : Found) (ws : Words) (s : State) :
    (orderDamage n f ws s).powered = s.powered ∧ (orderDamage n f ws s).params = s.params ∧
    (orderDamage n f ws s).tb = s.tb ∧ (orderDamage n f ws s).sched = s.sched ∧
    (orderDamage n f ws s).engine = s.engine ∧ (orderDamage n f ws s).carrier = s.carrier ∧
    (orderDamage n f ws s).driver = s.driver ∧ (orderDamage n f ws s).answer = s.answer ∧
    (orderDamage n f ws s).owed = s.owed ∧ (orderDamage n f ws s).freeUses = s.freeUses ∧
    (orderDamage n f ws s).pending = s.pending := by
  unfold orderDamage
  dsimp only
  repeat' split
  all_goals simp

@[simp] theorem orderDamage_link (n : Nat) (f : Found) (ws : Words) (s : State) :
    (orderDamage n f ws s).link.rate = s.link.rate ∧ (orderDamage n f ws s).link.receive = s.link.receive ∧
    (orderDamage n f ws s).link.assembly = s.link.assembly ∧ (orderDamage n f ws s).link.buffer = s.link.buffer ∧
    (orderDamage n f ws s).link.inHand = s.link.inHand ∧ (orderDamage n f ws s).link.replies = s.link.replies ∧
    (orderDamage n f ws s).link.counters = s.link.counters ∧ (orderDamage n f ws s).link.sending = s.link.sending := by
  unfold orderDamage
  dsimp only
  repeat' split
  all_goals simp

/-- The notice of a damaged configuration. -/
@[simp] theorem noteDefaults_frame (f : Found) (w : Nat) (a : AfterSent) (s : State) :
    (noteDefaults f w a s).powered = s.powered ∧ (noteDefaults f w a s).params = s.params ∧
    (noteDefaults f w a s).tb = s.tb ∧ (noteDefaults f w a s).orders = s.orders ∧
    (noteDefaults f w a s).carrier = s.carrier ∧ (noteDefaults f w a s).owed = s.owed ∧
    (noteDefaults f w a s).freeUses = s.freeUses ∧ (noteDefaults f w a s).pending = s.pending := by
  unfold noteDefaults
  dsimp only
  repeat' split
  all_goals simp

/-- Damage at the configuration. -/
@[simp] theorem configDamage_frame (f : Found) (b : Nat) (s : State) :
    (configDamage f b s).powered = s.powered ∧ (configDamage f b s).carrier = s.carrier ∧
    (configDamage f b s).pending = s.pending := by
  simp [configDamage]

/-- Damage at the saved count. -/
@[simp] theorem countDamage_frame (f : Found) (b : Nat) (s : State) :
    (countDamage f b s).powered = s.powered ∧ (countDamage f b s).params = s.params ∧ (countDamage f b s).tb = s.tb ∧
    (countDamage f b s).orders = s.orders ∧ (countDamage f b s).table = s.table ∧
    (countDamage f b s).sched = s.sched ∧ (countDamage f b s).engine = s.engine ∧
    (countDamage f b s).carrier = s.carrier ∧ (countDamage f b s).driver = s.driver ∧
    (countDamage f b s).answer = s.answer ∧ (countDamage f b s).owed = s.owed ∧
    (countDamage f b s).freeUses = s.freeUses ∧ (countDamage f b s).pending = s.pending := by
  simp [countDamage]

@[simp] theorem countDamage_link (f : Found) (b : Nat) (s : State) :
    (countDamage f b s).link.rate = s.link.rate ∧ (countDamage f b s).link.receive = s.link.receive ∧
    (countDamage f b s).link.assembly = s.link.assembly ∧ (countDamage f b s).link.buffer = s.link.buffer ∧
    (countDamage f b s).link.inHand = s.link.inHand ∧ (countDamage f b s).link.replies = s.link.replies ∧
    (countDamage f b s).link.counters = s.link.counters ∧ (countDamage f b s).link.sending = s.link.sending := by
  simp [countDamage]

/-- Damage found. -/
@[simp] theorem handleDamage_frame (p : Position) (f : Found) (ws : Words) (s : State) :
    (handleDamage p f ws s).powered = s.powered ∧ (handleDamage p f ws s).carrier = s.carrier ∧
    (handleDamage p f ws s).pending = s.pending := by
  unfold handleDamage
  repeat' split
  all_goals simp

/-- A position read. -/
@[simp] theorem readPosition_frame (p : Position) (f : Found) (e : ReadErrors) (s : State) :
    (readPosition p f e s).powered = s.powered ∧ (readPosition p f e s).carrier = s.carrier ∧
    (readPosition p f e s).pending = s.pending := by
  unfold readPosition
  dsimp only
  repeat' split
  all_goals simp

/-- A scrub read. -/
@[simp] theorem scrub_frame (e : ReadErrors) (s : State) :
    (scrub e s).powered = s.powered ∧ (scrub e s).carrier = s.carrier ∧ (scrub e s).pending = s.pending := by
  simp [scrub]

/-- A record write. -/
@[simp] theorem writeRecord_frame (e : ReadErrors) (s : State) :
    (writeRecord e s).powered = s.powered ∧ (writeRecord e s).carrier = s.carrier ∧
    (writeRecord e s).pending = s.pending := by
  unfold writeRecord
  dsimp only
  repeat' split
  all_goals simp

end Sys2Proof.Machine
end

