-- ==== Sys2Proof/Laws/Bounded.lean ====
section
/-! SUPPORT. The bounds of the queues (R174) at every shared operation: the notice queue stays within 16 with its urgent
notices first, whatever queues a notice. -/

namespace Sys2Proof.Machine

open Sys2Proof.Safety

/-- The notice queue is within its bound and in its order. -/
def QueueOk (q : List Notice) : Prop := q.length ≤ 16 ∧ UrgentFirst q

@[simp] theorem queueOk_nil : QueueOk [] := ⟨by simp, List.Pairwise.nil⟩

theorem QueueOk.tail {n : Notice} {q : List Notice} (h : QueueOk (n :: q)) : QueueOk q :=
  ⟨Nat.le_of_succ_le (by simpa using h.1), (List.pairwise_cons.1 h.2).2⟩

theorem linkBounded_iff (s : State) : LinkBounded s ↔
    QueueOk s.link.queue ∧ s.link.buffer.length ≤ 4 ∧ s.sched.probes.length ≤ 4 := by
  simp only [LinkBounded, QueueOk, UrgentFirst]
  tauto

@[simp] theorem queueNoticeThen_ok (k : NoticeKind) (f : Byte) (b : List Byte) (a : AfterSent) {s : State}
    (h : QueueOk s.link.queue) : QueueOk (queueNoticeThen k f b a s).link.queue := by
  unfold queueNoticeThen
  split
  · exact h
  · exact placeNotice_bounded h.1 h.2
  · exact placeNotice_bounded h.1 h.2

@[simp] theorem queueNotice_ok (k : NoticeKind) (f : Byte) (b : List Byte) {s : State}
    (h : QueueOk s.link.queue) : QueueOk (queueNotice k f b s).link.queue := by
  simp [queueNotice, h]

@[simp] theorem noteTimebase_ok (c : TimebaseCause) (b : Option Phase) {s : State}
    (h : QueueOk s.link.queue) : QueueOk (noteTimebase c b s).link.queue := by
  simp [noteTimebase, h]

@[simp] theorem noteClosed_ok (n : Nat) (o : Order) {s : State}
    (h : QueueOk s.link.queue) : QueueOk (noteClosed n o s).link.queue := by
  simp [noteClosed, h]

@[simp] theorem noteProbe_ok (e : ProbeEnd) {s : State}
    (h : QueueOk s.link.queue) : QueueOk (noteProbe e s).link.queue := by
  simp [noteProbe, h]

@[simp] theorem noteWithdrawn_ok (p : Probe) {s : State}
    (h : QueueOk s.link.queue) : QueueOk (noteWithdrawn s p).link.queue := by
  simp [noteWithdrawn, h]

@[simp] theorem noteStore_ok (p : Position) (f : Found) (r : DamageResult) (w : Nat) {s : State}
    (h : QueueOk s.link.queue) : QueueOk (noteStore p f r w s).link.queue := by
  simp [noteStore, h]

@[simp] theorem noteLink_ok  {s : State}
    (h : QueueOk s.link.queue) : QueueOk (noteLink s).link.queue := by
  unfold noteLink
  repeat' split
  all_goals simp [h]

@[simp] theorem noteDelivery_ok (st e : Count) (d : DeliveryRecord) (o : Outcome) (disp : Disposition) (r : Option EntryResult)
    (a : Option Receiver) {s : State}
    (h : QueueOk s.link.queue) : QueueOk (noteDelivery st e d o disp r a s).link.queue := by
  simp [noteDelivery, h]

@[simp] theorem closeNotSent_ok (n : Nat) (o : Order) {s : State}
    (h : QueueOk s.link.queue) : QueueOk (closeNotSent n o s).link.queue := by
  simp [closeNotSent, h]

@[simp] theorem closeAtSeal_ok (n : Nat) (o : Order) (f : SlotFields) {s : State}
    (h : QueueOk s.link.queue) : QueueOk (closeAtSeal n o f s).link.queue := by
  simp [closeAtSeal, h]

@[simp] theorem sealOrder_ok (n : Nat) {s : State}
    (h : QueueOk s.link.queue) : QueueOk (sealOrder s n).link.queue := by
  unfold sealOrder
  repeat' split
  all_goals simp [h]

@[simp] theorem closingStep_ok  {s : State}
    (h : QueueOk s.link.queue) : QueueOk (closingStep s).link.queue := by
  unfold closingStep
  exact foldl_keeps (P := fun t => QueueOk t.link.queue) (fun s x h => by simp [h]) _ (by simp [h])

@[simp] theorem activate_ok (n k : Nat) (o : Order) {s : State}
    (h : QueueOk s.link.queue) : QueueOk (activate n k o s).link.queue := by
  unfold activate
  dsimp only
  repeat' split
  all_goals simp [h]

@[simp] theorem activateNext_ok  {s : State}
    (h : QueueOk s.link.queue) : QueueOk (activateNext s).link.queue := by
  unfold activateNext
  dsimp only
  repeat' split
  all_goals simp [h]

@[simp] theorem activateAll_ok (n : Nat) {s : State}
    (h : QueueOk s.link.queue) : QueueOk (activateAll n s).link.queue := by
  induction n generalizing s with
  | zero => simpa [activateAll] using h
  | succ n ih =>
    unfold activateAll
    split
    · exact h
    · exact ih (by simp [h])

@[simp] theorem closeDelivery_ok (st : Count) (d : DeliveryRecord) (o : Outcome) {s : State}
    (h : QueueOk s.link.queue) : QueueOk (closeDelivery st d o s).link.queue := by
  unfold closeDelivery
  dsimp only
  repeat' split
  all_goals simp [h]

@[simp] theorem closeProbe_ok (st : Count) (p : ProbeRecord) (o : Outcome) {s : State}
    (h : QueueOk s.link.queue) : QueueOk (closeProbe st p o s).link.queue := by
  unfold closeProbe
  dsimp only
  repeat' split
  all_goals simp [h]

@[simp] theorem closeExchange_ok (o : Outcome) {s : State}
    (h : QueueOk s.link.queue) : QueueOk (closeExchange o s).link.queue := by
  unfold closeExchange
  dsimp only
  repeat' split
  all_goals simp [h]

@[simp] theorem abortExchange_ok (c : AbortCause) {s : State}
    (h : QueueOk s.link.queue) : QueueOk (abortExchange c s).link.queue := by
  simp [abortExchange, h]

@[simp] theorem endEarly_ok (c : AbortCause) {s : State}
    (h : QueueOk s.link.queue) : QueueOk (endEarly c s).link.queue := by
  unfold endEarly
  repeat' split
  all_goals simp [h]

@[simp] theorem losePhase_ok (p : Phase) {s : State}
    (h : QueueOk s.link.queue) : QueueOk (losePhase p s).link.queue := by
  unfold losePhase
  dsimp only
  repeat' split
  all_goals simp [h]

@[simp] theorem withdrawProbes_ok (i : Nat) {s : State}
    (h : QueueOk s.link.queue) : QueueOk (withdrawProbes i s).link.queue := by
  unfold withdrawProbes
  exact foldl_keeps (P := fun t => QueueOk t.link.queue) (fun s x h => by simp [h]) _ (by simp [h])

@[simp] theorem enterOutage_ok  {s : State}
    (h : QueueOk s.link.queue) : QueueOk (enterOutage s).link.queue := by
  simp [enterOutage, h]

@[simp] theorem moveReference_ok (c : TimebaseCause) (p : Phase) {s : State}
    (h : QueueOk s.link.queue) : QueueOk (moveReference c p s).link.queue := by
  simp [moveReference, h]

@[simp] theorem checkReference_ok  {s : State}
    (h : QueueOk s.link.queue) : QueueOk (checkReference s).link.queue := by
  unfold checkReference
  repeat' split
  all_goals simp [h]

@[simp] theorem enterSettling_ok (p : Phase) {s : State}
    (h : QueueOk s.link.queue) : QueueOk (enterSettling p s).link.queue := by
  simp [enterSettling, h]

@[simp] theorem phaseLocked_ok (p : Phase) {s : State}
    (h : QueueOk s.link.queue) : QueueOk (phaseLocked p s).link.queue := by
  unfold phaseLocked
  repeat' split
  all_goals simp [h]

@[simp] theorem endSettling_ok  {s : State}
    (h : QueueOk s.link.queue) : QueueOk (endSettling s).link.queue := by
  unfold endSettling
  dsimp only
  repeat' split
  all_goals simp [h]

@[simp] theorem meetSettling_ok  {s : State}
    (h : QueueOk s.link.queue) : QueueOk (meetSettling s).link.queue := by
  unfold meetSettling
  split <;> simp [h]

@[simp] theorem endCoolDown_ok  {s : State}
    (h : QueueOk s.link.queue) : QueueOk (endCoolDown s).link.queue := by
  unfold endCoolDown
  dsimp only
  repeat' split
  all_goals simp [h]

@[simp] theorem catchUp_ok  {s : State}
    (h : QueueOk s.link.queue) : QueueOk (catchUp s).link.queue := by
  unfold catchUp
  dsimp only
  refine activateAll_ok _ (closingStep_ok ?_)
  simp only [recoverCap_frame]
  refine endCoolDown_ok ?_
  simp only [saveCount_frame, expireBeaconTimer_frame]
  exact meetSettling_ok (by simpa [Phase.all] using h)

@[simp] theorem countAdvance_ok (time : Nat) {s : State}
    (h : QueueOk s.link.queue) : QueueOk (countAdvance time s).link.queue := by
  simp [countAdvance, h]

@[simp] theorem crossing_ok (p : Phase) (time : Nat) {s : State}
    (h : QueueOk s.link.queue) : QueueOk (crossing p time s).link.queue := by
  unfold crossing
  dsimp only
  repeat' split
  all_goals simp [h]

@[simp] theorem enterCoasting_ok (p : Phase) {s : State}
    (h : QueueOk s.link.queue) : QueueOk (enterCoasting p s).link.queue := by
  simp [enterCoasting, h]

@[simp] theorem endCoast_ok (p : Phase) {s : State}
    (h : QueueOk s.link.queue) : QueueOk (endCoast p s).link.queue := by
  simp [endCoast, h]

@[simp] theorem closeWindow_ok (p : Phase) {s : State}
    (h : QueueOk s.link.queue) : QueueOk (closeWindow p s).link.queue := by
  unfold closeWindow
  dsimp only
  repeat' split
  any_goals exact h
  · exact enterCoasting_ok _ (meetSettling_ok (crossing_ok _ _ (by simpa using h)))
  · exact crossing_ok _ _ (by simpa using h)
  · exact endCoast_ok _ (meetSettling_ok (crossing_ok _ _ (by simpa using h)))
  · exact crossing_ok _ _ (by simpa using h)

@[simp] theorem deriveCrossing_ok (p : Phase) {s : State}
    (h : QueueOk s.link.queue) : QueueOk (deriveCrossing p s).link.queue := by
  unfold deriveCrossing
  dsimp only
  repeat' split
  all_goals simp [h]

@[simp] theorem respond_ok (p : Phase) (time : Nat) (x : TrackerStep) {s : State}
    (h : QueueOk s.link.queue) : QueueOk (respond p time s x).link.queue := by
  cases x with
  | quiet t => simpa [respond] using h
  | locks t => exact crossing_ok _ _ (phaseLocked_ok _ (by simpa using meetSettling_ok h))
  | crosses t => exact crossing_ok _ _ (by simpa using h)

@[simp] theorem takeEdge_ok (p : Phase) (time : Nat) (l : Bool) (r : Nat) {s : State}
    (h : QueueOk s.link.queue) : QueueOk (takeEdge p time l r s).link.queue := by
  simp [takeEdge, h]

@[simp] theorem crystalStep_ok  {s : State}
    (h : QueueOk s.link.queue) : QueueOk (crystalStep s).link.queue := by
  simp [crystalStep, h]

@[simp] theorem restartPhases_ok (ps : List Phase) {s : State}
    (h : QueueOk s.link.queue) : QueueOk (restartPhases ps s).link.queue := by
  unfold restartPhases
  exact checkReference_ok (foldl_keeps (P := fun t => QueueOk t.link.queue) (fun s x h => by simp [h]) _
    (foldl_keeps (P := fun t => QueueOk t.link.queue) (fun s x h => by simp [h]) _ (meetSettling_ok h)))

/-- A rate taken from the notices of the queue leaves their number and their urgency. -/
@[simp] theorem linkRateEffect_ok (b : Params) {s : State}
    (h : QueueOk s.link.queue) : QueueOk (linkRateEffect b s).link.queue := by
  unfold linkRateEffect
  split
  · exact h
  · exact ⟨by simpa using h.1, List.pairwise_map.2 h.2⟩

@[simp] theorem refPhaseEffect_ok  {s : State}
    (h : QueueOk s.link.queue) : QueueOk (refPhaseEffect s).link.queue := by
  unfold refPhaseEffect
  dsimp only
  split <;> simp [h]

@[simp] theorem nominalFreqEffect_ok  {s : State}
    (h : QueueOk s.link.queue) : QueueOk (nominalFreqEffect s).link.queue := by
  unfold nominalFreqEffect
  dsimp only
  repeat' split
  all_goals simp [h]

@[simp] theorem paramEffect_ok (b : Params) (p : Param) {s : State}
    (h : QueueOk s.link.queue) : QueueOk (paramEffect b s p).link.queue := by
  cases p <;> simp [paramEffect, h]

@[simp] theorem applyDefaults_ok  {s : State}
    (h : QueueOk s.link.queue) : QueueOk (applyDefaults s).link.queue := by
  unfold applyDefaults
  dsimp only
  repeat' split
  all_goals simp [h]

@[simp] theorem countLoss_ok (x : LinkLoss) {s : State}
    (h : QueueOk s.link.queue) : QueueOk (countLoss x s).link.queue := by
  simp [countLoss, h]

@[simp] theorem discardRecord_ok (x : LinkLoss) {s : State}
    (h : QueueOk s.link.queue) : QueueOk (discardRecord x s).link.queue := by
  simp [discardRecord, hunt, h]

@[simp] theorem acceptRecord_ok (q : Request) {s : State}
    (h : QueueOk s.link.queue) : QueueOk (acceptRecord q s).link.queue := by
  unfold acceptRecord
  dsimp only
  repeat' split
  all_goals simp [hunt, h]

@[simp] theorem receive_ok (b : Byte) {s : State}
    (h : QueueOk s.link.queue) : QueueOk (receive b s).link.queue := by
  unfold receive
  dsimp only
  repeat' split
  all_goals simp [h]

@[simp] theorem receiveChar_ok (ch : Character) {s : State}
    (h : QueueOk s.link.queue) : QueueOk (receiveChar ch s).link.queue := by
  unfold receiveChar
  repeat' split
  all_goals simp [h]

@[simp] theorem resetBlocks_ok  {s : State}
    (h : QueueOk s.link.queue) : QueueOk (resetBlocks s).link.queue := by
  simp [resetBlocks, h]

@[simp] theorem performSoftReset_ok (s : State) : QueueOk (performSoftReset s).link.queue := by
  simp [performSoftReset, hunt]

@[simp] theorem endWipeReply_ok  {s : State}
    (h : QueueOk s.link.queue) : QueueOk (endWipeReply s).link.queue := by
  simp [endWipeReply, hunt, h]

@[simp] theorem afterRecord_ok (a : AfterSent) {s : State}
    (h : QueueOk s.link.queue) : QueueOk (afterRecord a s).link.queue := by
  unfold afterRecord
  repeat' split
  all_goals simp [h]

@[simp] theorem endRecord_ok  {s : State}
    (h : QueueOk s.link.queue) : QueueOk (endRecord s).link.queue := by
  unfold endRecord
  dsimp only
  repeat' split
  all_goals simp [h]

@[simp] theorem damageReceiver_ok (i : Nat) (a : Option Receiver) {s : State}
    (h : QueueOk s.link.queue) : QueueOk (damageReceiver i a s).link.queue := by
  simp [damageReceiver, h]

@[simp] theorem receiverDamage_ok (i : Nat) (f : Found) (ws : Words) {s : State}
    (h : QueueOk s.link.queue) : QueueOk (receiverDamage i f ws s).link.queue := by
  unfold receiverDamage
  dsimp only
  repeat' split
  all_goals simp [h]

@[simp] theorem orderDamage_ok (n : Nat) (f : Found) (ws : Words) {s : State}
    (h : QueueOk s.link.queue) : QueueOk (orderDamage n f ws s).link.queue := by
  unfold orderDamage
  dsimp only
  repeat' split
  all_goals simp [h]

@[simp] theorem noteDefaults_ok (f : Found) (w : Nat) (a : AfterSent) {s : State}
    (h : QueueOk s.link.queue) : QueueOk (noteDefaults f w a s).link.queue := by
  unfold noteDefaults
  dsimp only
  repeat' split
  all_goals simp [h]

@[simp] theorem configDamage_ok (f : Found) (b : Nat) {s : State}
    (h : QueueOk s.link.queue) : QueueOk (configDamage f b s).link.queue := by
  simp [configDamage, h]

@[simp] theorem countDamage_ok (f : Found) (b : Nat) {s : State}
    (h : QueueOk s.link.queue) : QueueOk (countDamage f b s).link.queue := by
  simp [countDamage, h]

@[simp] theorem handleDamage_ok (p : Position) (f : Found) (ws : Words) {s : State}
    (h : QueueOk s.link.queue) : QueueOk (handleDamage p f ws s).link.queue := by
  unfold handleDamage
  repeat' split
  all_goals simp [h]

@[simp] theorem readPosition_ok (p : Position) (f : Found) (e : ReadErrors) {s : State}
    (h : QueueOk s.link.queue) : QueueOk (readPosition p f e s).link.queue := by
  unfold readPosition
  dsimp only
  repeat' split
  all_goals simp [h]

@[simp] theorem scrub_ok (e : ReadErrors) {s : State}
    (h : QueueOk s.link.queue) : QueueOk (scrub e s).link.queue := by
  simp [scrub, h]

@[simp] theorem writeRecord_ok (e : ReadErrors) {s : State}
    (h : QueueOk s.link.queue) : QueueOk (writeRecord e s).link.queue := by
  unfold writeRecord
  dsimp only
  repeat' split
  all_goals simp [h]

end Sys2Proof.Machine
end

