-- ==== Sys2Proof/Laws/Words.lean ====
section
/-! SUPPORT. The words of the Retained Store: a word written reads clean, one bit in error is corrected, two are seen, and
what a read writes back gives the same data again (R153, R154). -/

namespace Sys2Proof.Machine

open Sys2Proof.Safety

/-! ## The code -/

theorem columnSum_xor (l : List (BitVec 7)) (a b : BitVec 32) :
    columnSum l (a ^^^ b) = columnSum l a ^^^ columnSum l b := by
  induction l generalizing a b with
  | nil => simp [columnSum]
  | cons c rest ih =>
    simp only [columnSum, BitVec.ushiftRight_xor_distrib, ih, BitVec.getLsbD_xor]
    have hc (x y : BitVec 7) : x ^^^ y = c ^^^ x ^^^ (c ^^^ y) := by
      rw [BitVec.xor_comm c x, BitVec.xor_assoc, ← BitVec.xor_assoc c c y]; simp
    cases a.getLsbD 0 <;> cases b.getLsbD 0
    · simp
    · simp only [Bool.false_xor, if_true, Bool.false_eq_true, if_false]; simp; ac_rfl
    · simp only [Bool.xor_false, if_true, Bool.false_eq_true, if_false]; simp; ac_rfl
    · simp only [Bool.xor_true, Bool.not_true, if_true, Bool.false_eq_true, if_false]; simpa using hc _ _

/-- The check bits of two sums add. -/
theorem checkBits_xor (a b : BitVec 32) : checkBits (a ^^^ b) = checkBits a ^^^ checkBits b := columnSum_xor _ a b

@[simp] theorem of_data (d : BitVec 32) : (StoredWord.of d).data = d := rfl

@[simp] theorem of_disagreement (d : BitVec 32) : (StoredWord.of d).disagreement = 0 := by
  simp [StoredWord.disagreement, StoredWord.of]

/-- Bits that turn in a word turn its disagreement by their own. -/
theorem turn_disagreement (w b : StoredWord) : (w.turn b).disagreement = w.disagreement ^^^ b.disagreement := by
  simp only [StoredWord.disagreement, StoredWord.turn, checkBits_xor]
  ac_rfl

theorem of_turn_disagreement (d : BitVec 32) (b : StoredWord) : ((StoredWord.of d).turn b).disagreement = b.disagreement := by
  simp [turn_disagreement]

theorem clean_of_disagreement {w : StoredWord} (h : w.disagreement = 0) : w.cls = .clean := by simp [StoredWord.cls, h]

/-- A word whose check bits agree is one that the store writes. -/
theorem of_of_clean {w : StoredWord} (h : w.cls = .clean) : w = .of w.data := by
  have hd : w.disagreement = 0 := by
    unfold StoredWord.cls at h
    split at h
    · assumption
    · split at h <;> cases h
  rcases w with ⟨d, c⟩
  have : checkBits d = c := BitVec.xor_eq_zero_iff.mp hd
  simp [StoredWord.of, this]

@[simp] theorem of_cls (d : BitVec 32) : (StoredWord.of d).cls = .clean := clean_of_disagreement (of_disagreement d)

theorem writtenBack_of_ne_corrected {w : StoredWord} (h : w.cls ≠ .corrected) : w.writtenBack = w := by
  unfold StoredWord.writtenBack
  split
  · exact absurd ‹_› h
  · rfl

@[simp] theorem of_writtenBack (d : BitVec 32) : (StoredWord.of d).writtenBack = .of d :=
  writtenBack_of_ne_corrected (by simp)

@[simp] theorem of_returned (d : BitVec 32) : (StoredWord.of d).returned = some d := by simp [StoredWord.returned]

/-- A corrected word is written back as the store writes its data. -/
theorem writtenBack_corrected {w : StoredWord} (h : w.cls = .corrected) : w.writtenBack = .of w.writtenBack.data := by
  have hp : (pointedBit w.disagreement).isSome = true := by
    unfold StoredWord.cls at h
    split at h
    · cases h
    · split at h
      · assumption
      · cases h
  obtain ⟨b, hb⟩ := Option.isSome_iff_exists.mp hp
  simp [StoredWord.writtenBack, h, hb]

/-- A word written back reads clean, or uncorrectable if it did before. -/
theorem writtenBack_cls (w : StoredWord) :
    w.writtenBack.cls = if w.cls = .uncorrectable then .uncorrectable else .clean := by
  by_cases h : w.cls = .corrected
  · rw [writtenBack_corrected h]; simp [h]
  · rw [writtenBack_of_ne_corrected h]
    cases hc : w.cls <;> simp_all

/-- A read gives the same data again after its write-back. -/
@[simp] theorem writtenBack_returned (w : StoredWord) : w.writtenBack.returned = w.returned := by
  by_cases h : w.cls = .corrected
  · rw [writtenBack_corrected h]; simp [StoredWord.returned, h]
  · rw [writtenBack_of_ne_corrected h]

/-! ## One bit and two bits in error (R153) -/

theorem pointedBit_data : ∀ i : Fin 32,
    pointedBit (StoredWord.disagreement ⟨BitVec.twoPow 32 i, 0⟩) = some ⟨BitVec.twoPow 32 i, 0⟩ ∧
      StoredWord.disagreement ⟨BitVec.twoPow 32 i, 0⟩ ≠ 0 := by decide +kernel

theorem pointedBit_check : ∀ i : Fin 7,
    pointedBit (StoredWord.disagreement ⟨0, BitVec.twoPow 7 i⟩) = some ⟨0, BitVec.twoPow 7 i⟩ ∧
      StoredWord.disagreement ⟨0, BitVec.twoPow 7 i⟩ ≠ 0 := by decide +kernel

theorem pointedBit_oneBit {b : StoredWord} (h : OneBit b) :
    pointedBit b.disagreement = some b ∧ b.disagreement ≠ 0 := by
  obtain ⟨i, hi, rfl⟩ | ⟨i, hi, rfl⟩ := h
  · exact pointedBit_data ⟨i, hi⟩
  · exact pointedBit_check ⟨i, hi⟩

/-- A word with one bit in error is corrected, and written back as it was written (R153, R154). -/
theorem oneBit_corrected (d : BitVec 32) {b : StoredWord} (h : OneBit b) :
    ((StoredWord.of d).turn b).cls = .corrected ∧ ((StoredWord.of d).turn b).writtenBack = .of d := by
  obtain ⟨hp, h0⟩ := pointedBit_oneBit h
  have hc : ((StoredWord.of d).turn b).cls = .corrected := by
    unfold StoredWord.cls
    rw [of_turn_disagreement, if_neg h0, hp]; rfl
  refine ⟨hc, ?_⟩
  have : (((StoredWord.of d).turn b).turn b).data = d := by
    simp [StoredWord.turn, StoredWord.of]
  simp [StoredWord.writtenBack, hc, of_turn_disagreement, hp, this]

/-- The 39 words of one bit each. -/
def oneBits : List StoredWord :=
  (List.range 32).map (fun i => ⟨BitVec.twoPow 32 i, 0⟩) ++ (List.range 7).map (fun i => ⟨0, BitVec.twoPow 7 i⟩)

theorem mem_oneBits {b : StoredWord} (h : OneBit b) : b ∈ oneBits := by
  obtain ⟨i, hi, rfl⟩ | ⟨i, hi, rfl⟩ := h
  · exact List.mem_append_left _ (List.mem_map.mpr ⟨i, List.mem_range.mpr hi, rfl⟩)
  · exact List.mem_append_right _ (List.mem_map.mpr ⟨i, List.mem_range.mpr hi, rfl⟩)

theorem oneBits_pairs : ∀ b ∈ oneBits, ∀ c ∈ oneBits, b ≠ c →
    b.disagreement ^^^ c.disagreement ≠ 0 ∧ pointedBit (b.disagreement ^^^ c.disagreement) = none := by decide +kernel

/-- A word with two bits in error is uncorrectable, whatever it holds (R153). -/
theorem twoBits_uncorrectable (d : BitVec 32) {b c : StoredWord} (hb : OneBit b) (hc : OneBit c) (h : b ≠ c) :
    (((StoredWord.of d).turn b).turn c).cls = .uncorrectable := by
  obtain ⟨h0, hp⟩ := oneBits_pairs b (mem_oneBits hb) c (mem_oneBits hc) h
  unfold StoredWord.cls
  rw [turn_disagreement, of_turn_disagreement, if_neg h0, hp]; rfl

/-! ## The words of a position -/

@[simp] theorem turnWords_nil (ws : Words) : turnWords [] ws = ws := rfl

@[simp] theorem turnWords_cons (f : WordFlip) (e : ReadErrors) (ws : Words) :
    turnWords (f :: e) ws = turnWords e (ws.modify f.word fun w => w.turn f.bits) := rfl

@[simp] theorem turnWords_length (e : ReadErrors) (ws : Words) : (turnWords e ws).length = ws.length := by
  induction e generalizing ws with
  | nil => rfl
  | cons f rest ih => simp [ih]

/-- No word is uncorrectable exactly when each reads clean or corrected. -/
theorem badWords_eq_nil {ws : Words} : badWords ws = [] ↔ ∀ w ∈ ws, w.cls ≠ .uncorrectable := by
  simp only [badWords, List.filter_eq_nil_iff, List.mem_range]
  constructor
  · rintro h w hw hc
    obtain ⟨i, hi, rfl⟩ := List.mem_iff_getElem.mp hw
    exact h i hi (by rw [List.getElem?_eq_getElem hi]; simp [hc])
  · intro h i hi hc
    exact h ws[i] (List.getElem_mem hi) (by simpa [hi] using hc)

@[simp] theorem badWords_writtenBack (ws : Words) : badWords (ws.map (·.writtenBack)) = badWords ws := by
  simp only [badWords, List.length_map]
  refine List.filter_congr fun i hi => ?_
  have hi : i < ws.length := List.mem_range.mp hi
  have : (ws[i].writtenBack.cls = .uncorrectable) ↔ (ws[i].cls = .uncorrectable) := by
    rw [writtenBack_cls]; split <;> simp_all
  simp [hi, beq_eq_beq, this]

@[simp] theorem numbersOf_writtenBack (ws : Words) : numbersOf (ws.map (·.writtenBack)) = numbersOf ws := by
  simp [numbersOf, Function.comp_def]

theorem clean_wordsOf (l : List Nat) : ∀ w ∈ wordsOf l, w = .of w.data := by
  intro w hw
  obtain ⟨n, -, rfl⟩ := List.mem_map.mp hw
  rfl

@[simp] theorem badWords_wordsOf (l : List Nat) : badWords (wordsOf l) = [] :=
  badWords_eq_nil.mpr fun w hw => by rw [clean_wordsOf l w hw]; simp

@[simp] theorem wordsOf_length (l : List Nat) : (wordsOf l).length = l.length := List.length_map _

@[simp] theorem wordsOf_zeros (n : Nat) : wordsOf (List.replicate n 0) = zeroWords n := by
  simp [wordsOf, zeroWords]

@[simp] theorem badWords_zeroWords (n : Nat) : badWords (zeroWords n) = [] := by
  rw [← wordsOf_zeros, badWords_wordsOf]

/-- Numbers that fit 32 bits come back as they were written. -/
theorem numbersOf_wordsOf {l : List Nat} (h : ∀ n ∈ l, n < 4294967296) : numbersOf (wordsOf l) = l := by
  simp only [numbersOf, wordsOf, List.map_map]
  refine (List.map_congr_left fun n hn => ?_).trans (List.map_id l)
  simpa using Nat.mod_eq_of_lt (h n hn)

/-- Words that read clean are written back as they stand, and none of them is counted. -/
theorem writtenBack_of_clean {ws : Words} (h : ∀ w ∈ ws, w = .of w.data) : ws.map (·.writtenBack) = ws :=
  (List.map_congr_left fun w hw => by rw [h w hw]; simp).trans (List.map_id ws)

theorem correctedWords_of_clean {ws : Words} (h : ∀ w ∈ ws, w = .of w.data) : correctedWords ws = 0 := by
  refine List.countP_eq_zero.mpr fun w hw => ?_
  rw [h w hw]; simp

/-- One word turned by a bit: the write-back is the same, and one more word is corrected. -/
theorem oneBit_turned {ws : Words} {n : Nat} {d : BitVec 32} {b : StoredWord} (hn : ws[n]? = some (.of d))
    (hb : OneBit b) :
    (ws.modify n fun w => w.turn b).map (·.writtenBack) = ws.map (·.writtenBack) ∧
      correctedWords (ws.modify n fun w => w.turn b) = correctedWords ws + 1 := by
  obtain ⟨hlt, hw⟩ := List.getElem?_eq_some_iff.mp hn
  obtain ⟨hc, hback⟩ := oneBit_corrected d hb
  have hsplit : ws = ws.take n ++ ws[n] :: ws.drop (n + 1) := by simp
  rw [List.modify_eq_take_cons_drop hlt, hw]
  constructor
  · conv_rhs => rw [hsplit, hw]
    simp only [List.map_append, List.map_cons, hback, of_writtenBack]
  · conv_rhs => rw [hsplit, hw]
    simp only [correctedWords, List.countP_append, List.countP_cons, hc, of_cls]
    simp; omega

/-- A read that meets at most one turned bit in each word leaves every clean word as it was, and counts the bits (R154). -/
theorem singleBits_corrected {ws : Words} {e : ReadErrors} (h : ∀ w ∈ ws, w = .of w.data) (he : SingleBits ws.length e) :
    (turnWords e ws).map (·.writtenBack) = ws ∧ correctedWords (turnWords e ws) = e.length := by
  have key : ∀ (e : ReadErrors) (ws : Words), (∀ f ∈ e, ∃ d, ws[f.word]? = some (.of d)) → (e.map (·.word)).Nodup →
      (∀ f ∈ e, OneBit f.bits) →
      (turnWords e ws).map (·.writtenBack) = ws.map (·.writtenBack) ∧
        correctedWords (turnWords e ws) = correctedWords ws + e.length := by
    intro e
    induction e with
    | nil => intro ws _ _ _; simp
    | cons f rest ih =>
      intro ws hclean hnodup hone
      obtain ⟨d, hd⟩ := hclean f (by simp)
      obtain ⟨hback, hcount⟩ := oneBit_turned hd (hone f (by simp))
      have hnot : f.word ∉ rest.map (·.word) := (List.nodup_cons.mp hnodup).1
      obtain ⟨hr, hk⟩ := ih (ws.modify f.word fun w => w.turn f.bits)
        (fun g hg => by
          obtain ⟨d', hd'⟩ := hclean g (by simp [hg])
          have hne : f.word ≠ g.word := fun hfg => hnot (hfg ▸ List.mem_map_of_mem hg)
          exact ⟨d', by simpa [List.getElem?_modify, hne] using hd'⟩)
        (List.nodup_cons.mp hnodup).2 (fun g hg => hone g (by simp [hg]))
      refine ⟨by rw [turnWords_cons, hr, hback], ?_⟩
      rw [turnWords_cons, hk, hcount, List.length_cons]
      omega
  obtain ⟨hr, hk⟩ := key e ws
    (fun f hf => by
      have hlt := (he.2 f hf).1
      refine ⟨ws[f.word].data, ?_⟩
      rw [List.getElem?_eq_getElem hlt, ← h _ (List.getElem_mem hlt)])
    he.1 (fun f hf => (he.2 f hf).2)
  exact ⟨hr.trans (writtenBack_of_clean h), by rw [hk, correctedWords_of_clean h]; simp⟩

end Sys2Proof.Machine
end

