-- ==== Sys2Proof/Laws/Layout.lean ====
section
/-! SUPPORT. The layout of a record in the words of its position: its length, and that a record whose fields lie within what
the spec gives them comes back as it was laid out. -/

namespace Sys2Proof.Machine

open Sys2Proof.Safety

/-! ## Codes -/

theorem flagByte_testBit (l : List Bool) (i : Nat) : (flagByte l).testBit i = l.getD i false := by
  induction l generalizing i with
  | nil => simp [flagByte]
  | cons b rest ih =>
    have hcons : flagByte (b :: rest) = flagByte rest * 2 + b.toNat := rfl
    have hb : b.toNat < 2 := Bool.toNat_lt b
    cases i with
    | zero => rw [hcons, Nat.testBit_zero]; cases b <;> simp
    | succ i =>
      rw [hcons, Nat.testBit_succ, show (flagByte rest * 2 + b.toNat) / 2 = flagByte rest by omega, ih]
      simp

theorem flagByte_lt (l : List Bool) : flagByte l < 2 ^ l.length := by
  induction l with
  | nil => simp [flagByte]
  | cons b rest ih =>
    have hcons : flagByte (b :: rest) = flagByte rest * 2 + b.toNat := rfl
    have hb : b.toNat < 2 := Bool.toNat_lt b
    rw [hcons, List.length_cons, Nat.pow_succ]
    omega

theorem freqCode_lt (x : NominalFreq) : freqCode x < 2 := by cases x <;> decide
theorem phaseCode_lt (x : Option Phase) : (phaseCode x).toNat < 4 := by rcases x with _ | _ | _ | _ <;> decide
theorem filterCode_lt (x : FilterLength) : filterCode x < 4 := by cases x <;> decide
theorem edgeCode_lt (x : EdgeMode) : edgeCode x < 2 := by cases x <;> decide
theorem modeCode_lt (x : NoticeMode) : modeCode x < 2 := by cases x <;> decide
theorem levelCode_lt (x : NoticeLevel) : levelCode x < 4 := by cases x <;> decide
theorem rateOf_lt (x : LinkRate) : rateOf x < 4294967296 := by cases x <;> decide
theorem enableCode_lt (e : PerPhase Bool) : enableCode e < 8 := flagByte_lt _

theorem freqFrom_eq {v : Nat} {x : NominalFreq} (h : v % 2 = freqCode x) : freqFrom v = x := by
  unfold freqFrom; rw [h]; cases x <;> rfl
theorem phaseFrom_eq {v : Nat} {x : Phase} (h : v % 4 = (phaseCode (some x)).toNat) : phaseFrom v = x := by
  unfold phaseFrom; rw [h]; cases x <;> rfl
theorem filterFrom_eq {v : Nat} {x : FilterLength} (h : v % 4 = filterCode x) : filterFrom v = x := by
  unfold filterFrom; rw [h]; cases x <;> rfl
theorem edgeFrom_eq {v : Nat} {x : EdgeMode} (h : v % 2 = edgeCode x) : edgeFrom v = x := by
  unfold edgeFrom; rw [h]; cases x <;> rfl
theorem modeFrom_eq {v : Nat} {x : NoticeMode} (h : v % 2 = modeCode x) : modeFrom v = x := by
  unfold modeFrom; rw [h]; cases x <;> rfl
theorem levelFrom_eq {v : Nat} {x : NoticeLevel} (h : v % 4 = levelCode x) : levelFrom v = x := by
  unfold levelFrom; rw [h]; cases x <;> rfl
theorem rateFrom_rateOf (x : LinkRate) : rateFrom (rateOf x) = x := by cases x <;> rfl

/-! ## The configuration and the saved count -/

theorem configNumbers_length (r : ConfigRecord) : (configNumbers r).length = 16 := rfl

theorem configNumbers_lt {r : ConfigRecord} (h : ParamsFit r.params) : ∀ n ∈ configNumbers r, n < 4294967296 := by
  obtain ⟨h1, h2, h3, h4, h5, h6, h7, h8, h9, h10, h11, h12⟩ := h
  have hf := freqCode_lt r.params.nominalFreq
  have hp := phaseCode_lt (some r.params.refPhase)
  have he := enableCode_lt r.params.enable
  have hz := fun x => filterCode_lt x
  have hg := fun x => edgeCode_lt x
  have hm := modeCode_lt r.params.noticeMode
  have hl := fun x => levelCode_lt x
  have hr := rateOf_lt r.params.linkRate
  have hw := Bool.toNat_lt r.wipeMark
  have hs := r.params.stationId.isLt
  have := hz r.params.filter.l1; have := hz r.params.filter.l2; have := hz r.params.filter.l3
  have := hg r.params.edge.l1; have := hg r.params.edge.l2; have := hg r.params.edge.l3
  have := hl r.params.levels.orderActive; have := hl r.params.levels.orderClosed
  have := hl r.params.levels.delivery; have := hl r.params.levels.probeDone; have := hl r.params.levels.timebase
  have := hl r.params.levels.countUnconfirmed; have := hl r.params.levels.driver; have := hl r.params.levels.store
  have := hl r.params.levels.link
  simp only [configNumbers, List.forall_mem_cons]
  refine ⟨?_, ?_, ?_, ?_, ?_, ?_, ?_, ?_, ?_, ?_, ?_, ?_, by decide⟩ <;> omega

theorem paramsOf_configNumbers (r : ConfigRecord) (h : ParamsFit r.params) : paramsOf (configNumbers r) = r.params := by
  obtain ⟨h1, h2, h3, h4, h5, h6, h7, h8, h9, h10, h11, h12⟩ := h
  have hf := freqCode_lt r.params.nominalFreq
  have hp := phaseCode_lt (some r.params.refPhase)
  have he := enableCode_lt r.params.enable
  have hm := modeCode_lt r.params.noticeMode
  have hz1 := filterCode_lt r.params.filter.l1
  have hz2 := filterCode_lt r.params.filter.l2
  have hz3 := filterCode_lt r.params.filter.l3
  have hg1 := edgeCode_lt r.params.edge.l1
  have hg2 := edgeCode_lt r.params.edge.l2
  have hg3 := edgeCode_lt r.params.edge.l3
  have hl1 := levelCode_lt r.params.levels.orderActive
  have hl2 := levelCode_lt r.params.levels.orderClosed
  have hl3 := levelCode_lt r.params.levels.delivery
  have hl4 := levelCode_lt r.params.levels.probeDone
  have hl5 := levelCode_lt r.params.levels.timebase
  have hl6 := levelCode_lt r.params.levels.countUnconfirmed
  have hl7 := levelCode_lt r.params.levels.driver
  have hl8 := levelCode_lt r.params.levels.store
  have hl9 := levelCode_lt r.params.levels.link
  have hen : ((freqCode r.params.nominalFreq + 2 * (phaseCode (some r.params.refPhase)).toNat +
      8 * enableCode r.params.enable) / 8) = enableCode r.params.enable := by omega
  simp only [paramsOf, configNumbers, wordAt, List.getD_cons_zero, List.getD_cons_succ]
  rw [hen]
  rcases r with ⟨⟨nf, rp, ⟨e1, e2, e3⟩, ⟨f1, f2, f3⟩, ⟨g1, g2, g3⟩, sc, bi, cp, ca, lm, mm, lb, q, lbr, rm, ra, rs, lr, nm,
    st, ⟨l1, l2, l3, l4, l5, l6, l7, l8, l9⟩⟩, w⟩
  simp only [Params.mk.injEq, PerPhase.mk.injEq, NoticeLevels.mk.injEq] at *
  refine ⟨freqFrom_eq (by omega), phaseFrom_eq (by omega), ⟨?_, ?_, ?_⟩,
    ⟨filterFrom_eq (by omega), filterFrom_eq (by omega), filterFrom_eq (by omega)⟩,
    ⟨edgeFrom_eq (by omega), edgeFrom_eq (by omega), edgeFrom_eq (by omega)⟩, by omega, by omega, by omega, by omega,
    by omega, by omega, by omega, by omega, by omega, by omega, by omega, by omega, rateFrom_rateOf lr,
    modeFrom_eq (by omega), by simp,
    ⟨levelFrom_eq (by omega), levelFrom_eq (by omega), levelFrom_eq (by omega), levelFrom_eq (by omega),
      levelFrom_eq (by omega), levelFrom_eq (by omega), levelFrom_eq (by omega), levelFrom_eq (by omega),
      levelFrom_eq (by omega)⟩⟩
  all_goals cases e1 <;> cases e2 <;> cases e3 <;> rfl

/-- A configuration whose parameters lie within their words comes back as it was written. -/
theorem configOf_written {r : ConfigRecord} (h : ParamsFit r.params) :
    configOf (numbersOf (wordsOf (configNumbers r))) = r := by
  rw [numbersOf_wordsOf (configNumbers_lt h), configOf, paramsOf_configNumbers r h]
  rcases r with ⟨p, w⟩
  cases w <;> rfl

/-- A count comes back as it was written. -/
theorem savedCountOf_written (c : Count) : savedCountOf (numbersOf (wordsOf (countNumbers c))) = c := by
  have hc := c.isLt
  rw [numbersOf_wordsOf (by simpa [countNumbers] using hc)]
  simp [savedCountOf, countNumbers, wordAt]

/-! ## Receivers -/

theorem entriesFrom_zeros (n : Nat) (l : List Nat) : entriesFrom (List.replicate (2 * n) 0 ++ l) = entriesFrom l := by
  induction n with
  | zero => simp
  | succ n ih =>
    rw [show 2 * (n + 1) = 2 * n + 1 + 1 by omega, List.replicate_succ, List.replicate_succ]
    simpa [entriesFrom, entryFrom] using ih

theorem lastResultFrom_eq {v : Nat} {x : LastResult} (h : v % 4 = (lastResultCode x).toNat) : lastResultFrom v = x := by
  unfold lastResultFrom; rw [h]; cases x <;> rfl

theorem lastResultCode_lt (x : LastResult) : (lastResultCode x).toNat < 4 := by cases x <;> decide

theorem entryFrom_numbers {e : Entry} (h : e.slot < 8) :
    entryFrom (1 + 2 * e.slot + 0x10 * (lastResultCode e.last).toNat + 0x100 * e.attempts) e.nextTry.toNat = some e := by
  have hl := lastResultCode_lt e.last
  rcases e with ⟨slot, attempts, nextTry, last⟩
  simp only at h hl ⊢
  unfold entryFrom
  rw [if_pos (by omega)]
  simp only [Option.some.injEq, Entry.mk.injEq, BitVec.ofNat_toNat, BitVec.setWidth_eq, true_and]
  exact ⟨by omega, by omega, lastResultFrom_eq (by omega)⟩

theorem entriesFrom_numbers {l : List Entry} (h : ∀ e ∈ l, e.slot < 8) :
    entriesFrom (l.map entryNumbers).flatten = l := by
  induction l with
  | nil => rfl
  | cons e rest ih =>
    simp only [List.map_cons, List.flatten_cons, entryNumbers, List.cons_append, List.nil_append, entriesFrom]
    rw [entryFrom_numbers (h e (by simp)), ih fun x hx => h x (by simp [hx])]
    rfl

theorem entryNumbers_length (l : List Entry) : (l.map entryNumbers).flatten.length = 2 * l.length := by
  induction l with
  | nil => rfl
  | cons e rest ih => simp only [List.map_cons, List.flatten_cons, List.length_append, ih, entryNumbers]; simp; omega

theorem listNumbers_length (l : List Entry) : (listNumbers l).length = 16 := by
  simp only [listNumbers, List.length_take, List.length_append, List.length_replicate, entryNumbers_length]
  omega

theorem listFrom_numbers {l : List Entry} {damaged : Bool} (hl : l.length ≤ 8) (h : ∀ e ∈ l, e.slot < 8)
    (hn : (l.map (·.slot)).Nodup) (hd : damaged = true → l = []) : listFrom damaged (listNumbers l) = l := by
  have hlen : (List.replicate (16 - 2 * l.length) 0 ++ (l.map entryNumbers).flatten).length = 16 := by
    simp only [List.length_append, List.length_replicate, entryNumbers_length]; omega
  unfold listFrom
  split
  · exact (hd ‹_›).symm
  · rw [listNumbers, List.take_of_length_le hlen.le, show 16 - 2 * l.length = 2 * (8 - l.length) by omega,
      entriesFrom_zeros, entriesFrom_numbers h]
    exact List.pwFilter_eq_self.mpr (List.pairwise_map.mp hn)

/-- Whatever words give it, a delivery list is sound (R65, R80). -/
theorem receiverOf_sound {ns : List Nat} {r : Receiver} (h : receiverOf ns = some r) : ListSound r := by
  unfold receiverOf at h
  split at h
  · cases h
  · cases h
    refine ⟨?_, fun hd => ?_⟩
    · simp only [listFrom]
      split
      · simp
      · exact List.pairwise_map.mpr (List.pairwise_pwFilter _)
    · simp only at hd
      simp [listFrom, hd]

theorem receiverNumbers_length (r : Option Receiver) : (receiverNumbers r).length = 32 := by
  cases r with
  | none => simp [receiverNumbers]
  | some r => simp [receiverNumbers, listNumbers_length]

theorem groupsFrom_number {l : List Nat} (hl : l.length ≤ 4) (h : ∀ g ∈ l, 1 ≤ g ∧ g < 256) :
    groupsFrom (groupsNumber l) = l := by
  rcases l with _ | ⟨a, _ | ⟨b, _ | ⟨c, _ | ⟨d, _ | ⟨e, rest⟩⟩⟩⟩⟩
  · rfl
  all_goals
    simp only [List.forall_mem_cons, List.length_cons] at h hl
    first
    | omega
    | (unfold groupsFrom groupsNumber
       simp only [List.getD_cons_zero, List.getD_cons_succ, List.getD_nil])
  · rw [show (a + 0x100 * 0 + 0x10000 * 0 + 0x1000000 * 0) % 0x100 = a by omega,
      show (a + 0x100 * 0 + 0x10000 * 0 + 0x1000000 * 0) / 0x100 % 0x100 = 0 by omega,
      show (a + 0x100 * 0 + 0x10000 * 0 + 0x1000000 * 0) / 0x10000 % 0x100 = 0 by omega,
      show (a + 0x100 * 0 + 0x10000 * 0 + 0x1000000 * 0) / 0x1000000 = 0 by omega]
    have ha : a ≠ 0 := by omega
    simp [ha]
  · rw [show (a + 0x100 * b + 0x10000 * 0 + 0x1000000 * 0) % 0x100 = a by omega,
      show (a + 0x100 * b + 0x10000 * 0 + 0x1000000 * 0) / 0x100 % 0x100 = b by omega,
      show (a + 0x100 * b + 0x10000 * 0 + 0x1000000 * 0) / 0x10000 % 0x100 = 0 by omega,
      show (a + 0x100 * b + 0x10000 * 0 + 0x1000000 * 0) / 0x1000000 = 0 by omega]
    have ha : a ≠ 0 := by omega
    have hb : b ≠ 0 := by omega
    simp [ha, hb]
  · rw [show (a + 0x100 * b + 0x10000 * c + 0x1000000 * 0) % 0x100 = a by omega,
      show (a + 0x100 * b + 0x10000 * c + 0x1000000 * 0) / 0x100 % 0x100 = b by omega,
      show (a + 0x100 * b + 0x10000 * c + 0x1000000 * 0) / 0x10000 % 0x100 = c by omega,
      show (a + 0x100 * b + 0x10000 * c + 0x1000000 * 0) / 0x1000000 = 0 by omega]
    have ha : a ≠ 0 := by omega
    have hb : b ≠ 0 := by omega
    have hc : c ≠ 0 := by omega
    simp [ha, hb, hc]
  · rw [show (a + 0x100 * b + 0x10000 * c + 0x1000000 * d) % 0x100 = a by omega,
      show (a + 0x100 * b + 0x10000 * c + 0x1000000 * d) / 0x100 % 0x100 = b by omega,
      show (a + 0x100 * b + 0x10000 * c + 0x1000000 * d) / 0x10000 % 0x100 = c by omega,
      show (a + 0x100 * b + 0x10000 * c + 0x1000000 * d) / 0x1000000 = d by omega]
    have ha : a ≠ 0 := by omega
    have hb : b ≠ 0 := by omega
    have hc : c ≠ 0 := by omega
    have hd : d ≠ 0 := by omega
    simp [ha, hb, hc, hd]

theorem pathMember_number (a : Option Addr) : pathMember (pathNumber a) = a := by
  cases a with
  | none => rfl
  | some a =>
    have ha := a.isLt
    have h1 : (0x1000000 + a.toNat) / 0x1000000 % 2 = 1 := by omega
    simp only [pathMember, pathNumber, h1, if_true, Option.some.injEq]
    apply BitVec.eq_of_toNat_eq
    simp only [BitVec.toNat_ofNat]
    omega

theorem pathFrom_members {p : Option (List Addr)} (h : ∀ path, p = some path → path.length = 1 ∨ path.length = 2) :
    pathFrom ((p.getD [])[0]?) ((p.getD [])[1]?) = p := by
  cases p with
  | none => rfl
  | some path =>
    rcases path with _ | ⟨a, _ | ⟨b, _ | ⟨c, rest⟩⟩⟩
    · exact absurd (h [] rfl) (by simp)
    · rfl
    · rfl
    · exact absurd (h _ rfl) (by simp)

theorem reportedFrom_number (x : Option ReportedState) :
    reportedFrom (reportedNumber x) ((x.map ReportedState.heard).getD 0).toNat = x := by
  cases x with
  | none => rfl
  | some r =>
    rcases r with ⟨tariff, load1, load2, heard⟩
    have h1 := Bool.toNat_lt load1
    have h2 := Bool.toNat_lt load2
    have hmod : reportedNumber (some ⟨tariff, load1, load2, heard⟩) % 2 = 1 := by simp only [reportedNumber]; omega
    rw [reportedFrom, if_pos hmod]
    simp only [reportedNumber, Option.map_some, Option.getD_some]
    rw [show (1 + 2 * load1.toNat + 4 * load2.toNat + 8 * tariff) / 8 = tariff by omega,
      show (1 + 2 * load1.toNat + 4 * load2.toNat + 8 * tariff) / 2 % 2 = load1.toNat by omega,
      show (1 + 2 * load1.toNat + 4 * load2.toNat + 8 * tariff) / 4 % 2 = load2.toNat by omega]
    cases load1 <;> cases load2 <;> simp

theorem addressFrom_number {a : Option Addr} (h : a ≠ some 0) {low : Nat} (hlow : low < 256) :
    addressFrom (low + 0x100 * (a.getD 0).toNat) = a := by
  have hd : (low + 0x100 * (a.getD 0).toNat) / 0x100 = (a.getD 0).toNat := by omega
  simp only [addressFrom, hd]
  cases a with
  | none => rfl
  | some x =>
    have hx : x.toNat ≠ 0 := fun h0 => h (congrArg some (BitVec.eq_of_toNat_eq (by simpa using h0)))
    simp [hx]

/-- A receiver record within its bounds comes back from its numbers. -/
theorem receiverOf_receiverNumbers {r : Receiver} (h : ReceiverFits r) : receiverOf (receiverNumbers (some r)) = some r := by
  obtain ⟨haddr, hgl, hg, hpath, -, -, -, hel, he, hn, hd⟩ := h
  have hdam := Bool.toNat_lt r.damaged
  have hst := Bool.toNat_lt r.stale
  have hp := phaseCode_lt r.phase
  have h0 : (1 + 2 * r.damaged.toNat + 0x100 * (r.address.getD 0).toNat) % 2 = 1 := by omega
  have h1 : (1 + 2 * r.damaged.toNat + 0x100 * (r.address.getD 0).toNat) / 2 % 2 = r.damaged.toNat := by omega
  have hdm : (r.damaged.toNat == 1) = r.damaged := by cases r.damaged <;> rfl
  have hph : (phaseOfCode (byteOf ((phaseCode r.phase).toNat % 4))).getD none = r.phase := by
    rcases r.phase with _ | _ | _ | _ <;> rfl
  have hca : (if (carrierCode r.carrier).toNat % 2 = 0 then CarrierSelection.primary else .alternate) = r.carrier := by
    cases r.carrier <;> rfl
  have hsl : (r.stale.toNat % 2 == 1) = r.stale := by cases r.stale <;> rfl
  have hdrop : (receiverNumbers (some r)).drop 16 = listNumbers r.entries := rfl
  unfold receiverOf
  have hu : unoccupied (receiverNumbers (some r)) = false := by
    simp [unoccupied, receiverNumbers, wordAt]; omega
  rw [hu, hdrop]
  simp only [receiverNumbers, wordAt, List.cons_append, List.getD_cons_zero, List.getD_cons_succ, h1, hdm, hph, hca, hsl,
    groupsFrom_number hgl hg, pathMember_number, pathFrom_members hpath, reportedFrom_number,
    addressFrom_number haddr (show 1 + 2 * r.damaged.toNat < 256 by omega),
    listFrom_numbers hel (fun e hm => (he e hm).1) hn hd]
  rfl

theorem receiverNumbers_lt {r : Receiver} (h : ReceiverFits r) : ∀ n ∈ receiverNumbers (some r), n < 4294967296 := by
  obtain ⟨-, hgl, hg, -, hq, hf, hrep, -, he, -, -⟩ := h
  have hdam := Bool.toNat_lt r.damaged
  have hst := Bool.toNat_lt r.stale
  have hp := phaseCode_lt r.phase
  have haddr := (r.address.getD 0).isLt
  have hheard := ((r.reported.map ReportedState.heard).getD 0).isLt
  have hcar : (carrierCode r.carrier).toNat < 2 := by cases r.carrier <;> decide
  have hpm : ∀ a : Option Addr, pathNumber a < 4294967296 := by
    intro a
    cases a with
    | none => simp [pathNumber]
    | some a => have := a.isLt; simp only [pathNumber]; omega
  have hgn : groupsNumber r.groups < 4294967296 := by
    have hd : ∀ i, r.groups.getD i 0 < 256 := by
      intro i
      rw [List.getD_eq_getElem?_getD]
      cases hi : r.groups[i]? with
      | none => simp
      | some g => exact (hg g (List.mem_of_getElem? hi)).2
    have := hd 0; have := hd 1; have := hd 2; have := hd 3
    unfold groupsNumber; omega
  have hrn : reportedNumber r.reported < 4294967296 := by
    cases hr : r.reported with
    | none => simp [reportedNumber]
    | some x =>
      have := hrep x hr
      have := Bool.toNat_lt x.load1
      have := Bool.toNat_lt x.load2
      simp only [reportedNumber]; omega
  have hlist : ∀ n ∈ listNumbers r.entries, n < 4294967296 := by
    intro n hn
    have hn := List.mem_of_mem_take hn
    rcases List.mem_append.mp hn with hn | hn
    · rw [(List.mem_replicate.mp hn).2]; decide
    · obtain ⟨x, hx, hn⟩ := List.mem_flatten.mp hn
      obtain ⟨e, hem, rfl⟩ := List.mem_map.mp hx
      have := he e hem
      have := lastResultCode_lt e.last
      have := e.nextTry.isLt
      simp only [entryNumbers, List.mem_cons, List.not_mem_nil, or_false] at hn
      rcases hn with rfl | rfl <;> omega
  intro n hn
  simp only [receiverNumbers] at hn
  rcases List.mem_append.mp hn with hn | hn
  · simp only [List.mem_cons, List.not_mem_nil, or_false] at hn
    rcases hn with rfl | rfl | rfl | rfl | rfl | rfl | rfl | rfl | rfl | rfl | rfl | hn
    all_goals first | omega | exact hgn | exact hpm _
  · exact hlist n hn

/-- A receiver position comes back as it was written. -/
theorem receiverOf_written {r : Option Receiver} (h : ∀ x, r = some x → ReceiverFits x) :
    receiverOf (numbersOf (wordsOf (receiverNumbers r))) = r := by
  cases r with
  | none => rw [numbersOf_wordsOf (fun n hn => by rw [(List.mem_replicate.mp hn).2]; decide)]; rfl
  | some r => rw [numbersOf_wordsOf (receiverNumbers_lt (h r rfl)), receiverOf_receiverNumbers (h r rfl)]

/-! ## Orders -/

theorem rollNumbers_length (roll : List Nat) : (rollNumbers roll).length = 16 := by simp [rollNumbers]

theorem tailNumbers_length (st : OrderState) (absent : OrderField → Bool) : (tailNumbers st absent).length = 16 := by
  cases st <;> simp [tailNumbers, rollNumbers_length]

theorem orderNumbers_length (o : Option Order) : (orderNumbers o).length = 32 := by
  cases o with
  | none => simp [orderNumbers]
  | some o => simp [orderNumbers, tailNumbers_length]

/-- A strictly rising roll of receiver indices comes back from its words. -/
theorem rollFrom_numbers {roll rest : List Nat} (hs : roll.Pairwise (· < ·)) (hr : ∀ i ∈ roll, i < 512) :
    rollFrom (rollNumbers roll ++ rest) = roll := by
  have hbit : ∀ i, i < 512 →
      (wordAt (rollNumbers roll ++ rest) (i / 32)).testBit (i % 32) = decide (i ∈ roll) := by
    intro i hi
    have hk : i / 32 < 16 := by omega
    have hj : i % 32 < 32 := by omega
    have hw : wordAt (rollNumbers roll ++ rest) (i / 32) =
        flagByte ((List.range 32).map fun j => decide (32 * (i / 32) + j ∈ roll)) := by
      rw [wordAt, List.getD_eq_getElem?_getD, List.getElem?_append_left (by simpa [rollNumbers_length] using hk)]
      simp [rollNumbers, hk]
    rw [hw, flagByte_testBit, List.getD_eq_getElem?_getD]
    simp [hj, Nat.div_add_mod]
  have hf : rollFrom (rollNumbers roll ++ rest) = (List.range 512).filter fun i => decide (i ∈ roll) :=
    List.filter_congr fun i hi => hbit i (List.mem_range.mp hi)
  rw [hf]
  have hperm : ((List.range 512).filter fun i => decide (i ∈ roll)).Perm roll := by
    refine (List.perm_ext_iff_of_nodup (List.nodup_range.filter _) (hs.imp fun h => Nat.ne_of_lt h)).mpr fun i => ?_
    simp only [List.mem_filter, List.mem_range, decide_eq_true_eq]
    exact ⟨fun h => h.2, fun h => ⟨hr i h, h⟩⟩
  exact hperm.eq_of_pairwise (fun a b _ _ h1 h2 => absurd h1 (Nat.lt_asymm h2))
    (List.pairwise_lt_range.filter _) hs

theorem targetOfAddr_addrOfTarget {t : Target} (h : TargetFits t) :
    targetOfAddr (BitVec.ofNat 24 (addrOfTarget t).toNat) = some t := by
  rw [BitVec.ofNat_toNat, BitVec.setWidth_eq]
  cases t with
  | all => rfl
  | group g =>
    obtain ⟨h1, h2⟩ := h
    have : g = 1 ∨ g = 2 ∨ g = 3 ∨ g = 4 ∨ g = 5 ∨ g = 6 ∨ g = 7 ∨ g = 8 ∨ g = 9 ∨ g = 10 ∨ g = 11 ∨ g = 12 ∨ g = 13 ∨
        g = 14 := by omega
    rcases this with rfl | rfl | rfl | rfl | rfl | rfl | rfl | rfl | rfl | rfl | rfl | rfl | rfl | rfl <;> rfl
  | single a =>
    have ha : individual a = true := h
    simp [addrOfTarget, targetOfAddr, ha]

theorem actionOfCode_actionCode (a : Action) : actionOfCode (byteOf (actionCode a).toNat) = some a := by
  cases a <;> rfl

theorem outcomeFrom_code (x : OrderOutcome) : outcomeFrom (outcomeCode x).toNat = x := by cases x <;> rfl

theorem stateCode_lt (st : OrderState) : (orderStateCode st).toNat - 1 < 4 := by
  cases st <;> simp [orderStateCode]

theorem held_slot_lt {o : Order} (h : OrderFits o) : o.state.held.slot < 8 := by
  obtain ⟨-, -, -, -, -, -, -, -, -, -, -, hf, -⟩ := h
  cases hs : o.state with
  | pending => decide
  | closed n x => simp [OrderState.held]
  | active f => exact (hf f (by simp [Order.fields, hs])).1
  | revoking f => exact (hf f (by simp [Order.fields, hs])).1

/-- Where the slot fields lie. -/
theorem slotFieldsFrom_numbers {o : Order} (h : OrderFits o) (f : SlotFields) (hf : o.fields = some f)
    (h10 : o.state.word10 = f.started.toNat + 2 * f.abandoned.toNat) (h11 : o.state.word11 = f.nextRepeat.toNat)
    (hh : o.state.held = f) (ht : ∀ absent, tailNumbers o.state absent = rollNumbers f.roll) :
    slotFieldsFrom (orderNumbers (some o)) = f := by
  have htag := h.1
  have hst := stateCode_lt o.state
  obtain ⟨hslot, -, hs, hr⟩ := h.2.2.2.2.2.2.2.2.2.2.2.1 f hf
  have hs1 := Bool.toNat_lt f.started
  have hs2 := Bool.toNat_lt f.abandoned
  have hdrop : (orderNumbers (some o)).drop 16 = rollNumbers f.roll ++ [] := by simp [orderNumbers, ht]
  rw [slotFieldsFrom, hdrop, rollFrom_numbers hs hr]
  simp only [orderNumbers, wordAt, List.cons_append, List.getD_cons_zero, List.getD_cons_succ, h10, h11, hh]
  rcases f with ⟨slot, started, sent, abandoned, next, roll⟩
  simp only at hslot hs1 hs2 ⊢
  rw [show (1 + 2 * ((orderStateCode o.state).toNat - 1) + 8 * slot + 0x100 * o.tag) / 8 % 32 = slot by omega,
    show (started.toNat + 2 * abandoned.toNat) % 2 = started.toNat by omega,
    show (started.toNat + 2 * abandoned.toNat) / 2 % 2 = abandoned.toNat by omega]
  cases started <;> cases abandoned <;> simp

theorem stateCode_numbers {o : Order} (h : OrderFits o) :
    wordAt (orderNumbers (some o)) 0 / 2 % 4 = (orderStateCode o.state).toNat - 1 := by
  have htag := h.1
  have hslot := held_slot_lt h
  have hst := stateCode_lt o.state
  simp only [orderNumbers, wordAt, List.cons_append, List.getD_cons_zero]
  omega

theorem orderStateFrom_numbers {o : Order} (h : OrderFits o) :
    orderStateFrom (orderNumbers (some o)) = o.state := by
  have h0 := stateCode_numbers h
  unfold orderStateFrom
  cases hs : o.state with
  | pending => rw [hs] at h0; rw [h0]; rfl
  | active f =>
    rw [hs] at h0; rw [h0]
    exact congrArg OrderState.active (slotFieldsFrom_numbers h f (by simp [Order.fields, hs]) (by rw [hs]; rfl)
      (by rw [hs]; rfl) (by rw [hs]; rfl) (by rw [hs]; exact fun _ => rfl))
  | revoking f =>
    rw [hs] at h0; rw [h0]
    exact congrArg OrderState.revoking (slotFieldsFrom_numbers h f (by simp [Order.fields, hs]) (by rw [hs]; rfl)
      (by rw [hs]; rfl) (by rw [hs]; rfl) (by rw [hs]; exact fun _ => rfl))
  | closed n x =>
    rw [hs] at h0; rw [h0]
    have h11 : wordAt (orderNumbers (some o)) closeWord = n.toNat := by
      simp [orderNumbers, wordAt, closeWord, hs, OrderState.word11]
    have h10 : wordAt (orderNumbers (some o)) outcomeWord = 0x10000000 * (outcomeCode x).toNat := by
      simp [orderNumbers, wordAt, outcomeWord, hs, OrderState.word10]
    show OrderState.closed _ (outcomeAt _) = _
    rw [h11, outcomeAt, h10, Nat.mul_div_cancel_left _ (by decide), outcomeFrom_code]
    simp

theorem absentBit_testBit {v : Nat} (hv : v < 0x80000000) (absent : Bool) :
    (v + absentBit absent).testBit 31 = absent := by
  have hd : (v + absentBit absent) / 2 ^ 31 % 2 = absent.toNat := by
    have := Bool.toNat_lt absent
    unfold absentBit
    omega
  rw [Nat.testBit_eq_decide_div_mod_eq, hd]
  cases absent <;> rfl

theorem absentBit_mod {v : Nat} (hv : v < 0x80000000) (absent : Bool) : (v + absentBit absent) % 0x80000000 = v := by
  have := Bool.toNat_lt absent
  unfold absentBit
  omega

theorem absentBit_lt {v : Nat} (hv : v < 0x80000000) (absent : Bool) : v + absentBit absent < 4294967296 := by
  have := Bool.toNat_lt absent
  unfold absentBit
  omega

theorem ofNat24_absentBit (v : Nat) (absent : Bool) : BitVec.ofNat 24 (v + absentBit absent) = BitVec.ofNat 24 v := by
  apply BitVec.eq_of_toNat_eq
  have := Bool.toNat_lt absent
  simp only [BitVec.toNat_ofNat, absentBit]
  omega

theorem byteOf_absentBit (v : Nat) (absent : Bool) : byteOf (v + absentBit absent) = byteOf v := by
  apply BitVec.eq_of_toNat_eq
  have := Bool.toNat_lt absent
  simp only [byteOf, BitVec.toNat_ofNat, absentBit]
  omega

theorem hostRefNumber_lt (x : Option (BitVec 16)) : hostRefNumber x < 0x80000000 := by
  cases x with
  | none => decide
  | some v => have := v.isLt; simp only [hostRefNumber]; omega

theorem hostRefFrom_absentBit (x : Option (BitVec 16)) (absent : Bool) :
    hostRefFrom (hostRefNumber x + absentBit absent) = x := by
  have := Bool.toNat_lt absent
  cases x with
  | none =>
    have h1 : (hostRefNumber none + absentBit absent) / 0x10000 % 2 = 0 := by
      simp only [hostRefNumber, absentBit]; omega
    simp [hostRefFrom, h1]
  | some v =>
    have hv := v.isLt
    have h1 : (hostRefNumber (some v) + absentBit absent) / 0x10000 % 2 = 1 := by
      simp only [hostRefNumber, absentBit]; omega
    simp only [hostRefFrom, h1, if_true, Option.some.injEq]
    apply BitVec.eq_of_toNat_eq
    simp only [BitVec.toNat_ofNat, hostRefNumber, absentBit]
    omega

theorem actionCode_lt (a : Action) : (actionCode a).toNat < 4 := by cases a <;> decide

theorem readsClosed_numbers {o : Order} (h : OrderFits o) : readsClosed [] (orderNumbers (some o)) = some o.isClosed := by
  have h0 := stateCode_numbers h
  rw [readsClosed, if_pos (by simp), h0]
  cases hs : o.state <;> simp [Order.isClosed, hs, orderStateCode]

/-- A record within its bounds shows the fields absent that it was written with. -/
theorem fieldAbsent_numbers {o : Order} (h : OrderFits o) (f : OrderField) :
    fieldAbsent [] (orderNumbers (some o)) f = decide (f ∈ o.unreadable) := by
  have hc := readsClosed_numbers h
  have htgt := h.2.1
  obtain ⟨-, -, hpar, hsp, hrep, -, -, -, -, -, -, -, hcl, -⟩ := h
  have haddr := (addrOfTarget o.target).isLt
  have hact := actionCode_lt o.action
  have wide : ∀ (g : OrderField) (m : Nat), g.markWord = some m →
      (∀ n x, o.state = .closed n x →
        wordAt (orderNumbers (some o)) m = (decide (g ∈ o.unreadable)).toNat) →
      fieldAbsent [] (orderNumbers (some o)) g = decide (g ∈ o.unreadable) := by
    intro g m hg hw
    rw [fieldAbsent, hg]
    simp only [hc]
    cases hs : o.state with
    | closed n x => rw [hw n x hs]; cases decide (g ∈ o.unreadable) <;> simp [Order.isClosed, hs]
    | pending => simp [Order.isClosed, hs, hcl (by simp [Order.isClosed, hs])]
    | active _ => simp [Order.isClosed, hs, hcl (by simp [Order.isClosed, hs])]
    | revoking _ => simp [Order.isClosed, hs, hcl (by simp [Order.isClosed, hs])]
  cases f with
  | activation => exact wide .activation 16 rfl fun n x hs => by simp [orderNumbers, wordAt, tailNumbers, hs]
  | sealPoint => exact wide .sealPoint 17 rfl fun n x hs => by simp [orderNumbers, wordAt, tailNumbers, hs]
  | admission => exact wide .admission 18 rfl fun n x hs => by simp [orderNumbers, wordAt, tailNumbers, hs]
  | hostRef =>
    show ((hostRefNumber o.hostRef + absentBit (decide (OrderField.hostRef ∈ o.unreadable))).testBit 31 || _ || _) = _
    rw [absentBit_testBit (hostRefNumber_lt _)]
    exact (Bool.or_false _).trans (Bool.or_false _)
  | target =>
    show (((addrOfTarget o.target).toNat + absentBit (decide (OrderField.target ∈ o.unreadable))).testBit 31 ||
      (true && (targetOfAddr (BitVec.ofNat 24 ((addrOfTarget o.target).toNat +
        absentBit (decide (OrderField.target ∈ o.unreadable))))).isNone) || _) = _
    rw [absentBit_testBit (by omega), ofNat24_absentBit, targetOfAddr_addrOfTarget htgt]
    exact (Bool.or_false _).trans (Bool.or_false _)
  | action =>
    show (((actionCode o.action).toNat + absentBit (decide (OrderField.action ∈ o.unreadable))).testBit 31 || _ ||
      (true && (actionOfCode (byteOf ((actionCode o.action).toNat +
        absentBit (decide (OrderField.action ∈ o.unreadable))))).isNone)) = _
    rw [absentBit_testBit (by omega), byteOf_absentBit, actionOfCode_actionCode]
    exact (Bool.or_false _).trans (Bool.or_false _)
  | parameter =>
    show ((o.parameter + absentBit (decide (OrderField.parameter ∈ o.unreadable))).testBit 31 || _ || _) = _
    rw [absentBit_testBit (by omega)]
    exact (Bool.or_false _).trans (Bool.or_false _)
  | spread =>
    show ((o.spread + absentBit (decide (OrderField.spread ∈ o.unreadable))).testBit 31 || _ || _) = _
    rw [absentBit_testBit (by omega)]
    exact (Bool.or_false _).trans (Bool.or_false _)
  | repeats =>
    show ((o.repeats + absentBit (decide (OrderField.repeats ∈ o.unreadable))).testBit 31 || _ || _) = _
    rw [absentBit_testBit (by omega)]
    exact (Bool.or_false _).trans (Bool.or_false _)

theorem unreadable_numbers {o : Order} (h : OrderFits o) :
    OrderField.all.filter (fieldAbsent [] (orderNumbers (some o))) = o.unreadable := by
  obtain ⟨absent, habs⟩ := h.2.2.2.2.2.2.2.2.2.2.2.2.2
  rw [habs]
  refine List.filter_congr fun f hf => ?_
  rw [fieldAbsent_numbers h, habs]
  cases ha : absent f <;> simp [hf, ha]

/-- An order record within its bounds comes back from its numbers. -/
theorem orderOf_orderNumbers {o : Order} (h : OrderFits o) : orderOf (orderNumbers (some o)) = some o := by
  have hstate := orderStateFrom_numbers h
  have hun := unreadable_numbers h
  have hst := stateCode_lt o.state
  have hslot := held_slot_lt h
  obtain ⟨htag, htgt, hpar, hsp, hrep, c1, c2, c3, c4, c5, c6, -, -, -⟩ := h
  have hu : unoccupied (orderNumbers (some o)) = false := by
    simp only [unoccupied, orderNumbers, wordAt, List.cons_append, List.getD_cons_zero, beq_eq_false_iff_ne]
    omega
  have ht : wordAt (orderNumbers (some o)) 0 / 0x100 % 0x100 = o.tag := by
    simp only [orderNumbers, wordAt, List.cons_append, List.getD_cons_zero]
    omega
  rw [orderOf, hu, hstate, ht, orderBody, hun]
  simp only [orderNumbers, wordAt, List.cons_append, List.getD_cons_zero, List.getD_cons_succ, hostRefFrom_absentBit,
    ofNat24_absentBit, byteOf_absentBit, targetOfAddr_addrOfTarget htgt, actionOfCode_actionCode, Option.getD_some,
    absentBit_mod (Nat.lt_trans hpar (by decide)), absentBit_mod (Nat.lt_trans hsp (by decide)),
    absentBit_mod (Nat.lt_trans hrep (by decide))]
  simp only [BitVec.ofNat_toNat, BitVec.setWidth_eq]
  rcases o with ⟨tag, ref, tgt, act, par, a, sp, rep, sl, adm, ⟨t1, t2, t3, t4, t5, t6⟩, st, un⟩
  simp only at c1 c2 c3 c4 c5 c6 ⊢
  rw [show (t1 + 0x10000 * t2) % 0x10000 = t1 by omega, show (t1 + 0x10000 * t2) / 0x10000 = t2 by omega,
    show (t3 + 0x10000 * t4) % 0x10000 = t3 by omega, show (t3 + 0x10000 * t4) / 0x10000 = t4 by omega,
    show (t5 + 0x10000 * t6) % 0x10000 = t5 by omega, show (t5 + 0x10000 * t6) / 0x10000 = t6 by omega]
  rfl

theorem orderNumbers_lt {o : Order} (h : OrderFits o) : ∀ n ∈ orderNumbers (some o), n < 4294967296 := by
  have hst := stateCode_lt o.state
  have hslot := held_slot_lt h
  obtain ⟨htag, -, hpar, hsp, hrep, c1, c2, c3, c4, c5, c6, hf, -, -⟩ := h
  have haddr := (addrOfTarget o.target).isLt
  have hact := actionCode_lt o.action
  have ha := o.activation.isLt
  have hs := o.sealPoint.isLt
  have hadm := o.admission.isLt
  have hw : o.state.word10 < 4294967296 ∧ o.state.word11 < 4294967296 ∧ o.state.held.sent < 4294967296 := by
    cases hs : o.state with
    | pending => exact ⟨by decide, by decide, by decide⟩
    | closed n x => exact ⟨by cases x <;> simp [OrderState.word10, outcomeCode], n.isLt, by simp [OrderState.held]⟩
    | active f =>
      have hsent : f.sent < 65536 := (hf f (by simp [Order.fields, hs])).2.1
      have := Bool.toNat_lt f.started
      have := Bool.toNat_lt f.abandoned
      exact ⟨by simp only [OrderState.word10]; omega, f.nextRepeat.isLt, Nat.lt_trans hsent (by decide)⟩
    | revoking f =>
      have hsent : f.sent < 65536 := (hf f (by simp [Order.fields, hs])).2.1
      have := Bool.toNat_lt f.started
      have := Bool.toNat_lt f.abandoned
      exact ⟨by simp only [OrderState.word10]; omega, f.nextRepeat.isLt, Nat.lt_trans hsent (by decide)⟩
  have hroll : ∀ roll, ∀ n ∈ rollNumbers roll, n < 4294967296 := by
    intro roll n hn
    obtain ⟨k, -, rfl⟩ := List.mem_map.mp hn
    simpa using flagByte_lt ((List.range 32).map fun j => decide (32 * k + j ∈ roll))
  have htail : ∀ absent, ∀ n ∈ tailNumbers o.state absent, n < 4294967296 := by
    intro absent n hn
    cases hs : o.state with
    | pending => rw [hs] at hn; exact hroll _ n hn
    | active f => rw [hs] at hn; exact hroll _ n hn
    | revoking f => rw [hs] at hn; exact hroll _ n hn
    | closed k x =>
      have := Bool.toNat_lt (absent .activation)
      have := Bool.toNat_lt (absent .sealPoint)
      have := Bool.toNat_lt (absent .admission)
      simp only [hs, tailNumbers, List.cons_append, List.nil_append, List.mem_cons, List.mem_replicate] at hn
      omega
  intro n hn
  simp only [orderNumbers] at hn
  rcases List.mem_append.mp hn with hn | hn
  · simp only [List.mem_cons, List.not_mem_nil, or_false] at hn
    rcases hn with rfl | rfl | rfl | rfl | rfl | rfl | rfl | rfl | rfl | rfl | rfl | rfl | rfl | rfl | rfl | rfl
    all_goals first | omega | exact absentBit_lt (by first | exact hostRefNumber_lt _ | omega) _
  · exact htail _ n hn

/-- An order position comes back as it was written. -/
theorem orderOf_written {o : Option Order} (h : ∀ x, o = some x → OrderFits x) :
    orderOf (numbersOf (wordsOf (orderNumbers o))) = o := by
  cases o with
  | none => rw [numbersOf_wordsOf (fun n hn => by rw [(List.mem_replicate.mp hn).2]; decide)]; rfl
  | some o => rw [numbersOf_wordsOf (orderNumbers_lt (h o rfl)), orderOf_orderNumbers (h o rfl)]

end Sys2Proof.Machine
end

