-- ==== Sys2Proof/Laws/Line.lean ====
section
/-! SUPPORT. The coupling outputs over time, the events of over-current, and the characters of the host link. -/

namespace Sys2Proof.Machine

/-! ## The coupling outputs (R26, R44, R47) -/

/-- A window is open for 4,000 µs from its opening on. -/
theorem openAt_iff (w : CellWindow) (time : Nat) :
    w.openAt time = true ↔ w.opens ≤ time ∧ time < w.opens + 4000 := by
  rw [CellWindow.openAt, Bool.and_eq_true, decide_eq_true_iff, decide_eq_true_iff]
  rfl

/-- An output carries a cell at a time exactly where the open leg's window of the phase spans that time. -/
theorem outputAt_eq_some {s : State} {p : Phase} {time : Nat} {w : CellWindow} :
    s.outputAt p time = some w ↔
      s.driver.openLeg.isSome = true ∧ s.driver.windows.get p = some w ∧ w.opens ≤ time ∧ time < w.opens + 4000 := by
  unfold State.outputAt
  split
  · simp_all only [Option.filter_eq_some_iff, openAt_iff, true_and]
  · simp_all

/-- With no leg open every output is quiet. -/
theorem outputAt_no_leg {s : State} (p : Phase) (time : Nat) (h : s.driver.openLeg = none) :
    s.outputAt p time = none := by simp [State.outputAt, h]

/-- Outside its window the output of a phase is quiet. -/
theorem outputAt_outside {s : State} {p : Phase} {time : Nat} {w : CellWindow} (hw : s.driver.windows.get p = some w)
    (h : time < w.opens ∨ w.opens + 4000 ≤ time) : s.outputAt p time = none := by
  cases ho : s.outputAt p time with
  | none => rfl
  | some v =>
    obtain ⟨-, hv, h1, h2⟩ := outputAt_eq_some.1 ho
    cases hw.symm.trans hv
    omega

/-- The symbol of a cell at a time of its window: the one whose ninth of the window holds that time (R27). -/
theorem symbolAt_eq {w : CellWindow} {i time : Nat} (h1 : 4000 * i + 9 * w.opens ≤ 9 * time)
    (h2 : 9 * time < 4000 * (i + 1) + 9 * w.opens) : w.symbolAt time = w.symbols.getLsbD i := by
  have hi : symbolNumber (time - w.opens) = i := by
    show 9 * (time - w.opens) / 4000 = i
    omega
  rw [CellWindow.symbolAt, hi]

/-- Within its window an output carries the tones of the cell's nine symbols one after another (R27, R44). -/
theorem toneAt_eq {s : State} {p : Phase} {w : CellWindow} {i time : Nat} (ho : s.driver.openLeg.isSome = true)
    (hw : s.driver.windows.get p = some w) (hi : i < 9) (h1 : 4000 * i + 9 * w.opens ≤ 9 * time)
    (h2 : 9 * time < 4000 * (i + 1) + 9 * w.opens) :
    s.toneAt p time = some (toneOf w.divider (w.symbols.getLsbD i)) := by
  have h : s.outputAt p time = some w := outputAt_eq_some.2 ⟨ho, hw, by omega, by omega⟩
  rw [State.toneAt, h, Option.map_some, symbolAt_eq h1 h2]

/-! ## Over-current (R49) -/

/-- A report is an event exactly where it is the first in a window then open. -/
theorem overCurrentAt_iff {s : State} {time : Nat} :
    s.overCurrentAt time = true ↔ ∃ p w, s.outputAt p time = some w ∧ w.reported = false := by
  constructor
  · intro h
    simp only [State.overCurrentAt, List.any_eq_true] at h
    obtain ⟨p, -, h⟩ := h
    cases hw : s.outputAt p time with
    | none => simp [hw] at h
    | some w => exact ⟨p, w, hw, by simpa [hw] using h⟩
  · rintro ⟨p, w, hw, hr⟩
    simp only [State.overCurrentAt, List.any_eq_true]
    exact ⟨p, by cases p <;> simp [Phase.all], by simp [hw, hr]⟩

@[simp] theorem foldWindows_get (time level : Nat) (x : PerPhase (Option CellWindow)) (p : Phase) :
    (foldWindows time level x).get p = (x.get p).map (·.foldAt time level) := by cases p <;> rfl

/-- After an event no window open at its time takes another. -/
theorem foldAt_reported {time level : Nat} {w : CellWindow} (h : w.openAt time = true) :
    (w.foldAt time level).reported = true := by simp [CellWindow.foldAt, h]

/-! ## Characters (R168) -/

/-- The character of a byte has no framing error. -/
@[simp] theorem framingError_charOf (b : Byte) : framingError (charOf b) = false := by
  revert b; decide

/-- The character of a byte carries that byte. -/
@[simp] theorem dataOfChar_charOf (b : Byte) : dataOfChar (charOf b) = b := by
  unfold dataOfChar charOf
  apply BitVec.eq_of_getLsbD_eq
  intro i hi
  have h : i < 8 := hi
  simp only [BitVec.getLsbD_extractLsb', BitVec.getLsbD_append]
  rw [if_neg (by omega), if_pos (by omega)]
  simp [h]

end Sys2Proof.Machine
end

