-- ==== Sys2Proof/Laws/Store.lean ====
section
/-! SUPPORT. The Retained Store: the words of a position after a write or a read of it, and that no other position
changes. -/

namespace Sys2Proof.Machine

open Sys2Proof.Safety

/-! ## The listed positions -/

theorem keptAt_keep_self {l : List (Nat × Words)} (n : Nat) (ws : Words) (h : rising l = true) :
    keptAt (keep l n ws) n = ws := by
  unfold keptAt keep
  split
  · simp_all [lookup_eraseAt_self]
  · simp [lookup_insertAt_self]

theorem keptAt_keep_ne (l : List (Nat × Words)) {n m : Nat} (ws : Words) (h : m ≠ n) :
    keptAt (keep l n ws) m = keptAt l m := by
  unfold keptAt keep
  split
  · rw [lookup_eraseAt_ne l h]
  · rw [lookup_insertAt_ne l ws h]

theorem rising_keep {l : List (Nat × Words)} (n : Nat) (ws : Words) (h : rising l = true) :
    rising (keep l n ws) = true := by
  unfold keep
  split
  · exact rising_eraseAt n h
  · exact rising_insertAt n ws h

theorem keptAt_keep {l : List (Nat × Words)} (n m : Nat) (ws : Words) (h : rising l = true) :
    keptAt (keep l n ws) m = if m = n then ws else keptAt l m := by
  by_cases hm : m = n
  · subst hm; simp [keptAt_keep_self m ws h]
  · simp [hm, keptAt_keep_ne l ws hm]

theorem mem_keep {l : List (Nat × Words)} {n : Nat} {ws : Words} {x : Nat × Words} (h : x ∈ keep l n ws) :
    x ∈ l ∨ (x = (n, ws) ∧ ws ≠ zeroWords 32) := by
  unfold keep at h
  split at h
  · exact .inl (mem_eraseAt h)
  · rcases mem_insertAt h with rfl | h
    · exact .inr ⟨rfl, ‹_›⟩
    · exact .inl h

/-- The canonical form is kept: the words of a position written or erased. -/
theorem wordsPlaced_keep {l : List (Nat × Words)} {bound n : Nat} {ws : Words} (h : WordsPlaced bound l) (hn : n < bound)
    (hw : ws.length = 32) : WordsPlaced bound (keep l n ws) := by
  refine ⟨⟨rising_keep n ws h.1.1, fun x hx => ?_⟩, fun x hx => ?_⟩
  · rcases mem_keep hx with hx | ⟨rfl, -⟩
    · exact h.1.2 x hx
    · exact hn
  · rcases mem_keep hx with hx | ⟨rfl, hz⟩
    · exact h.2 x hx
    · exact ⟨hw, hz⟩

theorem keptAt_length {l : List (Nat × Words)} {bound : Nat} (h : WordsPlaced bound l) (n : Nat) :
    (keptAt l n).length = 32 := by
  unfold keptAt
  cases hl : lookup l n with
  | none => simp [zeroWords]
  | some ws => exact (h.2 (n, ws) (mem_of_lookup hl)).1

/-! ## Every position as its words -/

/-- The lists of the store's positions are in their canonical form. -/
abbrev RetainedStore.ordered (st : RetainedStore) : Prop := rising st.orders = true ∧ rising st.receivers = true

theorem setWords_at_ne (st : RetainedStore) (ws : Words) {p q : Position} (h : q ≠ p) :
    (st.setWords ws p).wordsAt q = st.wordsAt q := by
  cases p <;> cases q <;> simp_all [RetainedStore.wordsAt, RetainedStore.setWords, keptAt_keep_ne]

theorem setWords_at_self {st : RetainedStore} (ws : Words) (p : Position) (h : st.ordered) :
    (st.setWords ws p).wordsAt p = ws := by
  cases p <;> simp [RetainedStore.wordsAt, RetainedStore.setWords, keptAt_keep_self, h.1, h.2]

theorem setWords_ordered {st : RetainedStore} (ws : Words) (p : Position) (h : st.ordered) :
    (st.setWords ws p).ordered := by
  cases p
  · exact h
  · exact h
  · exact ⟨rising_keep _ _ h.1, h.2⟩
  · exact ⟨h.1, rising_keep _ _ h.2⟩

/-- Other words at a position change nothing of the store but the words. -/
@[simp] theorem setWords_frame (st : RetainedStore) (ws : Words) (p : Position) :
    (st.setWords ws p).writes = st.writes ∧ (st.setWords ws p).corrections = st.corrections ∧
    (st.setWords ws p).scrubNext = st.scrubNext ∧ (st.setWords ws p).scrubPace = st.scrubPace ∧
    (st.setWords ws p).scrubDue = st.scrubDue ∧ (st.setWords ws p).wiping = st.wiping ∧
    (st.setWords ws p).restoring = st.restoring := by cases p <;> simp [RetainedStore.setWords]

/-! ## A read: what it leaves at its position and elsewhere -/

/-- Bits that turn at a position change no other. -/
theorem spoil_at_ne (st : RetainedStore) (e : ReadErrors) {p q : Position} (h : q ≠ p) :
    (st.spoil e p).wordsAt q = st.wordsAt q := setWords_at_ne st _ h

theorem spoil_at_self {st : RetainedStore} (e : ReadErrors) (p : Position) (h : st.ordered) :
    (st.spoil e p).wordsAt p = turnWords e (st.wordsAt p) := setWords_at_self _ p h

theorem readBack_wordsAt (st : RetainedStore) (e : ReadErrors) (p q : Position) :
    (st.readBack e p).wordsAt q =
      (st.setWords ((turnWords e (st.wordsAt p)).map (·.writtenBack)) p).wordsAt q := by cases q <;> rfl

/-- A read changes no position but its own. -/
theorem readBack_at_ne (st : RetainedStore) (e : ReadErrors) {p q : Position} (h : q ≠ p) :
    (st.readBack e p).wordsAt q = st.wordsAt q := by rw [readBack_wordsAt, setWords_at_ne st _ h]

/-- A read writes every word of its position back (R154). -/
theorem readBack_at_self {st : RetainedStore} (e : ReadErrors) (p : Position) (h : st.ordered) :
    (st.readBack e p).wordsAt p = (turnWords e (st.wordsAt p)).map (·.writtenBack) := by
  rw [readBack_wordsAt, setWords_at_self _ p h]

/-- A read counts the words it corrected, and changes nothing else of the store (R154). -/
@[simp] theorem readBack_frame (st : RetainedStore) (e : ReadErrors) (p : Position) :
    (st.readBack e p).writes = st.writes ∧
    (st.readBack e p).corrections = bump st.corrections (correctedWords (turnWords e (st.wordsAt p))) ∧
    (st.readBack e p).scrubNext = st.scrubNext ∧ (st.readBack e p).scrubPace = st.scrubPace ∧
    (st.readBack e p).scrubDue = st.scrubDue ∧ (st.readBack e p).wiping = st.wiping ∧
    (st.readBack e p).restoring = st.restoring := by simp [RetainedStore.readBack]

/-! ## A write -/

@[simp] theorem lay_frame (st : RetainedStore) (c : WriteContent) (count : Count) :
    (st.lay c count).writes = st.writes ∧ (st.lay c count).corrections = st.corrections ∧
    (st.lay c count).scrubNext = st.scrubNext ∧ (st.lay c count).scrubPace = st.scrubPace ∧
    (st.lay c count).scrubDue = st.scrubDue ∧ (st.lay c count).wiping = st.wiping ∧
    (st.lay c count).restoring = st.restoring := by simp [RetainedStore.lay]

theorem lay_ordered {st : RetainedStore} (c : WriteContent) (count : Count) (h : st.ordered) :
    (st.lay c count).ordered := setWords_ordered _ _ h

/-- A write lays the words of its record at its position. -/
theorem lay_at_self {st : RetainedStore} (c : WriteContent) (count : Count) (h : st.ordered) :
    (st.lay c count).wordsAt c.position = c.words count := setWords_at_self _ _ h

/-- A write changes no position but its own. -/
theorem lay_at_ne (st : RetainedStore) (c : WriteContent) (count : Count) {q : Position} (h : q ≠ c.position) :
    (st.lay c count).wordsAt q = st.wordsAt q := setWords_at_ne st _ h

/-! ## The canonical form -/

/-- The store has its positions, each with its words. -/
def RetainedStore.placed (st : RetainedStore) : Prop :=
  WordsPlaced 32 st.orders ∧ WordsPlaced 512 st.receivers ∧ st.config.length = 16 ∧ st.savedCount.length = 1

theorem wordsAt_length {st : RetainedStore} (h : st.placed) (p : Position) : (st.wordsAt p).length = p.words := by
  obtain ⟨ho, hr, hc, hs⟩ := h
  cases p
  · exact hc
  · exact hs
  · exact keptAt_length ho _
  · exact keptAt_length hr _

/-- A write lays down as many words as its position has (R156). -/
theorem words_length (c : WriteContent) (count : Count) : (c.words count).length = c.position.words := by
  cases c <;>
    simp [WriteContent.words, WriteContent.position, Position.words, configNumbers_length, countNumbers,
      orderNumbers_length, receiverNumbers_length]

theorem setWords_placed {st : RetainedStore} {ws : Words} {p : Position} (h : st.placed) (hp : p.wf = true)
    (hw : ws.length = p.words) : (st.setWords ws p).placed := by
  obtain ⟨ho, hr, hc, hs⟩ := h
  cases p with
  | config => exact ⟨ho, hr, hw, hs⟩
  | savedCount => exact ⟨ho, hr, hc, hw⟩
  | order n => exact ⟨wordsPlaced_keep ho (by simpa [Position.wf] using hp) hw, hr, hc, hs⟩
  | receiver n => exact ⟨ho, wordsPlaced_keep hr (by simpa [Position.wf] using hp) hw, hc, hs⟩

theorem lay_placed {st : RetainedStore} {c : WriteContent} (count : Count) (h : st.placed)
    (hp : c.position.wf = true) : (st.lay c count).placed := setWords_placed h hp (words_length c count)

theorem spoil_placed {st : RetainedStore} (e : ReadErrors) {p : Position} (h : st.placed) (hp : p.wf = true) :
    (st.spoil e p).placed := setWords_placed h hp (by rw [turnWords_length, wordsAt_length h])

theorem readBack_placed {st : RetainedStore} (e : ReadErrors) {p : Position} (h : st.placed) (hp : p.wf = true) :
    (st.readBack e p).placed := by
  have := setWords_placed (ws := (turnWords e (st.wordsAt p)).map (·.writtenBack)) h hp
    (by rw [List.length_map, turnWords_length, wordsAt_length h])
  cases p <;> exact this

end Sys2Proof.Machine
end

