-- ==== Sys2Proof/Tests/Slice0.lean ====
section
/-! SUPPORT. Tests: what WellFormed refuses, figures of the spec, and for every statement with hypotheses a state that
meets them. -/

namespace Sys2Proof.Tests

open Sys2Proof Sys2Proof.Machine Sys2Proof.Safety

/-- Data bit 4, and data bits 4 and 19, of a word turned. -/
def oneBit (word : Nat) : WordFlip := ⟨word, ⟨0x10, 0⟩⟩
def twoBits (word : Nat) : WordFlip := ⟨word, ⟨0x80010, 0⟩⟩

/-! ## What WellFormed refuses, check by check -/

theorem test_wf_refuses_power_on_position : (Instr.powerOn [⟨.receiver 512, []⟩]).wf = false := by decide
theorem test_wf_refuses_power_on_word : (Instr.powerOn [⟨.savedCount, [oneBit 1]⟩]).wf = false := by decide
theorem test_wf_refuses_power_on_twice : (Instr.powerOn [⟨.config, []⟩, ⟨.config, []⟩]).wf = false := by decide
theorem test_wf_refuses_word_twice : (Instr.scrubRead [oneBit 7, twoBits 7]).wf = false := by decide
theorem test_wf_refuses_no_bit : (Instr.scrubRead [⟨7, ⟨0, 0⟩⟩]).wf = false := by decide
theorem test_wf_refuses_power_loss : (Instr.powerLoss false 546).wf = false := by decide
theorem test_wf_refuses_zc_edge : (Instr.zcEdge .l1 0 true 0).wf = false := by decide
theorem test_wf_refuses_acquire_lock : (Instr.acquireLock .l1 0 true 0).wf = false := by decide
theorem test_wf_refuses_return_lock : (Instr.returnLock .l1 0 true 0).wf = false := by decide
theorem test_wf_refuses_scrub_read : (Instr.scrubRead [oneBit 32]).wf = false := by decide
theorem test_wf_refuses_record_write : (Instr.recordWrite [twoBits 32]).wf = false := by decide
theorem test_wf_refuses_reset_wipe : (Instr.resetWipe [oneBit 16]).wf = false := by decide
theorem test_wf_refuses_order_seal : (Instr.orderSeal 32).wf = false := by decide
theorem test_wf_refuses_not_sent : (Instr.notSent 32).wf = false := by decide
theorem test_wf_refuses_relay_span_end : (Instr.relaySpanEnd (List.replicate 16 ⟨0, 0⟩)).wf = false := by decide
theorem test_wf_refuses_answer_report : (Instr.answerReport (List.replicate 13 ⟨0, 0⟩)).wf = false := by decide
theorem test_wf_refuses_length_discard : (Instr.lengthDiscard (charOf 248)).wf = false := by decide
theorem test_wf_refuses_start_bit : (Instr.byteReceived 0x3FF).wf = false := by decide
theorem test_wf_refuses_record_complete : (Instr.recordComplete 0).wf = false := by decide
theorem test_wf_refuses_crc_discard : (Instr.crcDiscard 0).wf = false := by decide

/-! ## Figures of the spec -/

/-- 10, R29: the CRC of the nine characters "123456789" is 0x29B1. -/
theorem test_crc_check_value : crc [0x31, 0x32, 0x33, 0x34, 0x35, 0x36, 0x37, 0x38, 0x39] = 0x29B1 := by decide +kernel

/-- 09, R168: the start mark 0xC3 as sent, a low start bit, the data bits from the least significant on, a high stop
bit. -/
theorem test_start_mark_character : (List.range 10).map (charOf 0xC3).getLsbD =
    [false, true, true, false, false, false, false, true, true, true] := by decide

/-- 08, R153: a word with no bit, a data bit, a check bit and two bits in error, and words of three and four bits in error
classed as each of the three. -/
theorem test_word_classes :
    [⟨0, 0⟩, ⟨0x10, 0⟩, ⟨0, 4⟩, ⟨0x80010, 0⟩].map (fun b => ((StoredWord.of 0x12345678).turn b).cls) =
        [.clean, .corrected, .corrected, .uncorrectable] ∧
      [⟨0xA3, 0⟩, ⟨7, 0⟩, ⟨0x13, 0⟩].map (fun b => ((StoredWord.of 0x12345678).turn b).cls) =
        [.clean, .corrected, .uncorrectable] := by
  decide +kernel

/-- 08, worked figures: words 0 to 30 of position 112 read clean, word 31 with bits 4 and 19 in error does not, and it lies
in the record's entry for slot 5. -/
theorem test_worked_scrub_figure :
    let r : Receiver :=
      ⟨some 0x0D1001, some .l1, [5], none, false, 24, .primary, 0, none, false,
        [⟨2, 1, 8400000, .noneYet⟩, ⟨5, 0, 8400010, .noneYet⟩]⟩
    let ws := turnWords [twoBits 31] (wordsOf (receiverNumbers (some r)))
    badWords ws = [31] ∧ readsEmpty ws = false ∧ (r.entries.map entryNumbers).flatten.getLast? = some 8400010 ∧
      wordAt (receiverNumbers (some r)) 31 = 8400010 := by decide +kernel

/-- 03, R44: the carriers of dividers 84, 99, 127 and 227. -/
theorem test_carriers : [84, 99, 127, 227].map carrierHz = [94117, 80000, 62500, 35087] := by decide

/-- 03, R44: their upper and lower tones. -/
theorem test_tones : [84, 99, 127, 227].map (fun d => (upperTone d, lowerTone d)) =
    [(97058, 91176), (82500, 77500), (64453, 60547), (36183, 33991)] := by decide

/-- 02, R27: at 444 µs the first symbol is still sent, at 445 µs the second; the ninth is sent from 3,556 µs on. -/
theorem test_symbol_boundaries : [0, 444, 445, 3555, 3556, 3999].map symbolNumber = [0, 0, 1, 7, 8, 8] := by decide

/-- What becomes of an order position in whose words two bits each have turned: whether the order keeps a close number, its
tag and its absent fields. -/
def damagedWords (x : OrderState) (un : List OrderField) (bad : List Nat) : Option (Bool × Nat × List OrderField) :=
  let o : Order := ⟨41, none, .all, .setTariff, 2, if .activation ∈ un then 0 else 7, 0, 1, 5, 3, Counters.zero, x, un⟩
  match storedDamage (turnWords (bad.map twoBits) (wordsOf (orderNumbers (some o)))) with
  | .empty => none
  | .again o => some (true, o.tag, o.unreadable)
  | .fresh o => some (false, o.tag, o.unreadable)

/-- 05, R106, R108: fields in words that read clean are kept, whatever others fail. -/
theorem test_damaged_keeps_readable :
    damagedWords .pending [] [10, 31] = some (false, 41, []) ∧
      damagedWords (.active ⟨5, true, 2, false, 9, [0, 33]⟩) [] [0, 10, 16] = some (false, 0, []) ∧
      damagedWords (.closed 9 .complete) [] [10, 31] = some (false, 41, []) ∧
      damagedWords (.closed 9 .complete) [] [4, 8] = some (false, 41, [.parameter, .sealPoint]) := by decide +kernel

/-- 05, R106: a DAMAGED order found damaged again keeps its close number where it can be read, and its absent fields stay
absent. -/
theorem test_damaged_again :
    damagedWords (.closed 9 .damaged) [.target, .activation] [4] =
        some (true, 41, [.target, .parameter, .activation]) ∧
      damagedWords (.closed 9 .damaged) [.target, .activation] [10] = some (false, 41, [.target, .activation]) ∧
      damagedWords (.closed 9 .damaged) [.target, .activation] [0, 10] = some (false, 0, [.target, .activation]) ∧
      damagedWords (.closed 9 .damaged) [.target, .activation] [16] = some (true, 41, [.target, .activation]) := by
  decide +kernel

/-- 01, R8: P of 10,000 after intervals of 10,040 and then 9,990. -/
theorem test_period_follows : updatePeriod 10000 10040 = 10005 ∧ updatePeriod 10005 9990 = 10004 := by decide

/-- 02, R43: T of ORDER, REVOKE and POLL exchanges with 0, 1 and 2 hops. -/
theorem test_exchange_spans : [BurstKind.order, .revoke, .poll].map (fun k => [0, 1, 2].map (exchangeSpan k)) =
    [[22, 49, 79], [18, 41, 67], [21, 47, 76]] := by decide

/-- 06, R130: the hold-offs after the first six failed attempts. -/
theorem test_hold_offs : [1, 2, 3, 4, 5, 6].map holdOff = [50, 100, 200, 400, 800, 1600] := by decide

/-- 10, worked figures: the cells of the ORDER with tag 17 to 0x0A0B0C over relay 0x0A0700, the CRC apart. -/
theorem test_order_burst_cells : (Burst.order 0x0A0B0C 17 .setTariff 3 0x7B79 0 [0x0A0700]).fields =
    [0x21, 0x0A, 0x0B, 0x0C, 0x11, 0x13, 0x7B, 0x79, 0x00, 0x0A, 0x07, 0x00] := by decide

/-- The same burst holds 15 cells, the lead and the CRC among them. -/
theorem test_order_burst_length : (Burst.order 0x0A0B0C 17 .setTariff 3 0x7B79 0 [0x0A0700]).length = 15 := by
  decide

/-- 10, worked figures: the body of the ORDER_ADD that admitted it. -/
theorem test_order_add_body :
    readOrderAdd [1, 0x0A, 0x0B, 0x0C, 1, 3, 0x00, 0x4C, 0x7B, 0x79, 0, 0, 1, 2] =
      some ⟨0x0A0B0C, 1, 3, 5012345, 0, 0, some 0x0102⟩ := by decide

/-- 10, worked figures: with the flags byte 3, and with 12 bytes and bit 0 set, the body is unreadable. -/
theorem test_order_add_unreadable :
    readOrderAdd [3, 0x0A, 0x0B, 0x0C, 1, 3, 0x00, 0x4C, 0x7B, 0x79, 0, 0, 1, 2] = none ∧
      readOrderAdd [1, 0x0A, 0x0B, 0x0C, 1, 3, 0x00, 0x4C, 0x7B, 0x79, 0, 0] = none := by decide

/-- 03, after R55: over a floor of 4 units an answer of 100 units gives 27, one of 16 gives 12; R55: a ratio of 100 gives
40 and one of 1,413 gives 63. -/
theorem test_margins : marginOf 8 [⟨100, 0⟩] = 27 ∧ marginOf 8 [⟨16, 0⟩] = 12 ∧ marginOf 2 [⟨100, 0⟩] = 40 ∧
    marginOf 2 [⟨1413, 0⟩] = 63 := by decide

/-- 03, after R55: over a floor of 4 units a window of 7 units carries no carrier and one of 8 units does. -/
theorem test_carrier_floor : carriesCarrier 8 ⟨7, 0⟩ = false ∧ carriesCarrier 8 ⟨8, 0⟩ = true := by decide

/-- 10, R189: 4,000,000,000 written to SETTLE_COUNT is stored as 3,000. -/
theorem test_settle_count_clamped :
    (Params.default.write 4000000000 .settleCount).map (·.settleCount) = some 3000 := by decide

/-- 11: the levels of the first sequence's builds, 12 + (10 div 2) + 2 = 19 and 12 + 9 + 4 = 25 clamped to 24. -/
theorem test_build_levels : State.reset.buildLevel 14 1 = 19 ∧ State.reset.buildLevel 6 2 = 24 := by decide

/-- 11: Q 14 with M 22 becomes 16, Q 6 with M 8 stays 6, and no answer takes 6 to 2. -/
theorem test_quality_learned : learnQuality 14 (.ok 0x1001 (.ack 41)) 22 = 16 ∧ learnQuality 6 .bad 8 = 6 ∧
    learnQuality 6 .none 0 = 2 := by decide

/-- 10: a STATUS reply is 66 bytes, a TIME_READ reply 21, with the result code. -/
theorem test_reply_lengths : State.reset.statusFields.length + 1 = 66 ∧ State.reset.timeFields.length + 1 = 21 := by
  decide

/-! ## States the witnesses use -/

/-- A tracker LOCKED with its last crossing at 100,000 µs. -/
def lockedTracker : Tracker := { Tracker.powerOn 10000 with
  settled := some false, state := .locked, last := some 100000, lastHanded := some 100000 }

/-- The part running on L1 at L = 10,000 with the count CONFIRMED. -/
def running : State := { State.reset with
  tb := { State.reset.tb with
    trackers := .const lockedTracker, count := 10000, lastAdvance := 100000, reference := some .l1, spacing := false
    state := .running, status := .confirmed }
  sched := ⟨0, none, []⟩
  store := { State.reset.store with restoring := false }
  link := { State.reset.link with queue := [] } }

/-- Running, with one tracker as given. -/
def tracking (p : Phase) (t : Tracker) : State := running.setTracker p t

/-- A request in the buffer. -/
def asking (kind : Byte) (body : List Byte) (s : State) : State :=
  { s with link := { s.link with buffer := [⟨kind, 7, body⟩] } }

/-- The receiver 0x0D1001 on L1, in group 5. -/
def receiver1 : Receiver :=
  { damagedReceiver (some 0x0D1001) with phase := some .l1, groups := [5], quality := 24, damaged := false }

/-- The same with an entry for slot 0 and these attempts. -/
def listed (attempts : Nat) : Receiver := { receiver1 with entries := [⟨0, attempts, 10000, .noneYet⟩] }

/-- An order to group 5 with its seal point at 39,950. -/
def order1 (st : OrderState) (c : Counters) : Order :=
  { orderBody [] [] 0 st with
    tag := 41, target := .group 5, parameter := 2, activation := 40000, sealPoint := 39950, admission := 1
    state := st, counters := c, unreadable := [] }

/-- Slot 0, with the transmission started. -/
def slot0 (started : Bool) : SlotFields := ⟨0, started, 0, false, 10000, [0]⟩

/-- Running, with one order and one receiver. -/
def stored (o : Order) (r : Receiver) : State := { running with orders := ⟨[(0, o)], 1, 41⟩, table := [(0, r)] }

/-- One receiver targeted, nothing counted yet. -/
def oneTargeted : Counters := { Counters.zero with targeted := 1 }

/-- The order ACTIVE in slot 0 with its receiver listed. -/
def delivering : State := stored (order1 (.active (slot0 true)) oneTargeted) (listed 0)

/-- Everything a queue may hold: 16 notices, the urgent ones first, 4 requests and 4 probes. -/
def fullQueues : State := { running with
  link := { running.link with
    queue := List.replicate 15 .firstPowerOn ++ [⟨.link, false, 0, [], .nothing⟩]
    buffer := List.replicate 4 ⟨1, 0, []⟩ }
  sched := ⟨0, none, List.replicate 4 ⟨0, 0, 0x0D1001, false, none⟩⟩ }

/-- The beacon of count 10,000 with its lead cell sent on L1 and L2. -/
def beaconFlight : Transmission := ⟨10000, .beacon 0 10000, ⟨true, true, false⟩, 20, .primary, none, 100000⟩

/-- The ORDER to the receiver with its path of one relay or none. -/
def exchangeFlight (path : List Addr) : Transmission :=
  ⟨10000, .order 0x0D1001 41 .setTariff 2 0x9C40 0 path, onePhase .l1, 12, .primary,
    some ⟨path.length, if path = [] then 0 else 12, exchangeSpan .order path.length, 8, .l1, 0x1001⟩, 100000⟩

/-- A transmission in flight, with the crossings counted and the windows opened on L1. -/
def flying (t : Transmission) (st : EngineState) (seen opened : Nat) (s : State) : State := { s with
  engine := { s.engine with
    state := st, transmission := some t, live := t.phases, seen := ⟨seen, seen, 0⟩, opened := ⟨opened, opened, 0⟩ } }

/-- The delivery of slot 0's order as handed over. -/
def delivery0 : DeliveryRecord :=
  ⟨0, 0x0D1001, 0, 41, 1, false, 0, ⟨.order, [], .l1, .primary, 12, 22⟩, false⟩

/-- The delivery in its answer window, at its last window. -/
def answering : State :=
  let s := flying (exchangeFlight []) .listening 22 12 delivering
  { s with
    sched := ⟨24, some ⟨10000, .delivery delivery0⟩, []⟩
    answer := ⟨.answerWindow, some .l1, 99, some 200, false⟩ }

/-- What the windows of an answer of this energy hold. -/
def heardAnswer (energy : Nat) (data : List Byte) : List Window :=
  ⟨energy, leadSymbols⟩ :: (data ++ crcBytes data).map fun b => ⟨energy, dataSymbols b⟩

/-- The lead cell's window after the crossing at 100,000 µs. -/
def cellOut : CellWindow := ⟨101200, leadSymbols, 20, 99, false⟩

/-- An open leg of which these offsets were sent, with the marks of earlier legs. -/
def legOpen (sent : List Nat) (marked : Bool) (history : List Bool) (s : State) : State := { s with
  driver := { s.driver with
    openLeg := some ⟨⟨true, true, false⟩, 20, sent, marked⟩, legLevel := 20, history := history
    windows := ⟨some cellOut, none, none⟩ } }

/-! ## The hypotheses of every statement can be met -/

theorem test_QueuesStayBounded_met :
    LinkBounded fullQueues ∧ exec (.byteReceived (charOf 0xC3)) fullQueues = .next (receiveChar (charOf 0xC3) fullQueues) := by
  unfold LinkBounded
  exact ⟨by decide, rfl⟩

theorem test_LevelCapStaysInItsSpan_met :
    CapInSpan { running with driver := { running.driver with cap := 16 } } ∧ CapInSpan running ∧
      exec .capRecovery running = .next running := by
  unfold CapInSpan
  exact ⟨by decide, by decide, rfl⟩

theorem test_PositionsStayCanonical_met :
    (Instr.orderSeal 31).wf = true ∧ Canonical delivering ∧ exec (.orderSeal 31) delivering = .next delivering := by
  unfold Canonical WordsPlaced Placed
  exact ⟨by decide, by decide, rfl⟩

theorem test_DeliveryListsStaySound_met :
    ListsSound delivering ∧ exec .capRecovery delivering = .next delivering := by
  refine ⟨⟨?_, ?_, ?_⟩, rfl⟩
  · simp only [ListSound]; decide
  · exact fun x hx => absurd hx List.not_mem_nil
  · exact fun w hw => absurd hw List.not_mem_nil

/-- At the last microsecond of the window of P div 16, with the shortest run that the filter accepts. -/
theorem test_EdgeInsideWindowUpdatesPeriod_met :
    running.powered = true ∧ (running.tracker .l2).state = .locked ∧ EdgeAccepted running .l2 true 16 ∧
      EdgeInside running .l2 100000 110625 true ∧ running.tb.reference ≠ some .l2 ∧
      running.owed.settleEnd = false ∧ running.engine.transmission = none := by
  unfold EdgeAccepted EdgeInside
  decide

theorem test_OtherEdgesAreDiscarded_met_outside :
    running.powered = true ∧ EdgeAccepted running .l2 true 16 ∧ (running.tracker .l2).tracked = true ∧
      (running.tracker .l2).last = some 100000 ∧
      insideWindow running.params.nominalFreq .both (running.tracker .l2) 100000 110626 = false := by
  unfold EdgeAccepted
  decide

/-- L2 in RISING mode, its input high. -/
def risingHigh : State :=
  { tracking .l2 { lockedTracker with settled := some true } with
    params := { running.params with edge := ⟨.both, .rising, .both⟩ } }

theorem test_OtherEdgesAreDiscarded_met_falling :
    EdgeAccepted risingHigh .l2 false 16 ∧ risingHigh.params.edge.get .l2 = .rising := by
  unfold EdgeAccepted
  decide

theorem test_OtherEdgesAreDiscarded_met_short :
    (running.tracker .l2).settled = some (!true) ∧ 15 < filterSamples (running.params.filter.get .l2) := by decide

theorem test_EmptyWindowSynthesises_met :
    let s := tracking .l2 { lockedTracker with miss := 1 }
    let t := tracking .l2 { lockedTracker with state := .coasting, coast := 198 }
    s.powered = true ∧ (s.tracker .l2).last = some 100000 ∧ s.tb.reference ≠ some .l2 ∧ s.owed.settleEnd = false ∧
      s.engine.transmission = none ∧ (s.tracker .l2).state = .locked ∧ (s.tracker .l2).miss < 2 ∧
      (t.tracker .l2).last = some 100000 ∧ (t.tracker .l2).state = .coasting ∧ (t.tracker .l2).coast < 199 := by
  decide

/-- The synthesised crossing at exactly P div 2 after the last advance. -/
theorem test_ReferenceCrossingAdvancesCount_met :
    let s := { running with tb := { running.tb with spacing := true, lastAdvance := 105000 } }
    s.powered = true ∧ (s.tracker .l1).last = some 100000 ∧ (s.tracker .l1).state = .locked ∧
      (s.tracker .l1).miss < 2 ∧ s.tb.state = .running ∧ s.tb.reference = some .l1 ∧
      (s.tb.spacing = true → s.tb.lastAdvance + (s.tracker .l1).period / 2 ≤
        predicted (s.params.edge.get .l1) (s.tracker .l1) 100000) := by decide

theorem test_DerivedCrossingIsHandedOn_met :
    let s := { tracking .l2 { lockedTracker with derivedDue := true } with
      params := { running.params with edge := ⟨.both, .rising, .both⟩ } }
    s.powered = true ∧ s.params.edge.get .l2 = .rising ∧ (s.tracker .l2).derivedDue = true ∧
      (s.tracker .l2).tracked = true ∧ (s.tracker .l2).last = some 100000 ∧ s.tb.reference ≠ some .l2 ∧
      s.owed.settleEnd = false ∧ s.engine.transmission = none := by decide

/-- In OUTAGE at the end of the 60 Hz pattern. -/
def dark : State := { running with
  params := { running.params with nominalFreq := .hz60 }
  tb := { running.tb with state := .outage, reference := none, crystalPos := 2, crystalSpan := 8334 } }

theorem test_CrystalAdvancesCountInOutage_met : dark.powered = true ∧ dark.store.restoring = false ∧
    dark.tb.state = .outage ∧ dark.params.nominalFreq = .hz60 ∧ dark.tb.crystalRestart = false ∧
    dark.tb.crystalPos < 3 := by decide

/-- The sixteenth interval, of 9,000 µs, the least in range. -/
theorem test_CrossingsInSuccessionLock_met_acquiring :
    let s := { tracking .l2 { lockedTracker with state := .acquiring, acquire := 15 } with
      tb := { (tracking .l2 { lockedTracker with state := .acquiring, acquire := 15 }).tb with state := .outage } }
    s.powered = true ∧ ((s.tracker .l2).settled = some (!true) ∧ filterSamples (s.params.filter.get .l2) ≤ 16) ∧
      presented (s.params.edge.get .l2) true = true ∧ (s.tracker .l2).last = some 100000 ∧
      (s.tracker .l2).state = .acquiring ∧ (s.tracker .l2).ignoreNext = false ∧
      inRange s.params.nominalFreq (intervalOf (s.params.edge.get .l2) 100000 109000) = true ∧
      (s.tracker .l2).acquire = 15 ∧ s.tb.state = .outage ∧ s.owed.settleEnd = false := by decide

theorem test_CrossingsInSuccessionLock_met_coasting :
    let s := tracking .l2 { lockedTracker with state := .coasting, ret := 3 }
    (s.tracker .l2).state = .coasting ∧ (s.tracker .l2).ret = 3 ∧
      insideWindow s.params.nominalFreq (s.params.edge.get .l2) (s.tracker .l2) 100000 109375 = true := by decide

theorem test_MissedCrossingsCoastThenEnd_met :
    let s := tracking .l2 { lockedTracker with miss := 2 }
    let t := tracking .l2 { lockedTracker with state := .coasting, coast := 199 }
    s.powered = true ∧ (s.tracker .l2).last = some 100000 ∧ (s.tracker .l2).state = .locked ∧
      (s.tracker .l2).miss = 2 ∧ (t.tracker .l2).last = some 100000 ∧ (t.tracker .l2).state = .coasting ∧
      (t.tracker .l2).coast = 199 := by decide

/-- REF_PHASE LOCKED, and REF_PHASE not LOCKED. -/
theorem test_SettlingEndsInRunning_met :
    let s := { running with
      tb := { running.tb with state := .settling }
      owed := { running.owed with settleEnd := true } }
    let t := s.setTracker .l1 { lockedTracker with state := .coasting }
    s.powered = true ∧ s.owed.settleEnd = true ∧ s.tb.state = .settling ∧ s.anyLocked = true ∧
      s.locked s.params.refPhase = true ∧ t.anyLocked = true ∧ t.locked t.params.refPhase = false := by decide

theorem test_TimebaseCountsExpire_met :
    let s := tracking .l2 { lockedTracker with state := .acquiring, silence := 200 }
    let t := { running with
      tb := { running.tb with cadence := 1024 }
      owed := { running.owed with beacon := true } }
    (s.tracker .l2).state = .acquiring ∧ 200 ≤ (s.tracker .l2).silence ∧ t.owed.beacon = true ∧
      1024 ≤ t.tb.cadence ∧ t.store.wiping = none := by decide

theorem test_DriverRecovers_met :
    let s := { running with driver := { running.driver with state := .fault, cool := 3000 } }
    let t := { running with driver := { running.driver with cap := 23, recovery := 4096 } }
    s.powered = true ∧ s.driver.state = .fault ∧ 3000 ≤ s.driver.cool ∧ 4096 ≤ t.driver.recovery ∧
      t.driver.cap < t.params.levelMax := by decide

theorem test_LeadCellOpensTheLeg_met :
    let s := flying beaconFlight .preparing 1 0 running
    s.powered = true ∧ s.engine.transmission = some beaconFlight ∧ s.engine.state = .preparing ∧
      s.engine.live.get .l1 = true ∧ s.engine.seen.get .l1 = 1 ∧ s.engine.opened.get .l1 = 0 ∧
      s.maySend .l1 = true ∧ (s.tracker .l1).lastHanded = some 100000 := by decide

/-- The last cell of the beacon, and a later cell of a phase that has left LOCKED. -/
theorem test_CellIsSentOrWithheld_met :
    let s := flying beaconFlight .sending 10 9 running
    let t := flying beaconFlight .sending 2 1 (tracking .l1 { lockedTracker with state := .coasting })
    s.engine.live.get .l1 = true ∧ s.engine.opened.get .l1 < s.engine.seen.get .l1 ∧
      s.engine.seen.get .l1 ≤ beaconFlight.burst.length ∧ s.maySend .l1 = true ∧
      t.engine.opened.get .l1 < t.engine.seen.get .l1 ∧ t.maySend .l1 = false ∧ beaconFlight.exchange = none ∧
      noPhase (t.engine.live.set .l1 false) = false := by decide

theorem test_CompletedLegEndsOrGoesOn_met_beacon :
    let s := legOpen [9, 0] false [false] (flying beaconFlight .sending 10 10
      { running with sched := ⟨14, some ⟨10000, .beacon⟩, []⟩ })
    s.engine.transmission = some beaconFlight ∧ s.driver.openLeg = some ⟨⟨true, true, false⟩, 20, [9, 0], false⟩ ∧
      s.legDone = true ∧ s.sched.handOver = some ⟨10000, .beacon⟩ := by decide

theorem test_CompletedLegEndsOrGoesOn_met_repeat :
    let o := order1 (.active (slot0 true)) oneTargeted
    let tx : Transmission := ⟨10000, repeatBurst o, ⟨true, true, false⟩, 20, .primary, none, 100000⟩
    let s := legOpen [11, 0] false [false] (flying tx .sending 12 12
      { delivering with sched := ⟨16, some ⟨10000, .repeats ⟨0, 1, false⟩⟩, []⟩ })
    s.engine.transmission = some tx ∧ s.legDone = true ∧ tx.exchange = none ∧
      s.heldBy 0 1 false = some (0, o) ∧ o.fields = some (slot0 true) := by decide

/-- The last microsecond of the first symbol and the first of the ninth, of a window that opens at 101,200. -/
theorem test_LeadCellOpensTheLeg_met_symbol :
    (4000 * 0 + 9 * (100000 + 1200) ≤ 9 * 101644 ∧ 9 * 101644 < 4000 * (0 + 1) + 9 * (100000 + 1200)) ∧
      4000 * 8 + 9 * (100000 + 1200) ≤ 9 * 104756 ∧ 9 * 104756 < 4000 * (8 + 1) + 9 * (100000 + 1200) := by decide

theorem test_CompletedLegEndsOrGoesOn_met_exchange :
    let s := legOpen [11, 0] false [false] (flying (exchangeFlight []) .sending 12 12 delivering)
    s.legDone = true ∧ (exchangeFlight []).exchange = some ⟨0, 0, 22, 8, .l1, 0x1001⟩ := by decide

/-- At the first microsecond of the window, a later event of a leg and the first one with one mark already in the
history; and at the first after it, with the window closed. -/
theorem test_OverCurrentFoldsBack_met :
    let s := legOpen [0] true [true, true] running
    let t := legOpen [0] false [true, false] running
    s.powered = true ∧ s.driver.openLeg = some ⟨⟨true, true, false⟩, 20, [0], true⟩ ∧
      s.outputAt .l1 101200 = some cellOut ∧ cellOut.reported = false ∧
      t.driver.openLeg = some ⟨⟨true, true, false⟩, 20, [0], false⟩ ∧ t.outputAt .l1 105199 = some cellOut ∧
      t.driver.history.count true < 2 ∧ ∀ p ∈ Phase.all, s.outputAt p 105200 = none := by decide

/-- A further report in the same window. -/
theorem test_OverCurrentFoldsBack_met_again :
    let s := legOpen [0] true [true, true] running
    let t := { s with driver := { s.driver with windows := ⟨some { cellOut with reported := true }, none, none⟩ } }
    t.outputAt .l1 101200 = some { cellOut with reported := true } ∧
      ∀ p ∈ Phase.all, (t.outputAt p 101200).all (·.reported) = true := by decide

theorem test_ThirdMarkBringsFault_met :
    let s := legOpen [0] false [true, true, false] (flying beaconFlight .sending 1 1 running)
    s.powered = true ∧ s.driver.openLeg = some ⟨⟨true, true, false⟩, 20, [0], false⟩ ∧
      s.outputAt .l1 101200 = some cellOut ∧ s.engine.transmission = some beaconFlight ∧
      2 ≤ s.driver.history.count true := by decide

/-- An exchange over one relay, its Answer Receiver in this mode. -/
def relayed (st : EngineState) (m : ReceiverMode) (seen : Nat) : State :=
  let s := flying (exchangeFlight [0x0D1002]) st seen 15 running
  { s with answer := ⟨m, some .l1, 99, some 200, false⟩ }

theorem test_AnswerReceiverFollowsTheSpans_met :
    let x : ExchangeTimes := ⟨1, 12, 49, 8, .l1, 0x1001⟩
    (exchangeFlight [0x0D1002]).exchange = some x ∧
      (relayed .relaying .armed 18).engine.seen.get x.first = (exchangeFlight [0x0D1002]).burst.length + 3 ∧
      (exchangeFlight [0x0D1002]).burst.length + x.relay + 2 ≤ (relayed .relaying .relayWatch 29).engine.seen.get x.first ∧
      (relayed .relaying .armed 42).engine.seen.get x.first = x.span - x.window + 1 ∧
      (relayed .relaying .armed 42).engine.state = .relaying ∧ (relayed .relaying .armed 42).answer.mode = .armed := by
  decide

theorem test_MatchingAckConfirms_met :
    answering.powered = true ∧ answering.answerWindowEnds = true ∧
      answering.sched.handOver = some ⟨10000, .delivery delivery0⟩ ∧ delivery0.withdrawn = false ∧
      answering.heldBy 0 1 false = some (0, order1 (.active (slot0 true)) oneTargeted) ∧
      answering.receiver 0 = some (listed 0) ∧ (listed 0).lists 0 = true ∧ delivery0.build.kind ≠ .poll ∧
      answering.answerOutcome (heardAnswer 1300 [0x81, 0x10, 0x01, 41] ++ [⟨100, 0⟩]) =
        ⟨.ok 0x1001 (.ack (byteOf delivery0.tag)), 22, false⟩ := by decide +kernel

theorem test_NoAnswerHoldsOff_met :
    delivery0.attempts + 1 < answering.params.retryMax ∧
      answering.answerOutcome (List.replicate 8 ⟨100, 0⟩) = ⟨.none, 0, false⟩ := by decide

theorem test_BeaconComesFirst_met :
    let s := { running with
      tb := { running.tb with beaconDue := true }
      owed := { running.owed with decision := true } }
    s.powered = true ∧ s.store.restoring = false ∧ s.owed.decision = true ∧ s.sched.hold = 0 ∧
      s.sched.handOver = none ∧ s.driver.state = .ready ∧ s.tb.state = .running ∧ s.tb.status = .confirmed ∧
      s.tb.beaconDue = true ∧ s.anyLocked = true := by decide

/-- The exchange of 22 half-cycles that ends exactly at the seal point. -/
def lastFit : State :=
  let s := stored { order1 (.active (slot0 true)) oneTargeted with sealPoint := 10022 } (listed 0)
  { s with owed := { s.owed with decision := true } }

theorem test_NoExchangeRunsPastTheSeal_met : Canonical lastFit ∧ lastFit.sched.handOver = none ∧
    exec .decisionPoint lastFit = .next (decideLine lastFit) ∧
    (decideLine lastFit).sched.handOver = some ⟨10000, .delivery delivery0⟩ := by
  unfold Canonical WordsPlaced Placed
  exact ⟨by decide, by decide, by rfl, by decide⟩

/-- A PENDING order in the activation step, its target's receiver in the table. -/
def activating (o : Order) : State :=
  let s := stored o receiver1
  { s with owed := { s.owed with activation := [0] } }

theorem test_ActivationTakesTheLowestSlot_met :
    let o := order1 .pending Counters.zero
    let s := activating o
    Counting s ∧ s.nothingToClose = true ∧ s.toActivate = [0] ∧ s.order 0 = some o ∧ s.freeSlot = some 0 ∧
      ∃ x ∈ s.table, inTarget o.target x.2 = true := by
  unfold Counting
  exact ⟨by decide, by decide, by decide, by decide, by decide, (0, receiver1), by decide, by decide⟩

theorem test_ActivationTakesTheLowestSlot_met_no_target :
    let o := { order1 .pending Counters.zero with target := .single 0x0D1009 }
    let s := activating o
    Counting s ∧ s.nothingToClose = true ∧ s.toActivate = [0] ∧ s.order 0 = some o ∧ s.freeSlot = some 0 ∧
      ∀ x ∈ s.table, inTarget o.target x.2 = false := by
  unfold Counting
  decide

/-- Orders whose seal point is L: one REVOKING, three ACTIVE with the accounts of the three outcomes. -/
theorem test_SealKeepsTheBalance_met :
    let due (st : OrderState) (c : Counters) : Order := { order1 st c with sealPoint := 10000 }
    let all : List (Order × Receiver) := [(due (.revoking (slot0 true)) oneTargeted, listed 0),
      (due (.active (slot0 true)) oneTargeted, listed 0),
      (due (.active (slot0 true)) ⟨1, 1, 0, 0, 0, 0⟩, receiver1),
      (due (.active (slot0 true)) ⟨2, 1, 0, 0, 0, 0⟩, listed 0)]
    ∀ x ∈ all, (stored x.1 x.2).powered = true ∧ (stored x.1 x.2).order 0 = some x.1 ∧
      dist x.1.sealPoint (stored x.1 x.2).tb.count ≤ 0 ∧
      x.1.counters.targeted = x.1.counters.outcomes + (stored x.1 x.2).entriesNaming 0 ∧
      x.1.counters.late + (stored x.1 x.2).entriesNaming 0 ≤ 65535 := by decide

theorem test_PendingOrderClosesNotSent_met :
    let o := { order1 .pending Counters.zero with sealPoint := 10000 }
    Counting (stored o receiver1) ∧ (stored o receiver1).order 0 = some o ∧ o.state = .pending ∧
      dist o.sealPoint (stored o receiver1).tb.count ≤ 0 := by
  unfold Counting
  decide

/-- ORDER_ADD of SET_TARIFF 2 to group 5 at the minimum lead of 74. -/
def addBody (a3 a2 a1 a0 : Byte) : List Byte := [0, 0xFF, 0xFF, 0xF5, 1, 2, a3, a2, a1, a0, 0, 1]
def addAsked (activation : Count) : OrderAdd := ⟨0xFFFFF5, 1, 2, activation, 0, 1, none⟩

theorem test_AdmissionPlacesTheOrder_met :
    let s := asking 0x10 (addBody 0 0 0x27 0x5A) running
    let a := addAsked 10074
    s.oldest = some ⟨0x10, 7, addBody 0 0 0x27 0x5A⟩ ∧ readOrderAdd (addBody 0 0 0x27 0x5A) = some a ∧
      s.tb.status = .confirmed ∧ a.fields = some (.group 5, .setTariff) ∧ s.targetFound (.group 5) = true ∧
      (s.params.minMargin + 24 : Int) ≤ dist a.activation s.tb.count ∧
      (∀ x ∈ s.orders.orders, s.conflicts x.2 (.group 5) .setTariff a = false) ∧ s.orders.orders.length < 32 := by
  decide

/-- Refused for an UNCONFIRMED count, for a range, for a target not found and one half-cycle under the minimum lead. -/
theorem test_AdmissionRefusesInOrder_met :
    let s := asking 0x10 (addBody 0 0 0x27 0x59) running
    s.oldest = some ⟨0x10, 7, addBody 0 0 0x27 0x59⟩ ∧ readOrderAdd (addBody 0 0 0x27 0x59) = some (addAsked 10073) ∧
      s.targetFound (.group 5) = true ∧ dist 10073 s.tb.count < (s.params.minMargin + 24 : Int) ∧
      ({ s with tb := { s.tb with status := .unconfirmed } }).tb.status = .unconfirmed ∧
      ({ addAsked 10073 with spread := 16 }).fields = none ∧ s.targetFound (.single 0x0D1001) = false := by
  decide

/-- 32 orders PENDING for the activation count 40,000, their tags and admission numbers their own. -/
def fullStore : State := { running with
  orders := ⟨(List.range 32).map fun n =>
    (n, { order1 .pending Counters.zero with tag := n + 1, target := .group 6 }), 32, 32⟩ }

/-- Refused for a conflict and for want of room. -/
theorem test_AdmissionRefusesInOrder_met_late :
    let a := addAsked 40000
    (fullStore.orders.orders.any fun x => fullStore.conflicts x.2 (.group 6) .setTariff a) = true ∧
      (fullStore.orders.orders.any fun x => fullStore.conflicts x.2 (.group 5) .setTariff a) = false ∧
      32 ≤ fullStore.orders.orders.length ∧ ∀ x ∈ fullStore.orders.orders, x.2.isClosed = false := by decide

/-- A PENDING order, and an ACTIVE one whose transmission has not started. -/
theorem test_CancelBeforeSendingWithdraws_met :
    let o := order1 .pending Counters.zero
    let o' := order1 (.active (slot0 false)) oneTargeted
    let s := asking 0x11 [0, 41] (stored o receiver1)
    let t := asking 0x11 [1, 0] (stored o' (listed 0))
    Canonical t ∧ s.oldest = some ⟨0x11, 7, [0, 41]⟩ ∧ readOrderSelector [0, 41] = some (.tag 41) ∧
      (OrderSelector.tag 41).inRange = true ∧ s.findOrder (.tag 41) = some (0, o) ∧
      t.oldest = some ⟨0x11, 7, [1, 0]⟩ ∧ readOrderSelector [1, 0] = some (.position 0) ∧
      (OrderSelector.position 0).inRange = true ∧ t.findOrder (.position 0) = some (0, o') ∧
      o'.state = .active (slot0 false) := by
  unfold Canonical WordsPlaced Placed
  decide +kernel

/-- 24 half-cycles before the seal point, 23 before it, REVOKING and CLOSED. -/
theorem test_LateCancelConvertsOrIsRefused_met :
    let at24 := { order1 (.active (slot0 true)) oneTargeted with sealPoint := 10024 }
    let at23 := { order1 (.active (slot0 true)) oneTargeted with sealPoint := 10023 }
    let rev := order1 (.revoking (slot0 true)) oneTargeted
    let done := order1 (.closed 2 .complete) Counters.zero
    ∀ o ∈ [at24, at23, rev, done],
      (asking 0x11 [0, 41] (stored o receiver1)).oldest = some ⟨0x11, 7, [0, 41]⟩ ∧
        (asking 0x11 [0, 41] (stored o receiver1)).findOrder (.tag 41) = some (0, o) ∧
        dist at24.sealPoint 10000 = 24 ∧ dist at23.sealPoint 10000 = 23 := by decide

theorem test_RecordsAreReadAndCleared_met :
    let s := stored (order1 (.closed 2 .complete) Counters.zero) (listed 0)
    (asking 0x1B [1, 0, 0, 0] s).oldest = some ⟨0x1B, 7, [1, 0, 0, 0]⟩ ∧
      readSelector [1, 0, 0, 0] = some (.index 0) ∧ s.findReceiver (.index 0) = some (0, listed 0) ∧
      (asking 0x1C [15] s).oldest = some ⟨0x1C, 7, [15]⟩ ∧ readOne [15] = some 15 ∧
      (asking 0x12 [1, 0] s).oldest = some ⟨0x12, 7, [1, 0]⟩ ∧ (asking 0x13 [1] s).oldest = some ⟨0x13, 7, [1]⟩ ∧
      readOne [1] = some 1 ∧ s.orders.orders.length ≤ 32 ∧ (asking 0x14 [1, 0] s).oldest = some ⟨0x14, 7, [1, 0]⟩ ∧
      readOrderSelector [1, 0] = some (.position 0) ∧
      s.findOrder (.position 0) = some (0, order1 (.closed 2 .complete) Counters.zero) ∧
      (order1 (.closed 2 .complete) Counters.zero).isClosed = true := by decide

/-- RX_ADD of 0x0D1003 on L2 in group 5, no path and no quality, beside an ACTIVE order to the group. -/
theorem test_NewReceiverJoinsActiveOrders_met :
    let s := asking 0x18 [0, 0x0D, 0x10, 0x03, 2, 1, 5, 0] delivering
    let a : RxAdd := ⟨0x0D1003, 2, [5], [], none⟩
    Canonical s ∧ s.oldest = some ⟨0x18, 7, [0, 0x0D, 0x10, 0x03, 2, 1, 5, 0]⟩ ∧
      readRxAdd [0, 0x0D, 0x10, 0x03, 2, 1, 5, 0] = some a ∧ phaseOfCode a.phase = some (some .l2) ∧
      a.inRange = true ∧ s.receiverAt a.address = none ∧ s.pathFound a.path = true ∧ s.table.length < 512 ∧
      (s.slotOrders.any fun x => joins (a.groups.map (·.toNat)) x.2) = true ∧
      ∀ x ∈ s.slotOrders, joins (a.groups.map (·.toNat)) x.2 = true → x.2.counters.targeted < 65535 := by
  unfold Canonical WordsPlaced Placed
  decide +kernel

/-- RX_UPDATE of the phase, and one that clears the path. -/
theorem test_UpdateReplacesSuppliedFields_met :
    let s := asking 0x19 [1, 0, 0, 0, 1, 3] delivering
    let u : RxUpdate := ⟨.index 0, some 3, none, none, none, none, none⟩
    s.oldest = some ⟨0x19, 7, [1, 0, 0, 0, 1, 3]⟩ ∧ readRxUpdate [1, 0, 0, 0, 1, 3] = some u ∧
      u.selector.inRange = true ∧ s.findReceiver u.selector = some (0, listed 0) ∧ s.receiver 0 = some (listed 0) ∧
      (listed 0).damaged = false ∧ u.address = none ∧ u.inRange (listed 0).address = true ∧
      s.pathFound (u.setPath.getD []) = true ∧
      readRxUpdate [1, 0, 0, 0, 4, 1] = some ⟨.index 0, none, none, some .clear, none, none, none⟩ := by
  decide

theorem test_RemovalStalesPathsAndDropsEntries_met :
    let s := asking 0x1A [0, 0x0D, 0x10, 0x01] delivering
    Canonical s ∧ s.oldest = some ⟨0x1A, 7, [0, 0x0D, 0x10, 0x01]⟩ ∧
      readSelector [0, 0x0D, 0x10, 0x01] = some (.address 0x0D1001) ∧
      (Selector.address 0x0D1001).inRange = true ∧ s.findReceiver (.address 0x0D1001) = some (0, listed 0) := by
  unfold Canonical WordsPlaced Placed
  decide +kernel

/-- The fourth probe, DIRECT; and PATH for a receiver whose path is usable. -/
theorem test_ProbeJoinsTheQueue_met :
    let s := asking 0x20 [1, 0, 0, 0, 0, 0] { delivering with
      sched := ⟨0, none, List.replicate 3 ⟨0, 0, 0x0D1001, false, none⟩⟩ }
    let a : ProbeRequest := ⟨.index 0, 0, 0⟩
    s.oldest = some ⟨0x20, 7, [1, 0, 0, 0, 0, 0]⟩ ∧ readProbe [1, 0, 0, 0, 0, 0] = some a ∧
      phaseOfCode a.phase = some none ∧ a.choiceInRange = true ∧ a.selector.inRange = true ∧
      s.findReceiver a.selector = some (0, listed 0) ∧ (listed 0).damaged = false ∧ s.sched.probes.length < 4 ∧
      ((s.usablePath { receiver1 with path := some [0x0D1001] }).isSome) = true := by decide

theorem test_OldestWriteIsLaidDown_met :
    let s := { running with store := { running.store with
      writes := [⟨.order 31 none, true⟩, ⟨.receiver 511 none, true⟩] } }
    s.store.writes = [⟨.order 31 none, true⟩, ⟨.receiver 511 none, true⟩] ∧ running.store.writes = [] ∧
      badWords (turnWords [twoBits 7] ((WriteContent.order 31 none).words 0)) = [7] ∧ Canonical s ∧ s.powered = true ∧
      s.store.restoring = false ∧ s.store.wiping = none ∧ ParamsFit .default ∧ ReceiverFits (listed 0) ∧
      OrderFits (order1 (.active (slot0 true)) oneTargeted) ∧ running.store.writes = [] := by
  refine ⟨rfl, rfl, by decide +kernel, by unfold Canonical WordsPlaced Placed; decide +kernel, rfl, rfl, rfl, ?_, ?_, ?_, rfl⟩
  · unfold ParamsFit; decide
  · refine ⟨by decide, by decide, by decide, ?_, by decide, by decide, ?_, by decide, by decide, by decide, by decide⟩
    · rintro path ⟨⟩
    · rintro x ⟨⟩
  · refine ⟨by decide, ⟨by decide, by decide⟩, by decide, by decide, by decide, by decide, by decide, by decide,
      by decide, by decide, by decide, ?_, fun _ => rfl, fun _ => false, by decide⟩
    rintro f ⟨⟩
    decide

/-- The last position of the cycle, receiver 511. -/
theorem test_CleanScrubMovesOn_met :
    let s := { running with store := { running.store with scrubNext := 545, scrubDue := 1 } }
    Canonical s ∧ s.scrubOwed = true ∧ (∀ w ∈ s.store.wordsAt (positionAt s.store.scrubNext), w = .of w.data) ∧
      SingleBits (s.store.wordsAt (positionAt s.store.scrubNext)).length [oneBit 0, ⟨31, ⟨0, 0x40⟩⟩] := by
  refine ⟨by unfold Canonical WordsPlaced Placed; decide +kernel, by decide, by decide +kernel, by decide, ?_⟩
  intro f hf
  simp only [List.mem_cons, List.not_mem_nil, or_false] at hf
  rcases hf with rfl | rfl
  · exact ⟨by decide +kernel, .inl ⟨4, by decide, rfl⟩⟩
  · exact ⟨by decide +kernel, .inr ⟨6, by decide, rfl⟩⟩

/-- A scrub of receiver position 0 is owed. -/
def scrubbing (stored : Option Receiver) : State := { delivering with store := { delivering.store with
  receivers := keep [] 0 (wordsOf (receiverNumbers stored)), scrubNext := 34, scrubDue := 1 } }

/-- What a scrub of that position reads. -/
def readAt (s : State) (e : ReadErrors) : Words := (turnWords e (keptAt s.store.receivers 0)).map (·.writtenBack)

theorem test_scrubbing_canonical : Canonical (scrubbing (some (listed 0))) ∧ Canonical (scrubbing none) ∧
    Canonical { scrubbing (some (listed 0)) with table := [] } := by
  refine ⟨?_, ?_, ?_⟩ <;> unfold Canonical WordsPlaced Placed <;> decide +kernel

/-- Two bits in a word of an entry, in the header, and in a word of an empty position; with the record in the table and
without it. -/
theorem test_ScrubDamagesTheReceiver_met :
    let s := scrubbing (some (listed 0))
    let u := scrubbing none
    s.scrubOwed = true ∧ s.store.scrubNext = 34 + 0 ∧ s.receiver 0 = some (listed 0) ∧
      (listed 0).damaged = false ∧ ({ s with table := [] }).receiver 0 = none ∧
      badWords (readAt s [twoBits 31]) = [31] ∧ readsEmpty (readAt s [twoBits 31]) = false ∧
      badWords (readAt s [twoBits 0]) = [0] ∧ readsEmpty (readAt s [twoBits 0]) = false ∧
      badWords (readAt u [twoBits 31]) = [31] ∧ readsEmpty (readAt u [twoBits 31]) = true := by
  decide +kernel

/-- The header reads empty and no record stands in the table: the position of a table that is empty. -/
theorem test_ScrubDamagesTheReceiver_met_empty :
    let s := { scrubbing none with table := [] }
    Canonical s ∧ s.scrubOwed = true ∧ s.store.scrubNext = 34 + 0 ∧ badWords (readAt s [twoBits 31]) ≠ [] ∧
      readsEmpty (readAt s [twoBits 31]) = true ∧ s.receiver 0 = none := by
  unfold Canonical WordsPlaced Placed
  decide +kernel

/-- A store with an order and a receiver in it. -/
def keptStore : State := { delivering with store := { delivering.store with
  orders := [(0, wordsOf (orderNumbers (some (order1 (.active (slot0 true)) oneTargeted))))]
  receivers := [(0, wordsOf (receiverNumbers (some (listed 0))))] } }

theorem test_PowerLossKeepsWholeRecords_met :
    let s := { running with store := { running.store with writes := [⟨.order 31 none, true⟩] } }
    let t := { keptStore with store := { keptStore.store with wiping := some .requested } }
    s.powered = true ∧ s.store.wiping = none ∧ Canonical s ∧ s.store.writes = [⟨.order 31 none, true⟩] ∧
      t.powered = true ∧ t.store.wiping = some .requested := by
  unfold Canonical WordsPlaced Placed
  decide +kernel

theorem test_PowerOnRestoresTheStore_met :
    Canonical keptStore ∧ badWords keptStore.store.config = [] ∧
      (configOf (numbersOf keptStore.store.config)).wipeMark = false ∧ badWords keptStore.store.savedCount = [] ∧
      (∀ x ∈ keptStore.store.orders, badWords x.2 = []) ∧ ∀ x ∈ keptStore.store.receivers, badWords x.2 = [] := by
  unfold Canonical WordsPlaced Placed
  decide +kernel

theorem test_RestoreLeavesNoLooseEntry_met :
    let s := { keptStore with store := { keptStore.store with restoring := true } }
    s.powered = true ∧ s.store.restoring = true ∧ Canonical s ∧
      s.orderInSlot 0 = some (0, order1 (.active (slot0 true)) oneTargeted) := by
  unfold Canonical WordsPlaced Placed
  decide +kernel

theorem test_WipeEmptiesTheStores_met :
    (asking 0x05 [2] delivering).oldest = some ⟨0x05, 7, [2]⟩ := by decide

theorem test_WipeEndLeavesTheStoreEmpty_met :
    let s := { running with
      store := { running.store with wiping := some .requested }
      link := { running.link with inHand := some ⟨0x05, 7, [2]⟩ } }
    s.powered = true ∧ s.store.restoring = false ∧ s.store.wiping = some .requested ∧
      s.link.inHand = some ⟨0x05, 7, [2]⟩ := by decide

/-- The longest body a record can have. -/
theorem test_ReceivedRecordGivesItsRequest_met :
    running.powered = true ∧ running.link.receive = .hunt ∧ (List.replicate 248 (0 : Byte)).length ≤ 248 ∧
      running.link.buffer.length < 4 := by decide +kernel

/-- A receiver that has all of the record of IDENT but its last byte. -/
def lastByteToCome (buffered waiting : Nat) : State := { running with link := { running.link with
  receive := .crcLow, assembly := [0, 1, 7] ++ (crcBytes [0, 1, 7]).dropLast
  buffer := List.replicate buffered ⟨1, 0, []⟩
  replies := List.replicate waiting (overrunReply ⟨1, 0, []⟩) } }

def lastByte : Byte := (crcBytes [0, 1, 7]).getLastD 0

/-- The character of the last byte. -/
def lastChar : Character := charOf lastByte

/-- With three requests waiting, with four, and with four OVERRUN replies beside them. -/
theorem test_RecordsAreBufferedOrOverrun_met :
    running.link.receive = .hunt ∧ lastChar.getLsbD 9 = true ∧
      (lastByteToCome 3 0).link.receiveByte (lastChar.extractLsb' 1 8) = .complete ⟨1, 7, []⟩ ∧ (lastByteToCome 3 0).rdy = true ∧
      (lastByteToCome 4 3).link.receiveByte (lastChar.extractLsb' 1 8) = .complete ⟨1, 7, []⟩ ∧ (lastByteToCome 4 3).rdy = false ∧
      (lastByteToCome 4 3).link.overruns < 4 ∧ 4 ≤ (lastByteToCome 4 4).link.overruns := by decide +kernel

/-- A wrong last byte, a length byte of 249, and a low stop bit with a record in assembly. -/
theorem test_DiscardsRaiseTheirCounters_met :
    (charOf (lastByte + 1)).getLsbD 9 = true ∧
      (lastByteToCome 0 0).link.receiveByte ((charOf (lastByte + 1)).extractLsb' 1 8) = .crcDiscard ∧
      ({ running with link := { running.link with receive := .length } }).link.receive = .length ∧
      248 < ((charOf 249).extractLsb' 1 8).toNat ∧ (0x1FE : Character).getLsbD 9 = false ∧ (lastByteToCome 0 0).link.receive ≠ .hunt := by decide +kernel

theorem test_RepliesGoBeforeNotices_met :
    let s := { running with link := { running.link with queue := [.firstPowerOn] } }
    s.powered = true ∧ s.link.sending = none ∧ (lastByteToCome 4 4).link.replies.length = 4 ∧
      s.link.replies = [] ∧ s.link.queue = [.firstPowerOn] ∧ s.params.noticeMode = .push ∧
      s.store.restoring = false ∧ s.store.wiping = none := by decide

theorem test_EndOfRecordBringsItsEffect_met :
    let sent (a : AfterSent) : State := { running with link := { running.link with sending := some ⟨[charOf 0xC3], a⟩ } }
    (sent .nothing).link.sending = some ⟨[charOf 0xC3], .nothing⟩ ∧ (sent (.rate .r9600)).link.rate ≠ .r9600 ∧
      (sent .softReset).link.sending = some ⟨[charOf 0xC3], .softReset⟩ := by decide

/-- An unknown kind, the three readings without a body, and PARAM_READ of a known and of an unknown identifier. -/
theorem test_ReadingsChangeNothing_met :
    (asking 0x07 [] running).oldest = some ⟨0x07, 7, []⟩ ∧ (0x07 : Byte) ∉ requestKinds ∧
      (asking 0x01 [] running).oldest = some ⟨0x01, 7, []⟩ ∧ (asking 0x01 [1] running).oldest = some ⟨0x01, 7, [1]⟩ ∧
      (asking 0x02 [] running).oldest = some ⟨0x02, 7, []⟩ ∧
      (asking 0x08 [] running).oldest = some ⟨0x08, 7, []⟩ ∧
      (asking 0x03 [0x12] running).oldest = some ⟨0x03, 7, [0x12]⟩ ∧ paramOf 0x12 = some .levelMax ∧
      paramOf 0x0C = none := by decide

/-- LEVEL_MAX 20, a NOMINAL_FREQ of 2, an identifier the table does not hold; NOMINAL_FREQ in OUTAGE, REF_PHASE to a phase
LOCKED and to one that is not. -/
theorem test_WriteIsStoredOrRefused_met :
    (asking 0x04 [0x12, 0, 0, 0, 20] running).oldest = some ⟨0x04, 7, [0x12, 0, 0, 0, 20]⟩ ∧
      readParamValue [0x12, 0, 0, 0, 20] = some ⟨0x12, 20⟩ ∧ paramOf 0x12 = some .levelMax ∧
      running.params.write 20 .levelMax = some { running.params with levelMax := 20 } ∧
      readParamValue [0x01, 0, 0, 0, 2] = some ⟨0x01, 2⟩ ∧ paramOf 0x01 = some .nominalFreq ∧
      running.params.write 2 .nominalFreq = none ∧ paramOf 0x0C = none ∧
      (asking 0x04 [0x01, 0, 0, 0, 0] dark).oldest = some ⟨0x04, 7, [0x01, 0, 0, 0, 0]⟩ ∧
      running.params.write 2 .refPhase = some { running.params with refPhase := .l2 } ∧
      running.locked .l2 = true ∧ (tracking .l2 { lockedTracker with state := .coasting }).locked .l2 = false ∧
      running.tb.state = .running := by decide

/-- RETRY_MAX lowered to 1 with an entry at 1, and LEVEL_MAX at 31. -/
theorem test_LoweredLimitsTakeEffect_met :
    let s := asking 0x04 [0x23, 0, 0, 0, 1] (stored (order1 (.active (slot0 true)) oneTargeted) (listed 1))
    Canonical s ∧ s.oldest = some ⟨0x04, 7, [0x23, 0, 0, 0, 1]⟩ ∧
      readParamValue [0x23, 0, 0, 0, 1] = some ⟨0x23, 1⟩ ∧ 1 < s.params.retryMax ∧
      readParamValue [0x12, 0, 0, 0, 31] = some ⟨0x12, 31⟩ := by
  unfold Canonical WordsPlaced Placed
  decide +kernel

theorem test_SoftResetIsRepliedToFirst_met :
    (asking 0x05 [1] running).oldest = some ⟨0x05, 7, [1]⟩ ∧
      (asking 0x05 [3] running).oldest = some ⟨0x05, 7, [3]⟩ := by decide

/-- HELD with a notice and without one, and PUSH. -/
theorem test_FetchTakesTheHead_met :
    let held := { running with params := { running.params with noticeMode := .held } }
    let s := asking 0x06 [] { held with link := { held.link with queue := [.firstPowerOn] } }
    s.oldest = some ⟨0x06, 7, []⟩ ∧ s.params.noticeMode = .held ∧ s.link.queue = [.firstPowerOn] ∧
      (asking 0x06 [] held).oldest = some ⟨0x06, 7, []⟩ ∧ (asking 0x06 [] held).link.queue = [] ∧
      (asking 0x06 [] running).oldest = some ⟨0x06, 7, []⟩ ∧ running.params.noticeMode = .push ∧
      (asking 0x06 [1] running).oldest = some ⟨0x06, 7, [1]⟩ := by decide

/-- 50 half-cycles ahead, which is taken, and 51, which is not. -/
theorem test_CountSetSetsTheCount_met :
    (asking 0x09 [0, 0, 0, 0x27, 0x42] running).oldest = some ⟨0x09, 7, [0, 0, 0, 0x27, 0x42]⟩ ∧
      readCountSet [0, 0, 0, 0x27, 0x42] = some ⟨false, 10050⟩ ∧ dist 10050 running.tb.count = 50 ∧
      readCountSet [0, 0, 0, 0x27, 0x43] = some ⟨false, 10051⟩ ∧ 50 < dist 10051 running.tb.count ∧
      running.tb.status = .confirmed := by decide

/-- Windows 8 units over a floor of 4 carry. -/
theorem test_AWholeLegIsRead_met : [(0x81 : Byte), 0x10, 0x01, 41] ≠ [] ∧ carriesCarrier 8 ⟨8, 0⟩ = true := by
  decide

end Sys2Proof.Tests
end

