-- ==== Sys2Proof/Proofs/NotSent.lean ====
section
/-! PROOFS. The close of a PENDING order at its seal point (R95): when a position is to be sealed, what the ORDER_CLOSED
notice rests on, and what the close leaves in the state. -/

namespace Sys2Proof.Machine

/-- With the count CONFIRMED and the part at work, an order whose seal point is reached is to be sealed (R91). -/
theorem orderToSeal_of_reached {s : State} {n : Nat} {o : Order} (hs : Safety.Counting s) (ho : s.order n = some o)
    (hseal : dist o.sealPoint s.tb.count ≤ 0) : s.orderToSeal n = some o := by
  obtain ⟨hpowered, hrestoring, hstatus⟩ := hs
  have hwork : (s.working && s.confirmed) = true := by
    simp [State.working, State.confirmed, hpowered, hrestoring, hstatus]
  have hreached : s.sealReached o = true := decide_eq_true hseal
  simp [State.orderToSeal, hwork, ho, hreached]

/-- NOT_SENT of a PENDING order whose seal point is reached is its close. -/
theorem execNotSent_of_pending {s : State} {n : Nat} {o : Order} (ho : s.orderToSeal n = some o)
    (hp : o.state = .pending) : execNotSent n s = .next (closeNotSent n o s) := by
  have hpending : o.isPending = true := by simp [Order.isPending, hp]
  simp [execNotSent, ho, when, hpending]

/-- What an ORDER_CLOSED notice does to the link rests on the link, the parameters and the count alone. -/
theorem noteClosed_link_congr (n : Nat) (o : Order) {s t : State} (hl : s.link = t.link) (hp : s.params = t.params)
    (hc : s.tb = t.tb) : (noteClosed n o s).link = (noteClosed n o t).link := by
  unfold noteClosed State.count
  rw [hc]
  exact queueNotice_link_congr _ _ _ hl hp

/-- An ORDER_CLOSED notice queued changes the link alone. -/
theorem noteClosed_eq (n : Nat) (o : Order) (s : State) :
    noteClosed n o s = { s with link := (noteClosed n o s).link } := queueNotice_eq ..

/-- An order put at its position changes the Order Store and the write list alone. -/
theorem putOrder_eq (n : Nat) (o : Order) (s : State) :
    putOrder n o s = { s with orders := (putOrder n o s).orders, store := (putOrder n o s).store } := by
  unfold putOrder askWrite
  split <;> rfl

/-- A PENDING order as it stands closed NOT_SENT from a state: its close number is the next sequence value (R83). -/
def Order.asNotSent (o : Order) (s : State) : Order :=
  { o with state := .closed (s.orders.sequence + 1) .notSent }

theorem closeNotSent_def (n : Nat) (o : Order) (s : State) :
    closeNotSent n o s = noteClosed n (o.asNotSent s) (putOrder n (o.asNotSent s) (bumpSequence s)) := rfl

/-- The Order Store after the close: the sequence value raised, the closed order at its position. -/
theorem closeNotSent_orders (n : Nat) (o : Order) (s : State) :
    (closeNotSent n o s).orders =
      { s.orders with
        sequence := s.orders.sequence + 1
        orders := insertAt s.orders.orders n (o.asNotSent s) } := by
  simp [closeNotSent_def]

theorem closeNotSent_order_self (n : Nat) (o : Order) (s : State) :
    (closeNotSent n o s).order n = some (o.asNotSent s) := by
  simp [State.order, closeNotSent_orders, lookup_insertAt_self]

theorem closeNotSent_order_ne {n m : Nat} (o : Order) (s : State) (h : m ≠ n) :
    (closeNotSent n o s).order m = s.order m := by
  simp [State.order, closeNotSent_orders, lookup_insertAt_ne _ _ h]

/-- The close queues the ORDER_CLOSED notice of the closed order, as from the state before it (R97). -/
theorem closeNotSent_link_eq (n : Nat) (o : Order) (s : State) :
    (closeNotSent n o s).link = (noteClosed n (o.asNotSent s) s).link := by
  rw [closeNotSent_def]
  exact noteClosed_link_congr _ _ (by simp) (by simp) (by simp)

theorem closeNotSent_eq (n : Nat) (o : Order) (s : State) :
    closeNotSent n o s =
      { s with
        orders := (closeNotSent n o s).orders
        link := (closeNotSent n o s).link
        store := (closeNotSent n o s).store } := by
  rw [closeNotSent_def, noteClosed_eq, putOrder_eq]
  rfl

end Sys2Proof.Machine

namespace Sys2Proof.Safety

open Sys2Proof.Machine

/-- Settles O31: NOT_SENT is the close of the order, whose effects on the Order Store, the link and the rest of the
state are the lemmas above. -/
theorem pendingOrderClosesNotSent : Obligations.PendingOrderClosesNotSent := by
  intro s n o hs ho hp hseal
  have hstep : exec (.notSent n) s = .next (closeNotSent n o s) :=
    execNotSent_of_pending (orderToSeal_of_reached hs ho hseal) hp
  have hsequence : (closeNotSent n o s).orders.sequence = s.orders.sequence + 1 := by rw [closeNotSent_orders]
  exact ⟨closeNotSent n o s, hstep, closeNotSent_order_self n o s, hsequence,
    fun _ hm => closeNotSent_order_ne o s hm, closeNotSent_link_eq n o s, closeNotSent_eq n o s⟩

end Sys2Proof.Safety
end

