-- ==== Sys2Proof/Proofs/NoticeFetch.lean ====
section
/-! PROOFS. NOTICE_FETCH (R177): when its body is readable, what its owner answers for each notice mode and queue, and
the step that takes it. -/

namespace Sys2Proof.Machine

open Sys2Proof.Safety

/-! ## A request without a body (R172, R188) -/

theorem readNothing_nil : readNothing [] = some () := rfl

theorem readNothing_of_ne_nil {l : List Byte} (h : l ≠ []) : readNothing l = none := by
  simp [readNothing, h]

/-- A request answered with a result code alone, the state left as it was, is `answered`. -/
theorem takeKind_answered {α : Type} {kind : Byte} {read : List Byte → Option α} {own : Request → α → State → Handled}
    {s : State} {q : Request} {x : α} {body : List Byte} (ho : s.oldest = some q) (hk : q.kind = kind)
    (hr : read q.body = some x) (hown : own q x (dropRequest s) = ⟨body, .nothing, dropRequest s⟩) :
    takeKind kind read own s = .next (answered q body s) := by
  rw [takeKind_read ho hk hr, hown, answered]

/-! ## What the owner answers -/

theorem handleNoticeFetch_push {q : Request} {u : Unit} {s : State} (hm : s.params.noticeMode = .push) :
    handleNoticeFetch q u s = refuse .state s := by
  simp [handleNoticeFetch, hm]

theorem handleNoticeFetch_held_nil {q : Request} {u : Unit} {s : State} (hm : s.params.noticeMode = .held)
    (hq : s.link.queue = []) : handleNoticeFetch q u s = taken [] s := by
  simp [handleNoticeFetch, hm, hq]

theorem handleNoticeFetch_held_cons {q : Request} {u : Unit} {s : State} {n : Notice} {rest : List Notice}
    (hm : s.params.noticeMode = .held) (hq : s.link.queue = n :: rest) :
    handleNoticeFetch q u s =
      ⟨resultByte .ok :: noticeCode n.kind :: leavingBody s n, n.after, takeNotice rest s⟩ := by
  simp [handleNoticeFetch, hm, hq]

/-- A notice leaves the queue with the same body whether or not the request that fetches it is still buffered. -/
theorem leavingBody_dropRequest (s : State) (n : Notice) : leavingBody (dropRequest s) n = leavingBody s n := rfl

/-! ## The step -/

section
variable {s : State} {q : Request} (ho : s.oldest = some q) (hk : q.kind = 0x06)
include ho hk

/-- In HELD the head leaves the queue with the reply, the LOST flag cleared. -/
theorem execNoticeFetch_held_cons {n : Notice} {rest : List Notice} (hb : q.body = [])
    (hm : s.params.noticeMode = .held) (hq : s.link.queue = n :: rest) :
    execNoticeFetch s = .next (appendReply q (resultByte .ok :: noticeCode n.kind :: leavingBody s n) n.after
      (takeNotice rest (dropRequest s))) := by
  have hread : readNothing q.body = some () := hb ▸ readNothing_nil
  rw [execNoticeFetch, takeKind_read ho hk hread,
    handleNoticeFetch_held_cons (s := dropRequest s) (by simpa using hm) (by simpa using hq), leavingBody_dropRequest]

/-- An empty queue in HELD is answered OK alone. -/
theorem execNoticeFetch_held_nil (hb : q.body = []) (hm : s.params.noticeMode = .held) (hq : s.link.queue = []) :
    execNoticeFetch s = .next (answered q [resultByte .ok] s) :=
  takeKind_answered ho hk (hb ▸ readNothing_nil)
    (handleNoticeFetch_held_nil (by simpa using hm) (by simpa using hq))

theorem execNoticeFetch_push (hb : q.body = []) (hm : s.params.noticeMode = .push) :
    execNoticeFetch s = .next (answered q [resultByte .state] s) :=
  takeKind_answered ho hk (hb ▸ readNothing_nil) (handleNoticeFetch_push (by simpa using hm))

theorem execNoticeFetch_badFormat (hb : q.body ≠ []) :
    execNoticeFetch s = .next (answered q [resultByte .badFormat] s) :=
  takeKind_unreadable ho hk (readNothing_of_ne_nil hb)

end

end Sys2Proof.Machine

namespace Sys2Proof.Safety

open Sys2Proof.Machine

/-- Settles O58: one step lemma for each notice mode and queue; in the first the reply's kind is 0x06 with its top bit
set (R188). -/
theorem fetchTakesTheHead : Obligations.FetchTakesTheHead := by
  intro s q ho hk
  refine ⟨fun n rest hb hm hq => ?_, execNoticeFetch_held_nil ho hk, execNoticeFetch_push ho hk,
    execNoticeFetch_badFormat ho hk⟩
  have hkind : replyKind q.kind = 0x86 := by rw [hk]; rfl
  have hstep := execNoticeFetch_held_cons ho hk hb hm hq
  rw [appendReply, hkind] at hstep
  exact hstep

end Sys2Proof.Safety
end

