-- ==== Sys2Proof/Proofs/Answers.lean ====
section
/-! PROOFS. What a command answers: the next state, with a property of it. The shapes of the commands' meanings, a step
that can occur or not and a request taken or not, are dealt with once here. -/

namespace Sys2Proof.Machine

/-- A command answers a next state that has the property. -/
def Answers (P : State → Prop) (o : Host.Outcome State Fault Refusal) : Prop := ∃ t, o = .next t ∧ P t

section
variable {P : State → Prop} {s t : State}

theorem answers_next (h : P t) : Answers P (.next t) := ⟨t, rfl, h⟩

theorem Answers.of_eq {o : Host.Outcome State Fault Refusal} (h : Answers P o) (ho : o = .next t) : P t := by
  obtain ⟨u, hu, hP⟩ := h
  cases hu.symm.trans ho
  exact hP

/-- A step that may or may not occur (notes/assumptions/1.md). -/
theorem answers_when {can : Bool} (hs : P s) (ht : can = true → P t) : Answers P (when can s t) := by
  refine answers_next ?_
  split
  · next h => exact ht h
  · exact hs

theorem when_true {can : Bool} (h : can = true) : when can s t = .next t := by simp [when, h]

/-- A request handled, or none: the reply and the request's leaving are the link's alone. -/
theorem answers_takeRequest {mine : Request → Bool} {h : Request → State → Handled} (hs : P s)
    (hh : ∀ q, s.oldest = some q → mine q = true → P (answerRequest q h s)) : Answers P (takeRequest mine h s) := by
  rw [takeRequest_eq]
  refine answers_next ?_
  cases ho : s.oldest with
  | none => exact hs
  | some q =>
    dsimp only
    split
    · next hm => exact hh q ho hm
    · exact hs

end

/-! ## Properties that a change of the link alone keeps -/

/-- The property rests on nothing of the link. -/
def LinkFree (P : State → Prop) : Prop := ∀ (s : State) (l : HostLink), P s → P { s with link := l }

section
variable {P : State → Prop} {s : State}

theorem LinkFree.takeRequest (hP : LinkFree P) {mine : Request → Bool} {h : Request → State → Handled} (hs : P s)
    (hh : ∀ q s, P s → P (h q s).state) : Answers P (takeRequest mine h s) :=
  answers_takeRequest hs fun q _ _ => hP _ _ (hh q _ (hP _ _ hs))

/-- A request of one kind, handled by its owner or refused as unreadable. -/
theorem LinkFree.takeKind (hP : LinkFree P) {α : Type} {kind : Byte} {read : List Byte → Option α}
    {own : Request → α → State → Handled} (hs : P s) (hh : ∀ q x s, P s → P (own q x s).state) :
    Answers P (takeKind kind read own s) := by
  refine hP.takeRequest hs fun q s hs => ?_
  unfold readThen
  split
  · exact hs
  · exact hh _ _ _ hs

end

/-- A request that names an order: refused, or handled for the order named (R99). -/
theorem withOrder_keeps {P : State → Prop} {sel : OrderSelector} {h : Nat → Order → State → Handled} {s : State}
    (hs : P s) (hh : ∀ n o, s.findOrder sel = some (n, o) → P (h n o s).state) : P (withOrder sel h s).state := by
  unfold withOrder
  split
  · exact hs
  · split
    · exact hs
    · next n o ho => exact hh n o ho

/-- A request that names a receiver: refused, or handled for the record named (R67). -/
theorem withReceiver_keeps {P : State → Prop} {sel : Selector} {h : Nat → Receiver → State → Handled} {s : State}
    (hs : P s) (hh : ∀ i r, s.findReceiver sel = some (i, r) → P (h i r s).state) :
    P (withReceiver sel h s).state := by
  unfold withReceiver
  split
  · exact hs
  · split
    · exact hs
    · next i r hr => exact hh i r hr

/-! ## What the owners of the requests leave: the state as it was, or one change of it -/

section
variable {P : State → Prop} {s : State}

theorem handleOrderAdd_keeps {q : Request} {a : OrderAdd} (hs : P s)
    (hadd : ∀ t act, s.hasRoom = true → P (placeAdmitted a t act s).state) : P (handleOrderAdd q a s).state := by
  unfold handleOrderAdd
  split
  · exact hs
  split
  · exact hs
  unfold addOrder
  split
  · exact hs
  split
  · exact hs
  split
  · exact hs
  split
  · exact hs
  · next hroom => exact hadd _ _ (by simpa using hroom)

theorem cancelOrder_keeps {n : Nat} {o : Order} (hs : P s) (hw : P (withdraw n o s))
    (hc : ∀ f, o.state = .active f → P (convert n o f s)) : P (cancelOrder n o s).state := by
  unfold cancelOrder
  split
  · exact hw
  · next f hf =>
    split
    · exact hw
    split
    · exact hc f hf
    · exact hs
  · exact hs
  · exact hs

theorem handleOrderList_state (q : Request) (page : Byte) (s : State) : (handleOrderList q page s).state = s := by
  unfold handleOrderList
  split <;> rfl

theorem clearOrder_keeps {n : Nat} {o : Order} (hs : P s) (hd : P (dropOrder n s)) :
    P (clearOrder n o s).state := by
  unfold clearOrder
  split
  · exact hd
  · exact hs

/-- A taken RX_ADD: the table has room, and the orders joined are those of the slots that take the record's groups (R69). -/
theorem handleRxAdd_keeps {q : Request} {a : RxAdd} (hs : P s)
    (hadd : ∀ ph, s.table.length < 512 →
      P (addReceiver (a.record ph s.params.qTarget) (s.slotOrders.filter fun no => joins (a.groups.map (·.toNat)) no.2)
        s).state) : P (handleRxAdd q a s).state := by
  unfold handleRxAdd
  split
  · exact hs
  dsimp only
  split
  · exact hs
  split
  · exact hs
  split
  · exact hs
  split
  · exact hs
  · next hroom =>
    have hlen : s.table.length < 512 := by
      by_contra h
      simp [Config.receiverPositions, Nat.le_of_not_lt h] at hroom
    exact hadd _ hlen

theorem handleRxList_state (q : Request) (page : Byte) (s : State) : (handleRxList q page s).state = s := by
  unfold handleRxList
  split <;> rfl

theorem handleRxRemove_state (i : Nat) (r : Receiver) (s : State) :
    (handleRxRemove i r s).state = removeReceiver i r s := by
  simp only [handleRxRemove, taken]

theorem storeUpdate_keeps {i : Nat} {r r' : Receiver} (hs : P s) (hp : P (putReceiver i r' s)) :
    P (storeUpdate i r r' s).state := by
  unfold storeUpdate
  dsimp only [taken]
  split
  · exact hs
  · exact hp

/-- A taken RX_UPDATE puts the record with the fields supplied, or the DAMAGED record rewritten (R70, R71). -/
theorem handleRxUpdate_keeps {q : Request} {u : RxUpdate} (hs : P s)
    (hp : ∀ i r r', s.findReceiver u.selector = some (i, r) → r' = u.onto r ∧ r.damaged = false ∨ r' = u.rewritten r →
      P (putReceiver i r' s)) : P (handleRxUpdate q u s).state := by
  refine withReceiver_keeps hs fun i r hr => ?_
  split
  · unfold updateDamaged
    split
    · exact hs
    split
    · exact hs
    split
    · exact hs
    split
    · exact hs
    · exact storeUpdate_keeps hs (hp i r _ hr (.inr rfl))
  · next hd =>
    unfold updateNormal
    split
    · exact hs
    split
    · exact hs
    · exact storeUpdate_keeps hs (hp i r _ hr (.inl ⟨rfl, by simpa using hd⟩))

theorem handleProbe_keeps {q : Request} {a : ProbeRequest} (hs : P s)
    (hp : ∀ pr, s.sched.probes.length < 4 → P { s with sched := { s.sched with probes := s.sched.probes ++ [pr] } }) :
    P (handleProbe q a s).state := by
  unfold handleProbe
  split
  · exact hs
  split
  · exact hs
  · refine withReceiver_keeps hs fun i r _ => ?_
    unfold addProbe
    split
    · exact hs
    split
    · exact hs
    · next hroom => exact hp _ (by simpa [Config.probeLimit] using hroom)

theorem handleCountSet_keeps {q : Request} {x : CountSet} (hs : P s)
    (hset : P (closingStep (moveTimes (x.count - s.count) (moveFlight (dist x.count s.count) (setCount x.count s))))) :
    P (handleCountSet q x s).state := by
  unfold handleCountSet
  split
  · exact hset
  · exact hs

theorem handleNoticeFetch_keeps {q : Request} {u : Unit} (hs : P s)
    (hn : ∀ n rest, s.link.queue = n :: rest → P (takeNotice rest s)) : P (handleNoticeFetch q u s).state := by
  unfold handleNoticeFetch
  split
  · exact hs
  · exact hs
  · next n rest _ hq => exact hn n rest hq

theorem handleParamRead_state (q : Request) (b : Byte) (s : State) : (handleParamRead q b s).state = s := by
  unfold handleParamRead
  split <;> rfl

theorem handleReset_keeps {q : Request} {b : Byte} (hs : P s)
    (hr : P { emptyQueue s with link := { (emptyQueue s).link with inHand := some q } }) :
    P (handleReset q b s).state := by
  unfold handleReset
  split
  · exact hr
  · exact hs

/-- A PARAM_WRITE, by its general row or by one that names its parameter: refused, or a value stored. -/
theorem handleParamWrite_keeps {q : Request} {v : ParamValue} (hs : P s)
    (hh : ∀ p ps, s.params.write v.value p = some ps →
      P (paramEffect s.params (askConfig { s with params := ps }) p)) : P (handleParamWrite q v s).state := by
  unfold handleParamWrite
  split
  · exact hs
  · split
    · exact hs
    · next p _ _ ps hps => exact hh p ps hps

theorem readThen_keeps {α : Type} {read : List Byte → Option α} {own : Request → α → State → Handled} {q : Request}
    (hs : P s) (hh : ∀ x, P (own q x s).state) : P (readThen read own q s).state := by
  unfold readThen
  split
  · exact hs
  · exact hh _

end

/-! ## Power-on in its stages (R162) -/

/-- The store as power-on finds it, its configuration read. -/
def storeAtPowerOn (errors : List PositionErrors) (s : State) : RetainedStore :=
  s.store.atPowerOn.readBack (errorsAt errors .config) .config

/-- The count that the saved count gives at power-on (R160, R180). -/
def countAtPowerOn (errors : List PositionErrors) (s : State) : Count :=
  let kept := ((storeAtPowerOn errors s).readBack (errorsAt errors .savedCount) .savedCount).savedCount
  if (badWords kept).isEmpty then savedCountOf (numbersOf kept) else 0

/-- Every block at its power-on value over the store whose configuration has been read. -/
def blocksRestored (errors : List PositionErrors) (s : State) : State :=
  blocksAtPowerOn (restoredParams (storeAtPowerOn errors s).config) (storeAtPowerOn errors s) (countAtPowerOn errors s) s

/-- The part with its configuration and its saved count read and judged. -/
def countRestored (errors : List PositionErrors) (s : State) : State :=
  restoreCount (wipeMarked (storeAtPowerOn errors s).config)
    (noteRead .savedCount (errorsAt errors .savedCount) (restoreConfig (blocksRestored errors s)))

/-- The WIPE found begun goes on (R166). -/
def resumeWipe (s : State) : State :=
  noteResumed { s with store := { s.store with wiping := some .resumed, restoring := false } }

/-- Power-on, stage by stage. -/
theorem powerOn_eq (errors : List PositionErrors) (s : State) : powerOn errors s =
    if wipeMarked (storeAtPowerOn errors s).config then resumeWipe (countRestored errors s)
    else restoreReceivers errors (restoreOrders errors (countRestored errors s)) := rfl

/-! ## The operations with a case of their own -/

/-- A cell window that opens: noted, the leg opened with the first one, and the cell sent, or withheld and its phase lost
(R46, R47, R144). -/
theorem openWindow_keeps {P : State → Prop} {p : Phase} {s : State} (hs : P s)
    (hnote : ∀ s, P s → P (noteOpened p s)) (hopen : ∀ s, P s → P (openTheLeg s))
    (hsend : ∀ k b s, P s → P (sendCell p k b s)) (hreport : ∀ k s, P s → P (reportWithheld p k s))
    (hlose : ∀ s, P s → P (losePhase p s)) : P (openWindow p s) := by
  unfold openWindow
  split
  · exact hs
  · have h : P (if (noteOpened p s).engine.state = .preparing then openTheLeg (noteOpened p s) else noteOpened p s) := by
      split
      · exact hopen _ (hnote _ hs)
      · exact hnote _ hs
    dsimp only
    generalize (if (noteOpened p s).engine.state = .preparing then openTheLeg (noteOpened p s) else noteOpened p s) = u at h ⊢
    split
    · exact hsend _ _ _ h
    · exact hlose _ (hreport _ _ h)

end Sys2Proof.Machine
end

