-- ==== Sys2Proof/Proofs/Totality.lean ====
section
/-! PROOFS. Every command answers a next state and keeps the queue of waiting commands. -/

namespace Sys2Proof.Machine

/-! ## The queue of commands at the operations that no frame law covers -/

section
variable (s : State)

@[simp] theorem abandonRepeat_pending (n : Nat) : (abandonRepeat s n).pending = s.pending := by
  unfold abandonRepeat
  repeat' split
  all_goals simp

@[simp] theorem abandonRepeats_pending : (abandonRepeats s).pending = s.pending :=
  foldl_same (g := State.pending) (fun _ _ => abandonRepeat_pending _ _) _ _

@[simp] theorem decideDelivery_pending : (decideDelivery s).pending = s.pending := by
  unfold decideDelivery handOverDelivery
  split <;> simp

@[simp] theorem decideProbe_pending : (decideProbe s).pending = s.pending := by
  unfold decideProbe handOverProbe
  split <;> simp

@[simp] theorem decideOrders_pending : (decideOrders s).pending = s.pending := by
  unfold decideOrders handOverRepeat handOverDelivery
  repeat' split
  all_goals simp

@[simp] theorem decideLine_pending : (decideLine s).pending = s.pending := by
  unfold decideLine handOverBeacon
  dsimp only
  split <;> simp

@[simp] theorem openWindow_pending (p : Phase) : (openWindow p s).pending = s.pending := by
  refine openWindow_keeps (P := fun t => t.pending = s.pending) rfl ?_ ?_ ?_ ?_ ?_
  all_goals intros; simp_all [reportWithheld]

@[simp] theorem countRepeat_pending (c : Count) (r : RepeatRecord) : (countRepeat c r s).pending = s.pending := by
  unfold countRepeat
  split <;> simp

@[simp] theorem reportBroadcast_pending : (reportBroadcast s).pending = s.pending := by
  unfold reportBroadcast
  repeat' split
  all_goals simp

@[simp] theorem completeLeg_pending : (completeLeg s).pending = s.pending := by
  unfold completeLeg
  repeat' split
  all_goals simp

@[simp] theorem markLeg_pending (before : Nat) (leg : OpenLeg) : (markLeg before leg s).pending = s.pending := by
  unfold markLeg
  dsimp only
  split <;> simp

@[simp] theorem takeOverCurrent_pending (time : Nat) : (takeOverCurrent time s).pending = s.pending := by
  unfold takeOverCurrent
  repeat' split
  all_goals simp

@[simp] theorem receiveChar_pending (ch : Character) : (receiveChar ch s).pending = s.pending := by
  unfold receiveChar
  repeat' split
  all_goals simp

@[simp] theorem moveTimes_pending (j : Count) : (moveTimes j s).pending = s.pending := by
  unfold moveTimes
  refine (foldl_same (g := State.pending) (fun t x => ?_) _ _).trans (by simp)
  split <;> simp

@[simp] theorem moveFlight_pending (d : Int) : (moveFlight d s).pending = s.pending := by
  unfold moveFlight
  repeat' split
  all_goals simp

@[simp] theorem makeRoom_pending : (makeRoom s).pending = s.pending := by
  unfold makeRoom
  repeat' split
  all_goals simp

@[simp] theorem removeReceiver_pending (i : Nat) (r : Receiver) : (removeReceiver i r s).pending = s.pending := by
  simp [removeReceiver, stalePaths]

@[simp] theorem restoreOrder_pending (e : List PositionErrors) (n : Nat) :
    (restoreOrder e s n).pending = s.pending := by
  unfold restoreOrder noteRead
  dsimp only
  repeat' split
  all_goals simp

@[simp] theorem numberDamaged_pending (n : Nat) : (numberDamaged s n).pending = s.pending := by
  unfold numberDamaged
  dsimp only
  repeat' split
  all_goals simp

@[simp] theorem restoreOrders_pending (e : List PositionErrors) : (restoreOrders e s).pending = s.pending := by
  refine (foldl_same (g := State.pending) numberDamaged_pending _ _).trans ?_
  exact foldl_same (g := State.pending) (fun t n => restoreOrder_pending t e n) _ _

@[simp] theorem restoreReceiver_pending (e : List PositionErrors) (i : Nat) :
    (restoreReceiver e s i).pending = s.pending := by
  unfold restoreReceiver noteRead
  dsimp only
  repeat' split
  all_goals simp

@[simp] theorem restoreReceivers_pending (e : List PositionErrors) : (restoreReceivers e s).pending = s.pending :=
  foldl_same (g := State.pending) (fun t i => restoreReceiver_pending t e i) _ _

@[simp] theorem restoreConfig_pending : (restoreConfig s).pending = s.pending := by
  unfold restoreConfig
  dsimp only
  repeat' split
  all_goals simp

@[simp] theorem restoreCount_pending (w : Bool) : (restoreCount w s).pending = s.pending := by
  unfold restoreCount
  dsimp only
  repeat' split
  all_goals simp

@[simp] theorem powerOn_pending (e : List PositionErrors) : (powerOn e s).pending = s.pending := by
  unfold powerOn noteResumed noteRead
  dsimp only
  split <;> simp [blocksAtPowerOn]

@[simp] theorem wipeConfig_pending (e : ReadErrors) : (wipeConfig e s).pending = s.pending := by
  unfold wipeConfig
  dsimp only
  split <;> simp

@[simp] theorem beginWipe_pending (q : Request) (e : ReadErrors) : (beginWipe q e s).pending = s.pending := by
  simp [beginWipe, wipeLink]

@[simp] theorem wipeReply_pending (w : WipeState) : (wipeReply w s).pending = s.pending := by
  unfold wipeReply
  split <;> simp

end

/-! ## The owners of the requests -/

theorem addReceiver_pending (r : Receiver) (joined : List (Nat × Order)) (s : State) :
    (addReceiver r joined s).state.pending = s.pending := by
  refine (foldl_same (g := State.pending) (fun t x => ?_) _ _).trans (by simp)
  simp [joinOrder]

end Sys2Proof.Machine

namespace Sys2Proof.Safety

open Sys2Proof.Machine

/-- The queue of waiting commands is this one. -/
def Waiting (l : List Instr) (t : State) : Prop := t.pending = l

@[simp] theorem waiting_iff (l : List Instr) (t : State) : Waiting l t ↔ t.pending = l := Iff.rfl

theorem linkFree_waiting (l : List Instr) : LinkFree (Waiting l) := fun _ _ h => h

theorem handleParamWrite_waiting {l : List Instr} (q : Request) (v : ParamValue) (s : State) (h : Waiting l s) :
    Waiting l (handleParamWrite q v s).state :=
  handleParamWrite_keeps h fun p ps _ => by simpa using h

/-- Settles O2: a command of a step answers the step's state or the state it was given, one of a request the state its owner
leaves. -/
theorem everyCommandAnswersNext : Obligations.EveryCommandAnswersNext := by
  intro c s
  have hl := linkFree_waiting s.pending
  show Answers (Waiting s.pending) (exec c s)
  cases c with
  | powerOn e => exact answers_next (by simp)
  | powerLoss w k => exact answers_when rfl fun _ => rfl
  | restoreComplete => exact answers_when rfl fun _ => by simp [completeRestore]
  | zcEdge | windowClose | derivedCrossing | crystalAdvance | acquireLock | silenceTimeout | missLimit | returnLock
  | coastTimeout | settleEnd | beaconTimerExpiry | saveCadence | coolDownEnd | capRecovery =>
    exact answers_when rfl fun _ => by simp
  | scrubRead | recordWrite | orderActivate | decisionPoint | cellWindow | legComplete | overCurrent =>
    exact answers_when rfl fun _ => by simp
  | orderSeal n =>
    show Answers _ (execOrderSeal n s)
    unfold execOrderSeal
    repeat' split
    all_goals exact answers_next (by simp)
  | notSent n =>
    show Answers _ (execNotSent n s)
    unfold execNotSent
    split
    · exact answers_next rfl
    · exact answers_when rfl fun _ => by simp
  | relaySpanOpen | relaySpanEnd | answerWindowOpen => exact answers_when rfl fun _ => rfl
  | answerReport => exact answers_when rfl fun _ => by simp
  | recordComplete | lengthDiscard | crcDiscard | byteReceived | framingDiscard | gapDiscard =>
    exact answers_when rfl fun _ => by simp
  | transmitStart | rateSwitch | softResetPerform | recordSent => exact answers_when rfl fun _ => by simp
  | unknownKind => exact hl.takeRequest rfl fun _ _ h => h
  | ident | status | timeRead => exact hl.takeKind rfl fun _ _ _ h => h
  | paramRead => exact hl.takeKind rfl fun _ _ _ h => by rwa [handleParamRead_state]
  | paramWrite => exact hl.takeKind rfl handleParamWrite_waiting
  | writeNominalFreq | writeRefPhase | writePhaseEnable | writeZcFilter | writeZcEdge | writeSettleCount
  | writeBeaconInterval | writeCarrierPrimary | writeCarrierAlternate | writeLevelMax | writeMinMargin | writeLevelBase
  | writeQTarget | writeLevelBroadcast | writeRetryMax | writeRelayAfter | writeRepeatSpacing | writeLinkRate
  | writeNoticeMode | writeStationId | writeNoticeLevels =>
    exact hl.takeRequest rfl fun q t h => readThen_keeps h fun v => handleParamWrite_waiting q v t h
  | resetSoft => exact hl.takeRequest rfl fun q t h => readThen_keeps h fun b => handleReset_keeps h h
  | resetWipe e =>
    show Answers _ (execResetWipe e s)
    unfold execResetWipe
    split
    · exact answers_next rfl
    · exact answers_when rfl fun _ => by simp
  | wipeEnd =>
    show Answers _ (execWipeEnd s)
    unfold execWipeEnd
    split
    · exact answers_next rfl
    · exact answers_when rfl fun _ => by simp [endWipe]
  | noticeFetch => exact hl.takeKind rfl fun _ _ _ h => handleNoticeFetch_keeps h fun _ _ _ => h
  | countSet => exact hl.takeKind rfl fun _ _ _ h => handleCountSet_keeps h (by simpa [setCount] using h)
  | orderAdd =>
    exact hl.takeKind rfl fun _ _ _ h => handleOrderAdd_keeps h fun _ _ _ => by simpa [placeAdmitted, taken] using h
  | orderCancel =>
    exact hl.takeKind rfl fun _ _ _ h => withOrder_keeps h fun n o _ =>
      cancelOrder_keeps h (by simpa using h) fun f _ => by simpa using h
  | orderRead => exact hl.takeKind rfl fun _ _ _ h => withOrder_keeps h fun _ _ _ => h
  | orderList => exact hl.takeKind rfl fun _ _ _ h => by rwa [handleOrderList_state]
  | orderClear =>
    exact hl.takeKind rfl fun _ _ _ h => withOrder_keeps h fun n o _ => clearOrder_keeps h (by simpa using h)
  | rxAdd =>
    exact hl.takeKind rfl fun _ _ _ h => handleRxAdd_keeps h fun _ _ => (addReceiver_pending _ _ _).trans h
  | rxUpdate => exact hl.takeKind rfl fun _ _ _ h => handleRxUpdate_keeps h fun _ _ _ _ _ => by simpa using h
  | rxRemove =>
    exact hl.takeKind rfl fun _ _ t h => withReceiver_keeps h fun i r _ => (removeReceiver_pending t i r).trans h
  | rxRead => exact hl.takeKind rfl fun _ _ _ h => withReceiver_keeps h fun _ _ _ => h
  | rxList => exact hl.takeKind rfl fun _ _ _ h => by rwa [handleRxList_state]
  | probe => exact hl.takeKind rfl fun _ _ _ h => handleProbe_keeps h fun _ _ => h

end Sys2Proof.Safety
end

