-- ==== Sys2Proof/Proofs/LevelCap.lean ====
section
/-! PROOFS. LEVEL_CAP stays in its span (R52): the operations that move it or LEVEL_MAX, and every command. -/

namespace Sys2Proof.Safety

open Sys2Proof.Machine

/-- The law rests on the parameters and LEVEL_CAP alone. -/
theorem CapInSpan.congr {s t : State} (h : CapInSpan s) (hp : t.params = s.params) (hc : t.driver.cap = s.driver.cap) :
    CapInSpan t := by
  unfold CapInSpan
  rw [hp, hc]
  exact h

theorem linkFree_capInSpan : LinkFree CapInSpan := fun _ _ h => h

section
variable {s : State}

/-! ## What moves LEVEL_CAP -/

theorem CapInSpan.recoverCap (h : CapInSpan s) : CapInSpan (recoverCap s) := by
  unfold Machine.recoverCap
  split
  · next hlow =>
    obtain ⟨hlo, hhi⟩ := h
    exact ⟨Nat.le_succ_of_le hlo, hlow.2⟩
  · exact h

theorem foldBack_cap (time : Nat) (s : State) : (foldBack time s).driver.cap =
    if s.params.levelMax - 8 < s.driver.cap then s.driver.cap - 1 else s.driver.cap := rfl

theorem CapInSpan.foldBack (h : CapInSpan s) (time : Nat) : CapInSpan (foldBack time s) := by
  obtain ⟨hlo, hhi⟩ := h
  unfold CapInSpan
  rw [foldBack_cap, (foldBack_frame time s).2.1]
  split <;> omega

/-- A cap brought into the span of a LEVEL_MAX (R53). -/
theorem capInSpan_levelMaxEffect (s : State) : CapInSpan (levelMaxEffect s) := by
  simp only [CapInSpan, levelMaxEffect, LineDriver.fitCap, clampTo, Config.capSpan]
  omega

theorem capInSpan_resetLine (s : State) : CapInSpan (resetLine s) := by simp [CapInSpan, resetLine]

theorem CapInSpan.resetBlocks (s : State) : CapInSpan (resetBlocks s) := capInSpan_resetLine _

/-! ## The Timebase -/

theorem CapInSpan.catchUp (h : CapInSpan s) : CapInSpan (catchUp s) := by
  unfold Machine.catchUp
  have hquiet : CapInSpan (meetSettling (Phase.all.foldl timeOutSilence s)) := h.congr (by simp) (by simp)
  have hcool : CapInSpan (endCoolDown (saveCount (expireBeaconTimer (meetSettling
      (Phase.all.foldl timeOutSilence s))))) := hquiet.congr (by simp) (by simp)
  exact hcool.recoverCap.congr (by simp) (by simp)

theorem CapInSpan.countAdvance (h : CapInSpan s) (time : Nat) : CapInSpan (countAdvance time s) :=
  h.catchUp.congr (by simp) (by simp [Machine.countAdvance, advanceCounts, LineDriver.advance])

theorem CapInSpan.crossing (h : CapInSpan s) (p : Phase) (time : Nat) : CapInSpan (crossing p time s) := by
  unfold Machine.crossing
  have hhand : CapInSpan (handOn p time (meetSettling s)) := h.congr (by simp) (by simp)
  dsimp only
  split
  · exact hhand.countAdvance _
  · exact hhand

theorem CapInSpan.enterCoasting (h : CapInSpan s) (p : Phase) : CapInSpan (enterCoasting p (meetSettling s)) :=
  h.congr (by simp) (by simp)

theorem CapInSpan.endCoast (h : CapInSpan s) (p : Phase) : CapInSpan (endCoast p (meetSettling s)) :=
  h.congr (by simp) (by simp)

theorem CapInSpan.closeWindow (h : CapInSpan s) (p : Phase) : CapInSpan (closeWindow p s) := by
  have htracker (t : Tracker) (time : Nat) : CapInSpan (Machine.crossing p time (s.setTracker p t)) :=
    CapInSpan.crossing (h.congr (by simp) (by simp)) p time
  unfold Machine.closeWindow
  dsimp only
  repeat' split
  · exact h
  · exact h
  · exact h
  · exact (htracker _ _).enterCoasting p
  · exact htracker _ _
  · exact (htracker _ _).endCoast p
  · exact htracker _ _

theorem CapInSpan.deriveCrossing (h : CapInSpan s) (p : Phase) : CapInSpan (deriveCrossing p s) := by
  unfold Machine.deriveCrossing
  dsimp only
  split
  · exact h
  · split
    · exact CapInSpan.crossing (h.congr (by simp) (by simp)) _ _
    · exact h

theorem CapInSpan.takeEdge (h : CapInSpan s) (p : Phase) (time : Nat) (l : Bool) (r : Nat) :
    CapInSpan (takeEdge p time l r s) := by
  unfold Machine.takeEdge respond
  split
  · exact h.congr (by simp) (by simp)
  · exact CapInSpan.crossing (h.congr (by simp) (by simp)) _ _
  · exact CapInSpan.crossing (h.congr (by simp) (by simp)) _ _

theorem CapInSpan.crystalStep (h : CapInSpan s) : CapInSpan (crystalStep s) := by
  refine (h.countAdvance (s.tb.lastAdvance + s.tb.crystalSpan)).congr (by simp) ?_
  simp [Machine.crystalStep]

/-! ## Parameters -/

/-- No parameter but LEVEL_MAX moves LEVEL_MAX. -/
theorem write_levelMax {ps ps' : Params} {v : Nat} {p : Param} (hw : ps.write v p = some ps') (hp : p ≠ .levelMax) :
    ps'.levelMax = ps.levelMax := by
  cases p with
  | levelMax => exact absurd rfl hp
  | phaseEnable =>
    simp only [Params.write] at hw
    split at hw <;> cases hw
    rfl
  | nominalFreq | refPhase | zcFilter | zcEdge | carrierPrimary | carrierAlternate | linkRate | noticeMode
  | noticeLevel =>
    obtain ⟨_, _, rfl⟩ := Option.map_eq_some_iff.1 hw
    rfl
  | settleCount | beaconInterval | minMargin | levelBase | qTarget | levelBroadcast | retryMax | relayAfter
  | repeatSpacing | stationId => cases hw; rfl

/-- Every effect but that of LEVEL_MAX leaves LEVEL_CAP where it is. -/
theorem paramEffect_cap {p : Param} (hp : p ≠ .levelMax) (before : Params) (s : State) :
    (paramEffect before s p).driver.cap = s.driver.cap := by
  cases p with
  | levelMax => exact absurd rfl hp
  | _ => simp [paramEffect]

theorem CapInSpan.paramWrite (h : CapInSpan s) {v : Nat} {p : Param} {ps : Params}
    (hw : s.params.write v p = some ps) :
    CapInSpan (paramEffect s.params (askConfig { s with params := ps }) p) := by
  by_cases hp : p = .levelMax
  · subst hp
    exact capInSpan_levelMaxEffect _
  · unfold CapInSpan
    rw [paramEffect_cap hp, (paramEffect_frame ..).2.1, (askConfig_frame _).2.1]
    dsimp only
    rw [write_levelMax hw hp, (askConfig_frame _).2.2.2.2.2.2.2.2.1]
    exact h

theorem CapInSpan.handleParamWrite (h : CapInSpan s) (q : Request) (v : ParamValue) :
    CapInSpan (handleParamWrite q v s).state :=
  handleParamWrite_keeps h fun _ _ hw => h.paramWrite hw

/-- Every parameter at its default: LEVEL_CAP stays where LEVEL_MAX was at its default already, and is brought into the new
span otherwise (R159). -/
theorem CapInSpan.applyDefaults (h : CapInSpan s) : CapInSpan (applyDefaults s) := by
  unfold Machine.applyDefaults
  dsimp only
  set restarted : State := if s.params.nominalFreq = Params.default.nominalFreq then
    restartPhases (Phase.all.filter (changedPhase s.params Params.default)) { s with params := Params.default }
    else nominalFreqEffect { s with params := Params.default } with hr
  have hrp : restarted.params = .default ∧ restarted.driver.cap = s.driver.cap := by
    rw [hr]
    split <;> simp
  set moved : State := if s.params.refPhase = restarted.params.refPhase then restarted
    else refPhaseEffect restarted with hm
  have hmp : moved.params = .default ∧ moved.driver.cap = s.driver.cap := by
    rw [hm]
    split <;> simp [hrp]
  have hcap : CapInSpan (if s.params.levelMax = moved.params.levelMax then moved else levelMaxEffect moved) := by
    split
    · next he =>
      unfold CapInSpan
      rw [hmp.2, ← he]
      exact h
    · exact capInSpan_levelMaxEffect _
  exact hcap.congr (by simp) (by simp)

/-! ## The end of a record, and the store -/

theorem CapInSpan.afterRecord (h : CapInSpan s) (a : AfterSent) : CapInSpan (afterRecord a s) := by
  cases a with
  | nothing => exact h
  | rate r => exact h.congr (by simp [Machine.afterRecord]) (by simp [Machine.afterRecord])
  | softReset => exact (CapInSpan.resetBlocks s).congr rfl rfl
  | wipeDone => exact h

theorem CapInSpan.endRecord (h : CapInSpan s) : CapInSpan (endRecord s) := by
  unfold Machine.endRecord
  split
  · exact h
  · exact CapInSpan.afterRecord (linkFree_capInSpan _ _ h) _

theorem CapInSpan.noteDefaults (h : CapInSpan s) (f : Found) (w : Nat) (a : AfterSent) :
    CapInSpan (noteDefaults f w a s) := by
  unfold Machine.noteDefaults
  dsimp only
  split
  · exact h.congr (by simp) (by simp)
  · exact CapInSpan.afterRecord (h.congr (by simp) (by simp)) _

theorem CapInSpan.configDamage (h : CapInSpan s) (f : Found) (n : Nat) : CapInSpan (configDamage f n s) :=
  CapInSpan.noteDefaults (CapInSpan.applyDefaults (h.congr (by simp) (by simp))) _ _ _

theorem CapInSpan.handleDamage (h : CapInSpan s) (pos : Position) (f : Found) (ws : Words) :
    CapInSpan (handleDamage pos f ws s) := by
  cases pos with
  | config => exact h.configDamage _ _
  | savedCount | order | receiver => exact h.congr (by simp [Machine.handleDamage]) (by simp [Machine.handleDamage])

theorem CapInSpan.readPosition (h : CapInSpan s) (pos : Position) (f : Found) (e : ReadErrors) :
    CapInSpan (readPosition pos f e s) := by
  unfold Machine.readPosition
  dsimp only
  split
  · exact h
  · exact CapInSpan.handleDamage (s := { s with store := s.store.readBack e pos }) h _ _ _

theorem CapInSpan.scrub (h : CapInSpan s) (e : ReadErrors) : CapInSpan (scrub e s) := by
  unfold Machine.scrub
  refine CapInSpan.readPosition ?_ _ _ _
  exact h

theorem CapInSpan.writeRecord (h : CapInSpan s) (e : ReadErrors) : CapInSpan (writeRecord e s) := by
  unfold Machine.writeRecord
  split
  · exact h
  · dsimp only
    split
    · refine CapInSpan.readPosition ?_ _ _ _
      exact h
    · exact h

/-! ## Power-on and the WIPE -/

theorem restoreOrder_capInSpan (h : CapInSpan s) (e : List PositionErrors) (n : Nat) :
    CapInSpan (restoreOrder e s n) := by
  unfold restoreOrder noteRead
  dsimp only
  repeat' split
  all_goals exact h.congr (by simp) (by simp)

theorem numberDamaged_capInSpan (h : CapInSpan s) (n : Nat) : CapInSpan (numberDamaged s n) := by
  unfold numberDamaged
  dsimp only
  repeat' split
  all_goals exact h.congr (by simp) (by simp)

theorem restoreReceiver_capInSpan (h : CapInSpan s) (e : List PositionErrors) (i : Nat) :
    CapInSpan (restoreReceiver e s i) := by
  unfold restoreReceiver noteRead
  dsimp only
  repeat' split
  all_goals exact h.congr (by simp) (by simp)

theorem restoreConfig_capInSpan (h : CapInSpan s) : CapInSpan (restoreConfig s) := by
  unfold restoreConfig
  dsimp only
  repeat' split
  all_goals exact h.congr (by simp) (by simp)

theorem restoreCount_capInSpan (h : CapInSpan s) (w : Bool) : CapInSpan (restoreCount w s) := by
  unfold restoreCount
  dsimp only
  repeat' split
  all_goals exact h.congr (by simp) (by simp)

theorem restoreOrders_capInSpan (h : CapInSpan s) (e : List PositionErrors) : CapInSpan (restoreOrders e s) := by
  have horders : CapInSpan ((orderReads s.store e).foldl (restoreOrder e) s) :=
    foldl_keeps (P := CapInSpan) (fun t n ht => restoreOrder_capInSpan ht e n) _ h
  have hsequence : CapInSpan (restoreSequence ((orderReads s.store e).foldl (restoreOrder e) s)) :=
    horders.congr rfl rfl
  unfold restoreOrders
  exact foldl_keeps (P := CapInSpan) (fun t n ht => numberDamaged_capInSpan ht n) _ hsequence

theorem restoreReceivers_capInSpan (h : CapInSpan s) (e : List PositionErrors) : CapInSpan (restoreReceivers e s) := by
  unfold restoreReceivers
  exact foldl_keeps (P := CapInSpan) (fun t i ht => restoreReceiver_capInSpan ht e i) _ h

/-- After power-on LEVEL_CAP is LEVEL_MAX (R60). -/
theorem powerOn_capInSpan (e : List PositionErrors) (s : State) : CapInSpan (powerOn e s) := by
  have hblocks : CapInSpan (blocksRestored e s) := by simp [CapInSpan, blocksRestored, blocksAtPowerOn, LineDriver.powerOn]
  have hread : CapInSpan (noteRead .savedCount (errorsAt e .savedCount) (restoreConfig (blocksRestored e s))) :=
    (restoreConfig_capInSpan hblocks).congr rfl rfl
  have hcount : CapInSpan (countRestored e s) := restoreCount_capInSpan hread _
  rw [powerOn_eq]
  split
  · exact hcount.congr (by simp [resumeWipe, noteResumed]) (by simp [resumeWipe, noteResumed])
  · exact restoreReceivers_capInSpan (restoreOrders_capInSpan hcount _) _

theorem CapInSpan.wipeConfig (h : CapInSpan s) (e : ReadErrors) : CapInSpan (wipeConfig e s) := by
  unfold Machine.wipeConfig
  dsimp only
  split
  · exact h
  · exact h.congr (by simp) (by simp)

theorem beginWipe_capInSpan (q : Request) (e : ReadErrors) (s : State) : CapInSpan (beginWipe q e s) :=
  CapInSpan.wipeConfig (capInSpan_resetLine _) e

/-! ## The line -/

theorem CapInSpan.openWindow (h : CapInSpan s) (p : Phase) : CapInSpan (openWindow p s) :=
  openWindow_keeps h (fun _ h => h.congr (by simp) (by simp)) (fun _ h => h) (fun _ _ _ h => h) (fun _ _ h => h)
    (fun _ h => h.congr (by simp) (by simp))

theorem CapInSpan.takeOverCurrent (h : CapInSpan s) (time : Nat) : CapInSpan (takeOverCurrent time s) := by
  unfold Machine.takeOverCurrent
  split
  · exact h
  · dsimp only
    split
    · exact h.foldBack _
    · unfold markLeg
      dsimp only
      split <;> exact (h.foldBack time).congr (by simp) (by simp)

theorem CapInSpan.completeLeg (h : CapInSpan s) : CapInSpan (completeLeg s) := by
  unfold Machine.completeLeg reportBroadcast countRepeat
  dsimp only
  repeat' split
  all_goals exact h.congr (by simp) (by simp)

theorem abandonRepeat_capInSpan (h : CapInSpan s) (n : Nat) : CapInSpan (abandonRepeat s n) := by
  unfold abandonRepeat
  repeat' split
  all_goals exact h.congr (by simp) (by simp)

theorem abandonRepeats_capInSpan (h : CapInSpan s) : CapInSpan (abandonRepeats s) := by
  unfold abandonRepeats
  exact foldl_keeps (P := CapInSpan) (fun t n ht => abandonRepeat_capInSpan ht n) _ h

/-- A hand-over loads the level buffer and leaves the cap (R135). -/
theorem CapInSpan.handOver (h : CapInSpan s) (k : HandOverKind) (b : Burst) (ps : PerPhase Bool) (level : Nat)
    (c : CarrierSelection) (span : Nat) (x : Option ExchangeTimes) : CapInSpan (handOver k b ps level c span x s) :=
  h.congr (by simp) rfl

theorem CapInSpan.startTransmission (h : CapInSpan s) (n : Nat) : CapInSpan (startTransmission n s) :=
  h.congr (by simp) (by simp)

theorem CapInSpan.decideDelivery (h : CapInSpan s) : CapInSpan (decideDelivery s) := by
  unfold Machine.decideDelivery
  split
  · exact (h.startTransmission _).handOver ..
  · exact h

theorem CapInSpan.decideProbe (h : CapInSpan s) : CapInSpan (decideProbe s) := by
  unfold Machine.decideProbe
  split
  · exact CapInSpan.handOver (s := dropProbe s) h ..
  · exact CapInSpan.decideDelivery (h.congr (by simp) (by simp))
  · exact h.decideDelivery

theorem CapInSpan.decideOrders (h : CapInSpan s) : CapInSpan (decideOrders s) := by
  unfold Machine.decideOrders
  split
  · exact (h.startTransmission _).handOver ..
  · split
    · exact (h.startTransmission _).handOver ..
    · exact h.decideProbe

theorem CapInSpan.decideLine (h : CapInSpan s) : CapInSpan (decideLine s) := by
  have habandon : CapInSpan (abandonRepeats { s with owed := { s.owed with decision := false } }) :=
    abandonRepeats_capInSpan (s := { s with owed := { s.owed with decision := false } }) h
  unfold Machine.decideLine
  dsimp only
  split
  · exact habandon.handOver ..
  · exact habandon.decideOrders

/-! ## The owners of the requests -/

theorem addReceiver_capInSpan (h : CapInSpan s) (r : Receiver) (joined : List (Nat × Order)) :
    CapInSpan (addReceiver r joined s).state := by
  unfold addReceiver
  exact foldl_keeps (P := CapInSpan) (fun t x ht => ht.congr (by simp [joinOrder]) (by simp [joinOrder])) _
    (h.congr (by simp) (by simp))

theorem moveTimes_capInSpan (h : CapInSpan s) (j : Count) : CapInSpan (moveTimes j s) := by
  unfold moveTimes
  refine foldl_keeps (P := CapInSpan) (fun t x ht => ?_) _ (h.congr (by simp) (by simp))
  split
  · exact ht
  · exact ht.congr (by simp) (by simp)

theorem moveFlight_capInSpan (h : CapInSpan s) (d : Int) : CapInSpan (moveFlight d s) := by
  unfold moveFlight
  repeat' split
  all_goals exact h.congr (by simp) (by simp)

theorem setCount_capInSpan (h : CapInSpan s) (x : Count) : CapInSpan (setCount x s) := by
  unfold setCount
  exact h.congr (by simp) (by simp)

theorem closingStep_capInSpan (h : CapInSpan s) : CapInSpan (closingStep s) := h.congr (by simp) (by simp)

theorem makeRoom_capInSpan (h : CapInSpan s) : CapInSpan (makeRoom s) := by
  unfold makeRoom
  repeat' split
  all_goals exact h.congr (by simp) (by simp)

end

/-- Settles O4: the operations above keep the law, and a request or an event that moves neither the cap nor LEVEL_MAX
keeps it too. -/
theorem levelCapStaysInItsSpan : Obligations.LevelCapStaysInItsSpan := by
  intro c s t h hstep
  refine Answers.of_eq (?_ : Answers CapInSpan (exec c s)) hstep
  have hl := linkFree_capInSpan
  cases c with
  | powerOn e => exact answers_next (powerOn_capInSpan e s)
  | powerLoss w k => exact answers_when h fun _ => h
  | restoreComplete => exact answers_when h fun _ => h.congr (by simp [completeRestore]) (by simp [completeRestore])
  | zcEdge | acquireLock | returnLock => exact answers_when h fun _ => h.takeEdge ..
  | windowClose | missLimit | coastTimeout => exact answers_when h fun _ => h.closeWindow _
  | derivedCrossing => exact answers_when h fun _ => h.deriveCrossing _
  | crystalAdvance => exact answers_when h fun _ => h.crystalStep
  | silenceTimeout | settleEnd | beaconTimerExpiry | saveCadence | coolDownEnd =>
    exact answers_when h fun _ => h.congr (by simp) (by simp)
  | capRecovery => exact answers_when h fun _ => h.recoverCap
  | scrubRead e => exact answers_when h fun _ => h.scrub e
  | recordWrite e => exact answers_when h fun _ => h.writeRecord e
  | orderActivate => exact answers_when h fun _ => h.congr (by simp) (by simp)
  | orderSeal n =>
    show Answers _ (execOrderSeal n s)
    unfold execOrderSeal
    repeat' split
    all_goals exact answers_next (h.congr (by simp) (by simp))
  | notSent n =>
    show Answers _ (execNotSent n s)
    unfold execNotSent
    split
    · exact answers_next h
    · exact answers_when h fun _ => h.congr (by simp) (by simp)
  | decisionPoint => exact answers_when h fun _ => h.decideLine
  | cellWindow p => exact answers_when h fun _ => h.openWindow p
  | legComplete => exact answers_when h fun _ => h.completeLeg
  | overCurrent time => exact answers_when h fun _ => h.takeOverCurrent time
  | relaySpanOpen | relaySpanEnd | answerWindowOpen => exact answers_when h fun _ => h
  | answerReport => exact answers_when h fun _ => h.congr (by simp) (by simp)
  | recordComplete | lengthDiscard | crcDiscard | byteReceived =>
    refine answers_when h fun _ => ?_
    unfold receiveChar
    repeat' split
    all_goals exact h.congr (by simp) (by simp)
  | framingDiscard | gapDiscard | transmitStart => exact answers_when h fun _ => h.congr (by simp) (by simp)
  | rateSwitch | softResetPerform | recordSent => exact answers_when h fun _ => h.endRecord
  | unknownKind => exact hl.takeRequest h fun _ _ h => h
  | ident | status | timeRead => exact hl.takeKind h fun _ _ _ h => h
  | paramRead => exact hl.takeKind h fun _ _ _ h => by rwa [handleParamRead_state]
  | paramWrite => exact hl.takeKind h fun q v _ h => h.handleParamWrite q v
  | writeNominalFreq | writeRefPhase | writePhaseEnable | writeZcFilter | writeZcEdge | writeSettleCount
  | writeBeaconInterval | writeCarrierPrimary | writeCarrierAlternate | writeLevelMax | writeMinMargin | writeLevelBase
  | writeQTarget | writeLevelBroadcast | writeRetryMax | writeRelayAfter | writeRepeatSpacing | writeLinkRate
  | writeNoticeMode | writeStationId | writeNoticeLevels =>
    exact hl.takeRequest h fun q _ h => readThen_keeps h fun v => h.handleParamWrite q v
  | resetSoft => exact hl.takeRequest h fun _ _ h => readThen_keeps h fun _ => handleReset_keeps h h
  | resetWipe e =>
    show Answers _ (execResetWipe e s)
    unfold execResetWipe
    split
    · exact answers_next h
    · exact answers_when h fun _ => beginWipe_capInSpan _ _ _
  | wipeEnd =>
    show Answers _ (execWipeEnd s)
    unfold execWipeEnd
    split
    · exact answers_next h
    · refine answers_when h fun _ => ?_
      unfold endWipe wipeReply
      split <;> exact h
  | noticeFetch => exact hl.takeKind h fun _ _ _ h => handleNoticeFetch_keeps h fun _ _ _ => h
  | countSet =>
    exact hl.takeKind h fun _ _ _ h => handleCountSet_keeps h <|
      closingStep_capInSpan (moveTimes_capInSpan (moveFlight_capInSpan (setCount_capInSpan h _) _) _)
  | orderAdd =>
    exact hl.takeKind h fun _ _ _ h => handleOrderAdd_keeps h fun _ _ _ =>
      (makeRoom_capInSpan h).congr (by simp [placeAdmitted, taken]) (by simp [placeAdmitted, taken])
  | orderCancel =>
    exact hl.takeKind h fun _ _ _ h => withOrder_keeps h fun _ _ _ =>
      cancelOrder_keeps h (h.congr (by simp) (by simp)) fun _ _ => h.congr (by simp) (by simp)
  | orderRead => exact hl.takeKind h fun _ _ _ h => withOrder_keeps h fun _ _ _ => h
  | orderList => exact hl.takeKind h fun _ _ _ h => by rwa [handleOrderList_state]
  | orderClear =>
    exact hl.takeKind h fun _ _ _ h => withOrder_keeps h fun _ _ _ =>
      clearOrder_keeps h (h.congr (by simp) (by simp))
  | rxAdd => exact hl.takeKind h fun _ _ _ h => handleRxAdd_keeps h fun _ _ => addReceiver_capInSpan h _ _
  | rxUpdate =>
    exact hl.takeKind h fun _ _ _ h => handleRxUpdate_keeps h fun _ _ _ _ _ => h.congr (by simp) (by simp)
  | rxRemove =>
    exact hl.takeKind h fun _ _ _ h => withReceiver_keeps h fun _ _ _ =>
      h.congr (by simp [handleRxRemove, taken, removeReceiver, stalePaths])
        (by simp [handleRxRemove, taken, removeReceiver, stalePaths])
  | rxRead => exact hl.takeKind h fun _ _ _ h => withReceiver_keeps h fun _ _ _ => h
  | rxList => exact hl.takeKind h fun _ _ _ h => by rwa [handleRxList_state]
  | probe => exact hl.takeKind h fun _ _ _ h => handleProbe_keeps h fun _ _ => h

end Sys2Proof.Safety
end

