-- ==== Sys2Proof/Proofs/QueueBounds.lean ====
section
/-! PROOFS. The bounds of the queues (R174) at every command: the operations that move the request buffer or the probe
queue, and the notices that the commands queue. -/

namespace Sys2Proof.Safety

open Sys2Proof.Machine

section
variable {s t : State}

theorem LinkBounded.queue (h : LinkBounded s) : QueueOk s.link.queue := ((linkBounded_iff s).1 h).1

/-- The law is kept where the notice queue keeps its part of it and neither other queue grows. -/
theorem LinkBounded.keep (h : LinkBounded s) (hq : QueueOk t.link.queue)
    (hb : t.link.buffer.length ≤ s.link.buffer.length) (hp : t.sched.probes.length ≤ s.sched.probes.length) :
    LinkBounded t := by
  obtain ⟨-, hbuffer, hprobes⟩ := (linkBounded_iff s).1 h
  exact (linkBounded_iff t).2 ⟨hq, hb.trans hbuffer, hp.trans hprobes⟩

/-- The request taken leaves the buffer, and its reply joins the replies alone. -/
theorem LinkBounded.dropRequest (h : LinkBounded s) : LinkBounded (dropRequest s) :=
  h.keep (by simpa using h.queue) (by simp) (by simp)

theorem LinkBounded.takeRequest (h : LinkBounded s) {mine : Request → Bool} {own : Request → State → Handled}
    (hh : ∀ q s, LinkBounded s → LinkBounded (own q s).state) : Answers LinkBounded (takeRequest mine own s) :=
  answers_takeRequest h fun q _ _ => by
    have ho := hh q _ h.dropRequest
    exact ho.keep (by simpa [answerRequest] using ho.queue) (by simp [answerRequest]) (by simp [answerRequest])

theorem LinkBounded.takeKind (h : LinkBounded s) {α : Type} {kind : Byte} {read : List Byte → Option α}
    {own : Request → α → State → Handled} (hh : ∀ q x s, LinkBounded s → LinkBounded (own q x s).state) :
    Answers LinkBounded (takeKind kind read own s) :=
  h.takeRequest fun q _ hs => readThen_keeps hs fun x => hh q x _ hs


/-! ## The Timebase -/

@[simp] theorem catchUp_probes (s : State) : (catchUp s).sched.probes = s.sched.probes := by simp [catchUp]

@[simp] theorem countAdvance_probes (time : Nat) (s : State) : (countAdvance time s).sched.probes = s.sched.probes := by
  simp [countAdvance, advanceCounts]

@[simp] theorem crossing_probes (p : Phase) (time : Nat) (s : State) :
    (crossing p time s).sched.probes = s.sched.probes := by
  unfold crossing
  dsimp only
  split <;> simp

@[simp] theorem closeWindow_probes (p : Phase) (s : State) : (closeWindow p s).sched.probes = s.sched.probes := by
  unfold closeWindow
  dsimp only
  repeat' split
  all_goals simp

@[simp] theorem deriveCrossing_probes (p : Phase) (s : State) :
    (deriveCrossing p s).sched.probes = s.sched.probes := by
  unfold deriveCrossing
  dsimp only
  repeat' split
  all_goals simp

@[simp] theorem takeEdge_probes (p : Phase) (time : Nat) (l : Bool) (r : Nat) (s : State) :
    (takeEdge p time l r s).sched.probes = s.sched.probes := by
  unfold takeEdge respond
  split <;> simp

@[simp] theorem crystalStep_probes (s : State) : (crystalStep s).sched.probes = s.sched.probes := by simp [crystalStep]

/-! ## The line -/

theorem abandonRepeats_linkBounded (h : LinkBounded s) : LinkBounded (abandonRepeats s) := by
  unfold abandonRepeats
  refine foldl_keeps (P := LinkBounded) (fun t n ht => ?_) _ h
  unfold abandonRepeat
  repeat' split
  all_goals exact ht.keep (by simp [ht.queue]) (by simp) (by simp)

/-- A hand-over leaves the queues. -/
theorem LinkBounded.handOver (h : LinkBounded s) (k : HandOverKind) (b : Burst) (ps : PerPhase Bool) (level : Nat)
    (c : CarrierSelection) (span : Nat) (x : Option ExchangeTimes) : LinkBounded (handOver k b ps level c span x s) := h

theorem LinkBounded.startTransmission (h : LinkBounded s) (n : Nat) : LinkBounded (startTransmission n s) :=
  h.keep (by simp [h.queue]) (by simp) (by simp)

theorem LinkBounded.dropProbe (h : LinkBounded s) : LinkBounded (dropProbe s) :=
  h.keep h.queue le_rfl (by simp [Machine.dropProbe])

theorem LinkBounded.noteWithdrawn (h : LinkBounded s) (p : Probe) : LinkBounded (noteWithdrawn s p) :=
  h.keep (by simp [h.queue]) (by simp) (by simp)

theorem LinkBounded.decideDelivery (h : LinkBounded s) : LinkBounded (decideDelivery s) := by
  unfold Machine.decideDelivery
  split
  · exact (h.startTransmission _).handOver ..
  · exact h

theorem LinkBounded.decideProbe (h : LinkBounded s) : LinkBounded (decideProbe s) := by
  unfold Machine.decideProbe
  have hdrop := h.dropProbe
  split
  · exact hdrop.handOver ..
  · exact (hdrop.noteWithdrawn _).decideDelivery
  · exact h.decideDelivery

theorem LinkBounded.decideLine (h : LinkBounded s) : LinkBounded (decideLine s) := by
  have habandon : LinkBounded (abandonRepeats { s with owed := { s.owed with decision := false } }) :=
    abandonRepeats_linkBounded (s := { s with owed := { s.owed with decision := false } }) h
  unfold Machine.decideLine decideOrders
  dsimp only
  split
  · exact habandon.handOver ..
  split
  · exact (habandon.startTransmission _).handOver ..
  split
  · exact (habandon.startTransmission _).handOver ..
  · exact habandon.decideProbe

theorem LinkBounded.openWindow (h : LinkBounded s) (p : Phase) : LinkBounded (openWindow p s) :=
  openWindow_keeps h (fun _ h => h.keep (by simp [h.queue]) (by simp) (by simp)) (fun _ h => h) (fun _ _ _ h => h)
    (fun _ _ h => h) (fun _ h => h.keep (by simp [h.queue]) (by simp) (by simp))

theorem LinkBounded.completeLeg (h : LinkBounded s) : LinkBounded (completeLeg s) := by
  unfold Machine.completeLeg reportBroadcast countRepeat
  dsimp only
  repeat' split
  all_goals exact h.keep (by simp [h.queue]) (by simp) (by simp)

theorem LinkBounded.takeOverCurrent (h : LinkBounded s) (time : Nat) : LinkBounded (takeOverCurrent time s) := by
  unfold Machine.takeOverCurrent markLeg
  dsimp only
  repeat' split
  all_goals exact h.keep (by simp [h.queue]) (by simp) (by simp)

/-! ## The link -/

theorem LinkBounded.discardRecord (h : LinkBounded s) (x : LinkLoss) : LinkBounded (discardRecord x s) :=
  h.keep (by simp [h.queue]) (by simp) (by simp)

/-- A complete record joins the request buffer where it has room. -/
theorem LinkBounded.acceptRecord (h : LinkBounded s) (q : Request) : LinkBounded (acceptRecord q s) := by
  obtain ⟨hqueue, -, hprobes⟩ := (linkBounded_iff s).1 h
  unfold Machine.acceptRecord
  dsimp only
  split
  · next hroom => exact (linkBounded_iff _).2 ⟨hqueue, by simpa [Config.bufferLimit] using hroom, hprobes⟩
  split
  · exact h
  · exact LinkBounded.discardRecord h .unanswered

theorem LinkBounded.receiveChar (h : LinkBounded s) (ch : Character) : LinkBounded (receiveChar ch s) := by
  unfold Machine.receiveChar Machine.receive
  repeat' split
  any_goals exact h.discardRecord _
  any_goals exact h.acceptRecord _
  all_goals exact h

/-- A notice sent leaves the queue's head. -/
theorem LinkBounded.startRecord (h : LinkBounded s) : LinkBounded (startRecord s) := by
  unfold Machine.startRecord
  split
  · exact h
  · next n rest _ hn =>
    split
    · exact h.keep (QueueOk.tail (hn ▸ h.queue)) le_rfl le_rfl
    · exact h
  · exact h

theorem LinkBounded.afterRecord (h : LinkBounded s) (a : AfterSent) : LinkBounded (afterRecord a s) := by
  cases a with
  | softReset => exact (linkBounded_iff _).2 ⟨performSoftReset_ok s, by simp [Machine.afterRecord, performSoftReset],
      by simp [Machine.afterRecord, performSoftReset, Machine.resetBlocks]⟩
  | rate r =>
    exact h.keep (by simp [Machine.afterRecord, h.queue]) (by simp [Machine.afterRecord]) (by simp [Machine.afterRecord])
  | nothing | wipeDone => exact h

theorem LinkBounded.endRecord (h : LinkBounded s) : LinkBounded (endRecord s) := by
  unfold Machine.endRecord
  split
  · exact h
  · exact LinkBounded.afterRecord (s := { s with link := { s.link with sending := none } }) h _

/-! ## The store -/

theorem LinkBounded.noteStore (h : LinkBounded s) (pos : Position) (f : Found) (r : DamageResult) (w : Nat) :
    LinkBounded (noteStore pos f r w s) :=
  h.keep (by simp [h.queue]) (by simp) (by simp)

theorem LinkBounded.withdrawProbes (h : LinkBounded s) (i : Nat) : LinkBounded (withdrawProbes i s) :=
  h.keep (by simp [h.queue]) (by simp) (by simpa using List.length_filter_le _ _)

theorem LinkBounded.damageReceiver (h : LinkBounded s) (i : Nat) (a : Option Receiver) :
    LinkBounded (damageReceiver i a s) := by
  have hplaced : LinkBounded (askWrite (.receiver i a) false (s.placeReceiver i a)) :=
    h.keep (by simp [h.queue]) (by simp) (by simp)
  have hgone := hplaced.withdrawProbes i
  unfold Machine.damageReceiver
  exact hgone.keep (by simp [hgone.queue]) (by simp) (by simp)

theorem LinkBounded.receiverDamage (h : LinkBounded s) (i : Nat) (f : Found) (ws : Words) :
    LinkBounded (receiverDamage i f ws s) := by
  unfold Machine.receiverDamage
  dsimp only
  split
  · split
    · exact LinkBounded.noteStore (h.keep (by simp [h.queue]) (by simp) (by simp)) ..
    · exact (h.damageReceiver ..).noteStore ..
  · split
    · exact LinkBounded.noteStore (h.keep (by simp [h.queue]) (by simp) (by simp)) ..
    · exact (h.damageReceiver ..).noteStore ..

theorem LinkBounded.noteDefaults (h : LinkBounded s) (f : Found) (w : Nat) (a : AfterSent) :
    LinkBounded (noteDefaults f w a s) := by
  unfold Machine.noteDefaults
  dsimp only
  split
  · exact h.keep (by simp [h.queue]) (by simp) (by simp)
  · exact LinkBounded.afterRecord (h.keep (by simp [h.queue]) (by simp) (by simp)) _

theorem LinkBounded.handleDamage (h : LinkBounded s) (pos : Position) (f : Found) (ws : Words) :
    LinkBounded (handleDamage pos f ws s) := by
  cases pos with
  | config => exact LinkBounded.noteDefaults (h.keep (by simp [h.queue]) (by simp) (by simp)) ..
  | savedCount => exact h.keep (by simp [h.queue]) (by simp [Machine.handleDamage]) (by simp [Machine.handleDamage])
  | order => exact h.keep (by simp [h.queue]) (by simp [Machine.handleDamage]) (by simp [Machine.handleDamage])
  | receiver i => exact h.receiverDamage ..

theorem LinkBounded.readPosition (h : LinkBounded s) (pos : Position) (f : Found) (e : ReadErrors) :
    LinkBounded (readPosition pos f e s) := by
  unfold Machine.readPosition
  dsimp only
  split
  · exact h
  · exact LinkBounded.handleDamage (s := { s with store := s.store.readBack e pos }) h _ _ _

theorem LinkBounded.scrub (h : LinkBounded s) (e : ReadErrors) : LinkBounded (scrub e s) := by
  unfold Machine.scrub
  refine LinkBounded.readPosition ?_ _ _ _
  exact h

theorem LinkBounded.writeRecord (h : LinkBounded s) (e : ReadErrors) : LinkBounded (writeRecord e s) := by
  unfold Machine.writeRecord
  split
  · exact h
  · dsimp only
    split
    · refine LinkBounded.readPosition ?_ _ _ _
      exact h
    · exact h

/-! ## Power-on and the WIPE -/

theorem restoreOrder_linkBounded (h : LinkBounded s) (e : List PositionErrors) (n : Nat) :
    LinkBounded (restoreOrder e s n) := by
  unfold restoreOrder noteRead
  dsimp only
  repeat' split
  all_goals exact h.keep (by simp [h.queue]) (by simp) (by simp)

theorem numberDamaged_linkBounded (h : LinkBounded s) (n : Nat) : LinkBounded (numberDamaged s n) := by
  unfold numberDamaged
  dsimp only
  repeat' split
  all_goals exact h.keep (by simp [h.queue]) (by simp) (by simp)

theorem restoreReceiver_linkBounded (h : LinkBounded s) (e : List PositionErrors) (i : Nat) :
    LinkBounded (restoreReceiver e s i) := by
  unfold restoreReceiver noteRead
  dsimp only
  repeat' split
  all_goals exact h.keep (by simp [h.queue]) (by simp) (by simp)

theorem restoreConfig_linkBounded (h : LinkBounded s) : LinkBounded (restoreConfig s) := by
  unfold restoreConfig
  dsimp only
  repeat' split
  all_goals exact h.keep (by simp [h.queue]) (by simp) (by simp)

theorem restoreCount_linkBounded (h : LinkBounded s) (w : Bool) : LinkBounded (restoreCount w s) := by
  unfold restoreCount
  dsimp only
  repeat' split
  all_goals exact h.keep (by simp [h.queue]) (by simp) (by simp)

theorem restoreOrders_linkBounded (h : LinkBounded s) (e : List PositionErrors) : LinkBounded (restoreOrders e s) := by
  have horders : LinkBounded ((orderReads s.store e).foldl (restoreOrder e) s) :=
    foldl_keeps (P := LinkBounded) (fun t n ht => restoreOrder_linkBounded ht e n) _ h
  have hsequence : LinkBounded (restoreSequence ((orderReads s.store e).foldl (restoreOrder e) s)) := horders
  unfold restoreOrders
  exact foldl_keeps (P := LinkBounded) (fun t n ht => numberDamaged_linkBounded ht n) _ hsequence

theorem restoreReceivers_linkBounded (h : LinkBounded s) (e : List PositionErrors) :
    LinkBounded (restoreReceivers e s) := by
  unfold restoreReceivers
  exact foldl_keeps (P := LinkBounded) (fun t i ht => restoreReceiver_linkBounded ht e i) _ h

/-- After power-on the queues are empty but for what the restore notices (R190). -/
theorem powerOn_linkBounded (e : List PositionErrors) (s : State) : LinkBounded (powerOn e s) := by
  have hblocks : LinkBounded (blocksRestored e s) :=
    (linkBounded_iff _).2 (by simp [blocksRestored, blocksAtPowerOn, HostLink.powerOn, Scheduler.powerOn])
  have hcount : LinkBounded (countRestored e s) :=
    restoreCount_linkBounded (s := noteRead .savedCount (errorsAt e .savedCount) (restoreConfig (blocksRestored e s)))
      (restoreConfig_linkBounded hblocks) _
  rw [powerOn_eq]
  split
  · exact LinkBounded.noteStore (s := { countRestored e s with
      store := { (countRestored e s).store with wiping := some .resumed, restoring := false } }) hcount _ _ _ _
  · exact restoreReceivers_linkBounded (restoreOrders_linkBounded hcount _) _

theorem LinkBounded.wipeConfig (h : LinkBounded s) (e : ReadErrors) : LinkBounded (wipeConfig e s) := by
  unfold Machine.wipeConfig
  dsimp only
  split
  · exact h
  · exact h.keep (by simp [h.queue]) (by simp) (by simp)

/-- A WIPE empties the queues first (R164). -/
theorem beginWipe_linkBounded (q : Request) (e : ReadErrors) (s : State) : LinkBounded (beginWipe q e s) := by
  unfold beginWipe
  refine LinkBounded.wipeConfig ((linkBounded_iff _).2 ?_) e
  simp [wipeRecords, resetBlocks, wipeLink]

theorem endWipe_linkBounded (h : LinkBounded s) (w : WipeState) : LinkBounded (endWipe w s) := by
  unfold endWipe wipeReply
  split <;> exact h.keep h.queue le_rfl le_rfl

/-! ## The owners of the requests -/

theorem moveTimes_linkBounded (h : LinkBounded s) (j : Count) : LinkBounded (moveTimes j s) := by
  unfold moveTimes
  refine foldl_keeps (P := LinkBounded) (fun t x ht => ?_) _ (h.keep (by simp [h.queue]) (by simp) (by simp))
  split
  · exact ht
  · exact ht.keep (by simp [ht.queue]) (by simp) (by simp)

theorem moveFlight_linkBounded (h : LinkBounded s) (d : Int) : LinkBounded (moveFlight d s) := by
  unfold moveFlight
  repeat' split
  all_goals exact h.keep (by simp [h.queue]) (by simp) (by simp)

theorem setCount_linkBounded (h : LinkBounded s) (x : Count) : LinkBounded (setCount x s) := by
  unfold setCount
  exact h.keep (by simp [h.queue]) (by simp) (by simp)

theorem closingStep_linkBounded (h : LinkBounded s) : LinkBounded (closingStep s) :=
  h.keep (by simp [h.queue]) (by simp) (by simp)

theorem makeRoom_linkBounded (h : LinkBounded s) : LinkBounded (makeRoom s) := by
  unfold makeRoom
  repeat' split
  all_goals exact h.keep (by simp [h.queue]) (by simp) (by simp)

theorem removeReceiver_linkBounded (h : LinkBounded s) (i : Nat) (r : Receiver) :
    LinkBounded (removeReceiver i r s) :=
  h.keep (by simp [removeReceiver, stalePaths, h.queue]) (by simp [removeReceiver, stalePaths])
    (by simpa [removeReceiver, stalePaths] using List.length_filter_le _ _)

theorem addReceiver_linkBounded (h : LinkBounded s) (r : Receiver) (joined : List (Nat × Order)) :
    LinkBounded (addReceiver r joined s).state := by
  unfold addReceiver
  exact foldl_keeps (P := LinkBounded) (fun t x ht => ht.keep (by simp [joinOrder, ht.queue]) (by simp [joinOrder])
    (by simp [joinOrder])) _ (h.keep (by simp [h.queue]) (by simp) (by simp))

theorem LinkBounded.handleParamWrite (h : LinkBounded s) (q : Request) (v : ParamValue) :
    LinkBounded (handleParamWrite q v s).state :=
  handleParamWrite_keeps h fun p ps _ => h.keep (by simp [h.queue]) (by simp) (by simp)

end

/-- Settles O3: the operations above keep the law, and a request or an event that queues no notice keeps it too. -/
theorem queuesStayBounded : Obligations.QueuesStayBounded := by
  intro c s t h hstep
  refine Answers.of_eq (?_ : Answers LinkBounded (exec c s)) hstep
  have hq := h.queue
  cases c with
  | powerOn e => exact answers_next (powerOn_linkBounded e s)
  | powerLoss w k => exact answers_when h fun _ => h
  | restoreComplete =>
    exact answers_when h fun _ =>
      h.keep (by simp [completeRestore, hq]) (by simp [completeRestore]) (by simp [completeRestore])
  | zcEdge | windowClose | derivedCrossing | crystalAdvance | acquireLock | silenceTimeout | missLimit | returnLock
  | coastTimeout =>
    exact answers_when h fun _ => h.keep (by simp [hq]) (by simp) (by simp)
  | settleEnd | beaconTimerExpiry | saveCadence | coolDownEnd | capRecovery =>
    exact answers_when h fun _ => h.keep (by simp [hq]) (by simp) (by simp)
  | scrubRead e => exact answers_when h fun _ => h.scrub e
  | recordWrite e => exact answers_when h fun _ => h.writeRecord e
  | orderActivate =>
    exact answers_when h fun _ => h.keep (by simp [hq]) (by simp) (by simp)
  | decisionPoint => exact answers_when h fun _ => h.decideLine
  | cellWindow p => exact answers_when h fun _ => h.openWindow p
  | legComplete => exact answers_when h fun _ => h.completeLeg
  | overCurrent time => exact answers_when h fun _ => h.takeOverCurrent time
  | orderSeal n =>
    show Answers _ (execOrderSeal n s)
    unfold execOrderSeal
    repeat' split
    all_goals exact answers_next (h.keep (by simp [hq]) (by simp) (by simp))
  | notSent n =>
    show Answers _ (execNotSent n s)
    unfold execNotSent
    split
    · exact answers_next h
    · exact answers_when h fun _ => h.keep (by simp [hq]) (by simp) (by simp)
  | relaySpanOpen | relaySpanEnd | answerWindowOpen => exact answers_when h fun _ => h
  | answerReport => exact answers_when h fun _ => h.keep (by simp [hq]) (by simp) (by simp)
  | recordComplete | lengthDiscard | crcDiscard | byteReceived => exact answers_when h fun _ => h.receiveChar _
  | framingDiscard | gapDiscard => exact answers_when h fun _ => h.discardRecord _
  | transmitStart => exact answers_when h fun _ => h.startRecord
  | rateSwitch | softResetPerform | recordSent => exact answers_when h fun _ => h.endRecord
  | unknownKind => exact h.takeRequest fun _ _ h => h
  | ident | status | timeRead => exact h.takeKind fun _ _ _ h => h
  | paramRead => exact h.takeKind fun _ _ _ h => by rwa [handleParamRead_state]
  | paramWrite => exact h.takeKind fun q v _ h => h.handleParamWrite q v
  | writeNominalFreq | writeRefPhase | writePhaseEnable | writeZcFilter | writeZcEdge | writeSettleCount
  | writeBeaconInterval | writeCarrierPrimary | writeCarrierAlternate | writeLevelMax | writeMinMargin | writeLevelBase
  | writeQTarget | writeLevelBroadcast | writeRetryMax | writeRelayAfter | writeRepeatSpacing | writeLinkRate
  | writeNoticeMode | writeStationId | writeNoticeLevels =>
    exact h.takeRequest fun q _ h => readThen_keeps h fun v => h.handleParamWrite q v
  | resetSoft =>
    exact h.takeRequest fun q s h => readThen_keeps h fun _ => handleReset_keeps h (h.keep (by simp) (by simp) (by simp))
  | resetWipe e =>
    show Answers _ (execResetWipe e s)
    unfold execResetWipe
    split
    · exact answers_next h
    · exact answers_when h fun _ => beginWipe_linkBounded _ _ _
  | wipeEnd =>
    show Answers _ (execWipeEnd s)
    unfold execWipeEnd
    split
    · exact answers_next h
    · exact answers_when h fun _ => endWipe_linkBounded h _
  | noticeFetch =>
    exact h.takeKind fun _ _ _ h => handleNoticeFetch_keeps h fun n rest hn =>
      h.keep (QueueOk.tail (hn ▸ h.queue)) (by simp [takeNotice]) (by simp [takeNotice])
  | countSet =>
    exact h.takeKind fun _ _ _ h => handleCountSet_keeps h <|
      closingStep_linkBounded (moveTimes_linkBounded (moveFlight_linkBounded (setCount_linkBounded h _) _) _)
  | orderAdd =>
    exact h.takeKind fun _ _ _ h => handleOrderAdd_keeps h fun _ _ _ =>
      have hroom := makeRoom_linkBounded h
      hroom.keep (by simp [placeAdmitted, taken, hroom.queue]) (by simp [placeAdmitted, taken])
        (by simp [placeAdmitted, taken])
  | orderCancel =>
    exact h.takeKind fun _ _ _ h => withOrder_keeps h fun _ _ _ =>
      cancelOrder_keeps h (h.keep (by simp [h.queue]) (by simp) (by simp)) fun _ _ =>
        h.keep (by simp [h.queue]) (by simp) (by simp)
  | orderRead => exact h.takeKind fun _ _ _ h => withOrder_keeps h fun _ _ _ => h
  | orderList => exact h.takeKind fun _ _ _ h => by rwa [handleOrderList_state]
  | orderClear =>
    exact h.takeKind fun _ _ _ h => withOrder_keeps h fun _ _ _ =>
      clearOrder_keeps h (h.keep (by simp [h.queue]) (by simp) (by simp))
  | rxAdd => exact h.takeKind fun _ _ _ h => handleRxAdd_keeps h fun _ _ => addReceiver_linkBounded h _ _
  | rxUpdate =>
    exact h.takeKind fun _ _ _ h => handleRxUpdate_keeps h fun _ _ _ _ _ => h.keep (by simp [h.queue]) (by simp) (by simp)
  | rxRemove =>
    exact h.takeKind fun _ _ _ h => withReceiver_keeps h fun i r _ => by
      rw [handleRxRemove_state]
      exact removeReceiver_linkBounded h i r
  | rxRead => exact h.takeKind fun _ _ _ h => withReceiver_keeps h fun _ _ _ => h
  | rxList => exact h.takeKind fun _ _ _ h => by rwa [handleRxList_state]
  | probe =>
    exact h.takeKind fun _ _ _ h => handleProbe_keeps h fun _ hroom => by
      obtain ⟨hqueue, hbuffer, -⟩ := (linkBounded_iff _).1 h
      exact (linkBounded_iff _).2 ⟨hqueue, hbuffer, by simpa using hroom⟩

end Sys2Proof.Safety
end

