-- ==== Sys2Proof/Proofs/RecordLaws.lean ====
section
/-! PROOFS. The laws of the records, positions of their own (R62, R83) and sound delivery lists (R65, R80), at every shared
operation. Both laws follow the same operations, so they are carried together, each under a condition of its own; what an
operation must bring for a law is asked for under that condition alone. -/

namespace Sys2Proof.Safety

open Sys2Proof.Machine

/-! ## One record -/

/-- A record without some of its entries, or with other fields, keeps a sound list. -/
theorem ListSound.of_sublist {r r' : Receiver} (h : ListSound r)
    (hs : (r'.entries.map (·.slot)).Sublist (r.entries.map (·.slot))) (hd : r'.damaged = r.damaged) : ListSound r' := by
  obtain ⟨hnodup, hempty⟩ := h
  refine ⟨hnodup.sublist hs, fun hdam => ?_⟩
  have hnil := hempty (hd ▸ hdam)
  rw [hnil] at hs
  simpa using hs

theorem ListSound.of_same {r r' : Receiver} (h : ListSound r) (he : r'.entries = r.entries) (hd : r'.damaged = r.damaged) :
    ListSound r' := h.of_sublist (by rw [he]) hd

theorem listSound_of_nil {r : Receiver} (h : r.entries = []) : ListSound r := ⟨by simp [h], fun _ => h⟩

/-- Entries filtered out of a list. -/
theorem ListSound.filter {r : Receiver} (h : ListSound r) (p : Entry → Bool) :
    ListSound { r with entries := r.entries.filter p } :=
  h.of_sublist (List.filter_sublist.map _) rfl

theorem ListSound.dropEntry {r : Receiver} (h : ListSound r) (k : Nat) : ListSound (r.dropEntry k) := h.filter _

/-- An entry changed but for its slot. -/
theorem ListSound.mapEntry {r : Receiver} (h : ListSound r) (k : Nat) {g : Entry → Entry} (hg : ∀ e, (g e).slot = e.slot) :
    ListSound (r.mapEntry k g) := by
  refine h.of_sublist ?_ rfl
  have : ((r.mapEntry k g).entries.map (·.slot)) = r.entries.map (·.slot) := by
    simp only [Receiver.mapEntry, List.map_map, List.map_inj_left]
    intro e _
    by_cases he : e.slot = k <;> simp [he, hg]
  rw [this]

/-- A NORMAL record given a fresh entry in place of any older one. -/
theorem ListSound.giveEntry {r : Receiver} (h : ListSound r) (k : Nat) (l : Count) (hn : r.damaged = false) :
    ListSound (r.giveEntry k l) := by
  refine ⟨?_, fun hd => absurd (hn.symm.trans hd) (by simp)⟩
  have hrest := (h.filter (·.slot != k)).1
  simp only [Receiver.giveEntry, List.map_append, List.map_cons, List.map_nil]
  refine hrest.append (List.nodup_singleton k) ?_
  simp only [List.disjoint_singleton, List.mem_map, List.mem_filter]
  rintro ⟨e, ⟨-, he⟩, hk⟩
  simp [hk] at he

theorem ListSound.moveTries {r : Receiver} (h : ListSound r) (j : Count) : ListSound (r.moveTries j) :=
  h.of_sublist (by simp [Receiver.moveTries, Function.comp_def]) rfl

@[simp] theorem learn_lists (r : Receiver) (b : Build) (out : Outcome) :
    (learn r b out).entries = r.entries ∧ (learn r b out).damaged = r.damaged := by
  unfold learn learnPhase learnCarrier Receiver.carrierFailure
  dsimp only
  repeat' split
  all_goals exact ⟨rfl, rfl⟩

@[simp] theorem updateReported_lists (r : Receiver) (out : Outcome) (heard : Count) :
    (updateReported r out heard).entries = r.entries ∧ (updateReported r out heard).damaged = r.damaged := by
  unfold updateReported
  repeat' split
  all_goals exact ⟨rfl, rfl⟩

@[simp] theorem onto_lists (u : RxUpdate) (r : Receiver) :
    (u.onto r).entries = r.entries ∧ (u.onto r).damaged = r.damaged := by
  unfold RxUpdate.onto
  dsimp only
  repeat' split
  all_goals exact ⟨rfl, rfl⟩

theorem ListSound.applyToEntry {r : Receiver} (h : ListSound r) (k m a : Nat) (ended : Count) (v : Verdict) :
    ListSound (applyToEntry r k m a ended v) := by
  cases v with
  | confirmed | refused => exact h.dropEntry k
  | failed last =>
    unfold Machine.applyToEntry
    dsimp only
    split
    · exact h.dropEntry k
    · exact h.mapEntry k fun _ => rfl
  | aborted => exact h.mapEntry k fun _ => rfl

theorem ListSound.deliveredRecord {r : Receiver} (h : ListSound r) (s : State) (d : DeliveryRecord) (ended : Count)
    (out : Outcome) : ListSound (deliveredRecord s d ended out r) := by
  have hlearn : ListSound (learn r d.build out) := h.of_same (learn_lists ..).1 (learn_lists ..).2
  have hstate : ListSound (updateReported (learn r d.build out) out ended) :=
    hlearn.of_same (updateReported_lists ..).1 (updateReported_lists ..).2
  unfold Machine.deliveredRecord
  split
  · exact (hstate.applyToEntry ..).filter _
  · exact hlearn

/-- The entries of a new record name the slots of the orders it is joined to, each once. -/
theorem entriesFor_slots (s : State) (p : Nat × Order → Bool) (l : Count) :
    ((entriesFor (s.slotOrders.filter p) l).map (·.slot)).Nodup := by
  have hslots (ks : List Nat) : ((entriesFor ((ks.filterMap s.orderInSlot).filter p) l).map (·.slot)).Sublist ks := by
    induction ks with
    | nil => simp [entriesFor]
    | cons k ks ih =>
      cases hk : s.orderInSlot k with
      | none => simpa [hk] using ih.cons k
      | some no =>
        have hhold : no.2.holds k = true := by simpa using List.find?_some hk
        obtain ⟨f, hf, hslot⟩ := (Option.any_eq_true ..).1 hhold
        have hslot : f.slot = k := by simpa using hslot
        by_cases hp : p no = true
        · simpa [hk, hp, entriesFor, hf, hslot] using ih.cons_cons k
        · simpa [hk, hp] using ih.cons k
  exact List.nodup_range.sublist (hslots _)

/-! ## The laws as one predicate -/

/-- The positions of the records, where `c` asks for them, and their lists, where `l` does. -/
def RecordsKept (c l : Prop) (s : State) : Prop := (c → Canonical s) ∧ (l → ListsSound s)

theorem canonical_iff (s : State) : Canonical s ↔
    Placed 32 s.orders.orders ∧ Placed 512 s.table ∧ s.store.placed ∧
      (∀ w ∈ s.store.writes, w.content.position.wf = true) ∧ s.store.scrubNext < 546 := by
  simp only [Canonical, RetainedStore.placed]
  tauto

/-- What the words of the store give is sound whatever they are. -/
theorem listsSound_iff (s : State) : ListsSound s ↔
    (∀ x ∈ s.table, ListSound x.2) ∧ ∀ w ∈ s.store.writes, ∀ i r, w.content = .receiver i (some r) → ListSound r :=
  ⟨fun h => ⟨h.1, h.2.2⟩, fun h => ⟨h.1, fun _ _ _ hr => receiverOf_sound hr, h.2⟩⟩

section
variable {c l : Prop} {s t : State}

theorem RecordsKept.orderAt (h : RecordsKept c l s) {x : Nat × Order} (hx : x ∈ s.orders.orders) : c → x.1 < 32 :=
  fun hc => (h.1 hc).1.2 x hx

theorem RecordsKept.recordAt (h : RecordsKept c l s) {x : Nat × Receiver} (hx : x ∈ s.table) :
    (c → x.1 < 512) ∧ (l → ListSound x.2) :=
  ⟨fun hc => (h.1 hc).2.1.2 x hx, fun hl => (h.2 hl).1 x hx⟩

/-- The laws rest on the orders, the table and the store. -/
theorem RecordsKept.congr (h : RecordsKept c l s) (ho : t.orders.orders = s.orders.orders) (ht : t.table = s.table)
    (hs : t.store = s.store) : RecordsKept c l t := by
  unfold RecordsKept Canonical ListsSound
  rw [ho, ht, hs]
  exact h

theorem linkFree_recordsKept : LinkFree (RecordsKept c l) := fun _ _ h => h.congr rfl rfl rfl

/-- A change of the orders. -/
theorem RecordsKept.withOrders (h : RecordsKept c l s) (ho : c → Placed 32 t.orders.orders) (ht : t.table = s.table)
    (hs : t.store = s.store) : RecordsKept c l t := by
  refine ⟨fun hc => ?_, fun hl => ?_⟩
  · obtain ⟨-, hrest⟩ := h.1 hc
    unfold Canonical
    rw [ht, hs]
    exact ⟨ho hc, hrest⟩
  · unfold ListsSound
    rw [ht, hs]
    exact h.2 hl

/-- A change of the table. -/
theorem RecordsKept.withTable (h : RecordsKept c l s) (ho : t.orders.orders = s.orders.orders)
    (ht : c → Placed 512 t.table) (hl : l → ∀ x ∈ t.table, ListSound x.2) (hs : t.store = s.store) :
    RecordsKept c l t := by
  refine ⟨fun hc => ?_, fun hl' => ?_⟩
  · obtain ⟨horders, -, hrest⟩ := h.1 hc
    unfold Canonical
    rw [ho, hs]
    exact ⟨horders, ht hc, hrest⟩
  · unfold ListsSound
    rw [hs]
    exact ⟨hl hl', (h.2 hl').2⟩

/-- A change of the store. -/
theorem RecordsKept.withStore (h : RecordsKept c l s) (ho : t.orders.orders = s.orders.orders) (ht : t.table = s.table)
    (hp : c → s.store.placed → t.store.placed) (hw : ∀ w ∈ t.store.writes, w ∈ s.store.writes)
    (hn : c → s.store.scrubNext < 546 → t.store.scrubNext < 546) : RecordsKept c l t := by
  refine ⟨fun hc => ?_, fun hl => ?_⟩
  · obtain ⟨horders, htable, hstore, hwrites, hscrub⟩ := (canonical_iff s).1 (h.1 hc)
    exact (canonical_iff t).2 ⟨ho ▸ horders, ht ▸ htable, hp hc hstore, fun w hm => hwrites w (hw w hm), hn hc hscrub⟩
  · obtain ⟨htable, hwrites⟩ := (listsSound_iff s).1 (h.2 hl)
    exact (listsSound_iff t).2 ⟨ht ▸ htable, fun w hm => hwrites w (hw w hm)⟩

/-- Writes asked. -/
theorem RecordsKept.withWrites (h : RecordsKept c l s) (ws : List PendingWrite)
    (hp : ∀ w ∈ ws, c → w.content.position.wf = true)
    (hr : ∀ w ∈ ws, ∀ i r, w.content = .receiver i (some r) → l → ListSound r) :
    RecordsKept c l { s with store := { s.store with writes := s.store.writes ++ ws } } := by
  refine ⟨fun hc => ?_, fun hl => ?_⟩
  · obtain ⟨horders, htable, hstore, hwrites, hscrub⟩ := (canonical_iff s).1 (h.1 hc)
    refine (canonical_iff _).2 ⟨horders, htable, hstore, fun w hm => ?_, hscrub⟩
    rcases List.mem_append.1 hm with hm | hm
    · exact hwrites w hm
    · exact hp w hm hc
  · obtain ⟨htable, hwrites⟩ := (listsSound_iff s).1 (h.2 hl)
    refine (listsSound_iff _).2 ⟨htable, fun w hm i r hc => ?_⟩
    rcases List.mem_append.1 hm with hm | hm
    · exact hwrites w hm i r hc
    · exact hr w hm i r hc hl

/-- The laws are kept where a write is asked of a position that the store has. -/
theorem RecordsKept.askWrite (h : RecordsKept c l s) {w : WriteContent} (v : Bool) (hp : c → w.position.wf = true)
    (hr : ∀ i r, w = .receiver i (some r) → l → ListSound r) : RecordsKept c l (askWrite w v s) := by
  unfold Machine.askWrite
  split
  · exact h
  · exact h.withWrites _ (by simpa using hp) (by simpa using hr)

/-! ## Orders -/

theorem RecordsKept.setOrder (h : RecordsKept c l s) {n : Nat} (o : Order) (hn : c → n < 32) :
    RecordsKept c l (s.setOrder n o) := by
  refine h.withOrders (fun hc => ?_) rfl rfl
  obtain ⟨hrise, hlow⟩ := (h.1 hc).1
  refine ⟨rising_insertAt n o hrise, fun x hx => ?_⟩
  rcases mem_insertAt hx with rfl | hx
  · exact hn hc
  · exact hlow x hx

theorem RecordsKept.eraseOrder (h : RecordsKept c l s) (n : Nat) :
    RecordsKept c l { s with orders := { s.orders with orders := eraseAt s.orders.orders n } } := by
  refine h.withOrders (fun hc => ?_) rfl rfl
  obtain ⟨hrise, hlow⟩ := (h.1 hc).1
  exact ⟨rising_eraseAt n hrise, fun x hx => hlow x (mem_eraseAt hx)⟩

theorem RecordsKept.askOrder (h : RecordsKept c l s) {n : Nat} (o : Option Order) (v : Bool) (hn : c → n < 32) :
    RecordsKept c l (Machine.askWrite (.order n o) v s) :=
  h.askWrite v (fun hc => by simpa [WriteContent.position, Position.wf] using hn hc) (by simp)

theorem RecordsKept.putOrder (h : RecordsKept c l s) {n : Nat} (o : Order) (hn : c → n < 32) :
    RecordsKept c l (putOrder n o s) := (h.setOrder o hn).askOrder _ _ hn

theorem RecordsKept.dropOrder (h : RecordsKept c l s) {n : Nat} (hn : c → n < 32) : RecordsKept c l (dropOrder n s) :=
  (h.eraseOrder n).askOrder _ _ hn

theorem RecordsKept.placeOrder (h : RecordsKept c l s) {n : Nat} (o : Option Order) (hn : c → n < 32) :
    RecordsKept c l (s.placeOrder n o) := by
  cases o with
  | none => exact h.eraseOrder n
  | some o => exact h.setOrder o hn

theorem RecordsKept.orderAt_of_order (h : RecordsKept c l s) {n : Nat} {o : Order} (hn : s.order n = some o) :
    c → n < 32 := h.orderAt (mem_of_lookup hn)

theorem RecordsKept.orderAt_of_slot (h : RecordsKept c l s) {k n : Nat} {o : Order} (hk : s.orderInSlot k = some (n, o)) :
    c → n < 32 := h.orderAt (List.mem_of_find?_eq_some hk)

theorem RecordsKept.orderAt_of_slotOrders (h : RecordsKept c l s) {x : Nat × Order} (hx : x ∈ s.slotOrders) :
    c → x.1 < 32 := by
  obtain ⟨k, -, hk⟩ := List.mem_filterMap.1 hx
  exact h.orderAt (List.mem_of_find?_eq_some hk)

theorem RecordsKept.changeOrder (h : RecordsKept c l s) (n : Nat) (g : Order → Order) :
    RecordsKept c l (changeOrder n g s) := by
  unfold Machine.changeOrder
  split
  · exact h
  · next hn => exact h.putOrder _ (h.orderAt_of_order hn)

theorem RecordsKept.countFor (h : RecordsKept c l s) (k : Nat) (g : Counters → Counters) :
    RecordsKept c l (countFor k g s) := by
  unfold Machine.countFor
  split
  · exact h
  · next hk => exact h.putOrder _ (h.orderAt_of_slot hk)

theorem RecordsKept.countConfirmed (h : RecordsKept c l s) (ks : List Nat) :
    RecordsKept c l (ks.foldl (fun s k => Machine.countFor k Counters.confirm s) s) :=
  foldl_keeps (P := RecordsKept c l) (fun _ k ht => ht.countFor k _) _ h

/-! ## Receivers -/

theorem RecordsKept.setReceiver (h : RecordsKept c l s) {i : Nat} {r : Receiver} (hi : c → i < 512)
    (hr : l → ListSound r) : RecordsKept c l (s.setReceiver i r) := by
  refine h.withTable rfl (fun hc => ?_) (fun hl x hx => ?_) rfl
  · obtain ⟨hrise, hlow⟩ := (h.1 hc).2.1
    refine ⟨rising_insertAt i r hrise, fun x hx => ?_⟩
    rcases mem_insertAt hx with rfl | hx
    · exact hi hc
    · exact hlow x hx
  · rcases mem_insertAt hx with rfl | hx
    · exact hr hl
    · exact (h.2 hl).1 x hx

theorem RecordsKept.eraseReceiver (h : RecordsKept c l s) (i : Nat) :
    RecordsKept c l { s with table := eraseAt s.table i } := by
  refine h.withTable rfl (fun hc => ?_) (fun hl x hx => (h.2 hl).1 x (mem_eraseAt hx)) rfl
  obtain ⟨hrise, hlow⟩ := (h.1 hc).2.1
  exact ⟨rising_eraseAt i hrise, fun x hx => hlow x (mem_eraseAt hx)⟩

theorem RecordsKept.askReceiver (h : RecordsKept c l s) {i : Nat} {r : Option Receiver} (v : Bool) (hi : c → i < 512)
    (hr : ∀ x, r = some x → l → ListSound x) : RecordsKept c l (Machine.askWrite (.receiver i r) v s) :=
  h.askWrite v (fun hc => by simpa [WriteContent.position, Position.wf] using hi hc) fun _ x hx =>
    hr x (WriteContent.receiver.inj hx).2

theorem RecordsKept.putReceiver (h : RecordsKept c l s) {i : Nat} {r : Receiver} (hi : c → i < 512)
    (hr : l → ListSound r) : RecordsKept c l (putReceiver i r s) :=
  (h.setReceiver hi hr).askReceiver true hi fun _ hx => Option.some.inj hx ▸ hr

theorem RecordsKept.dropReceiver (h : RecordsKept c l s) {i : Nat} (hi : c → i < 512) :
    RecordsKept c l (dropReceiver i s) :=
  (h.eraseReceiver i).askReceiver true hi (by simp)

theorem RecordsKept.placeReceiver (h : RecordsKept c l s) {i : Nat} {r : Option Receiver} (hi : c → i < 512)
    (hr : ∀ x, r = some x → l → ListSound x) : RecordsKept c l (s.placeReceiver i r) := by
  cases r with
  | none => exact h.eraseReceiver i
  | some r => exact h.setReceiver hi (hr r rfl)

/-- Records chosen and changed, each keeping a sound list. -/
theorem RecordsKept.changeReceivers (h : RecordsKept c l s) {sel : Nat → Receiver → Bool}
    {g : Nat → Receiver → Receiver} (hg : ∀ i r, sel i r = true → ListSound r → ListSound (g i r)) :
    RecordsKept c l (changeReceivers sel g s) := by
  have htable : RecordsKept c l { s with table := mapAll (fun i r => if sel i r then g i r else r) s.table } := by
    refine h.withTable rfl (fun hc => ?_) (fun hl x hx => ?_) rfl
    · obtain ⟨hrise, hlow⟩ := (h.1 hc).2.1
      refine ⟨rising_mapAll (fun i r => if sel i r then g i r else r) hrise, fun x hx => ?_⟩
      obtain ⟨y, hy, rfl⟩ := List.mem_map.1 hx
      exact hlow y hy
    · obtain ⟨y, hy, rfl⟩ := List.mem_map.1 hx
      have hsound := (h.2 hl).1 y hy
      by_cases hsel : sel y.1 y.2 = true
      · simpa [hsel] using hg _ _ hsel hsound
      · simpa [hsel] using hsound
  unfold Machine.changeReceivers
  dsimp only
  split
  · exact htable
  · refine htable.withWrites _ (fun w hw hc => ?_) (fun w hw i r hcontent hl => ?_)
    · obtain ⟨y, hy, rfl⟩ := List.mem_map.1 hw
      have hlow := (h.1 hc).2.1.2 y (List.mem_filter.1 hy).1
      simpa [WriteContent.position, Position.wf] using hlow
    · obtain ⟨y, hy, rfl⟩ := List.mem_map.1 hw
      obtain ⟨hmem, hsel⟩ := List.mem_filter.1 hy
      cases hcontent
      exact hg _ _ hsel ((h.2 hl).1 y hmem)

theorem RecordsKept.dropSlotEntries (h : RecordsKept c l s) (k : Nat) : RecordsKept c l (dropSlotEntries k s) :=
  h.changeReceivers fun _ _ _ hr => hr.dropEntry k

theorem RecordsKept.dropLooseEntries (h : RecordsKept c l s) : RecordsKept c l (dropLooseEntries s) :=
  h.changeReceivers fun _ _ _ hr => hr.filter _

theorem RecordsKept.stalePaths (h : RecordsKept c l s) (a : Option Addr) : RecordsKept c l (stalePaths a s) :=
  h.changeReceivers fun _ _ _ hr => hr.of_same rfl rfl

/-! ## The transitions of orders -/

theorem RecordsKept.bumpSequence (h : RecordsKept c l s) : RecordsKept c l (bumpSequence s) := h.congr rfl rfl rfl

theorem RecordsKept.queueNotice (h : RecordsKept c l s) (k : NoticeKind) (f : Byte) (fs : List Byte) :
    RecordsKept c l (queueNotice k f fs s) := h.congr (by simp) (by simp) (by simp)

theorem RecordsKept.noteClosed (h : RecordsKept c l s) (n : Nat) (o : Order) : RecordsKept c l (noteClosed n o s) :=
  h.congr (by simp) (by simp) (by simp)

theorem RecordsKept.closeNotSent (h : RecordsKept c l s) {n : Nat} (o : Order) (hn : c → n < 32) :
    RecordsKept c l (closeNotSent n o s) := (h.bumpSequence.putOrder _ hn).noteClosed ..

theorem RecordsKept.closeAtSeal (h : RecordsKept c l s) {n : Nat} (o : Order) (f : SlotFields) (hn : c → n < 32) :
    RecordsKept c l (closeAtSeal n o f s) := ((h.dropSlotEntries _).bumpSequence.putOrder _ hn).noteClosed ..

theorem RecordsKept.sealOrder (h : RecordsKept c l s) (n : Nat) : RecordsKept c l (sealOrder s n) := by
  unfold Machine.sealOrder
  split
  · exact h
  next o ho =>
    have hn := h.orderAt_of_order ho
    split
    · split
      · exact h.closeNotSent o hn
      · exact h.closeAtSeal o _ hn
      · exact h.closeAtSeal o _ hn
      · exact h
    · exact h

theorem RecordsKept.closingStep (h : RecordsKept c l s) : RecordsKept c l (closingStep s) := by
  unfold Machine.closingStep
  exact foldl_keeps (P := RecordsKept c l) (fun _ n ht => ht.sealOrder n) _ h

theorem inTarget_normal {t : Target} {r : Receiver} (h : inTarget t r = true) : r.damaged = false := by
  simp only [inTarget, Bool.and_eq_true, Bool.not_eq_true'] at h
  exact h.1

theorem inRoll_normal {roll : List Nat} {i : Nat} {r : Receiver} (h : inRoll roll i r = true) : r.damaged = false := by
  simp only [inRoll, Bool.and_eq_true, Bool.not_eq_true'] at h
  exact h.1

theorem RecordsKept.activate (h : RecordsKept c l s) {n : Nat} (k : Nat) (o : Order) (hn : c → n < 32) :
    RecordsKept c l (activate n k o s) := by
  have hslot (o' : Order) (f : Byte) (fs : List Byte) : RecordsKept c l (Machine.queueNotice .orderActive f fs
      (Machine.changeReceivers (fun _ r => inTarget o.target r)
        (fun _ r => r.giveEntry k (Machine.putOrder n o' s).count) (Machine.putOrder n o' s))) :=
    RecordsKept.queueNotice
      ((h.putOrder o' hn).changeReceivers fun _ _ hsel hr => hr.giveEntry k _ (inTarget_normal hsel)) ..
  unfold Machine.activate
  dsimp only
  repeat' split
  · exact (h.bumpSequence.putOrder _ hn).noteClosed ..
  all_goals exact hslot _ _ _

theorem RecordsKept.activateNext (h : RecordsKept c l s) : RecordsKept c l (activateNext s) := by
  unfold Machine.activateNext
  split
  · exact h.congr rfl rfl rfl
  next n rest _ =>
    split
    · next k o _ ho =>
      exact RecordsKept.activate (s := { s with owed := { s.owed with activation := rest } }) (h.congr rfl rfl rfl) k o
        (h.orderAt_of_order ho)
    · exact h.congr rfl rfl rfl
    · exact h.congr rfl rfl rfl

theorem RecordsKept.activateAll (h : RecordsKept c l s) (fuel : Nat) : RecordsKept c l (activateAll fuel s) := by
  induction fuel generalizing s with
  | zero => exact h
  | succ fuel ih =>
    unfold Machine.activateAll
    split
    · exact h
    · exact ih h.activateNext

theorem RecordsKept.withdraw (h : RecordsKept c l s) {n : Nat} (o : Order) (hn : c → n < 32) :
    RecordsKept c l (withdraw n o s) := by
  unfold Machine.withdraw
  split
  · exact h.dropOrder hn
  · exact (h.dropSlotEntries _).dropOrder hn

theorem RecordsKept.convert (h : RecordsKept c l s) {n : Nat} (o : Order) (f : SlotFields) (hn : c → n < 32) :
    RecordsKept c l (convert n o f s) :=
  (h.changeReceivers fun _ _ hsel hr => hr.giveEntry _ _ (inRoll_normal hsel)).putOrder _ hn

theorem RecordsKept.forgetReceiver (h : RecordsKept c l s) (i : Nat) (g : Nat → Counters → Counters) :
    RecordsKept c l (forgetReceiver i g s) := by
  unfold Machine.forgetReceiver
  refine foldl_keeps (P := RecordsKept c l) (fun t k ht => ?_) _ h
  unfold forgetIn
  split
  · exact ht
  next hk =>
    dsimp only
    split
    · exact ht
    · exact ht.putOrder _ (ht.orderAt_of_slot hk)

theorem RecordsKept.reconcileAll (h : RecordsKept c l s) : RecordsKept c l (reconcileAll s) := by
  unfold Machine.reconcileAll
  refine foldl_keeps (P := RecordsKept c l) (fun t k ht => ?_) _ h
  unfold reconcileSlot
  split
  · exact ht
  next hk =>
    dsimp only
    split
    · exact ht
    · exact ht.putOrder _ (ht.orderAt_of_slot hk)

/-! ## The life of a transmission -/

theorem RecordsKept.recordOf (h : RecordsKept c l s) {i : Nat} {r : Receiver} (hi : s.receiver i = some r) :
    (c → i < 512) ∧ (l → ListSound r) := h.recordAt (mem_of_lookup hi)

theorem RecordsKept.countResult (h : RecordsKept c l s) (k : Nat) (r : EntryResult) :
    RecordsKept c l (countResult k r s) := by
  cases r with
  | confirmed | refused | exhausted => exact h.countFor k _
  | failed | aborted => exact h

theorem RecordsKept.finish (h : RecordsKept c l s) : RecordsKept c l (finishTransmission s) :=
  h.congr (by simp) (by simp) (by simp)

theorem RecordsKept.closeDelivery (h : RecordsKept c l s) (st : Count) (d : DeliveryRecord) (out : Outcome) :
    RecordsKept c l (closeDelivery st d out s) := by
  have hnote {u : State} (hu : RecordsKept c l u) (e : Count) (disp : Disposition) (r : Option EntryResult)
      (a : Option Receiver) : RecordsKept c l (finishTransmission (noteDelivery st e d out disp r a u)) :=
    hu.congr (by simp) (by simp) (by simp)
  unfold Machine.closeDelivery
  dsimp only
  split
  · exact hnote h ..
  split
  · exact hnote h ..
  next r hr =>
    obtain ⟨hi, hsound⟩ := h.recordOf hr
    have hput : RecordsKept c l (Machine.putReceiver d.index
        (deliveredRecord s d (s.endCount st d.build.span out.result) out r) s) :=
      h.putReceiver hi fun hl => (hsound hl).deliveredRecord ..
    split
    · exact hnote ((hput.countResult _ _).countConfirmed _) ..
    · split
      · exact hnote h ..
      · exact hnote hput ..

theorem RecordsKept.closeProbe (h : RecordsKept c l s) (st : Count) (p : ProbeRecord) (out : Outcome) :
    RecordsKept c l (closeProbe st p out s) := by
  have hnote {u : State} (hu : RecordsKept c l u) (e : ProbeEnd) :
      RecordsKept c l (finishTransmission (noteProbe e u)) := hu.congr (by simp) (by simp) (by simp)
  unfold Machine.closeProbe
  dsimp only
  split
  · exact hnote h _
  split
  · exact hnote h _
  next r hr =>
    obtain ⟨hi, hsound⟩ := h.recordOf hr
    split
    · exact hnote h _
    · refine hnote (RecordsKept.countConfirmed (h.putReceiver hi fun hl => ?_) _) _
      exact ((hsound hl).of_same (by simp) (by simp)).filter _

theorem RecordsKept.closeExchange (h : RecordsKept c l s) (out : Outcome) : RecordsKept c l (closeExchange out s) := by
  have hstart : RecordsKept c l { s with engine := { s.engine with state := .closing, outcome := some out } } :=
    h.congr rfl rfl rfl
  unfold Machine.closeExchange
  dsimp only
  split
  · exact hstart.finish
  split
  · exact hstart.closeDelivery ..
  · exact hstart.closeProbe ..
  · exact hstart.finish
  · exact hstart.finish

theorem RecordsKept.abortExchange (h : RecordsKept c l s) (cause : AbortCause) :
    RecordsKept c l (abortExchange cause s) := by
  refine RecordsKept.closeExchange ?_ _
  exact h.congr (by simp) (by simp) (by simp)

theorem RecordsKept.cutBroadcast (h : RecordsKept c l s) (cause : AbortCause) :
    RecordsKept c l (cutBroadcast cause s) := h.congr (by simp) (by simp) (by simp)

theorem RecordsKept.endEarly (h : RecordsKept c l s) (cause : AbortCause) : RecordsKept c l (endEarly cause s) := by
  unfold Machine.endEarly
  split
  · exact h
  split
  · exact h.abortExchange cause
  · exact h.cutBroadcast cause

theorem RecordsKept.losePhase (h : RecordsKept c l s) (p : Phase) : RecordsKept c l (losePhase p s) := by
  have hlive (x : PerPhase Bool) (w : PerPhase (Option CellWindow)) : RecordsKept c l { s with
      engine := { s.engine with live := x }
      driver := { s.driver with windows := w } } := h.congr rfl rfl rfl
  unfold Machine.losePhase
  dsimp only
  split
  · exact h
  split
  · split
    · exact h.abortExchange _
    · exact h
  · split
    · split
      · exact (hlive _ _).cutBroadcast _
      · exact hlive _ _
    · exact h

theorem RecordsKept.settleHandOver (h : RecordsKept c l s) : RecordsKept c l (settleHandOver s) := by
  unfold Machine.settleHandOver
  split
  · exact h
  split
  · next d _ =>
    unfold settleAtReset
    split
    · exact h
    next r hr =>
      obtain ⟨hi, hsound⟩ := h.recordOf hr
      split
      · exact h.putReceiver hi fun hl => (hsound hl).applyToEntry ..
      · exact h
  all_goals exact h

theorem RecordsKept.resetTransmission (h : RecordsKept c l s) : RecordsKept c l (resetTransmission s) := by
  unfold Machine.resetTransmission
  dsimp only
  split
  · exact h
  · refine (RecordsKept.settleHandOver ?_).finish
    split <;> exact h.congr (by simp) (by simp) (by simp)

theorem RecordsKept.markWithdrawn (h : RecordsKept c l s) (i : Nat) : RecordsKept c l (markWithdrawn i s) :=
  h.congr (by simp) (by simp) (by simp)

theorem RecordsKept.withdrawProbes (h : RecordsKept c l s) (i : Nat) : RecordsKept c l (withdrawProbes i s) :=
  h.congr (by simp) (by simp) (by simp)

/-! ## The Timebase -/

theorem RecordsKept.askSavedCount (h : RecordsKept c l s) : RecordsKept c l (askSavedCount s) :=
  h.askWrite _ (fun _ => rfl) (by simp)

theorem RecordsKept.askConfig (h : RecordsKept c l s) : RecordsKept c l (askConfig s) :=
  h.askWrite _ (fun _ => rfl) (by simp)

theorem RecordsKept.noteTimebase (h : RecordsKept c l s) (cause : TimebaseCause) (b : Option Phase) :
    RecordsKept c l (noteTimebase cause b s) := h.congr (by simp) (by simp) (by simp)

theorem RecordsKept.saveCount (h : RecordsKept c l s) : RecordsKept c l (saveCount s) := by
  unfold Machine.saveCount
  split
  · exact RecordsKept.askSavedCount (h.congr rfl rfl rfl)
  · exact h

theorem RecordsKept.enterOutage (h : RecordsKept c l s) : RecordsKept c l (enterOutage s) := by
  have hsaved : RecordsKept c l (Machine.saveCount (expireBeaconTimer s)) :=
    RecordsKept.saveCount (h.congr (by simp) (by simp) (by simp))
  unfold Machine.enterOutage
  refine RecordsKept.endEarly ?_ _
  refine RecordsKept.noteTimebase (RecordsKept.askSavedCount ?_) _ _
  exact hsaved.congr rfl rfl rfl

theorem RecordsKept.checkReference (h : RecordsKept c l s) : RecordsKept c l (checkReference s) := by
  unfold Machine.checkReference
  repeat' split
  any_goals exact h
  · exact h.congr (by simp) (by simp) (by simp)
  · exact h.enterOutage

theorem RecordsKept.meetSettling (h : RecordsKept c l s) : RecordsKept c l (meetSettling s) :=
  h.congr (by simp) (by simp) (by simp)

theorem RecordsKept.catchUp (h : RecordsKept c l s) : RecordsKept c l (catchUp s) := by
  have hquiet : RecordsKept c l (expireBeaconTimer (Machine.meetSettling (Phase.all.foldl timeOutSilence s))) :=
    h.congr (by simp) (by simp) (by simp)
  have hcap : RecordsKept c l (recoverCap (endCoolDown (Machine.saveCount (expireBeaconTimer (Machine.meetSettling
      (Phase.all.foldl timeOutSilence s)))))) := hquiet.saveCount.congr (by simp) (by simp) (by simp)
  exact hcap.closingStep.activateAll _

/-- A count advance moves the pace of the scrub alone in the store. -/
theorem storeAdvance_frame (st : RetainedStore) : st.advance.orders = st.orders ∧ st.advance.receivers = st.receivers ∧
    st.advance.config = st.config ∧ st.advance.savedCount = st.savedCount ∧ st.advance.writes = st.writes ∧
    st.advance.scrubNext = st.scrubNext := by
  unfold RetainedStore.advance
  repeat' split
  all_goals simp

theorem RecordsKept.advanceCounts (h : RecordsKept c l s) (time : Nat) : RecordsKept c l (advanceCounts time s) := by
  obtain ⟨horders, hreceivers, hconfig, hcount, hwrites, hscrub⟩ := storeAdvance_frame s.store
  refine h.withStore rfl rfl (fun _ hp => ?_) (fun w hw => hwrites ▸ hw) (fun _ hn => hscrub ▸ hn)
  unfold RetainedStore.placed Machine.advanceCounts
  dsimp only
  rw [horders, hreceivers, hconfig, hcount]
  exact hp

theorem RecordsKept.countAdvance (h : RecordsKept c l s) (time : Nat) : RecordsKept c l (countAdvance time s) := by
  unfold Machine.countAdvance
  exact h.catchUp.advanceCounts time

theorem RecordsKept.crossing (h : RecordsKept c l s) (p : Phase) (time : Nat) : RecordsKept c l (crossing p time s) := by
  unfold Machine.crossing
  have hhand : RecordsKept c l (handOn p time (Machine.meetSettling s)) := h.congr (by simp) (by simp) (by simp)
  dsimp only
  split
  · exact hhand.countAdvance _
  · exact hhand

theorem RecordsKept.setTracker (h : RecordsKept c l s) (p : Phase) (t : Tracker) : RecordsKept c l (s.setTracker p t) :=
  h.congr rfl rfl rfl

theorem RecordsKept.closeWindow (h : RecordsKept c l s) (p : Phase) : RecordsKept c l (closeWindow p s) := by
  have htracker (t : Tracker) (time : Nat) : RecordsKept c l (Machine.crossing p time (s.setTracker p t)) :=
    (h.setTracker p t).crossing p time
  unfold Machine.closeWindow
  dsimp only
  repeat' split
  · exact h
  · exact h
  · exact h
  · exact ((htracker _ _).meetSettling.setTracker p _).losePhase p
  · exact htracker _ _
  · exact ((htracker _ _).meetSettling.setTracker p _).checkReference
  · exact htracker _ _

theorem RecordsKept.deriveCrossing (h : RecordsKept c l s) (p : Phase) : RecordsKept c l (deriveCrossing p s) := by
  unfold Machine.deriveCrossing
  dsimp only
  split
  · exact h
  · split
    · exact (h.setTracker p _).crossing _ _
    · exact h

theorem RecordsKept.takeEdge (h : RecordsKept c l s) (p : Phase) (time : Nat) (b : Bool) (r : Nat) :
    RecordsKept c l (takeEdge p time b r s) := by
  unfold Machine.takeEdge respond
  split
  · exact h.setTracker p _
  · exact RecordsKept.crossing (h.congr (by simp) (by simp) (by simp)) _ _
  · exact (h.setTracker p _).crossing _ _

theorem RecordsKept.crystalStep (h : RecordsKept c l s) : RecordsKept c l (crystalStep s) :=
  (h.countAdvance (s.tb.lastAdvance + s.tb.crystalSpan)).congr (by simp [Machine.crystalStep])
    (by simp [Machine.crystalStep]) (by simp [Machine.crystalStep])

theorem RecordsKept.restartPhases (h : RecordsKept c l s) (ps : List Phase) : RecordsKept c l (restartPhases ps s) := by
  unfold Machine.restartPhases
  refine RecordsKept.checkReference ?_
  refine foldl_keeps (P := RecordsKept c l) (fun t p ht => ht.losePhase p) _ ?_
  exact foldl_keeps (P := RecordsKept c l) (fun t p ht => ht.setTracker p _) _ h.meetSettling

/-! ## Parameters -/

theorem RecordsKept.nominalFreqEffect (h : RecordsKept c l s) : RecordsKept c l (nominalFreqEffect s) := by
  unfold Machine.nominalFreqEffect
  refine RecordsKept.restartPhases ?_ _
  split
  · exact h.congr rfl rfl rfl
  · exact h

theorem RecordsKept.retryMaxEffect (h : RecordsKept c l s) (before : Nat) : RecordsKept c l (retryMaxEffect before s) := by
  unfold Machine.retryMaxEffect
  split
  · refine foldl_keeps_mem (P := RecordsKept c l) _ (fun t ir hir ht => ?_) h
    obtain ⟨hi, hsound⟩ := h.recordAt hir
    unfold exhaustRecord
    dsimp only
    split
    · exact ht
    · exact foldl_keeps (P := RecordsKept c l) (fun u e hu => hu.countFor _ _) _
        (ht.putReceiver hi fun hl => (hsound hl).filter _)
  · exact h

theorem RecordsKept.paramEffect (h : RecordsKept c l s) (before : Params) (p : Param) :
    RecordsKept c l (paramEffect before s p) := by
  cases p with
  | nominalFreq => exact h.nominalFreqEffect
  | phaseEnable | zcFilter | zcEdge => exact h.restartPhases _
  | retryMax => exact h.retryMaxEffect _
  | _ => exact h.congr (by simp [Machine.paramEffect]) (by simp [Machine.paramEffect]) (by simp [Machine.paramEffect])

theorem RecordsKept.applyDefaults (h : RecordsKept c l s) : RecordsKept c l (applyDefaults s) := by
  have hdefault : RecordsKept c l { s with params := .default } := h.congr rfl rfl rfl
  have hrestart : RecordsKept c l (if s.params.nominalFreq = Params.default.nominalFreq then
      Machine.restartPhases (Phase.all.filter (changedPhase s.params Params.default)) { s with params := .default }
      else Machine.nominalFreqEffect { s with params := .default }) := by
    split
    · exact hdefault.restartPhases _
    · exact hdefault.nominalFreqEffect
  unfold Machine.applyDefaults
  dsimp only
  refine RecordsKept.retryMaxEffect ?_ _
  generalize (if s.params.nominalFreq = Params.default.nominalFreq then
      Machine.restartPhases (Phase.all.filter (changedPhase s.params Params.default)) { s with params := .default }
      else Machine.nominalFreqEffect { s with params := .default }) = u at hrestart ⊢
  repeat' split
  all_goals exact hrestart.congr (by simp) (by simp) (by simp)

theorem RecordsKept.paramWrite (h : RecordsKept c l s) (ps : Params) (p : Param) :
    RecordsKept c l (Machine.paramEffect s.params (Machine.askConfig { s with params := ps }) p) := by
  refine RecordsKept.paramEffect (RecordsKept.askConfig ?_) _ _
  exact h.congr rfl rfl rfl

/-! ## The line -/

theorem RecordsKept.abandonRepeats (h : RecordsKept c l s) : RecordsKept c l (abandonRepeats s) := by
  unfold Machine.abandonRepeats
  refine foldl_keeps (P := RecordsKept c l) (fun t n ht => ?_) _ h
  unfold abandonRepeat
  split
  · exact ht
  next hn =>
    split
    · exact ht.putOrder _ (ht.orderAt_of_order hn)
    · exact ht

theorem RecordsKept.handOver (h : RecordsKept c l s) (k : HandOverKind) (b : Burst) (ps : PerPhase Bool) (level : Nat)
    (cs : CarrierSelection) (span : Nat) (x : Option ExchangeTimes) :
    RecordsKept c l (handOver k b ps level cs span x s) := h.congr rfl rfl rfl

theorem RecordsKept.startTransmission (h : RecordsKept c l s) (n : Nat) : RecordsKept c l (startTransmission n s) :=
  h.changeOrder n _

theorem RecordsKept.decideDelivery (h : RecordsKept c l s) : RecordsKept c l (decideDelivery s) := by
  unfold Machine.decideDelivery
  split
  · exact (h.startTransmission _).handOver ..
  · exact h

theorem RecordsKept.decideProbe (h : RecordsKept c l s) : RecordsKept c l (decideProbe s) := by
  have hdrop : RecordsKept c l (dropProbe s) := h.congr rfl rfl rfl
  unfold Machine.decideProbe
  split
  · exact hdrop.handOver ..
  · next p _ =>
    have hnote : RecordsKept c l (noteWithdrawn (dropProbe s) p) := hdrop.congr (by simp) (by simp) (by simp)
    exact hnote.decideDelivery
  · exact h.decideDelivery

theorem RecordsKept.decideLine (h : RecordsKept c l s) : RecordsKept c l (decideLine s) := by
  have habandon : RecordsKept c l (Machine.abandonRepeats { s with owed := { s.owed with decision := false } }) :=
    RecordsKept.abandonRepeats (h.congr rfl rfl rfl)
  unfold Machine.decideLine decideOrders
  dsimp only
  split
  · exact habandon.handOver ..
  split
  · exact (habandon.startTransmission _).handOver ..
  split
  · exact (habandon.startTransmission _).handOver ..
  · exact habandon.decideProbe

theorem RecordsKept.openWindow (h : RecordsKept c l s) (p : Phase) : RecordsKept c l (openWindow p s) :=
  openWindow_keeps h (fun _ h => h.congr (by simp) (by simp) (by simp)) (fun _ h => h.congr (by simp) (by simp) (by simp))
    (fun _ _ _ h => h.congr (by simp) (by simp) (by simp)) (fun _ _ h => h.congr rfl rfl rfl) (fun _ h => h.losePhase p)

end

end Sys2Proof.Safety
end

