-- ==== Sys2Proof/Proofs/RecordsKept.lean ====
section
/-! PROOFS. The laws of the records at the Retained Store, at the owners of the requests, and at every command. -/

namespace Sys2Proof.Safety

open Sys2Proof.Machine

section
variable {c l : Prop} {s t : State}

/-! ## Damage -/

theorem RecordsKept.noteStore (h : RecordsKept c l s) (pos : Position) (f : Found) (r : DamageResult) (w : Nat) :
    RecordsKept c l (noteStore pos f r w s) := h.congr (by simp) (by simp) (by simp)

theorem RecordsKept.readBack (h : RecordsKept c l s) (e : ReadErrors) {pos : Position} (hp : c → pos.wf = true) :
    RecordsKept c l { s with store := s.store.readBack e pos } :=
  h.withStore rfl rfl (fun hc hs => readBack_placed e hs (hp hc)) (by simp) (by simp)

theorem RecordsKept.lay (h : RecordsKept c l s) (w : WriteContent) (k : Count) (hp : c → w.position.wf = true) :
    RecordsKept c l { s with store := s.store.lay w k } :=
  h.withStore rfl rfl (fun hc hs => lay_placed k hs (hp hc)) (by simp) (by simp)

theorem listSound_damagedReceiver (a : Option Addr) : ListSound (damagedReceiver a) := listSound_of_nil rfl

theorem RecordsKept.damageReceiver (h : RecordsKept c l s) {i : Nat} {r : Option Receiver} (hi : c → i < 512)
    (hr : ∀ x, r = some x → l → ListSound x) : RecordsKept c l (damageReceiver i r s) :=
  ((((h.placeReceiver hi hr).askReceiver false hi hr).withdrawProbes i).markWithdrawn i).forgetReceiver _ _

theorem RecordsKept.receiverDamage (h : RecordsKept c l s) {i : Nat} (f : Found) (ws : Words) (hi : c → i < 512) :
    RecordsKept c l (receiverDamage i f ws s) := by
  have hform (a : Option Addr) : ∀ x, some (damagedReceiver a) = some x → l → ListSound x := fun x hx _ =>
    Option.some.inj hx ▸ listSound_damagedReceiver a
  unfold Machine.receiverDamage
  dsimp only
  repeat' split
  · exact (h.askReceiver false hi (by simp)).noteStore ..
  · exact (h.damageReceiver hi (by simp)).noteStore ..
  · exact ((h.setReceiver hi fun _ => listSound_damagedReceiver _).askReceiver false hi (hform _)).noteStore ..
  · exact (h.damageReceiver hi (hform _)).noteStore ..

theorem RecordsKept.orderDamage (h : RecordsKept c l s) {n : Nat} (f : Found) (ws : Words) (hn : c → n < 32) :
    RecordsKept c l (orderDamage n f ws s) := by
  have hempty : RecordsKept c l (Machine.askWrite (.order n none) false (s.placeOrder n none)) :=
    (h.placeOrder none hn).askOrder _ _ hn
  unfold Machine.orderDamage
  dsimp only
  split
  · unfold emptyOrder
    dsimp only
    split
    · exact hempty.noteStore ..
    · exact hempty.dropLooseEntries.noteStore ..
  · exact ((h.setOrder _ hn).askOrder _ _ hn).noteStore ..
  · exact (((h.bumpSequence.setOrder _ hn).askOrder _ _ hn).dropLooseEntries).noteStore ..

theorem RecordsKept.resetBlocks (h : RecordsKept c l s) : RecordsKept c l (resetBlocks s) := by
  unfold Machine.resetBlocks
  exact h.resetTransmission.congr rfl rfl rfl

theorem RecordsKept.afterRecord (h : RecordsKept c l s) (a : AfterSent) : RecordsKept c l (afterRecord a s) := by
  cases a with
  | softReset => exact h.resetBlocks.congr rfl rfl rfl
  | rate r => exact h.congr (by simp [Machine.afterRecord]) (by simp [Machine.afterRecord]) (by simp [Machine.afterRecord])
  | nothing => exact h
  | wipeDone => exact h.congr rfl rfl rfl

theorem RecordsKept.endRecord (h : RecordsKept c l s) : RecordsKept c l (endRecord s) := by
  unfold Machine.endRecord
  split
  · exact h
  · exact (linkFree_recordsKept _ { s.link with sending := none } h).afterRecord _

theorem RecordsKept.configDamage (h : RecordsKept c l s) (f : Found) (n : Nat) : RecordsKept c l (configDamage f n s) := by
  have hdefaults : RecordsKept c l (Machine.applyDefaults (Machine.askWrite (.config ⟨.default, false⟩) false s)) :=
    (h.askWrite _ (fun _ => rfl) (by simp)).applyDefaults
  unfold Machine.configDamage noteDefaults
  dsimp only
  split
  · exact hdefaults.congr (by simp) (by simp) (by simp)
  · exact RecordsKept.afterRecord (hdefaults.congr (by simp) (by simp) (by simp)) _

theorem RecordsKept.handleDamage (h : RecordsKept c l s) {pos : Position} (f : Found) (ws : Words)
    (hp : c → pos.wf = true) : RecordsKept c l (handleDamage pos f ws s) := by
  cases pos with
  | config => exact h.configDamage _ _
  | savedCount => exact RecordsKept.noteStore (h.askWrite _ (fun _ => rfl) (by simp)) ..
  | order n => exact h.orderDamage _ _ fun hc => by simpa [Position.wf] using hp hc
  | receiver i => exact h.receiverDamage _ _ fun hc => by simpa [Position.wf] using hp hc

theorem RecordsKept.readPosition (h : RecordsKept c l s) {pos : Position} (f : Found) (e : ReadErrors)
    (hp : c → pos.wf = true) : RecordsKept c l (readPosition pos f e s) := by
  unfold Machine.readPosition
  dsimp only
  split
  · exact h.readBack e hp
  · exact (h.readBack e hp).handleDamage _ _ hp

/-- Every pointer of the cycle names a position that the store has. -/
theorem positionAt_wf {n : Nat} (h : n < 546) : (positionAt n).wf = true := by
  unfold positionAt
  repeat' split
  all_goals simp only [Position.wf, decide_eq_true_eq]
  all_goals omega

theorem nextScrub_lt (n : Nat) : nextScrub n < 546 := by
  unfold nextScrub Config.storePositions
  split <;> omega

theorem RecordsKept.scrub (h : RecordsKept c l s) (e : ReadErrors) : RecordsKept c l (scrub e s) := by
  unfold Machine.scrub
  refine RecordsKept.readPosition ?_ _ _ fun hc => positionAt_wf ((canonical_iff s).1 (h.1 hc)).2.2.2.2
  exact h.withStore rfl rfl (fun _ hp => hp) (fun _ hw => hw) fun _ _ => nextScrub_lt _

theorem RecordsKept.writeRecord (h : RecordsKept c l s) (e : ReadErrors) : RecordsKept c l (writeRecord e s) := by
  unfold Machine.writeRecord
  split
  · exact h
  next w rest hw =>
    have hpos : c → w.content.position.wf = true := fun hc =>
      ((canonical_iff s).1 (h.1 hc)).2.2.2.1 w (hw ▸ List.mem_cons_self ..)
    have hrest : ∀ x ∈ rest, x ∈ s.store.writes := fun x hx => hw ▸ List.mem_cons_of_mem w hx
    dsimp only
    split
    · refine RecordsKept.readPosition ?_ _ _ hpos
      exact h.withStore rfl rfl (fun hc hp => lay_placed _ hp (hpos hc)) hrest (by simp)
    · exact h.withStore rfl rfl (fun hc hp => spoil_placed e (lay_placed s.count hp (hpos hc)) (hpos hc))
        (by simpa [RetainedStore.spoil] using hrest) (by simp [RetainedStore.spoil])

/-! ## Power-on -/

theorem mem_insertIndex {i j : Nat} {js : List Nat} (h : j ∈ insertIndex i js) : j = i ∨ j ∈ js := by
  induction js with
  | nil => simpa [insertIndex] using h
  | cons k ks ih =>
    unfold insertIndex at h
    split at h
    · simpa using h
    split at h
    · exact .inr h
    · rcases List.mem_cons.1 h with rfl | h
      · simp
      · exact (ih h).imp_right (List.mem_cons_of_mem k)

theorem orderReads_lt {st : RetainedStore} (e : List PositionErrors) (h : st.placed) : ∀ n ∈ orderReads st e, n < 32 := by
  refine List.foldlRecOn e _ (motive := fun ns => ∀ n ∈ ns, n < 32) (fun n hn => ?_) fun ns hns x _ => ?_
  · obtain ⟨y, hy, rfl⟩ := List.mem_map.1 hn
    exact h.1.1.2 y hy
  · split
    · split
      · next hlt =>
        intro n hn
        rcases mem_insertIndex hn with rfl | hn
        · exact hlt
        · exact hns n hn
      · exact hns
    all_goals exact hns

theorem receiverReads_lt {st : RetainedStore} (e : List PositionErrors) (h : st.placed) :
    ∀ n ∈ receiverReads st e, n < 512 := by
  refine List.foldlRecOn e _ (motive := fun ns => ∀ n ∈ ns, n < 512) (fun n hn => ?_) fun ns hns x _ => ?_
  · obtain ⟨y, hy, rfl⟩ := List.mem_map.1 hn
    exact h.2.1.1.2 y hy
  · split
    · split
      · next hlt =>
        intro n hn
        rcases mem_insertIndex hn with rfl | hn
        · exact hlt
        · exact hns n hn
      · exact hns
    all_goals exact hns

theorem RecordsKept.restoreOrder (h : RecordsKept c l s) (e : List PositionErrors) {n : Nat} (hn : c → n < 32) :
    RecordsKept c l (restoreOrder e s n) := by
  have hread : RecordsKept c l (noteRead (.order n) (errorsAt e (.order n)) s) :=
    h.readBack _ fun hc => by simpa [Position.wf] using hn hc
  unfold Machine.restoreOrder
  dsimp only
  split
  · exact hread.placeOrder _ hn
  split
  · exact (hread.askOrder _ _ hn).noteStore ..
  · exact ((hread.setOrder _ hn).askOrder _ _ hn).noteStore ..
  · exact (hread.setOrder _ hn).noteStore ..

theorem RecordsKept.numberDamaged (h : RecordsKept c l s) (n : Nat) : RecordsKept c l (numberDamaged s n) := by
  unfold Machine.numberDamaged
  split
  · exact h
  next hn =>
    have hlow := h.orderAt_of_order hn
    dsimp only
    split
    · exact (h.bumpSequence.setOrder _ hlow).askOrder _ _ hlow
    · exact h

theorem RecordsKept.restoreReceiver (h : RecordsKept c l s) (e : List PositionErrors) {i : Nat} (hi : c → i < 512) :
    RecordsKept c l (restoreReceiver e s i) := by
  have hread : RecordsKept c l (noteRead (.receiver i) (errorsAt e (.receiver i)) s) :=
    h.readBack _ fun hc => by simpa [Position.wf] using hi hc
  unfold Machine.restoreReceiver
  dsimp only
  split
  · exact hread.placeReceiver hi fun x hx _ => receiverOf_sound hx
  split
  · exact (hread.askReceiver false hi (by simp)).noteStore ..
  · refine RecordsKept.noteStore (RecordsKept.forgetReceiver ?_ _ _) ..
    exact (hread.setReceiver hi fun _ => listSound_damagedReceiver _).askReceiver false hi fun x hx _ =>
      Option.some.inj hx ▸ listSound_damagedReceiver _

theorem RecordsKept.restoreOrders (h : RecordsKept c l s) (e : List PositionErrors) :
    RecordsKept c l (restoreOrders e s) := by
  have hlow : ∀ n ∈ orderReads s.store e, c → n < 32 := fun n hn hc =>
    orderReads_lt e ((canonical_iff s).1 (h.1 hc)).2.2.1 n hn
  have horders : RecordsKept c l ((orderReads s.store e).foldl (Machine.restoreOrder e) s) :=
    foldl_keeps_mem (P := RecordsKept c l) _ (fun t n hn ht => ht.restoreOrder e (hlow n hn)) h
  have hsequence : RecordsKept c l (restoreSequence ((orderReads s.store e).foldl (Machine.restoreOrder e) s)) :=
    horders.congr rfl rfl rfl
  unfold Machine.restoreOrders
  exact foldl_keeps (P := RecordsKept c l) (fun t n ht => ht.numberDamaged n) _ hsequence

theorem RecordsKept.restoreReceivers (h : RecordsKept c l s) (e : List PositionErrors) :
    RecordsKept c l (restoreReceivers e s) := by
  have hlow : ∀ i ∈ receiverReads s.store e, c → i < 512 := fun i hi hc =>
    receiverReads_lt e ((canonical_iff s).1 (h.1 hc)).2.2.1 i hi
  unfold Machine.restoreReceivers
  exact foldl_keeps_mem (P := RecordsKept c l) _ (fun t i hi ht => ht.restoreReceiver e (hlow i hi)) h

theorem RecordsKept.restoreConfig (h : RecordsKept c l s) : RecordsKept c l (restoreConfig s) := by
  unfold Machine.restoreConfig
  dsimp only
  split
  · exact h
  · split
    · exact (h.lay (.config ⟨.default, true⟩) s.count fun _ => rfl).noteStore ..
    · exact (h.askWrite (w := .config ⟨.default, false⟩) false (fun _ => rfl) (by simp)).noteStore ..

theorem RecordsKept.restoreCount (h : RecordsKept c l s) (w : Bool) : RecordsKept c l (restoreCount w s) := by
  unfold Machine.restoreCount
  dsimp only
  have hnote (f : Byte) (fs : List Byte) := h.queueNotice .countUnconfirmed f fs
  split
  · exact hnote _ _
  · split
    · exact ((hnote _ _).lay (.savedCount (some 0)) _ fun _ => rfl).noteStore ..
    · exact ((hnote _ _).askWrite (w := .savedCount (some 0)) false (fun _ => rfl) (by simp)).noteStore ..

/-- Nothing in the working copies, no write asked, and the scrub at its start. -/
theorem recordsKept_empty (horders : t.orders.orders = []) (htable : t.table = []) (hp : c → t.store.placed)
    (hw : t.store.writes = []) (hn : t.store.scrubNext = 0) : RecordsKept c l t := by
  refine ⟨fun hc => (canonical_iff t).2 ?_, fun _ => (listsSound_iff t).2 ?_⟩
  · rw [horders, htable, hw, hn]
    exact ⟨⟨rfl, by simp⟩, ⟨rfl, by simp⟩, hp hc, by simp, by omega⟩
  · rw [htable, hw]
    exact ⟨by simp, by simp⟩

theorem RecordsKept.powerOn (h : RecordsKept c l s) (e : List PositionErrors) : RecordsKept c l (powerOn e s) := by
  have hplaced : c → s.store.atPowerOn.placed := fun hc => ((canonical_iff s).1 (h.1 hc)).2.2.1
  have hblocks : RecordsKept c l (blocksRestored e s) :=
    recordsKept_empty rfl rfl (fun hc => readBack_placed (errorsAt e .config) (p := .config) (hplaced hc) rfl)
      (by simp [blocksRestored, blocksAtPowerOn, storeAtPowerOn, RetainedStore.atPowerOn])
      (by simp [blocksRestored, blocksAtPowerOn, storeAtPowerOn, RetainedStore.atPowerOn])
  have hcount : RecordsKept c l (countRestored e s) :=
    RecordsKept.restoreCount (hblocks.restoreConfig.readBack (pos := .savedCount) _ fun _ => rfl) _
  rw [powerOn_eq]
  split
  · unfold resumeWipe noteResumed
    refine RecordsKept.noteStore ?_ ..
    exact hcount.withStore rfl rfl (fun _ hp => hp) (fun _ hw => hw) fun _ hn => hn
  · exact (hcount.restoreOrders e).restoreReceivers e

theorem RecordsKept.completeRestore (h : RecordsKept c l s) : RecordsKept c l (completeRestore s) := by
  have hbalanced := h.dropLooseEntries.reconcileAll
  unfold Machine.completeRestore
  generalize Machine.reconcileAll (Machine.dropLooseEntries s) = u at hbalanced ⊢
  exact hbalanced.withStore rfl rfl (fun _ hp => hp) (fun _ hw => hw) fun _ hn => hn

/-! ## Loss of power and the WIPE -/

theorem wordsPlaced_filter {n : Nat} {ws : List (Nat × Words)} (p : Nat × Words → Bool) (h : WordsPlaced n ws) :
    WordsPlaced n (ws.filter p) := by
  obtain ⟨⟨hrise, hlow⟩, hwords⟩ := h
  exact ⟨⟨rising_filter p hrise, fun x hx => hlow x (List.mem_filter.1 hx).1⟩,
    fun x hx => hwords x (List.mem_filter.1 hx).1⟩

theorem wipeFirst_placed {st : RetainedStore} (h : st.placed) (k : Nat) (count : Count) :
    (st.wipeFirst k count).placed := by
  obtain ⟨horders, hreceivers, hconfig, hcount⟩ := h
  refine ⟨wordsPlaced_filter _ horders, wordsPlaced_filter _ hreceivers, hconfig, ?_⟩
  unfold RetainedStore.wipeFirst
  dsimp only
  split
  · exact hcount
  · simp [countNumbers]

theorem RecordsKept.losePower (h : RecordsKept c l s) (w : Bool) (k : Nat) : RecordsKept c l (losePower w k s) := by
  have hwrite (x : PendingWrite) (hx : x ∈ s.store.writes) (hc : c) : x.content.position.wf = true :=
    ((canonical_iff s).1 (h.1 hc)).2.2.2.1 x hx
  refine h.withStore rfl rfl (fun hc hp => ?_) (by simp [Machine.losePower]) (fun _ hn => ?_)
  · unfold Machine.losePower
    dsimp only
    split
    · exact wipeFirst_placed hp _ _
    split
    · next x rest hx => exact lay_placed _ hp (hwrite x (hx ▸ List.mem_cons_self ..) hc)
    · exact hp
    · exact hp
  · unfold Machine.losePower
    dsimp only
    split
    · exact hn
    split
    · simpa using hn
    · exact hn
    · exact hn

theorem RecordsKept.wipeConfig (h : RecordsKept c l s) (e : ReadErrors) : RecordsKept c l (wipeConfig e s) := by
  have hlaid := h.lay (.config ⟨.default, true⟩) s.count fun _ => rfl
  have hread := hlaid.readBack (pos := .config) e fun _ => rfl
  unfold Machine.wipeConfig
  dsimp only
  split
  · exact hread
  · exact (hread.lay (.config ⟨.default, true⟩) s.count fun _ => rfl).noteStore ..

theorem RecordsKept.resetLine (h : RecordsKept c l s) : RecordsKept c l (resetLine s) :=
  h.congr (by simp) (by simp) (by simp)

/-- The working copies emptied and every write dropped. -/
theorem RecordsKept.wipeRecords (h : RecordsKept c l s) (w : Option WipeState) (due : Nat) : RecordsKept c l
    (wipeRecords { s with store := { s.store with writes := [], wiping := w, scrubDue := due } }) := by
  refine ⟨fun hc => ?_, fun _ => ⟨by simp [Machine.wipeRecords], fun _ _ _ hr => receiverOf_sound hr, by simp⟩⟩
  obtain ⟨-, -, hplaced, -, hscrub⟩ := (canonical_iff s).1 (h.1 hc)
  exact (canonical_iff _).2 ⟨⟨rfl, by simp [Machine.wipeRecords]⟩, ⟨rfl, by simp [Machine.wipeRecords]⟩, hplaced,
    by simp, hscrub⟩

theorem RecordsKept.beginWipe (h : RecordsKept c l s) (q : Request) (e : ReadErrors) :
    RecordsKept c l (beginWipe q e s) := by
  have hlink : RecordsKept c l (wipeLink q s) := h.congr rfl rfl rfl
  exact (hlink.resetBlocks.wipeRecords _ _).applyDefaults.resetLine.wipeConfig e

theorem wipeReply_records (w : WipeState) (s : State) : (wipeReply w s).orders = s.orders ∧
    (wipeReply w s).table = s.table ∧ (wipeReply w s).store = s.store := by
  unfold wipeReply
  split <;> simp

theorem endWipe_records (w : WipeState) (s : State) : (endWipe w s).orders = s.orders ∧
    (endWipe w s).table = s.table ∧ (endWipe w s).store = { s.store with
      config := wordsOf (configNumbers ⟨.default, false⟩), savedCount := wordsOf (countNumbers s.count), orders := []
      receivers := [], scrubNext := 0, scrubPace := 0, scrubDue := 0, wiping := none } := by
  unfold endWipe
  rw [(wipeReply_records w _).1, (wipeReply_records w _).2.1, (wipeReply_records w _).2.2]
  exact ⟨rfl, rfl, rfl⟩

theorem RecordsKept.endWipe (h : RecordsKept c l s) (w : WipeState) : RecordsKept c l (endWipe w s) := by
  obtain ⟨horders, htable, hstore⟩ := endWipe_records w s
  refine h.withStore (congrArg _ horders) htable (fun _ _ => ?_) (fun x hx => ?_) (fun _ _ => ?_)
  · rw [hstore]
    refine ⟨⟨⟨rfl, by simp⟩, by simp⟩, ⟨⟨rfl, by simp⟩, by simp⟩, ?_, ?_⟩
    · rw [wordsOf_length, configNumbers_length]
    · rw [wordsOf_length]
      rfl
  · rwa [hstore] at hx
  · rw [hstore]
    simp

/-! ## Finding records -/

theorem heldBy_slot {k n : Nat} {a : Count} {b : Bool} {o : Order} (h : s.heldBy k a b = some (n, o)) :
    s.orderInSlot k = some (n, o) := by
  exact (Option.filter_eq_some_iff.1 h).1

theorem orderToSeal_order {n : Nat} {o : Order} (h : s.orderToSeal n = some o) : s.order n = some o := by
  unfold State.orderToSeal at h
  split at h
  · exact (Option.filter_eq_some_iff.1 h).1
  · cases h

/-! ## The owners of the requests -/

theorem earliestClosed_mem {os : List (Nat × Order)} {n : Nat} {k : Count} (h : earliestClosed os = some (n, k)) :
    ∃ o, (n, o) ∈ os := by
  induction os generalizing n k with
  | nil => cases h
  | cons x rest ih =>
    obtain ⟨m, o⟩ := x
    unfold earliestClosed at h
    split at h
    · obtain ⟨o', ho'⟩ := ih h
      exact ⟨o', List.mem_cons_of_mem _ ho'⟩
    · cases h
      exact ⟨o, List.mem_cons_self ..⟩
    · next hrest =>
      split at h
      · cases h
        obtain ⟨o', ho'⟩ := ih hrest
        exact ⟨o', List.mem_cons_of_mem _ ho'⟩
      · cases h
        exact ⟨o, List.mem_cons_self ..⟩

theorem earliestClosed_isSome {os : List (Nat × Order)} (h : os.any fun no => no.2.isClosed) :
    (earliestClosed os).isSome = true := by
  induction os with
  | nil => simp at h
  | cons x rest ih =>
    obtain ⟨m, o⟩ := x
    unfold earliestClosed
    split
    · next hnone =>
      refine ih ?_
      have : o.isClosed = false := by
        unfold Order.closeNumber at hnone
        unfold Order.isClosed
        split at hnone <;> simp_all
      simpa [this] using h
    · rfl
    · split <;> rfl

/-- The lowest free position is no higher than any free one. -/
theorem lowestFree_le_of_free {α : Type} {os : List (Nat × α)} {n m : Nat} (hnm : n ≤ m) (h : lookup os m = none) :
    lowestFree os n ≤ m := by
  induction os generalizing n with
  | nil => exact hnm
  | cons x rest ih =>
    obtain ⟨k, v⟩ := x
    unfold lowestFree
    unfold lookup at h
    split at h
    · cases h
    · split
      · exact ih (by omega) h
      · exact hnm

/-- With room in the store, or made in it, a position is free. -/
theorem RecordsKept.makeRoom (h : RecordsKept c l s) (hroom : s.hasRoom = true) :
    RecordsKept c l (makeRoom s) ∧ (c → lowestFree (makeRoom s).orders.orders 0 < 32) := by
  unfold Machine.makeRoom
  split
  · next hlen =>
    refine ⟨h, fun _ => ?_⟩
    have hle := lowestFree_le s.orders.orders 0
    simp only [Config.orderPositions] at hlen
    omega
  · next hlen =>
    have hclosed : s.orders.orders.any (fun no => no.2.isClosed) = true := by
      simpa [State.hasRoom, hlen] using hroom
    have hsome := earliestClosed_isSome hclosed
    split
    · next hnone => simp [hnone] at hsome
    · next n k hn =>
      obtain ⟨o, hmem⟩ := earliestClosed_mem hn
      refine ⟨h.dropOrder (h.orderAt hmem), fun hc => ?_⟩
      obtain ⟨hrise, hlow⟩ := (h.1 hc).1
      have hfree : lookup (Machine.dropOrder n s).orders.orders n = none := by
        simpa using lookup_eraseAt_self n hrise
      exact (lowestFree_le_of_free (Nat.zero_le n) hfree).trans_lt (hlow _ hmem)

theorem RecordsKept.placeAdmitted (h : RecordsKept c l s) (q : OrderAdd) (t : Target) (a : Machine.Action)
    (hroom : s.hasRoom = true) : RecordsKept c l (placeAdmitted q t a s).state := by
  obtain ⟨hmade, hfree⟩ := h.makeRoom hroom
  have htagged (k : Nat) : RecordsKept c l { Machine.bumpSequence (Machine.makeRoom s) with
      orders := { (Machine.bumpSequence (Machine.makeRoom s)).orders with lastTag := k } } := hmade.congr rfl rfl rfl
  unfold Machine.placeAdmitted taken
  dsimp only
  exact (htagged _).putOrder _ hfree

theorem RecordsKept.addReceiver (h : RecordsKept c l s) {r : Receiver} (hd : r.damaged = false)
    (p : Nat × Order → Bool) (hroom : s.table.length < 512) :
    RecordsKept c l (addReceiver r (s.slotOrders.filter p) s).state := by
  have hfree : c → lowestFree s.table 0 < 512 := fun _ => (lowestFree_le s.table 0).trans_lt (by omega)
  unfold Machine.addReceiver taken
  dsimp only
  refine foldl_keeps_mem (P := RecordsKept c l) _ (fun t x hx ht => ?_)
    (h.putReceiver hfree fun _ => ⟨entriesFor_slots s p s.count, fun hdam => ?_⟩)
  · exact ht.putOrder _ (h.orderAt_of_slotOrders (List.mem_filter.1 hx).1)
  · exact absurd (hd.symm.trans hdam) (by simp)

theorem RecordsKept.moveTimes (h : RecordsKept c l s) (j : Count) : RecordsKept c l (moveTimes j s) := by
  have hmoved : RecordsKept c l (Machine.changeReceivers (fun _ r => !r.entries.isEmpty && j != 0)
      (fun _ r => r.moveTries j) s) := h.changeReceivers fun _ _ _ hr => hr.moveTries j
  unfold Machine.moveTimes
  refine foldl_keeps_mem (P := RecordsKept c l) _ (fun t x hx ht => ?_) hmoved
  split
  · exact ht
  · exact ht.putOrder _ (hmoved.orderAt_of_slotOrders hx)

theorem RecordsKept.moveFlight (h : RecordsKept c l s) (d : Int) : RecordsKept c l (moveFlight d s) := by
  unfold Machine.moveFlight
  repeat' split
  all_goals exact h.congr (by simp) (by simp) (by simp)

theorem RecordsKept.setCount (h : RecordsKept c l s) (x : Count) : RecordsKept c l (setCount x s) := by
  unfold Machine.setCount
  exact RecordsKept.askSavedCount (h.congr rfl rfl rfl)

theorem RecordsKept.removeReceiver (h : RecordsKept c l s) {i : Nat} (r : Receiver) (hi : c → i < 512) :
    RecordsKept c l (removeReceiver i r s) := by
  have hgone := (h.dropReceiver hi).stalePaths r.address
  unfold Machine.removeReceiver
  exact ((hgone.forgetReceiver i _).withdrawProbes i).markWithdrawn i

theorem RecordsKept.handleParamWrite (h : RecordsKept c l s) (q : Request) (v : ParamValue) :
    RecordsKept c l (handleParamWrite q v s).state :=
  handleParamWrite_keeps h fun p ps _ => h.paramWrite ps p

theorem RecordsKept.foundOrder (h : RecordsKept c l s) {sel : OrderSelector} {n : Nat} {o : Order}
    (hf : s.findOrder sel = some (n, o)) : c → n < 32 := by
  cases sel with
  | tag t => exact h.orderAt (List.mem_of_find?_eq_some hf)
  | position m =>
    obtain ⟨o', ho, heq⟩ := Option.map_eq_some_iff.1 hf
    cases heq
    exact h.orderAt_of_order ho

theorem RecordsKept.foundReceiver (h : RecordsKept c l s) {sel : Selector} {i : Nat} {r : Receiver}
    (hf : s.findReceiver sel = some (i, r)) : (c → i < 512) ∧ (l → ListSound r) := by
  cases sel with
  | address a => exact h.recordAt (List.mem_of_find?_eq_some hf)
  | index m =>
    obtain ⟨r', hr, heq⟩ := Option.map_eq_some_iff.1 hf
    cases heq
    exact h.recordOf hr

/-! ## The line and the link -/

theorem RecordsKept.completeLeg (h : RecordsKept c l s) : RecordsKept c l (completeLeg s) := by
  have hend : RecordsKept c l (endLeg true s) := h.congr (by simp) (by simp) (by simp)
  unfold Machine.completeLeg
  dsimp only
  split
  · exact h
  split
  · refine RecordsKept.finish ?_
    unfold reportBroadcast
    split
    · exact hend
    split
    · exact hend.congr rfl rfl rfl
    · unfold countRepeat
      split
      · exact hend
      next hheld => exact hend.putOrder _ (hend.orderAt_of_slot (heldBy_slot hheld))
    · exact hend
    · exact hend
  · exact hend.congr rfl rfl rfl

theorem RecordsKept.takeOverCurrent (h : RecordsKept c l s) (time : Nat) : RecordsKept c l (takeOverCurrent time s) := by
  have hfold : RecordsKept c l (foldBack time s) := h.congr (by simp) (by simp) (by simp)
  unfold Machine.takeOverCurrent
  dsimp only
  split
  · exact h
  split
  · exact hfold
  · unfold markLeg
    dsimp only
    split
    · refine RecordsKept.endEarly (RecordsKept.queueNotice ?_ _ _ _) _
      exact hfold.congr rfl rfl rfl
    · refine RecordsKept.queueNotice ?_ _ _ _
      exact hfold.congr rfl rfl rfl

theorem RecordsKept.receiveChar (h : RecordsKept c l s) (ch : Character) : RecordsKept c l (receiveChar ch s) := by
  unfold Machine.receiveChar
  repeat' split
  all_goals exact h.congr (by simp) (by simp) (by simp)

end

/-- Every command keeps the laws of the records. -/
theorem exec_recordsKept {c l : Prop} {s : State} (i : Instr) (h : RecordsKept c l s) :
    Answers (RecordsKept c l) (exec i s) := by
  have hl : LinkFree (RecordsKept c l) := linkFree_recordsKept
  cases i with
  | powerOn e => exact answers_next (h.powerOn e)
  | powerLoss w k => exact answers_when h fun _ => h.losePower w k
  | restoreComplete => exact answers_when h fun _ => h.completeRestore
  | zcEdge | acquireLock | returnLock => exact answers_when h fun _ => h.takeEdge ..
  | windowClose | missLimit | coastTimeout => exact answers_when h fun _ => h.closeWindow _
  | derivedCrossing => exact answers_when h fun _ => h.deriveCrossing _
  | crystalAdvance => exact answers_when h fun _ => h.crystalStep
  | saveCadence => exact answers_when h fun _ => h.saveCount
  | silenceTimeout | settleEnd | beaconTimerExpiry | coolDownEnd | capRecovery =>
    exact answers_when h fun _ => h.congr (by simp) (by simp) (by simp)
  | scrubRead e => exact answers_when h fun _ => h.scrub e
  | recordWrite e => exact answers_when h fun _ => h.writeRecord e
  | orderActivate => exact answers_when h fun _ => h.activateNext
  | orderSeal n =>
    show Answers _ (execOrderSeal n s)
    unfold execOrderSeal
    split
    · exact answers_next h
    next o ho =>
      have hn := h.orderAt_of_order (orderToSeal_order ho)
      split
      · exact answers_next h
      · exact answers_next (h.closeAtSeal o _ hn)
      · exact answers_next (h.closeAtSeal o _ hn)
      · exact answers_next h
  | notSent n =>
    show Answers _ (execNotSent n s)
    unfold execNotSent
    split
    · exact answers_next h
    next o ho => exact answers_when h fun _ => h.closeNotSent o (h.orderAt_of_order (orderToSeal_order ho))
  | decisionPoint => exact answers_when h fun _ => h.decideLine
  | cellWindow p => exact answers_when h fun _ => h.openWindow p
  | legComplete => exact answers_when h fun _ => h.completeLeg
  | overCurrent time => exact answers_when h fun _ => h.takeOverCurrent time
  | relaySpanOpen | relaySpanEnd | answerWindowOpen => exact answers_when h fun _ => h.congr rfl rfl rfl
  | answerReport =>
    have hidle : RecordsKept c l (answerIdle s) := h.congr rfl rfl rfl
    exact answers_when h fun _ => hidle.closeExchange _
  | recordComplete | lengthDiscard | crcDiscard | byteReceived => exact answers_when h fun _ => h.receiveChar _
  | framingDiscard | gapDiscard | transmitStart =>
    exact answers_when h fun _ => h.congr (by simp) (by simp) (by simp)
  | rateSwitch | softResetPerform | recordSent => exact answers_when h fun _ => h.endRecord
  | unknownKind => exact hl.takeRequest h fun _ _ h => h
  | ident | status | timeRead => exact hl.takeKind h fun _ _ _ h => h
  | paramRead => exact hl.takeKind h fun _ _ _ h => by rwa [handleParamRead_state]
  | paramWrite => exact hl.takeKind h fun q v _ h => h.handleParamWrite q v
  | writeNominalFreq | writeRefPhase | writePhaseEnable | writeZcFilter | writeZcEdge | writeSettleCount
  | writeBeaconInterval | writeCarrierPrimary | writeCarrierAlternate | writeLevelMax | writeMinMargin | writeLevelBase
  | writeQTarget | writeLevelBroadcast | writeRetryMax | writeRelayAfter | writeRepeatSpacing | writeLinkRate
  | writeNoticeMode | writeStationId | writeNoticeLevels =>
    exact hl.takeRequest h fun q _ h => readThen_keeps h fun v => h.handleParamWrite q v
  | resetSoft =>
    exact hl.takeRequest h fun _ _ h => readThen_keeps h fun _ => handleReset_keeps h (h.congr rfl rfl rfl)
  | resetWipe e =>
    show Answers _ (execResetWipe e s)
    unfold execResetWipe
    split
    · exact answers_next h
    · exact answers_when h fun _ => RecordsKept.beginWipe (s := dropRequest s) (h.congr rfl rfl rfl) _ _
  | wipeEnd =>
    show Answers _ (execWipeEnd s)
    unfold execWipeEnd
    split
    · exact answers_next h
    · exact answers_when h fun _ => h.endWipe _
  | noticeFetch => exact hl.takeKind h fun _ _ _ h => handleNoticeFetch_keeps h fun _ _ _ => h.congr rfl rfl rfl
  | countSet =>
    exact hl.takeKind h fun _ _ _ h => handleCountSet_keeps h
      (((h.setCount _).moveFlight _).moveTimes _).closingStep
  | orderAdd =>
    exact hl.takeKind h fun _ _ _ h => handleOrderAdd_keeps h fun _ _ hroom => h.placeAdmitted _ _ _ hroom
  | orderCancel =>
    exact hl.takeKind h fun _ _ _ h => withOrder_keeps h fun _ o hf =>
      cancelOrder_keeps h (h.withdraw o (h.foundOrder hf)) fun f _ => h.convert o f (h.foundOrder hf)
  | orderRead => exact hl.takeKind h fun _ _ _ h => withOrder_keeps h fun _ _ _ => h
  | orderList => exact hl.takeKind h fun _ _ _ h => by rwa [handleOrderList_state]
  | orderClear =>
    exact hl.takeKind h fun _ _ _ h => withOrder_keeps h fun _ _ hf =>
      clearOrder_keeps h (h.dropOrder (h.foundOrder hf))
  | rxAdd =>
    exact hl.takeKind h fun _ _ _ h => handleRxAdd_keeps h fun _ hroom => h.addReceiver rfl _ hroom
  | rxUpdate =>
    exact hl.takeKind h fun _ u _ h => handleRxUpdate_keeps h fun i r r' hf hr => by
      obtain ⟨hi, hsound⟩ := h.foundReceiver hf
      refine h.putReceiver hi fun hl => ?_
      obtain ⟨rfl, -⟩ | rfl := hr
      · exact (hsound hl).of_same (onto_lists u r).1 (onto_lists u r).2
      · exact listSound_of_nil rfl
  | rxRemove =>
    exact hl.takeKind h fun _ _ _ h => withReceiver_keeps h fun i r hf => by
      rw [handleRxRemove_state]
      exact h.removeReceiver r (h.foundReceiver hf).1
  | rxRead => exact hl.takeKind h fun _ _ _ h => withReceiver_keeps h fun _ _ _ => h
  | rxList => exact hl.takeKind h fun _ _ _ h => by rwa [handleRxList_state]
  | probe => exact hl.takeKind h fun _ _ _ h => handleProbe_keeps h fun _ _ => h.congr rfl rfl rfl

/-- Settles O5: the positions are those of `exec_recordsKept`; that the command is well formed is not needed. -/
theorem positionsStayCanonical : Obligations.PositionsStayCanonical := by
  intro i s t _ h hstep
  have hkept : RecordsKept True False s := ⟨fun _ => h, False.elim⟩
  exact ((exec_recordsKept i hkept).of_eq hstep).1 trivial

/-- Settles O6: the lists are those of `exec_recordsKept`, whatever positions the state holds. -/
theorem deliveryListsStaySound : Obligations.DeliveryListsStaySound := by
  intro i s t h hstep
  have hkept : RecordsKept False True s := ⟨False.elim, fun _ => h⟩
  exact ((exec_recordsKept i hkept).of_eq hstep).2 trivial

end Sys2Proof.Safety
end

