-- ==== Sys2Proof/Proofs/Crossings.lean ====
section
/-! PROOFS. The block as a machine, and the Mains Timebase: crossings and edges, the count advance, the counts' expiries, and
the ends of a phase's and of the device timebase's states. -/

namespace Sys2Proof.Machine

section
variable {s : State} {p : Phase}

/-! ## The end of settling, where it is owed -/

theorem endSettling_tb_of_not_settling (h : s.tb.state ≠ .settling) : (endSettling s).tb = s.tb := by
  simp [endSettling, h]

/-- Without an end of settling owed, or outside SETTLING, the Timebase stays as it is. -/
theorem meetSettling_tb (h : s.owed.settleEnd = false ∨ s.tb.state ≠ .settling) : (meetSettling s).tb = s.tb := by
  unfold meetSettling
  split
  · next howed =>
    refine endSettling_tb_of_not_settling (h.resolve_left ?_)
    simp [howed]
  · rfl

theorem meetSettling_of_not_owed (h : s.owed.settleEnd = false) : meetSettling s = s := by simp [meetSettling, h]

@[simp] theorem endSettling_tb (s : State) : (endSettling s).tb.trackers = s.tb.trackers ∧
    (endSettling s).tb.count = s.tb.count ∧ (endSettling s).tb.lastAdvance = s.tb.lastAdvance ∧
    (endSettling s).tb.status = s.tb.status ∧ (endSettling s).tb.crystalPos = s.tb.crystalPos ∧
    (endSettling s).tb.crystalSpan = s.tb.crystalSpan ∧ (endSettling s).tb.crystalRestart = s.tb.crystalRestart := by
  unfold endSettling
  dsimp only
  split <;> simp

@[simp] theorem meetSettling_counts (s : State) : (meetSettling s).tb.trackers = s.tb.trackers ∧
    (meetSettling s).tb.count = s.tb.count ∧ (meetSettling s).tb.lastAdvance = s.tb.lastAdvance ∧
    (meetSettling s).tb.status = s.tb.status ∧ (meetSettling s).tb.crystalPos = s.tb.crystalPos ∧
    (meetSettling s).tb.crystalSpan = s.tb.crystalSpan ∧
    (meetSettling s).tb.crystalRestart = s.tb.crystalRestart := by
  unfold meetSettling
  split <;> simp

@[simp] theorem meetSettling_tracker (s : State) (p : Phase) : (meetSettling s).tracker p = s.tracker p := by
  simp [State.tracker]

@[simp] theorem phaseLocked_tracker (p q : Phase) (s : State) : (phaseLocked p s).tracker q = s.tracker q := by
  unfold phaseLocked enterSettling moveReference State.tracker
  repeat' split
  all_goals simp

/-! ## What the last count advance owes -/

/-- The silence of an ACQUIRING phase alone ends its search. -/
theorem timeOutSilence_tracker (s : State) (p : Phase) {q : Phase} (h : (s.tracker q).state ≠ .acquiring) :
    (timeOutSilence s p).tracker q = s.tracker q := by
  unfold timeOutSilence
  dsimp only
  split
  · next hp =>
    refine setTracker_tracker_ne s _ ?_
    rintro rfl
    exact h hp.1
  · rfl

theorem timeOutAll_tracker {s : State} {q : Phase} (h : (s.tracker q).state ≠ .acquiring) :
    (Phase.all.foldl timeOutSilence s).tracker q = s.tracker q :=
  foldl_keeps (P := fun t => t.tracker q = s.tracker q)
    (fun t p ht => (timeOutSilence_tracker t p (ht ▸ h)).trans ht) Phase.all rfl

/-- The silence of a phase judged, the trackers alone change. -/
theorem timeOutSilence_tb (s : State) (p : Phase) :
    (timeOutSilence s p).tb = { s.tb with trackers := (timeOutSilence s p).tb.trackers } := by
  unfold timeOutSilence
  dsimp only
  split <;> simp

theorem timeOutAll_tb (s : State) : (Phase.all.foldl timeOutSilence s).tb =
    { s.tb with trackers := (Phase.all.foldl timeOutSilence s).tb.trackers } :=
  foldl_keeps (P := fun t => t.tb = { s.tb with trackers := t.tb.trackers })
    (fun t p ht => by rw [timeOutSilence_tb, ht]) Phase.all rfl

theorem timeOutAll_counts (s : State) : (Phase.all.foldl timeOutSilence s).tb.count = s.tb.count ∧
    (Phase.all.foldl timeOutSilence s).tb.lastAdvance = s.tb.lastAdvance ∧
    (Phase.all.foldl timeOutSilence s).tb.status = s.tb.status ∧
    (Phase.all.foldl timeOutSilence s).tb.state = s.tb.state ∧
    (Phase.all.foldl timeOutSilence s).tb.reference = s.tb.reference ∧
    (Phase.all.foldl timeOutSilence s).tb.crystalPos = s.tb.crystalPos ∧
    (Phase.all.foldl timeOutSilence s).tb.crystalSpan = s.tb.crystalSpan ∧
    (Phase.all.foldl timeOutSilence s).tb.crystalRestart = s.tb.crystalRestart := by
  rw [timeOutAll_tb]
  exact ⟨rfl, rfl, rfl, rfl, rfl, rfl, rfl, rfl⟩

@[simp] theorem expireBeaconTimer_tb (s : State) : (expireBeaconTimer s).tb.trackers = s.tb.trackers ∧
    (expireBeaconTimer s).tb.count = s.tb.count ∧ (expireBeaconTimer s).tb.lastAdvance = s.tb.lastAdvance ∧
    (expireBeaconTimer s).tb.status = s.tb.status ∧ (expireBeaconTimer s).tb.state = s.tb.state ∧
    (expireBeaconTimer s).tb.reference = s.tb.reference ∧ (expireBeaconTimer s).tb.crystalPos = s.tb.crystalPos ∧
    (expireBeaconTimer s).tb.crystalSpan = s.tb.crystalSpan ∧
    (expireBeaconTimer s).tb.crystalRestart = s.tb.crystalRestart := by
  unfold expireBeaconTimer
  split <;> simp

@[simp] theorem saveCount_tb (s : State) : (saveCount s).tb.trackers = s.tb.trackers ∧
    (saveCount s).tb.count = s.tb.count ∧ (saveCount s).tb.lastAdvance = s.tb.lastAdvance ∧
    (saveCount s).tb.status = s.tb.status ∧ (saveCount s).tb.state = s.tb.state ∧
    (saveCount s).tb.reference = s.tb.reference ∧ (saveCount s).tb.crystalPos = s.tb.crystalPos ∧
    (saveCount s).tb.crystalSpan = s.tb.crystalSpan ∧ (saveCount s).tb.crystalRestart = s.tb.crystalRestart := by
  unfold saveCount
  split <;> simp

/-- The steps owed leave the count and the crystal interval. -/
theorem catchUp_counts (s : State) : (catchUp s).tb.count = s.tb.count ∧
    (catchUp s).tb.lastAdvance = s.tb.lastAdvance ∧ (catchUp s).tb.status = s.tb.status ∧
    (catchUp s).tb.crystalPos = s.tb.crystalPos ∧ (catchUp s).tb.crystalSpan = s.tb.crystalSpan ∧
    (catchUp s).tb.crystalRestart = s.tb.crystalRestart := by
  simp [catchUp, timeOutAll_counts]

/-- A phase that does not acquire keeps its tracker through the steps owed. -/
theorem catchUp_tracker {s : State} {q : Phase} (h : (s.tracker q).state ≠ .acquiring) :
    (catchUp s).tracker q = s.tracker q := by
  have hquiet := timeOutAll_tracker h
  simpa [catchUp, State.tracker] using hquiet

/-- With no end of settling to come, the steps owed leave the device timebase's state and its reference. -/
theorem catchUp_reference {s : State} (h : s.owed.settleEnd = false ∨ s.tb.state ≠ .settling) :
    (catchUp s).tb.state = s.tb.state ∧ (catchUp s).tb.reference = s.tb.reference := by
  have hmeet := meetSettling_tb (s := Phase.all.foldl timeOutSilence s) (by simpa [timeOutAll_counts] using h)
  simp [catchUp, hmeet, timeOutAll_counts]

/-! ## The count advance -/

theorem hush_of_not_acquiring {t : Tracker} (h : t.state ≠ .acquiring) : t.hush = t := by simp [Tracker.hush, h]

theorem advanceCounts_tracker (time : Nat) (s : State) (q : Phase) :
    (advanceCounts time s).tracker q = (s.tracker q).hush := by
  cases q <;> rfl

theorem countAdvance_tracker {s : State} {q : Phase} (time : Nat) (h : (s.tracker q).state ≠ .acquiring) :
    (countAdvance time s).tracker q = s.tracker q := by
  unfold countAdvance
  rw [advanceCounts_tracker, catchUp_tracker h, hush_of_not_acquiring h]

/-- A count advance raises L by one, at its time, and lowers the line hold. -/
theorem countAdvance_counts (time : Nat) (s : State) : (countAdvance time s).tb.count = s.tb.count + 1 ∧
    (countAdvance time s).tb.lastAdvance = time ∧ (countAdvance time s).tb.status = s.tb.status ∧
    (countAdvance time s).tb.crystalPos = s.tb.crystalPos ∧
    (countAdvance time s).tb.crystalRestart = s.tb.crystalRestart ∧
    (countAdvance time s).sched = { s.sched with hold := s.sched.hold - 1 } := by
  obtain ⟨hcount, -, hstatus, hpos, -, hrestart⟩ := catchUp_counts s
  simp [countAdvance, advanceCounts, Timebase.advance, hcount, hstatus, hpos, hrestart]

theorem advanceCounts_reference (time : Nat) (s : State) : (advanceCounts time s).tb.state = s.tb.state ∧
    (advanceCounts time s).tb.reference = s.tb.reference := ⟨rfl, rfl⟩

theorem countAdvance_reference {s : State} (time : Nat) (h : s.owed.settleEnd = false ∨ s.tb.state ≠ .settling) :
    (countAdvance time s).tb.state = s.tb.state ∧ (countAdvance time s).tb.reference = s.tb.reference := by
  obtain ⟨hstate, hreference⟩ := advanceCounts_reference time (catchUp s)
  exact ⟨hstate.trans (catchUp_reference h).1, hreference.trans (catchUp_reference h).2⟩

/-! ## Crossings -/

@[simp] theorem handOn_tb (p : Phase) (time : Nat) (s : State) :
    (handOn p time s).tb = (s.setTracker p { s.tracker p with lastHanded := some time }).tb := by
  unfold handOn
  dsimp only
  repeat' split
  all_goals rfl

theorem handOn_tracker_self (p : Phase) (time : Nat) (s : State) :
    (handOn p time s).tracker p = { s.tracker p with lastHanded := some time } := by
  simp [State.tracker]

theorem handOn_of_idle {s : State} (p : Phase) (time : Nat) (h : s.engine.transmission = none) :
    handOn p time s = s.setTracker p { s.tracker p with lastHanded := some time } := by
  simp [handOn, h]

/-- A crossing of a phase that does not acquire leaves its tracker but for the time handed on. -/
theorem crossing_tracker_self {s : State} {p : Phase} (time : Nat) (h : (s.tracker p).state ≠ .acquiring) :
    (crossing p time s).tracker p = { s.tracker p with lastHanded := some time } := by
  have hhand : (handOn p time (meetSettling s)).tracker p = { s.tracker p with lastHanded := some time } := by
    rw [handOn_tracker_self, meetSettling_tracker]
  unfold crossing
  dsimp only
  split
  · rw [countAdvance_tracker _ (by rw [hhand]; exact h), hhand]
  · exact hhand

/-- A crossing of a phase that is not the reference, with nothing owed and the line idle, is handed on alone. -/
theorem crossing_of_not_reference {s : State} {p : Phase} (time : Nat) (howed : s.owed.settleEnd = false)
    (href : s.tb.reference ≠ some p) (htx : s.engine.transmission = none) :
    crossing p time s = s.setTracker p { s.tracker p with lastHanded := some time } := by
  unfold crossing
  rw [meetSettling_of_not_owed howed, handOn_of_idle p time htx]
  simp [State.advances, href]

/-- With no end of settling to come, a crossing leaves the device timebase's state and its reference. -/
theorem crossing_reference {s : State} (p : Phase) (time : Nat)
    (h : s.owed.settleEnd = false ∨ s.tb.state ≠ .settling) :
    (crossing p time s).tb.state = s.tb.state ∧ (crossing p time s).tb.reference = s.tb.reference := by
  have htb := meetSettling_tb h
  have hhand : (handOn p time (meetSettling s)).tb.state = s.tb.state ∧
      (handOn p time (meetSettling s)).tb.reference = s.tb.reference := by simp [htb]
  have howed : (handOn p time (meetSettling s)).owed.settleEnd = false ∨
      (handOn p time (meetSettling s)).tb.state ≠ .settling := by
    rw [hhand.1]
    refine h.imp_left fun hn => ?_
    simp [meetSettling_of_not_owed hn, hn]
  unfold crossing
  dsimp only
  split
  · obtain ⟨hst, hre⟩ := countAdvance_reference time howed
    exact ⟨hst.trans hhand.1, hre.trans hhand.2⟩
  · exact hhand

theorem respond_locks (p : Phase) (time : Nat) (s : State) (t : Tracker) : respond p time s (.locks t) =
    crossing p time (phaseLocked p ((meetSettling s).setTracker p t)) := rfl

/-- The tracker that a locking edge leaves. -/
theorem locks_tracker {s : State} {p : Phase} {t : Tracker} (time : Nat) (h : t.state ≠ .acquiring) :
    (respond p time s (.locks t)).tracker p = { t with lastHanded := some time } := by
  have ht : (phaseLocked p ((meetSettling s).setTracker p t)).tracker p = t := by simp
  rw [respond_locks, crossing_tracker_self time (by rw [ht]; exact h), ht]

/-- A phase that locks in OUTAGE takes the device timebase to SETTLING, as its reference (R16). -/
theorem locks_settles {s : State} {p : Phase} {t : Tracker} (time : Nat) (hstate : s.tb.state = .outage)
    (howed : s.owed.settleEnd = false) :
    (respond p time s (.locks t)).tb.state = .settling ∧ (respond p time s (.locks t)).tb.reference = some p := by
  have hsettle : phaseLocked p ((meetSettling s).setTracker p t) = enterSettling p (s.setTracker p t) := by
    simp [meetSettling_of_not_owed howed, phaseLocked, hstate]
  rw [respond_locks, hsettle]
  obtain ⟨hst, hre⟩ := crossing_reference p time (s := enterSettling p (s.setTracker p t))
    (.inl (by simp [howed]))
  rw [hst, hre]
  simp [enterSettling]

/-- A crossing of the reference in RUNNING, far enough after the last advance where that is asked, advances the count. -/
theorem crossing_of_reference {s : State} {p : Phase} {time : Nat} (hstate : s.tb.state = .running)
    (href : s.tb.reference = some p)
    (hspacing : s.tb.spacing = true → s.tb.lastAdvance + (s.tracker p).period / 2 ≤ time) :
    crossing p time s = countAdvance time (handOn p time (meetSettling s)) := by
  have htb : (meetSettling s).tb = s.tb := meetSettling_tb (.inr (by simp [hstate]))
  have hperiod : ((handOn p time (meetSettling s)).tracker p).period = (s.tracker p).period := by
    rw [handOn_tracker_self, meetSettling_tracker]
  have hadvances : (handOn p time (meetSettling s)).advances p time = true := by
    unfold State.advances
    rw [hperiod]
    cases hs : s.tb.spacing with
    | false => simp [htb, hstate, href, hs]
    | true => simp [htb, hstate, href, hs, hspacing hs]
  unfold crossing
  dsimp only
  rw [if_pos hadvances]

/-- The count, and what of the device timebase stays, after such a crossing. -/
theorem crossing_of_reference_counts {s : State} {p : Phase} {time : Nat} (hstate : s.tb.state = .running)
    (href : s.tb.reference = some p)
    (hspacing : s.tb.spacing = true → s.tb.lastAdvance + (s.tracker p).period / 2 ≤ time) :
    (crossing p time s).tb.count = s.tb.count + 1 ∧ (crossing p time s).tb.lastAdvance = time ∧
      (crossing p time s).tb.status = s.tb.status ∧ (crossing p time s).tb.state = .running ∧
      (crossing p time s).tb.reference = some p ∧
      (crossing p time s).sched = { s.sched with hold := s.sched.hold - 1 } := by
  have htb : (meetSettling s).tb = s.tb := meetSettling_tb (.inr (by simp [hstate]))
  have hrunning : (handOn p time (meetSettling s)).tb.state = .running := by simp [htb, hstate]
  rw [crossing_of_reference hstate href hspacing]
  obtain ⟨hcount, hlast, hstatus, -, -, hsched⟩ := countAdvance_counts time (handOn p time (meetSettling s))
  obtain ⟨hst, hreference⟩ :=
    countAdvance_reference time (s := handOn p time (meetSettling s)) (.inr (by rw [hrunning]; simp))
  refine ⟨hcount.trans ?_, hlast, hstatus.trans ?_, hst.trans hrunning, hreference.trans ?_, hsched.trans ?_⟩
  all_goals simp [htb, href]

/-- The crystal's step: a count advance, and the next term of the pattern. -/
theorem crystalStep_counts (s : State) : (crystalStep s).tb.count = s.tb.count + 1 ∧
    (crystalStep s).tb.lastAdvance = s.tb.lastAdvance + s.tb.crystalSpan ∧
    (crystalStep s).sched = { s.sched with hold := s.sched.hold - 1 } ∧
    (crystalStep s).tb.crystalPos =
      (if s.tb.crystalRestart ∨ s.params.nominalFreq = .hz50 then 0 else (s.tb.crystalPos + 1) % 3) ∧
    (crystalStep s).tb.crystalSpan = crystalTerm s.params.nominalFreq (crystalStep s).tb.crystalPos := by
  simp [crystalStep, countAdvance_counts]

theorem crystalStep_state {s : State} (h : s.tb.state = .outage) : (crystalStep s).tb.state = .outage := by
  obtain ⟨hstate, -⟩ := countAdvance_reference (s.tb.lastAdvance + s.tb.crystalSpan) (s := s) (.inr (by simp [h]))
  simp [crystalStep, hstate, h]

end

section
variable {s : State} {p : Phase} {t : Tracker} {params : Params} {time last : Nat}

/-! ## The ends of a phase's states -/

@[simp] theorem checkReference_trackers (s : State) : (checkReference s).tb.trackers = s.tb.trackers := by
  unfold checkReference
  repeat' split
  all_goals simp [moveReference, enterOutage]

theorem enterCoasting_tracker (p : Phase) (s : State) : (enterCoasting p s).tracker p =
    { s.tracker p with state := .coasting, miss := 0, ret := 0, coast := 0 } := by
  simp [enterCoasting, State.tracker]

theorem endCoast_tracker (p : Phase) (s : State) : (endCoast p s).tracker p = { s.tracker p with
    state := .absent, last := none, acquire := 0, silence := 0, miss := 0, ret := 0, coast := 0, derivedDue := false } := by
  simp [endCoast, State.tracker]

/-- What the close of a window leaves of a tracker that it takes on, once the crossing is handed on. -/
theorem crossed_tracker {s : State} {p : Phase} {t : Tracker} (time : Nat) (h : t.state ≠ .acquiring) :
    (meetSettling (crossing p time (s.setTracker p t))).tracker p = { t with lastHanded := some time } := by
  rw [meetSettling_tracker, crossing_tracker_self time (by simpa using h), setTracker_tracker_self]

/-- The third synthesised crossing in succession (R9). -/
theorem closeWindow_coasts {s : State} {p : Phase} {last : Nat} (hlast : (s.tracker p).last = some last)
    (hlocked : (s.tracker p).state = .locked) (hmiss : (s.tracker p).miss = 2) :
    (closeWindow p s).tracker p = { s.tracker p with
      state := .coasting, miss := 0, ret := 0, coast := 0
      last := some (predicted (s.params.edge.get p) (s.tracker p) last)
      lastFull := if s.params.edge.get p = .rising then some (2 * (s.tracker p).period) else (s.tracker p).lastFull
      derivedDue := s.params.edge.get p == .rising
      lastHanded := some (predicted (s.params.edge.get p) (s.tracker p) last) } := by
  simp only [closeWindow, hlast, hlocked, hmiss]
  rw [if_pos (by decide), enterCoasting_tracker, crossed_tracker _ (by simp [Tracker.synthesise, hlocked])]
  rfl

/-- The two-hundredth synthesised crossing in succession (R10). -/
theorem closeWindow_ends {s : State} {p : Phase} {last : Nat} (hlast : (s.tracker p).last = some last)
    (hcoasting : (s.tracker p).state = .coasting) (hcoast : (s.tracker p).coast = 199) :
    (closeWindow p s).tracker p = { s.tracker p with
      state := .absent, last := none, acquire := 0, silence := 0, miss := 0, ret := 0, coast := 0, derivedDue := false
      lastFull := if s.params.edge.get p = .rising then some (2 * (s.tracker p).period) else (s.tracker p).lastFull
      lastHanded := some (predicted (s.params.edge.get p) (s.tracker p) last) } := by
  simp only [closeWindow, hlast, hcoasting, hcoast]
  rw [if_pos (by decide), endCoast_tracker, crossed_tracker _ (by simp [Tracker.synthesise, hcoasting])]
  rfl

/-! ## Edges -/

theorem filterRun_accepted {level : Bool} {run : Nat} (h : Safety.EdgeAccepted s p level run) :
    filterRun (s.params.filter.get p) (s.tracker p).settled level run = (some level, true) := by
  obtain ⟨hsettled, hrun⟩ := h
  simp [filterRun, hsettled, hrun]

/-- An accepted edge that the mode presents reaches the tracker. -/
theorem edgeStep_presented {level : Bool} {run : Nat} (h : Safety.EdgeAccepted s p level run)
    (hp : presented (s.params.edge.get p) level = true) (time : Nat) : edgeStep s p time level run =
      presentCrossing s.params p time { s.tracker p with settled := some level } := by
  simp [edgeStep, filterRun_accepted h, hp]

theorem presentCrossing_locked (hs : t.state = .locked) (hl : t.last = some last)
    (hw : insideWindow params.nominalFreq (params.edge.get p) t last time = true) :
    presentCrossing params p time t = .crosses { t.accept (params.edge.get p) last time with
      miss := 0, derivedDue := params.edge.get p == .rising } := by
  simp [presentCrossing, hs, hl, hw]

/-- Outside the window of a LOCKED or COASTING phase an edge changes nothing. -/
theorem presentCrossing_outside (hs : t.tracked = true) (hl : t.last = some last)
    (hw : insideWindow params.nominalFreq (params.edge.get p) t last time = false) :
    presentCrossing params p time t = .quiet t := by
  have htracked : t.state = .locked ∨ t.state = .coasting := by simpa [Tracker.tracked] using hs
  obtain hs | hs := htracked <;> simp [presentCrossing, hs, hl, hw]

/-- The sixteenth in-range interval in succession locks an ACQUIRING phase. -/
theorem presentCrossing_acquires (hs : t.state = .acquiring) (hi : t.ignoreNext = false) (hl : t.last = some last)
    (hr : inRange params.nominalFreq (intervalOf (params.edge.get p) last time) = true) (ha : t.acquire = 15) :
    presentCrossing params p time t =
      .locks (({ t.accept (params.edge.get p) last time with silence := 0 } : Tracker).lock (params.edge.get p)) := by
  simp [presentCrossing, hs, hi, hl, hr, ha, Config.acquireLimit]

/-- The fourth crossing accepted in succession returns a COASTING phase to LOCKED. -/
theorem presentCrossing_returns (hs : t.state = .coasting) (hl : t.last = some last)
    (hw : insideWindow params.nominalFreq (params.edge.get p) t last time = true) (hr : t.ret = 3) :
    presentCrossing params p time t =
      .locks ((t.accept (params.edge.get p) last time).lock (params.edge.get p)) := by
  simp [presentCrossing, hs, hl, hw, hr, Config.returnLimit]

end

end Sys2Proof.Machine
end

