-- ==== Sys2Proof/Proofs/TimebaseClaims.lean ====
section
/-! PROOFS. What is stated of the block as a machine and of the Mains Timebase, from the laws of its crossings. -/

namespace Sys2Proof.Safety

open Sys2Proof.Machine

/-- Settles O1: the model's own equations of a step. -/
theorem stepRunsTheFrontCommand : Obligations.StepRunsTheFrontCommand :=
  ⟨fun _ _ _ => step_cons rfl, fun _ => step_nil rfl⟩

/-- Settles O7: reset holds nothing but the first notice, and the store's fixed positions have been written. -/
theorem resetKeepsTheLaws : Obligations.ResetKeepsTheLaws := by
  refine ⟨⟨by decide, by decide, by decide, List.pairwise_singleton ..⟩, ⟨by decide, by decide⟩, ?_, ?_⟩
  · refine (canonical_iff _).2 ⟨⟨rfl, by simp [State.reset]⟩, ⟨rfl, by simp [State.reset]⟩, ?_, by simp [State.reset,
      RetainedStore.factory], by decide⟩
    refine ⟨⟨⟨rfl, by simp [State.reset, RetainedStore.factory]⟩, by simp [State.reset, RetainedStore.factory]⟩,
      ⟨⟨rfl, by simp [State.reset, RetainedStore.factory]⟩, by simp [State.reset, RetainedStore.factory]⟩, ?_, ?_⟩
    · exact (wordsOf_length _).trans (configNumbers_length _)
    · exact wordsOf_length _
  · exact (listsSound_iff _).2 ⟨by simp [State.reset], by simp [State.reset, RetainedStore.factory]⟩

/-- Settles O8: the edge is the phase's crossing, and a crossing of a phase that is not the reference is handed on alone. -/
theorem edgeInsideWindowUpdatesPeriod : Obligations.EdgeInsideWindowUpdatesPeriod := by
  intro s p time level run last hpow hlocked hacc hin href howed htx
  obtain ⟨hlast, hpres, hwin⟩ := hin
  refine (when_true hpow).trans (congrArg _ ?_)
  unfold takeEdge
  rw [edgeStep_presented hacc hpres, presentCrossing_locked (by exact hlocked) (by exact hlast) (by exact hwin), respond,
    crossing_of_not_reference time (by exact howed) (by exact href) (by exact htx)]
  simp [Tracker.accept, updatePeriod, State.setTracker, State.tracker]

/-- Settles O9: an edge that the mode or the window holds back leaves the tracker but for the filter's level. -/
theorem otherEdgesAreDiscarded : Obligations.OtherEdgesAreDiscarded := by
  intro s p time level run hpow
  refine ⟨fun hacc hout => (when_true hpow).trans (congrArg _ ?_), fun hsettled hrun =>
    (when_true hpow).trans (congrArg _ ?_)⟩
  · have hstep : edgeStep s p time level run = .quiet { s.tracker p with settled := some level } := by
      obtain ⟨hmode, rfl⟩ | ⟨htracked, last, hlast, hwin⟩ := hout
      · simp [edgeStep, filterRun_accepted hacc, presented, hmode]
      · by_cases hpres : presented (s.params.edge.get p) level = true
        · rw [edgeStep_presented hacc hpres]
          exact presentCrossing_outside htracked hlast hwin
        · simp [edgeStep, filterRun_accepted hacc, hpres]
    simp [takeEdge, hstep, respond]
  · have hshort : ¬ filterSamples (s.params.filter.get p) ≤ run := by omega
    have hfilter : filterRun (s.params.filter.get p) (s.tracker p).settled level run = ((s.tracker p).settled, false) := by
      simp [filterRun, hsettled, hshort]
    simp [takeEdge, edgeStep, hfilter, respond]

/-- Settles O10: below its limit a synthesised crossing of a phase that is not the reference is handed on alone. -/
theorem emptyWindowSynthesises : Obligations.EmptyWindowSynthesises := by
  intro s p last hpow hlast href howed htx
  have hcross (t : Tracker) (time : Nat) : crossing p time (s.setTracker p t) =
      s.setTracker p { t with lastHanded := some time } := by
    rw [crossing_of_not_reference time (by exact howed) (by exact href) (by exact htx)]
    simp [State.setTracker, State.tracker]
  refine ⟨fun hlocked hmiss => (when_true hpow).trans (congrArg _ ?_), fun hcoasting hcoast =>
    (when_true hpow).trans (congrArg _ ?_)⟩
  · have hbelow : ¬ Config.missLimit ≤ (s.tracker p).miss + 1 := by unfold Config.missLimit; omega
    simp [closeWindow, hlast, hlocked, hcross, hbelow, Tracker.synthesise]
  · have hbelow : ¬ Config.coastLimit ≤ (s.tracker p).coast + 1 := by unfold Config.coastLimit; omega
    simp [closeWindow, hlast, hcoasting, hcross, hbelow, Tracker.synthesise]

/-- Settles O11: the crossing lies far enough after the last advance, so that it is a count advance. -/
theorem referenceCrossingAdvancesCount : Obligations.ReferenceCrossingAdvancesCount := by
  intro s p last hpow hlast hlocked hmiss hrunning href hspacing
  let time := predicted (s.params.edge.get p) (s.tracker p) last
  let t : Tracker := { (s.tracker p).synthesise (s.params.edge.get p) time with miss := (s.tracker p).miss + 1 }
  have hbelow : ¬ Config.missLimit ≤ (s.tracker p).miss + 1 := by unfold Config.missLimit; omega
  have hclose : closeWindow p s = crossing p time (s.setTracker p t) := by
    simp [closeWindow, hlast, hlocked, hbelow, time, t]
  have ht : (s.setTracker p t).tracker p = t := setTracker_tracker_self ..
  have htracker := crossing_tracker_self (s := s.setTracker p t) (p := p) time
    (by rw [ht]; simp [t, Tracker.synthesise, hlocked])
  rw [ht] at htracker
  obtain ⟨hcount, hadvance, hstatus, hstate, hreference, hsched⟩ :=
    crossing_of_reference_counts (s := s.setTracker p t) (p := p) (time := time) hrunning href
      (by rw [ht]; exact hspacing)
  refine ⟨crossing p time (s.setTracker p t), (when_true hpow).trans (congrArg _ hclose), hcount, hadvance, ?_, ?_, ?_,
    hsched, by simp, by simp, by simp, hreference, hstate, hstatus⟩
  all_goals rw [htracker]
  exact hlocked
  all_goals rfl

/-- Settles O12: the derived crossing of a phase that is not the reference is handed on alone. -/
theorem derivedCrossingIsHandedOn : Obligations.DerivedCrossingIsHandedOn := by
  intro s p last hpow hrising hdue htracked hlast href howed htx
  refine (when_true hpow).trans (congrArg _ ?_)
  have hcross (t : Tracker) (time : Nat) : crossing p time (s.setTracker p t) =
      s.setTracker p { t with lastHanded := some time } := by
    rw [crossing_of_not_reference time (by exact howed) (by exact href) (by exact htx)]
    simp [State.setTracker, State.tracker]
  simp [deriveCrossing, hlast, hdue, htracked, hrising, hcross, derivedTime]

/-- Settles O13: the expiry is a count advance, and the next term of the pattern begins. -/
theorem crystalAdvancesCountInOutage : Obligations.CrystalAdvancesCountInOutage := by
  intro s hpow hrestoring houtage
  obtain ⟨hcount, hadvance, hsched, hpos, hspan⟩ := crystalStep_counts s
  refine ⟨crystalStep s, when_true (by simp [State.working, hpow, hrestoring, houtage]), hcount, hadvance,
    crystalStep_state houtage, hsched, by simp, by simp, fun h50 => ?_, fun h60 hr _ => ⟨?_, ?_⟩⟩
  · rw [hspan, h50]
    rfl
  · simp [hpos, h60, hr]
  · rw [hspan, h60]
    rfl

/-- Settles O14: the edge locks the phase, and its crossing leaves the tracker but for the time handed on. -/
theorem crossingsInSuccessionLock : Obligations.CrossingsInSuccessionLock := by
  intro s p time level run last hpow hacc hpres hlast
  have hedge := edgeStep_presented hacc hpres time
  have hlocks (t : Tracker) (hs : t.state = .locked) (hstep : edgeStep s p time level run = .locks t) :
      (takeEdge p time level run s).tracker p = { t with lastHanded := some time } := by
    unfold takeEdge
    rw [hstep]
    exact locks_tracker time (by simp [hs])
  refine ⟨fun hstate hignore hrange hacquire => ?_, fun hstate hret hwin => ?_⟩
  · have hstep := hedge.trans (presentCrossing_acquires hstate hignore hlast hrange hacquire)
    have htracker := hlocks _ rfl hstep
    refine ⟨takeEdge p time level run s, when_true (by simp [hpow, State.edgeLocks, hstate, hstep]), ?_, ?_, ?_,
      by simp, fun houtage howed => ?_⟩
    · rw [htracker]
      rfl
    · rw [htracker]
      rfl
    · rw [htracker]
      rfl
    · unfold takeEdge
      rw [hstep]
      exact locks_settles time houtage howed
  · have hstep := hedge.trans (presentCrossing_returns hstate hlast hwin hret)
    have htracker := hlocks _ rfl hstep
    refine ⟨takeEdge p time level run s, when_true (by simp [hpow, State.edgeLocks, hstate, hstep]), ?_, ?_, ?_,
      by simp⟩
    all_goals rw [htracker]; rfl

/-- Settles O15: the crossing leaves the tracker but for the time handed on, and then the phase leaves its state. -/
theorem missedCrossingsCoastThenEnd : Obligations.MissedCrossingsCoastThenEnd := by
  intro s p last hpow hlast
  refine ⟨fun hlocked hmiss => ?_, fun hcoasting hcoast => ?_⟩
  · refine ⟨closeWindow p s, when_true (by simp [hpow, State.locked, hlocked, hmiss, Config.missLimit]), ?_⟩
    rw [closeWindow_coasts hlast hlocked hmiss]
    exact ⟨rfl, rfl, rfl, rfl, rfl, by simp, by simp⟩
  · refine ⟨closeWindow p s, when_true (by simp [hpow, hcoasting, hcoast, Config.coastLimit]), ?_⟩
    rw [closeWindow_ends hlast hcoasting hcoast]
    exact ⟨rfl, rfl, rfl, rfl, rfl, rfl, rfl, by simp, by simp⟩

/-- Settles O16: the reference chosen afresh is REF_PHASE where it is LOCKED, otherwise the first LOCKED. -/
theorem settlingEndsInRunning : Obligations.SettlingEndsInRunning := by
  intro s hpow howed hsettling hany
  let cause : TimebaseCause := if s.chosenReference = s.tb.reference then .running else .settleChoice
  let u : State := { s with
    tb := { s.tb with
      state := .running, reference := s.chosenReference, beaconDue := true
      spacing := if s.chosenReference = s.tb.reference then s.tb.spacing else true }
    owed := { s.owed with settleEnd := false } }
  have hend : endSettling s = queueNotice .timebase 0
      (timebaseFields cause s.tb.reference s.chosenReference .running s.tb.count) u := by
    simp [endSettling, howed, hsettling, hany, noteTimebase, State.count, u, cause]
  have htb : (endSettling s).tb = u.tb := by rw [hend]; simp
  refine ⟨endSettling s, when_true (by simp [hpow, howed]), ?_⟩
  rw [htb]
  refine ⟨rfl, rfl, rfl, rfl, fun hlocked => ?_, fun hlocked => ?_, fun hne => ?_, ?_, ?_⟩
  · simp [u, State.chosenReference, hlocked]
  · simp [u, State.chosenReference, hlocked]
  · exact if_neg hne
  · rw [hend]
    exact queueNotice_link_congr _ _ _ rfl rfl
  · rw [hend]
    exact queueNotice_eq _ _ _ u

/-- Settles O17: what the end of each count brings, as the model writes it. -/
theorem timebaseCountsExpire : Obligations.TimebaseCountsExpire := by
  refine ⟨fun s p hpow hstate hsilence => ?_, fun s hpow howed => ?_, fun s hpow hcadence hwiping => ?_⟩
  · refine (when_true hpow).trans (congrArg _ ?_)
    simp [timeOutSilence, hstate, hsilence, Config.silenceLimit]
  · refine (when_true hpow).trans (congrArg _ ?_)
    simp [expireBeaconTimer, howed]
  · refine (when_true hpow).trans (congrArg _ ?_)
    simp [saveCount, hcadence, Config.saveCadence, askSavedCount, askWrite, hwiping, State.count]

/-- Settles O18: the two recoveries as the model writes them. -/
theorem driverRecovers : Obligations.DriverRecovers := by
  refine ⟨fun s hpow hfault hcool => ?_, fun s hpow hrecovery hcap => ?_⟩
  · let u : State := { s with driver := { s.driver with state := .ready, cool := 0 } }
    have hend : endCoolDown s = queueNotice .driver 0 (driverFields .ready 0 0 s.driver.cap 0 0 s.count) u := by
      simp [endCoolDown, hfault, hcool, Config.coolCount, u]
    have hdriver : (endCoolDown s).driver = u.driver := by rw [hend]; simp
    refine ⟨endCoolDown s, when_true hpow, hdriver, ?_, by simp, by simp, by simp⟩
    rw [hdriver, hend]
    exact queueNotice_eq _ _ _ u
  · refine (when_true hpow).trans (congrArg _ ?_)
    unfold recoverCap
    rw [if_pos ⟨hrecovery, hcap⟩]

end Sys2Proof.Safety
end

