-- ==== Sys2Proof/Proofs/LineClaims.lean ====
section
/-! PROOFS. The part's leg on the line: its cell windows, its completion, over-current, and the spans of the Answer
Receiver. -/

namespace Sys2Proof.Machine

variable {s : State}

/-! ## Cell windows -/

theorem windowComes_of_lead {p : Phase} {tx : Transmission} (htx : s.engine.transmission = some tx)
    (hstate : s.engine.state = .preparing) (hlive : s.engine.live.get p = true) (hseen : s.engine.seen.get p = 1)
    (hopened : s.engine.opened.get p = 0) : s.windowComes p = true := by
  simp [State.windowComes, htx, hlive, hstate, hseen, hopened, Burst.length]

theorem windowComes_of_later {p : Phase} {tx : Transmission} (htx : s.engine.transmission = some tx)
    (hstate : s.engine.state = .sending) (hlive : s.engine.live.get p = true)
    (hopened : s.engine.opened.get p < s.engine.seen.get p) (hlen : s.engine.seen.get p ≤ tx.burst.length) :
    s.windowComes p = true := by
  simp [State.windowComes, htx, hlive, hstate, hopened, hlen]

theorem openWindow_lead {p : Phase} {tx : Transmission} (htx : s.engine.transmission = some tx)
    (hstate : s.engine.state = .preparing) (hmay : s.maySend p = true) :
    openWindow p s = sendCell p (s.engine.seen.get p - 1) tx.burst (openTheLeg (noteOpened p s)) := by
  have hmay' : (openTheLeg (noteOpened p s)).maySend p = true := hmay
  have hstate' : (noteOpened p s).engine.state = .preparing := hstate
  simp only [openWindow, htx, if_pos hstate', if_pos hmay']
  rfl

theorem openWindow_later {p : Phase} {tx : Transmission} (htx : s.engine.transmission = some tx)
    (hstate : s.engine.state = .sending) (hmay : s.maySend p = true) :
    openWindow p s = sendCell p (s.engine.seen.get p - 1) tx.burst (noteOpened p s) := by
  have hmay' : (noteOpened p s).maySend p = true := hmay
  have hstate' : ¬ (noteOpened p s).engine.state = .preparing := by simp [noteOpened, hstate]
  simp only [openWindow, htx, if_neg hstate', if_pos hmay']
  rfl

theorem openWindow_withheld {p : Phase} {tx : Transmission} (htx : s.engine.transmission = some tx)
    (hstate : s.engine.state = .sending) (hmay : s.maySend p = false) :
    openWindow p s = losePhase p (reportWithheld p (s.engine.seen.get p - 1) (noteOpened p s)) := by
  have hmay' : ¬ (noteOpened p s).maySend p = true := by rw [show (noteOpened p s).maySend p = false from hmay]; simp
  have hstate' : ¬ (noteOpened p s).engine.state = .preparing := by simp [noteOpened, hstate]
  simp only [openWindow, htx, if_neg hstate', if_neg hmay']
  rfl

theorem appendLeg_eq (h : List Bool) :
    appendLeg h = (if h.length < 64 then h else h.drop 1) ++ [false] := by
  unfold appendLeg
  cases h with
  | nil => rfl
  | cons b h =>
    by_cases hlen : h.length + 1 < 64
    · simp [Config.historyLength, hlen, show ¬ 64 < h.length + 1 + 1 by omega]
    · simp [Config.historyLength, hlen, show 64 < h.length + 1 + 1 by omega]

/-- A live phase that leaves a beacon or repeat with another live phase goes quiet, and the leg goes on. -/
theorem losePhase_keeps_leg {p : Phase} {tx : Transmission} (htx : s.engine.transmission = some tx)
    (hx : tx.exchange = none) (hlive : s.engine.live.get p = true)
    (hleft : noPhase (s.engine.live.set p false) = false) :
    losePhase p s = { s with
      engine := { s.engine with live := s.engine.live.set p false }
      driver := { s.driver with windows := s.driver.windows.set p none } } := by
  simp [losePhase, htx, hx, hlive, hleft]

/-- The causes reported are the conditions that fail. -/
theorem mem_withholds (p : Phase) :
    (.phaseNotLocked ∈ s.withholds p ↔ s.locked p = false) ∧ (.notRunning ∈ s.withholds p ↔ s.tb.state ≠ .running) ∧
    (.unconfirmed ∈ s.withholds p ↔ s.tb.status = .unconfirmed) ∧
    (.driverFault ∈ s.withholds p ↔ s.driver.state = .fault) := by
  have hstatus : s.confirmed = true ↔ ¬ s.tb.status = .unconfirmed := by
    unfold State.confirmed
    cases s.tb.status <;> decide
  have hdriver : s.driver.state = .ready ↔ ¬ s.driver.state = .fault := by
    cases s.driver.state <;> decide
  unfold State.withholds
  by_cases h1 : s.locked p = true <;> by_cases h2 : s.tb.state = .running <;>
    by_cases h3 : s.tb.status = .unconfirmed <;> by_cases h4 : s.driver.state = .fault <;>
    simp [h1, h2, h3, h4, hstatus, hdriver]

/-! ## The end of a leg -/

theorem endLeg_of_open {leg : OpenLeg} (done : Bool) (hleg : s.driver.openLeg = some leg) :
    endLeg done s = { s with
      driver := { s.driver with openLeg := none, windows := .const none }
      engine := { s.engine with
        report := some ⟨done, leg.sent.length, leg.opening, s.driver.legLevel, leg.overCurrent⟩ } } := by
  simp [endLeg, hleg]

theorem endLeg_openLeg (done : Bool) : (endLeg done s).driver.openLeg = none := by
  cases h : s.driver.openLeg <;> simp [endLeg, h]

theorem completeLeg_broadcast {tx : Transmission} (htx : s.engine.transmission = some tx) (hx : tx.exchange = none) :
    completeLeg s = finishTransmission (reportBroadcast (endLeg true s)) := by
  simp [completeLeg, htx, hx]

theorem completeLeg_exchange {tx : Transmission} {x : ExchangeTimes} (htx : s.engine.transmission = some tx)
    (hx : tx.exchange = some x) : completeLeg s = { endLeg true s with
      engine := { (endLeg true s).engine with state := if 0 < x.hops then .relaying else .listening } } := by
  simp [completeLeg, htx, hx]

/-- An order with other slot fields is the same order in the same state. -/
theorem mapFields_frame {o : Order} {f : SlotFields} (g : SlotFields → SlotFields) (hf : o.fields = some f) :
    (o.mapFields g).fields = some (g f) ∧ { o.mapFields g with state := o.state } = o ∧
    (o.mapFields g).isActive = o.isActive := by
  cases hs : o.state with
  | pending => simp [Order.fields, hs] at hf
  | closed n x => simp [Order.fields, hs] at hf
  | active f' =>
    obtain rfl : f' = f := by simpa [Order.fields, hs] using hf
    refine ⟨by simp [Order.fields, Order.mapFields, hs], ?_, by simp [Order.mapFields, Order.isActive, hs]⟩
    simp only [Order.mapFields, hs]
    rw [← hs]
  | revoking f' =>
    obtain rfl : f' = f := by simpa [Order.fields, hs] using hf
    refine ⟨by simp [Order.fields, Order.mapFields, hs], ?_, by simp [Order.mapFields, Order.isActive, hs]⟩
    simp only [Order.mapFields, hs]
    rw [← hs]

/-- A completed repeat changes its own order and nothing else but the write list. -/
theorem countRepeat_eq {r : RepeatRecord} {n : Nat} {o : Order} (start : Count)
    (hheld : s.heldBy r.slot r.admission r.revoking = some (n, o)) :
    countRepeat start r s = putOrder n (o.mapFields fun f => { f with
      sent := f.sent + 1
      nextRepeat := later start s.params.repeatSpacing + BitVec.ofInt 32 s.engine.displacement }) s := by
  simp [countRepeat, hheld]

/-! ## Over-current -/

/-- A leg already marked folds back and nothing more. -/
theorem takeOverCurrent_marked {leg : OpenLeg} (time : Nat) (hleg : s.driver.openLeg = some leg)
    (hmark : leg.overCurrent = true) : takeOverCurrent time s = foldBack time s := by
  simp [takeOverCurrent, hleg, hmark]

theorem takeOverCurrent_first {leg : OpenLeg} (time : Nat) (hleg : s.driver.openLeg = some leg)
    (hmark : leg.overCurrent = false) :
    takeOverCurrent time s = markLeg s.driver.legLevel leg (foldBack time s) := by
  simp [takeOverCurrent, hleg, hmark]

/-- The driver with its leg marked, the third mark not yet reached. -/
def legMarked (leg : OpenLeg) (s : State) : State :=
  { s with driver := { s.driver with
    history := markNewest s.driver.history, openLeg := some { leg with overCurrent := true } } }

theorem markLeg_below {leg : OpenLeg} (before : Nat) (hfew : s.driver.history.count true < 2) :
    markLeg before leg s = queueNotice .driver 0 (driverFields .foldBack before s.driver.legLevel s.driver.cap
      (s.driver.history.count true) s.flightCode s.count) (legMarked leg s) := by
  have hbelow : ¬ Config.faultMarks ≤ s.driver.history.count true + 1 := by
    simp only [Config.faultMarks]
    omega
  simp only [markLeg, if_neg hbelow]
  rfl

/-- The driver in FAULT by the mark of a leg. -/
def faulted (leg : OpenLeg) (s : State) : State :=
  { s with driver := { s.driver with
    state := .fault, cool := 0, history := [], openLeg := some { leg with overCurrent := true } } }

theorem markLeg_third {leg : OpenLeg} (before : Nat) (hmany : 2 ≤ s.driver.history.count true) :
    ∃ fields, markLeg before leg s = endEarly .fault (queueNotice .driver 0 fields (faulted leg s)) := by
  have hthird : Config.faultMarks ≤ s.driver.history.count true + 1 := by
    simp only [Config.faultMarks]
    omega
  simp only [markLeg, if_pos hthird]
  exact ⟨_, rfl⟩

/-! ## Ends of a transmission -/

/-- No transmission stands and nothing is handed over. -/
def State.lineFree (s : State) : Prop :=
  s.engine.state = .idle ∧ s.engine.transmission = none ∧ s.sched.handOver = none

theorem finishTransmission_lineFree : (finishTransmission s).lineFree := ⟨rfl, rfl, rfl⟩

theorem closeDelivery_lineFree (start : Count) (d : DeliveryRecord) (out : Outcome) :
    (closeDelivery start d out s).lineFree := by
  unfold closeDelivery
  split
  · exact finishTransmission_lineFree
  · split
    · exact finishTransmission_lineFree
    · dsimp only
      split <;> exact finishTransmission_lineFree

theorem closeProbe_lineFree (start : Count) (p : ProbeRecord) (out : Outcome) :
    (closeProbe start p out s).lineFree := by
  unfold closeProbe
  dsimp only
  split
  · exact finishTransmission_lineFree
  · split
    · exact finishTransmission_lineFree
    · split <;> exact finishTransmission_lineFree

theorem closeExchange_lineFree (out : Outcome) : (closeExchange out s).lineFree := by
  unfold closeExchange
  dsimp only
  split
  · exact finishTransmission_lineFree
  · split
    · exact closeDelivery_lineFree ..
    · exact closeProbe_lineFree ..
    · exact finishTransmission_lineFree
    · exact finishTransmission_lineFree

/-- The early end of a transmission leaves no leg open and the line free. -/
theorem endEarly_lineFree {tx : Transmission} (cause : AbortCause) (htx : s.engine.transmission = some tx) :
    (endEarly cause s).lineFree ∧ (endEarly cause s).driver.openLeg = none := by
  simp only [endEarly, htx]
  split
  · refine ⟨closeExchange_lineFree _, ?_⟩
    simpa [abortExchange, answerIdle] using endLeg_openLeg false
  · exact ⟨finishTransmission_lineFree, endLeg_openLeg false⟩

/-! ## The exchange under way -/

theorem exchangeNow_of {tx : Transmission} {x : ExchangeTimes} (htx : s.engine.transmission = some tx)
    (hx : tx.exchange = some x) : s.exchangeNow = some (x, tx.burst, s.engine.seen.get x.first) := by
  simp [State.exchangeNow, htx, hx]

end Sys2Proof.Machine

namespace Sys2Proof.Safety

open Sys2Proof.Machine

/-- Settles O19: the window's opening is the sending of the lead cell in the state with the leg just opened. -/
theorem leadCellOpensTheLeg : Obligations.LeadCellOpensTheLeg := by
  intro s p tx crossed hpow htx hstate hlive hseen hopened hmay hcrossed
  let t := sendCell p 0 tx.burst (openTheLeg (noteOpened p s))
  have hopen : openWindow p s = t := by rw [openWindow_lead htx hstate hmay, hseen]
  have htime : (openTheLeg (noteOpened p s)).windowTime p = crossed + 1200 := by
    show (s.tracker p).lastHanded.getD 0 + 1200 = _
    rw [hcrossed]
    rfl
  have hwin : t.driver.windows.get p =
      some ⟨crossed + 1200, leadSymbols, min s.driver.buffer s.driver.cap, s.selectedDivider, false⟩ := by
    show ((s.driver.windows.set p _).get p) = _
    rw [PerPhase.get_set_self, htime]
    simp [openTheLeg, noteOpened, Burst.symbolsAt, State.selectedDivider]
  have hleg : t.driver.openLeg = some ⟨s.engine.live, min s.driver.buffer s.driver.cap, [0], false⟩ := rfl
  refine ⟨t, (when_true ?_).trans (congrArg _ hopen), ?_, hleg, ?_, rfl, rfl, fun time => ?_,
    fun i time hi h1 h2 => ?_, rfl, rfl, rfl⟩
  · rw [hpow, windowComes_of_lead htx hstate hlive hseen hopened]
    rfl
  · simp [t, sendCell, openTheLeg, noteOpened]
  · exact appendLeg_eq s.driver.history
  · split
    next h => exact outputAt_eq_some.2 ⟨by rw [hleg]; rfl, hwin, h.1, by simpa using h.2⟩
    next h => exact outputAt_outside hwin (by simp only; omega)
  · rw [toneAt_eq (by rw [hleg]; rfl) hwin hi h1 h2]
    rfl

/-- Settles O20. -/
theorem cellIsSentOrWithheld : Obligations.CellIsSentOrWithheld := by
  intro s p tx hpow htx hstate hlive hopened hlen
  have hcan : (s.powered && s.windowComes p) = true := by
    rw [hpow, windowComes_of_later htx hstate hlive hopened hlen]
    rfl
  refine ⟨fun hmay => (when_true hcan).trans (congrArg _ ?_), fun hmay hx hleft =>
    ⟨s.withholds p, (when_true hcan).trans (congrArg _ ?_), mem_withholds p⟩⟩
  · rw [openWindow_later htx hstate hmay]
    rfl
  · rw [openWindow_withheld htx hstate hmay,
      losePhase_keeps_leg (tx := tx) (by exact htx) hx (by exact hlive) (by exact hleft)]
    rfl

/-- Settles O21: with the leg ended, the owner's report and the Engine's next state are read off the kind of hand-over. -/
theorem completedLegEndsOrGoesOn : Obligations.CompletedLegEndsOrGoesOn := by
  intro s tx leg hpow htx hleg hdone
  have hcan : (s.powered && s.legDone) = true := by rw [hpow, hdone]; rfl
  refine ⟨fun h hx hover => (when_true hcan).trans (congrArg _ ?_), fun h r n o f hx hover hheld hf => ?_,
    fun x hx => (when_true hcan).trans (congrArg _ ?_)⟩
  · rw [completeLeg_broadcast htx hx, endLeg_of_open true hleg]
    simp [reportBroadcast, hover, finishTransmission]
  · obtain ⟨hfields, hsame, hactive⟩ := mapFields_frame (fun f => { f with
      sent := f.sent + 1
      nextRepeat := later h s.params.repeatSpacing + BitVec.ofInt 32 s.engine.displacement }) hf
    have hend : completeLeg s = finishTransmission (putOrder n (o.mapFields fun f => { f with
        sent := f.sent + 1
        nextRepeat := later h s.params.repeatSpacing + BitVec.ofInt 32 s.engine.displacement }) (endLeg true s)) := by
      rw [completeLeg_broadcast htx hx, endLeg_of_open true hleg]
      simp only [reportBroadcast, hover]
      rw [countRepeat_eq h (by exact hheld)]
    refine ⟨_, _, (when_true hcan).trans (congrArg _ hend), putOrder_order_self .., hfields, hsame, hactive,
      fun m hm => ?_, by simp, by simp, by simp, fun p time => outputAt_no_leg p time ?_, rfl, rfl⟩
    · exact (putOrder_order_ne _ _ hm).trans (by simp [State.order])
    · simpa using endLeg_openLeg true
  · rw [completeLeg_exchange htx hx, endLeg_of_open true hleg]

/-- Settles O22: a first event marks the leg and queues its notice, a later one folds back alone. -/
theorem overCurrentFoldsBack : Obligations.OverCurrentFoldsBack := by
  intro s time hpow
  refine ⟨fun hquiet => ?_, fun leg p w hleg hw hr => ?_⟩
  · have hnone : s.overCurrentAt time = false := by
      rw [Bool.eq_false_iff, Ne, overCurrentAt_iff]
      rintro ⟨p, w, hw, hr⟩
      rw [hquiet p w hw] at hr
      cases hr
    show when (s.powered && s.overCurrentAt time) s (takeOverCurrent time s) = .next s
    simp [when, hnone]
  · have hcan : (s.powered && s.overCurrentAt time) = true := by
      rw [hpow, overCurrentAt_iff.2 ⟨p, w, hw, hr⟩]
      rfl
    refine ⟨fun hmark => (when_true hcan).trans (congrArg _ ?_), fun hmark hfew => ?_⟩
    · rw [takeOverCurrent_marked time hleg hmark]
      rfl
    · refine ⟨_, when_true hcan, ?_⟩
      rw [takeOverCurrent_first time hleg hmark, markLeg_below _ (by exact hfew)]
      have hdriver (k : NoticeKind) (b : Byte) (fs : List Byte) (u : State) :
          (queueNotice k b fs u).driver = u.driver := by simp
      refine ⟨(hdriver ..).trans rfl, queueNotice_link_congr _ _ _ rfl rfl, ?_⟩
      rw [hdriver]
      exact queueNotice_eq _ _ _ (legMarked leg (foldBack time s))

/-- Settles O23: the third mark ends the transmission early from the driver in FAULT. -/
theorem thirdMarkBringsFault : Obligations.ThirdMarkBringsFault := by
  intro s time leg p w tx hpow hleg hw hr hmark htx hmany
  have hcan : (s.powered && s.overCurrentAt time) = true := by
    rw [hpow, overCurrentAt_iff.2 ⟨p, w, hw, hr⟩]
    rfl
  obtain ⟨fields, hend⟩ := markLeg_third (s := foldBack time s) (leg := leg) s.driver.legLevel (by exact hmany)
  have htx' : (queueNotice .driver 0 fields (faulted leg (foldBack time s))).engine.transmission = some tx := by
    simpa [faulted, foldBack] using htx
  obtain ⟨⟨hstate, htrans, hover⟩, hopen⟩ := endEarly_lineFree .fault htx'
  refine ⟨_, (when_true hcan).trans (congrArg _ ((takeOverCurrent_first time hleg hmark).trans hend)), by simp [faulted],
    by simp [faulted], by simp [faulted], hopen, fun p time => outputAt_no_leg p time hopen, by simp [faulted, foldBack],
    hstate, htrans, hover, by simp [faulted, foldBack], by simp [faulted, foldBack]⟩

/-- Settles O24: the three commands' conditions, read off the exchange under way. -/
theorem answerReceiverFollowsTheSpans : Obligations.AnswerReceiverFollowsTheSpans := by
  intro s tx x hpow htx hx
  have hnow := exchangeNow_of htx hx
  refine ⟨fun g1 g2 hstate hmode hhops hseen => when_true ?_, fun heard hmode hseen => ?_,
    fun g1 g2 hstate hmode hseen => when_true ?_⟩
  · simp [State.relaySpanOpens, hnow, hpow, hstate, hmode, hhops, hseen, Config.gap]
  · refine (when_true ?_).trans ?_
    · simp [State.relaySpanEnds, hnow, hpow, hmode, Config.gap, hseen]
    · simp [State.judgeRelay, hnow]
  · obtain hstate | hstate := hstate <;> simp [State.answerWindowOpens, hnow, hpow, hstate, hmode, hseen]

end Sys2Proof.Safety
end

