-- ==== Sys2Proof/Proofs/ExchangeClaims.lean ====
section
/-! PROOFS. The close of a delivery exchange: what its record has learnt, and what became of its entry. -/

namespace Sys2Proof.Machine

variable {s : State}

/-! ## Learning -/

@[simp] theorem learn_quality (r : Receiver) (b : Build) (out : Outcome) :
    (learn r b out).quality = learnQuality r.quality out.result out.margin := by
  have hcarrier (r : Receiver) : (learnCarrier r out.result).quality = r.quality := by
    unfold learnCarrier Receiver.carrierFailure
    cases out.result <;> grind
  have hphase (r : Receiver) : (learnPhase r out.result b.phase b.path.isEmpty).quality = r.quality := by
    unfold learnPhase
    cases out.result <;> grind
  simp [learn, hcarrier, hphase]

theorem learn_of_ok (r : Receiver) (b : Build) (low : BitVec 16) (a : Answer) (m : Nat) (rh : Bool) :
    (learn r b ⟨.ok low a, m, rh⟩).failures = 0 ∧ (learn r b ⟨.ok low a, m, rh⟩).reported = r.reported := by
  unfold learn learnPhase learnCarrier
  dsimp only
  by_cases h : (b.path.isEmpty && r.phase.isNone) = true
  · rw [if_pos h]
    exact ⟨rfl, rfl⟩
  · rw [if_neg h]
    exact ⟨rfl, rfl⟩

/-! ## The record after the close -/

theorem dropEntries_nil (r : Receiver) : dropEntries r [] = r := by simp [dropEntries]

theorem confirmedSlots_nil (r : Receiver) (own : Option Nat) : confirmedSlots s r own [] = [] := by
  simp [confirmedSlots]

theorem applies_of {d : DeliveryRecord} {x : Nat × Order} {r : Receiver} (hw : d.withdrawn = false)
    (hheld : s.heldBy d.slot d.admission d.revoking = some x) (hr : s.receiver d.index = some r)
    (hlists : r.lists d.slot = true) : s.applies d = true := by
  simp [State.applies, hw, hheld, hr, hlists]

/-- Where the result applies and no STATE confirms others, the record has learnt and its entry has its result. -/
theorem deliveredRecord_applied {d : DeliveryRecord} {ended : Count} {out : Outcome} (r : Receiver)
    (ha : s.applies d = true) (ht : listedTags out.result = []) : deliveredRecord s d ended out r =
      applyToEntry (updateReported (learn r d.build out) out ended) d.slot s.params.retryMax d.attempts ended
        (judge d.build.kind d.tag out.result) := by
  simp only [deliveredRecord, if_pos ha, ht, confirmedSlots_nil, dropEntries_nil]

theorem judge_ack {k : BurstKind} (hk : k ≠ .poll) (low : BitVec 16) (tag : Nat) :
    judge k tag (.ok low (.ack (byteOf tag))) = .confirmed := by
  cases k <;> simp_all [judge, judgeAnswer]

/-! ## The close -/

/-- The state of CLOSING with the outcome taken. -/
def closingWith (out : Outcome) (s : State) : State :=
  { s with engine := { s.engine with state := .closing, outcome := some out } }

/-- The close with a result that applies and confirms no other order writes the record, counts the result and ends. -/
theorem closeExchange_applied {start : Count} {d : DeliveryRecord} {x : Nat × Order} {out : Outcome} {r : Receiver}
    (hover : s.sched.handOver = some ⟨start, .delivery d⟩) (hw : d.withdrawn = false)
    (hheld : s.heldBy d.slot d.admission d.revoking = some x) (hr : s.receiver d.index = some r)
    (hlists : r.lists d.slot = true) (ht : listedTags out.result = []) :
    ∃ shown, closeExchange out s =
      finishTransmission (noteDelivery start (s.endCount start d.build.span out.result) d out .applied
        (some (entryResult s.params.retryMax d.attempts (judge d.build.kind d.tag out.result))) shown
        (countResult d.slot (entryResult s.params.retryMax d.attempts (judge d.build.kind d.tag out.result))
          (putReceiver d.index
            (applyToEntry (updateReported (learn r d.build out) out (s.endCount start d.build.span out.result)) d.slot
              s.params.retryMax d.attempts (s.endCount start d.build.span out.result)
              (judge d.build.kind d.tag out.result)) (closingWith out s)))) := by
  have ha : (closingWith out s).applies d = true := applies_of (s := closingWith out s) hw hheld hr hlists
  have hrec := deliveredRecord_applied (ended := s.endCount start d.build.span out.result) r ha ht
  have hend : (closingWith out s).endCount start d.build.span out.result = s.endCount start d.build.span out.result := by
    cases out.result <;> rfl
  have hclose : closeExchange out s = closeDelivery start d out (closingWith out s) := by
    simp [closeExchange, hover, closingWith]
  have hr' : (closingWith out s).receiver d.index = some r := hr
  rw [hclose]
  simp only [closeDelivery, hw, hr', if_pos ha, hend, hrec, ht, confirmedSlots_nil, List.foldl_nil]
  exact ⟨_, rfl⟩

/-- The end of a delivery exchange, its notice among it, leaves the records and the orders. -/
theorem finish_noteDelivery (start ended : Count) (d : DeliveryRecord) (out : Outcome) (disp : Disposition)
    (res : Option EntryResult) (shown : Option Receiver) (u : State) :
    (finishTransmission (noteDelivery start ended d out disp res shown u)).table = u.table ∧
    (finishTransmission (noteDelivery start ended d out disp res shown u)).orders = u.orders ∧
    (finishTransmission (noteDelivery start ended d out disp res shown u)).tb = u.tb := by simp

/-- The order that a hand-over record names, counted for. -/
theorem countFor_of_heldBy {k n : Nat} {a : Count} {b : Bool} {o : Order} (g : Counters → Counters)
    (hheld : s.heldBy k a b = some (n, o)) : countFor k g s = putOrder n { o with counters := g o.counters } s := by
  simp [countFor, (Option.filter_eq_some_iff.1 hheld).1]

end Sys2Proof.Machine

namespace Sys2Proof.Safety

open Sys2Proof.Machine

/-- Settles O25: a matching ACK is judged a confirmation, which takes the entry and counts for the order held. -/
theorem matchingAckConfirms : Obligations.MatchingAckConfirms := by
  intro s heard start d n o r low m rh hpow hends hover hw hheld hr hlists hkind hout
  have hcan : (s.powered && s.answerWindowEnds) = true := by rw [hpow, hends]; rfl
  let out : Outcome := ⟨.ok low (.ack (byteOf d.tag)), m, rh⟩
  let r' := (learn r d.build out).dropEntry d.slot
  let u := putReceiver d.index r' (closingWith out (answerIdle s))
  let t := putOrder n { o with counters := o.counters.confirm } u
  have hcount : countResult d.slot .confirmed u = t :=
    countFor_of_heldBy (s := u) (a := d.admission) (b := d.revoking) Counters.confirm (by
      simpa [u, State.heldBy, State.orderInSlot, closingWith, answerIdle] using hheld)
  obtain ⟨shown, hclose⟩ := closeExchange_applied (s := answerIdle s) (out := out) hover hw hheld hr hlists rfl
  simp only [out, judge_ack hkind, entryResult, applyToEntry, updateReported] at hclose
  rw [hcount] at hclose
  obtain ⟨htable, horders, htb⟩ := finish_noteDelivery start
    ((answerIdle s).endCount start d.build.span out.result) d out .applied (some .confirmed) shown t
  have hreceiver (i : Nat) : (finishTransmission (noteDelivery start
      ((answerIdle s).endCount start d.build.span out.result) d out .applied (some .confirmed) shown t)).receiver i =
      u.receiver i := by
    rw [State.receiver, htable]
    simp [t, State.receiver]
  have horder (k : Nat) : (finishTransmission (noteDelivery start
      ((answerIdle s).endCount start d.build.span out.result) d out .applied (some .confirmed) shown t)).order k =
      t.order k := by rw [State.order, horders, State.order]
  obtain ⟨hfail, hrep⟩ := learn_of_ok r d.build low (.ack (byteOf d.tag)) m rh
  refine ⟨_, r', (when_true hcan).trans (congrArg _ ((congrArg (closeExchange · _) hout).trans hclose)),
    (hreceiver _).trans (putReceiver_receiver_self ..), ?_, ?_, hfail, hrep, (horder n).trans (putOrder_order_self ..),
    fun i hi => (hreceiver i).trans (putReceiver_receiver_ne _ _ hi), fun k hk => ?_, rfl, rfl, ?_⟩
  · simp [r', Receiver.dropEntry]
  · simp [r', Receiver.dropEntry, learnQuality, out]
  · refine (horder k).trans ((putOrder_order_ne _ _ hk).trans ?_)
    simp [u, State.order, closingWith, answerIdle]
  · rw [htb]
    simp [t, u, closingWith, answerIdle]

/-- Settles O26: no answer is judged a failed attempt, which stays on the list below the limit. -/
theorem noAnswerHoldsOff : Obligations.NoAnswerHoldsOff := by
  intro s heard start d n o r rh hpow hends hover hw hheld hr hlists hlast hout
  have hcan : (s.powered && s.answerWindowEnds) = true := by rw [hpow, hends]; rfl
  let out : Outcome := ⟨.none, 0, rh⟩
  have hgoes : ¬ s.params.retryMax ≤ d.attempts + 1 := by omega
  obtain ⟨shown, hclose⟩ := closeExchange_applied (s := answerIdle s) (out := out) hover hw hheld hr hlists rfl
  have hgoes' : ¬ (answerIdle s).params.retryMax ≤ d.attempts + 1 := hgoes
  simp only [out, judge, entryResult, applyToEntry, updateReported, if_neg hgoes', countResult] at hclose
  generalize hended : (answerIdle s).endCount start d.build.span .none = ended at hclose
  let r' := (learn r d.build out).mapEntry d.slot fun e =>
    { e with attempts := d.attempts + 1, last := .noAnswer, nextTry := later ended (holdOff (d.attempts + 1)) }
  let u := putReceiver d.index r' (closingWith out (answerIdle s))
  obtain ⟨htable, horders, htb⟩ := finish_noteDelivery start ended d out .applied (some .failed) shown u
  have hreceiver (i : Nat) : (finishTransmission (noteDelivery start ended d out .applied (some .failed) shown u)).receiver
      i = u.receiver i := by rw [State.receiver, htable, State.receiver]
  refine ⟨_, r', (when_true hcan).trans (congrArg _ ((congrArg (closeExchange · _) hout).trans hclose)),
    (hreceiver _).trans (putReceiver_receiver_self ..), ?_, ?_,
    fun i hi => (hreceiver i).trans (putReceiver_receiver_ne _ _ hi), ?_, rfl, rfl, ?_⟩
  · have hentries : (learn r d.build out).entries = r.entries := by simp
    simp only [r', Receiver.mapEntry, hentries, ← hended]
    simp only [State.endCount, answerIdle, later, holdOff, Nat.add_sub_cancel]
  · simp [r', Receiver.mapEntry, learnQuality, out]
  · rw [horders]
    simp [u, closingWith, answerIdle]
  · rw [htb]
    simp [u, closingWith, answerIdle]

end Sys2Proof.Safety
end

