-- ==== Sys2Proof/Proofs/DecisionClaims.lean ====
section
/-! PROOFS. The decision point: the candidate that is handed over. -/

namespace Sys2Proof.Machine

variable {s : State}

/-- The value at a position of its own is the one found there. -/
theorem lookup_of_mem {α : Type} {l : List (Nat × α)} {n : Nat} {v : α} (hl : rising l = true) (h : (n, v) ∈ l) :
    lookup l n = some v := by
  induction l with
  | nil => simp at h
  | cons x l ih =>
    obtain ⟨hx, hl⟩ := (rising_cons x l).1 hl
    rcases List.mem_cons.1 h with rfl | h
    · simp [lookup]
    · have hlt : x.1 < n := hx (n, v) h
      simp [lookup, Nat.ne_of_lt hlt, ih hl h]

/-! ## The abandonment made first -/

/-- The state in which the decision is taken (R116). -/
def atDecision (s : State) : State := abandonRepeats { s with owed := { s.owed with decision := false } }

theorem decideLine_eq (s : State) : decideLine s =
    if (atDecision s).tb.beaconDue && (atDecision s).anyLocked then handOverBeacon (atDecision s)
    else decideOrders (atDecision s) := rfl

/-- The abandonment changes orders, and asks for their writes. -/
theorem abandonRepeats_frame (s : State) : (abandonRepeats s).powered = s.powered ∧
    (abandonRepeats s).params = s.params ∧ (abandonRepeats s).tb = s.tb ∧ (abandonRepeats s).table = s.table ∧
    (abandonRepeats s).sched = s.sched ∧ (abandonRepeats s).engine = s.engine ∧
    (abandonRepeats s).carrier = s.carrier ∧ (abandonRepeats s).driver = s.driver ∧
    (abandonRepeats s).answer = s.answer := by
  unfold abandonRepeats
  refine foldl_keeps (P := fun t => t.powered = s.powered ∧ t.params = s.params ∧ t.tb = s.tb ∧ t.table = s.table ∧
    t.sched = s.sched ∧ t.engine = s.engine ∧ t.carrier = s.carrier ∧ t.driver = s.driver ∧ t.answer = s.answer)
    (fun t n ht => ?_) _ ⟨rfl, rfl, rfl, rfl, rfl, rfl, rfl, rfl, rfl⟩
  unfold abandonRepeat
  repeat' split
  all_goals simpa using ht

theorem atDecision_frame (s : State) : (atDecision s).powered = s.powered ∧
    (atDecision s).params = s.params ∧ (atDecision s).tb = s.tb ∧ (atDecision s).table = s.table ∧
    (atDecision s).sched = s.sched ∧ (atDecision s).engine = s.engine ∧
    (atDecision s).carrier = s.carrier ∧ (atDecision s).driver = s.driver ∧ (atDecision s).answer = s.answer :=
  abandonRepeats_frame { s with owed := { s.owed with decision := false } }

/-! ## The choice of a delivery -/

theorem mem_insertRanked {l : Count} {x y : Nat × Order} {os : List (Nat × Order)} (h : x ∈ insertRanked l y os) :
    x = y ∨ x ∈ os := by
  induction os with
  | nil => simpa [insertRanked] using h
  | cons z os ih =>
    unfold insertRanked at h
    split at h
    · exact List.mem_cons.1 h
    · rcases List.mem_cons.1 h with rfl | h
      · exact .inr (List.mem_cons_self ..)
      · exact (ih h).imp_right (List.mem_cons_of_mem _)

theorem mem_foldl_insertRanked {l : Count} {x : Nat × Order} {os acc : List (Nat × Order)}
    (h : x ∈ os.foldl (fun acc x => insertRanked l x acc) acc) : x ∈ acc ∨ x ∈ os := by
  induction os generalizing acc with
  | nil => exact .inl h
  | cons y os ih =>
    rcases ih h with h | h
    · rcases mem_insertRanked h with rfl | h
      · exact .inr (List.mem_cons_self ..)
      · exact .inl h
    · exact .inr (List.mem_cons_of_mem _ h)

/-- An order of the store order stands in the store. -/
theorem mem_of_storeOrder {x : Nat × Order} (h : x ∈ s.storeOrder) : x ∈ s.orders.orders :=
  (mem_foldl_insertRanked h).resolve_left (by simp)

theorem fewestAttempts_mem {cs : List Candidate} {c : Candidate} (h : fewestAttempts cs = some c) : c ∈ cs := by
  induction cs generalizing c with
  | nil => simp [fewestAttempts] at h
  | cons d cs ih =>
    unfold fewestAttempts at h
    split at h
    · simp_all
    next e he =>
      split at h
      · cases h
        exact List.mem_cons_of_mem _ (ih he)
      · cases h
        exact List.mem_cons_self ..

/-- A delivery chosen is of an order in the store, and eligible. -/
theorem chooseDelivery_sound {urgent : Bool} {c : Candidate} (h : s.chooseDelivery urgent = some c) :
    (c.position, c.order) ∈ s.orders.orders ∧ c.order.fields = some c.fields ∧
    s.eligible c.order c.receiver c.entry c.build = true := by
  obtain ⟨no, hmem, h⟩ := List.exists_of_findSome?_eq_some h
  split at h
  · cases h
  next f hf =>
    split at h
    · cases h
    · obtain ⟨ir, -, hc⟩ := List.mem_filterMap.1 (fewestAttempts_mem h)
      dsimp only at hc
      split at hc
      · cases hc
      · split at hc
        · cases hc
          exact ⟨mem_of_storeOrder hmem, hf, ‹_›⟩
        · cases hc

theorem fits_of_eligible {o : Order} {r : Receiver} {e : Entry} {b : Build} (h : s.eligible o r e b = true) :
    0 ≤ dist o.sealPoint (later s.count b.span) := by
  simp only [State.eligible, Bool.and_eq_true] at h
  exact of_decide_eq_true h.2

/-! ## What is handed over -/

/-- The delivery handed over starts at L, with its order's transmission started and its end before the seal point. -/
def deliveryInTime (l : Count) (t : State) : Prop :=
  ∀ start d, t.sched.handOver = some ⟨start, .delivery d⟩ →
    start = l ∧ ∃ n o f, t.order n = some o ∧ o.fields = some f ∧ f.slot = d.slot ∧ f.started = true ∧
      o.admission = d.admission ∧ 0 ≤ dist o.sealPoint (later start d.build.span)

theorem deliveryInTime_of_none {l : Count} (h : s.sched.handOver = none) : deliveryInTime l s := by
  intro start d hd
  rw [h] at hd
  cases hd

/-- What is handed over in another kind is no delivery. -/
theorem deliveryInTime_of_kind {l : Count} {h : HandOver} (hs : s.sched.handOver = some h)
    (hk : ∀ d, h.kind ≠ .delivery d) : deliveryInTime l s := by
  intro start d hd
  obtain rfl : h = ⟨start, .delivery d⟩ := Option.some.inj (hs.symm.trans hd)
  exact absurd rfl (hk d)

theorem mapFields_seal (o : Order) (g : SlotFields → SlotFields) :
    (o.mapFields g).admission = o.admission ∧ (o.mapFields g).sealPoint = o.sealPoint := by
  unfold Order.mapFields
  split <;> exact ⟨rfl, rfl⟩

theorem handOverDelivery_inTime {urgent : Bool} {c : Candidate} (hs : rising s.orders.orders = true)
    (h : s.chooseDelivery urgent = some c) : deliveryInTime s.count (handOverDelivery c s) := by
  obtain ⟨hmem, hf, helig⟩ := chooseDelivery_sound h
  have horder : s.order c.position = some c.order := lookup_of_mem hs hmem
  intro start d hd
  have hcount : (startTransmission c.position s).count = s.count := by simp [State.count]
  have hd' : (⟨(startTransmission c.position s).count, .delivery ⟨c.index, c.receiver.address.getD 0, c.fields.slot,
      c.order.tag, c.order.admission, c.order.isRevoking, c.entry.attempts, c.build, false⟩⟩ : HandOver) =
      ⟨start, .delivery d⟩ := Option.some.inj hd
  cases hd'
  have hafter : (handOverDelivery c s).order c.position =
      some (c.order.mapFields fun f => { f with started := true }) := by
    show (startTransmission c.position s).order c.position = _
    simp [startTransmission, changeOrder, horder]
  obtain ⟨hfields, -, -⟩ := mapFields_frame (fun f => { f with started := true }) hf
  obtain ⟨hadm, hseal⟩ := mapFields_seal c.order (fun f => { f with started := true })
  refine ⟨hcount, _, _, _, hafter, hfields, rfl, rfl, hadm, ?_⟩
  rw [hseal, hcount]
  exact fits_of_eligible helig

theorem decideDelivery_inTime (hs : rising s.orders.orders = true) (hnone : s.sched.handOver = none) :
    deliveryInTime s.count (decideDelivery s) := by
  unfold decideDelivery
  split
  next c hc => exact handOverDelivery_inTime hs hc
  next => exact deliveryInTime_of_none hnone

theorem decideProbe_inTime (hs : rising s.orders.orders = true) (hnone : s.sched.handOver = none) :
    deliveryInTime s.count (decideProbe s) := by
  unfold decideProbe
  split
  next p b _ => exact deliveryInTime_of_kind rfl (by simp)
  next p _ =>
    have hcount : (noteWithdrawn (dropProbe s) p).count = s.count := by simp [State.count, dropProbe]
    rw [← hcount]
    exact decideDelivery_inTime (by simpa [dropProbe] using hs) (by simpa [dropProbe] using hnone)
  next => exact decideDelivery_inTime hs hnone

theorem decideOrders_inTime (hs : rising s.orders.orders = true) (hnone : s.sched.handOver = none) :
    deliveryInTime s.count (decideOrders s) := by
  unfold decideOrders
  split
  next n o f _ => exact deliveryInTime_of_kind rfl (by simp)
  next =>
    split
    next c hc => exact handOverDelivery_inTime hs hc
    next => exact decideProbe_inTime hs hnone

theorem decideLine_inTime (hs : rising (atDecision s).orders.orders = true) (hnone : s.sched.handOver = none) :
    deliveryInTime s.count (decideLine s) := by
  obtain ⟨-, -, htb, -, hsched, -, -, -, -⟩ := atDecision_frame s
  have hcount : (atDecision s).count = s.count := by simp only [State.count, htb]
  rw [decideLine_eq]
  split
  · exact deliveryInTime_of_kind rfl (by simp)
  · rw [← hcount]
    exact decideOrders_inTime hs (hsched.symm ▸ hnone)

end Sys2Proof.Machine

namespace Sys2Proof.Safety

open Sys2Proof.Machine

/-- Settles O27: the abandonment made first leaves all that the beacon's hand-over is built from. -/
theorem beaconComesFirst : Obligations.BeaconComesFirst := by
  intro s hpow hrest howed hhold hnone hready hrun hconf hdue hlocked
  have hcan : s.isDecisionPoint = true := by
    simp [State.isDecisionPoint, State.working, State.confirmed, *]
  obtain ⟨-, hparams, htb, htable, hsched, -, hcarrier, hdriver, hanswer⟩ := atDecision_frame s
  have hlocks (p : Phase) : (atDecision s).locked p = s.locked p := by simp only [State.locked, State.tracker, htb]
  have hany : ((atDecision s).tb.beaconDue && (atDecision s).anyLocked) = true := by
    simpa [htb, hdue, State.anyLocked, hlocks] using hlocked
  have hend : decideLine s = handOverBeacon (atDecision s) := by rw [decideLine_eq, if_pos hany]
  refine ⟨_, (when_true hcan).trans (congrArg _ hend), ?_, rfl, ?_, ?_, ?_, htb, htable, hanswer⟩
  · show ({ (atDecision s).sched with hold := _, handOver := some ⟨(atDecision s).tb.count, _⟩ } : Scheduler) = _
    rw [hsched, htb]
    rfl
  · show some (Transmission.mk (atDecision s).tb.count (.beacon (atDecision s).params.stationId _)
      (atDecision s).lockedPhases (atDecision s).broadcastLevel .primary none (atDecision s).tb.lastAdvance) = _
    simp only [State.lockedPhases, State.broadcastLevel, State.count, hlocks, htb, hparams, hdriver]
  · show ({ (atDecision s).driver with buffer := (atDecision s).broadcastLevel } : LineDriver) = _
    simp only [State.broadcastLevel, hdriver, hparams]
  · show ({ (atDecision s).carrier with selection := _ } : CarrierGenerator) = _
    rw [hcarrier]

/-- Settles O28: a delivery is chosen among the eligible ones of the orders in the store, whose positions are their own. -/
theorem noExchangeRunsPastTheSeal : Obligations.NoExchangeRunsPastTheSeal := by
  intro s t start d hcanon hnone hexec hover
  have hkept : RecordsKept True False (atDecision s) :=
    RecordsKept.abandonRepeats (s := { s with owed := { s.owed with decision := false } }) ⟨fun _ => hcanon, by simp⟩
  have htime : deliveryInTime s.count t := by
    refine Answers.of_eq (answers_when (deliveryInTime_of_none hnone) fun _ =>
      decideLine_inTime (hkept.1 trivial).1.1 hnone) hexec
  exact htime start d hover

end Sys2Proof.Safety
end

