-- ==== Sys2Proof/Proofs/OrderClaims.lean ====
section
/-! PROOFS. The Order Store: activation, the close at the seal point, admission and cancellation. -/

namespace Sys2Proof.Machine

variable {s : State}

/-! ## Activation -/

/-- An order in its slot, with the receivers of its target in its roll and its account. -/
def Order.inSlot (o : Order) (k : Nat) (s : State) : Order :=
  { o with
    state := .active ⟨k, false, 0, false, s.count, (s.table.filter fun ir => inTarget o.target ir.2).map Prod.fst⟩
    counters := ⟨s.table.countP fun ir => inTarget o.target ir.2, 0, 0, 0, 0, 0⟩ }

theorem activate_takesSlot {n k : Nat} {o : Order}
    (h : (∃ a, o.target = .single a) → ∃ x ∈ s.table, inTarget o.target x.2 = true) :
    activate n k o s = queueNotice .orderActive (hostRefFlag (o.inSlot k s)) (orderActiveFields n (o.inSlot k s) k s.count)
      (changeReceivers (fun _ r => inTarget o.target r) (fun _ r => r.giveEntry k s.count)
        (putOrder n (o.inSlot k s) s)) := by
  have hslot : ({ o with
      state := .active ⟨k, false, 0, false, s.count, (s.table.filter fun ir => inTarget o.target ir.2).map Prod.fst⟩
      counters := { Counters.zero with
        targeted := ((s.table.filter fun ir => inTarget o.target ir.2).map Prod.fst).length } } : Order) =
      o.inSlot k s := by
    simp [Order.inSlot, Counters.zero, List.countP_eq_length_filter]
  have hcount (o' : Order) (sel : Nat → Receiver → Bool) (g : Nat → Receiver → Receiver) :
      (changeReceivers sel g (putOrder n o' s)).count = s.count := by simp [State.count]
  have hput (o' : Order) : (putOrder n o' s).count = s.count := by simp [State.count]
  unfold activate
  dsimp only
  rw [hslot]
  simp only [hcount, hput]
  cases ht : o.target with
  | all => rfl
  | group g => rfl
  | single a =>
    obtain ⟨x, hx, hin⟩ := h ⟨a, ht⟩
    rw [ht] at hin
    have hsome : ((s.table.filter fun ir => inTarget (.single a) ir.2).map Prod.fst).isEmpty = false := by
      rw [List.isEmpty_eq_false_iff]
      exact List.ne_nil_of_mem (List.mem_map_of_mem (List.mem_filter.2 ⟨hx, hin⟩))
    simp [hsome]

theorem activate_noTarget {n k : Nat} {o : Order} (hsingle : ∃ a, o.target = .single a)
    (h : ∀ x ∈ s.table, inTarget o.target x.2 = false) : activate n k o s =
      noteClosed n { o with state := .closed (s.orders.sequence + 1) .noTarget, counters := .zero }
        (putOrder n { o with state := .closed (s.orders.sequence + 1) .noTarget, counters := .zero } (bumpSequence s)) := by
  obtain ⟨a, ht⟩ := hsingle
  have hnone : s.table.filter (fun ir => inTarget (.single a) ir.2) = [] :=
    List.filter_eq_nil_iff.2 fun x hx => by simpa [ht] using h x hx
  simp only [activate, ht, hnone, List.map_nil, List.isEmpty_nil, if_true]
  rfl

theorem activationNow_of {n : Nat} {rest : List Nat} (hs : Safety.Counting s) (hclosed : s.nothingToClose = true)
    (hnext : s.toActivate = n :: rest) : s.activationNow = true := by
  obtain ⟨hpowered, hrestoring, hstatus⟩ := hs
  simp [State.activationNow, State.working, State.confirmed, *]

theorem activateNext_eq {n k : Nat} {rest : List Nat} {o : Order} (hnext : s.toActivate = n :: rest)
    (ho : s.order n = some o) (hk : s.freeSlot = some k) :
    activateNext s = activate n k o { s with owed := { s.owed with activation := rest } } := by
  simp [activateNext, hnext, ho, hk]

/-! ## The close at the seal point -/

/-- An ACTIVE or REVOKING order as it stands closed at its seal point from a state. -/
def Order.asSealed (o : Order) (f : SlotFields) (s : State) : Order :=
  { o with
    counters := o.counters.countLate (s.entriesNaming f.slot)
    state := .closed (s.orders.sequence + 1)
      (sealOutcome o.isRevoking (o.counters.countLate (s.entriesNaming f.slot))) }

theorem closeAtSeal_def (n : Nat) (o : Order) (f : SlotFields) (s : State) : closeAtSeal n o f s =
    noteClosed n (o.asSealed f s) (putOrder n (o.asSealed f s) (bumpSequence (dropSlotEntries f.slot s))) := by
  have hseq : (bumpSequence (dropSlotEntries f.slot s)).orders.sequence = s.orders.sequence + 1 := by
    simp [bumpSequence, dropSlotEntries]
  simp only [closeAtSeal, hseq]
  rfl

theorem execOrderSeal_of {n : Nat} {o : Order} {f : SlotFields} (ho : s.orderToSeal n = some o)
    (hf : o.state = .active f ∨ o.state = .revoking f) : execOrderSeal n s = .next (closeAtSeal n o f s) := by
  obtain hf | hf := hf <;> simp [execOrderSeal, ho, hf]

theorem entriesNaming_of_table {t : State} (h : t.table = s.table) (k : Nat) : t.entriesNaming k = s.entriesNaming k := by
  simp [State.entriesNaming, h]

/-! ## Tags -/

theorem nextTag_mem (t : Nat) : 1 ≤ nextTag t ∧ nextTag t ≤ 255 := by
  unfold nextTag
  split <;> omega

theorem nextTag_iterate {t : Nat} (ht : 1 ≤ t ∧ t ≤ 255) (k : Nat) : nextTag^[k] t = (t - 1 + k) % 255 + 1 := by
  induction k with
  | zero =>
    show t = _
    omega
  | succ k ih =>
    rw [Function.iterate_succ_apply', ih, nextTag]
    split <;> omega

theorem findTag_mem (held : List Nat) (fuel : Nat) {t : Nat} (ht : 1 ≤ t ∧ t ≤ 255) :
    1 ≤ findTag held fuel t ∧ findTag held fuel t ≤ 255 := by
  induction fuel generalizing t with
  | zero => exact ht
  | succ fuel ih =>
    unfold findTag
    split
    · exact ih (nextTag_mem t)
    · exact ht

/-- The search finds a free tag when one of the tags within its reach is free. -/
theorem findTag_free {held : List Nat} {fuel k t : Nat} (hk : k ≤ fuel) (hfree : nextTag^[k] t ∉ held) :
    findTag held fuel t ∉ held := by
  induction fuel generalizing t k with
  | zero =>
    obtain rfl : k = 0 := by omega
    exact hfree
  | succ fuel ih =>
    unfold findTag
    split
    next hmem =>
      cases k with
      | zero => exact absurd hmem hfree
      | succ k => exact ih (k := k) (by omega) (by rwa [← Function.iterate_succ_apply])
    · assumption

/-- Of 32 tags in succession fewer than 32 are held. -/
theorem exists_free_tag {held : List Nat} {t : Nat} (ht : 1 ≤ t ∧ t ≤ 255) (hfew : held.length < 32) :
    ∃ k ≤ 32, nextTag^[k] t ∉ held := by
  by_contra hall
  push Not at hall
  have hnodup : ((List.range 32).map fun k => nextTag^[k] t).Nodup := by
    refine List.Nodup.map_on (fun i hi j hj hij => ?_) List.nodup_range
    simp only [List.mem_range] at hi hj
    rw [nextTag_iterate ht, nextTag_iterate ht] at hij
    omega
  have hsub : ((List.range 32).map fun k => nextTag^[k] t) ⊆ held := fun x hx => by
    obtain ⟨k, hk, rfl⟩ := List.mem_map.1 hx
    exact hall k (List.mem_range.1 hk).le
  have hlen := (hnodup.subperm hsub).length_le
  simp at hlen
  omega

theorem freeTag_free (hfew : s.orders.orders.length < 32) :
    1 ≤ s.freeTag ∧ s.freeTag ≤ 255 ∧ ∀ x ∈ s.orders.orders, x.2.tag ≠ s.freeTag := by
  have ht := nextTag_mem s.orders.lastTag
  obtain ⟨hlow, hhigh⟩ := findTag_mem (s.orders.orders.map fun no => no.2.tag) Config.orderPositions ht
  obtain ⟨k, hk, hfree⟩ := exists_free_tag (held := s.orders.orders.map fun no => no.2.tag) ht (by simpa using hfew)
  exact ⟨hlow, hhigh, fun x hx heq =>
    findTag_free hk hfree (List.mem_map.2 ⟨x, hx, heq⟩)⟩

/-! ## Admission -/

/-- The order admitted from a state with room: its admission number is the next sequence value. -/
def State.enrolled (s : State) (a : OrderAdd) (t : Target) (act : Action) : Order :=
  (bumpSequence s).newOrder a t act

/-- The state with an order admitted at the lowest free position. -/
def enrol (a : OrderAdd) (t : Target) (act : Action) (s : State) : State :=
  putOrder (lowestFree s.orders.orders 0) (s.enrolled a t act)
    { bumpSequence s with orders := { (bumpSequence s).orders with lastTag := (s.enrolled a t act).tag } }

theorem placeAdmitted_of_room {a : OrderAdd} {t : Target} {act : Action} (hroom : s.orders.orders.length < 32) :
    placeAdmitted a t act s = ⟨[0, byteOf (s.enrolled a t act).tag, byteOf (lowestFree s.orders.orders 0)] ++
      countBytes (s.enrolled a t act).sealPoint, .nothing, enrol a t act s⟩ := by
  have hmake : makeRoom s = s := if_pos hroom
  simp only [placeAdmitted, hmake]
  rfl

theorem addOrder_of_checks {a : OrderAdd} {t : Target} {act : Action} (hfound : s.targetFound t = true)
    (hlead : (s.minLead : Int) ≤ dist a.activation s.count)
    (hclash : (s.orders.orders.any fun x => s.conflicts x.2 t act a) = false) (hroom : s.hasRoom = true) :
    addOrder a t act s = placeAdmitted a t act s := by
  simp [addOrder, hfound, not_lt.2 hlead, hclash, hroom]

theorem handleOrderAdd_fields {q : Request} {a : OrderAdd} {t : Target} {act : Action} (hc : s.confirmed = true)
    (hf : a.fields = some (t, act)) : handleOrderAdd q a s = addOrder a t act s := by
  simp [handleOrderAdd, hc, hf]

theorem enrol_eq (a : OrderAdd) (t : Target) (act : Action) (s : State) : enrol a t act s =
    { s with orders := (enrol a t act s).orders, store := (enrol a t act s).store } := by
  rw [enrol, putOrder_eq]
  rfl

/-! ## Cancellation -/

theorem withOrder_found {sel : OrderSelector} {n : Nat} {o : Order} (h : Nat → Order → State → Handled)
    (hr : sel.inRange = true) (hf : s.findOrder sel = some (n, o)) : withOrder sel h s = h n o s := by
  simp [withOrder, hr, hf]

/-- Records changed reach the table and the write list. -/
theorem changeReceivers_eq (sel : Nat → Receiver → Bool) (g : Nat → Receiver → Receiver) (s : State) :
    changeReceivers sel g s =
      { s with table := (changeReceivers sel g s).table, store := (changeReceivers sel g s).store } := by
  unfold changeReceivers
  dsimp only
  split <;> rfl

/-- An order dropped changes the Order Store and the write list alone. -/
theorem dropOrder_eq (n : Nat) (s : State) :
    dropOrder n s = { s with orders := (dropOrder n s).orders, store := (dropOrder n s).store } := by
  unfold dropOrder askWrite
  split <;> rfl

theorem dropSlotEntries_eq (k : Nat) (s : State) : dropSlotEntries k s =
    { s with table := (dropSlotEntries k s).table, store := (dropSlotEntries k s).store } := changeReceivers_eq ..

/-- A withdrawal changes the orders, the table and the write list alone. -/
theorem withdraw_eq (n : Nat) (o : Order) (s : State) : withdraw n o s =
    { s with orders := (withdraw n o s).orders, table := (withdraw n o s).table, store := (withdraw n o s).store } := by
  unfold withdraw
  split
  · rw [dropOrder_eq]
  · rw [dropOrder_eq, dropSlotEntries_eq]

theorem withdraw_pending {n : Nat} {o : Order} (hp : o.state = .pending) : withdraw n o s = dropOrder n s := by
  simp [withdraw, Order.fields, hp]

theorem withdraw_active {n : Nat} {o : Order} {f : SlotFields} (hp : o.state = .active f) :
    withdraw n o s = dropOrder n (dropSlotEntries f.slot s) := by
  simp [withdraw, Order.fields, hp]

theorem withdraw_orders (n : Nat) (o : Order) :
    (withdraw n o s).orders = { s.orders with orders := eraseAt s.orders.orders n } := by
  unfold withdraw
  split <;> simp [dropSlotEntries]

/-- An ACTIVE order as it stands converted from a state. -/
def Order.asRevoking (o : Order) (f : SlotFields) (s : State) : Order :=
  { o with
    state := .revoking { f with sent := 0, abandoned := false, nextRepeat := s.count }
    counters := ⟨s.table.countP fun ir => inRoll f.roll ir.1 ir.2, 0, 0, 0, 0, 0⟩ }

theorem convert_def (n : Nat) (o : Order) (f : SlotFields) (s : State) : convert n o f s =
    putOrder n (o.asRevoking f s) (changeReceivers (inRoll f.roll) (fun _ r => r.giveEntry f.slot s.count) s) := by
  simp [convert, Order.asRevoking, Counters.zero, List.countP_eq_length_filter]

end Sys2Proof.Machine

namespace Sys2Proof.Safety

open Sys2Proof.Machine

/-- Settles O29: an order takes its slot, or closes, from the state with the step's list shortened. -/
theorem activationTakesTheLowestSlot : Obligations.ActivationTakesTheLowestSlot := by
  intro s n k rest o hs hclosed hnext ho hk
  let u : State := { s with owed := { s.owed with activation := rest } }
  have hcan := activationNow_of hs hclosed hnext
  have hact : activateNext s = activate n k o u := activateNext_eq hnext ho hk
  refine ⟨fun htarget => ?_, fun hsingle hnone => ?_⟩
  · refine ⟨_, (when_true hcan).trans (congrArg _ (hact.trans (activate_takesSlot (s := u) htarget))), ?_,
      fun i r hr => ?_, fun m hm => ?_, ?_, ?_, ?_⟩
    · simp only [State.order, queueNotice_frame, changeReceivers_frame, putOrder_orders, lookup_insertAt_self]
      rfl
    · simp only [State.receiver, queueNotice_frame, changeReceivers_table, lookup_mapAll, putOrder_frame]
      simp only [show lookup u.table i = some r from hr]
      rfl
    · simp only [State.order, queueNotice_frame, changeReceivers_frame, putOrder_orders, lookup_insertAt_ne _ _ hm]
      rfl
    all_goals simp [u]
  · refine ⟨_, (when_true hcan).trans (congrArg _ (hact.trans (activate_noTarget (s := u) hsingle hnone))), ?_, ?_,
      fun m hm => ?_, ?_, ?_, ?_⟩
    · simp only [State.order, noteClosed_frame, putOrder_orders, lookup_insertAt_self]
      rfl
    · simp [u, bumpSequence]
    · simp only [State.order, noteClosed_frame, putOrder_orders, lookup_insertAt_ne _ _ hm]
      rfl
    all_goals simp [u, bumpSequence]

/-- Settles O30: the entries that go are those counted late, so a balanced account still balances. -/
theorem sealKeepsTheBalance : Obligations.SealKeepsTheBalance := by
  intro s n o f hs ho hf hseal hbal hrange
  have hlate : o.counters.countLate (s.entriesNaming f.slot) =
      { o.counters with late := o.counters.late + s.entriesNaming f.slot } := by
    simp only [Counters.countLate, bump, Config.counterMax, Nat.min_eq_right hrange]
  have hexec := (execOrderSeal_of (orderToSeal_of_reached hs ho hseal) hf).trans
    (congrArg _ (closeAtSeal_def n o f s))
  refine ⟨_, sealOutcome o.isRevoking (o.counters.countLate (s.entriesNaming f.slot)), hexec, ?_, fun h => ?_,
    fun h h0 => ?_, fun h h0 h1 => ?_, fun h h0 h1 => ?_, ?_, ?_, fun m hm => ?_,
    ?_, ?_, ?_⟩
  · simp only [State.order, noteClosed_frame, putOrder_orders, lookup_insertAt_self, Order.asSealed, hlate]
  · simp [Order.isRevoking, h, sealOutcome]
  · simp [Order.isRevoking, h, sealOutcome, Counters.countLate, h0]
  · have hsome : o.counters.targeted ≠ 0 := by omega
    simp [Order.isRevoking, h, sealOutcome, Counters.countLate, h1, hsome]
  · simp [Order.isRevoking, h, sealOutcome, Counters.countLate, Nat.ne_of_gt h0, Nat.ne_of_lt h1]
  · rw [entriesNaming_of_table (s := dropSlotEntries f.slot s) (by simp [bumpSequence]),
      dropSlotEntries_entriesNaming]
  · rw [hbal]
    simp only [Counters.outcomes]
    omega
  · simp only [State.order, noteClosed_frame, putOrder_orders, lookup_insertAt_ne _ _ hm, bumpSequence, dropSlotEntries,
      changeReceivers_frame]
  all_goals simp [bumpSequence, dropSlotEntries]

/-- Settles O32: the checks passed, the order is placed from the state without the request. -/
theorem admissionPlacesTheOrder : Obligations.AdmissionPlacesTheOrder := by
  intro s q a tg act hq hk hread hstatus hfields hfound hlead hclash hroom
  have hconf : (dropRequest s).confirmed = true := by simp [State.confirmed, hstatus]
  have hplace : handleOrderAdd q a (dropRequest s) = placeAdmitted a tg act (dropRequest s) := by
    rw [handleOrderAdd_fields hconf hfields]
    refine addOrder_of_checks (by exact hfound) ?_ ?_ ?_
    · simpa [State.minLead, State.count, Config.revokeLead] using hlead
    · exact List.any_eq_false.2 fun x hx => Bool.eq_false_iff.1 (hclash x hx)
    · simp [State.hasRoom, Config.orderPositions, hroom]
  have hexec := takeKind_read (own := handleOrderAdd) hq hk hread
  rw [hplace, placeAdmitted_of_room (by simpa using hroom)] at hexec
  obtain ⟨hlow, hhigh, hfree⟩ := freeTag_free (s := bumpSequence (dropRequest s)) (by simpa [bumpSequence] using hroom)
  refine ⟨_, (dropRequest s).enrolled a tg act, hexec, ?_, hlow, hhigh, hfree, rfl, rfl, rfl, rfl, rfl, rfl, rfl, rfl,
    rfl, rfl, rfl, fun m hm => ?_, ?_, ?_, ?_, ?_⟩
  · simp [enrol, State.order, bumpSequence, lookup_insertAt_self]
  · simp [enrol, State.order, bumpSequence, lookup_insertAt_ne _ _ hm]
  · simp [enrol, bumpSequence]
  · simp [enrol, bumpSequence]
  · simp [enrol, bumpSequence, hk, replyKind]
  · simp only [appendReply]
    rw [enrol_eq]
    rfl

/-- Settles O33: the checks of R87 one after another. -/
theorem admissionRefusesInOrder : Obligations.AdmissionRefusesInOrder := by
  intro s q a hq hk hread
  have hanswer {body : List Byte} (h : handleOrderAdd q a (dropRequest s) = ⟨body, .nothing, dropRequest s⟩) :
      exec .orderAdd s = .next (answered q body s) := takeKind_answered hq hk hread h
  refine ⟨fun hstatus => hanswer ?_, fun hstatus hnone => hanswer ?_, fun tg act hstatus hfields => ?_⟩
  · have hconf : (dropRequest s).confirmed = false := by simp [State.confirmed, hstatus]
    simp [handleOrderAdd, hconf, refuse, resultByte]
  · have hconf : (dropRequest s).confirmed = true := by simp [State.confirmed, hstatus]
    simp [handleOrderAdd, hconf, hnone, refuse, resultByte]
  · have hconf : (dropRequest s).confirmed = true := by simp [State.confirmed, hstatus]
    have hadd {body : List Byte} (h : addOrder a tg act (dropRequest s) = ⟨body, .nothing, dropRequest s⟩) :
        exec .orderAdd s = .next (answered q body s) := hanswer ((handleOrderAdd_fields hconf hfields).trans h)
    have hfound : (dropRequest s).targetFound tg = s.targetFound tg := rfl
    have hcount : (dropRequest s).count = s.tb.count := rfl
    have hlead : ((dropRequest s).minLead : Int) = s.params.minMargin + 24 := by
      simp [State.minLead, Config.revokeLead]
    have hclash : ((dropRequest s).orders.orders.any fun x => (dropRequest s).conflicts x.2 tg act a) =
        s.orders.orders.any fun x => s.conflicts x.2 tg act a := rfl
    refine ⟨fun hf => hadd ?_, fun hf hl => hadd ?_, fun hf hl hc => hadd ?_, fun hf hl hc hfull hopen => hadd ?_⟩
    · simp [addOrder, hfound, hf, refuse, resultByte]
    · simp [addOrder, hfound, hf, hcount, hlead, hl, refuse, resultByte]
    · simp only [addOrder, hfound, hf, hcount, hlead, not_lt.2 hl, hclash, hc]
      rfl
    · have hroom : (dropRequest s).hasRoom = false := by
        simp only [State.hasRoom, Config.orderPositions, Bool.or_eq_false_iff]
        exact ⟨decide_eq_false (not_lt.2 hfull), List.any_eq_false.2 fun x hx => by simpa using hopen x hx⟩
      simp only [addOrder, hfound, hf, hcount, hlead, not_lt.2 hl, hclash, hc, hroom]
      rfl

/-- Settles O34: a withdrawal takes the order away, and its slot's entries first. -/
theorem cancelBeforeSendingWithdraws : Obligations.CancelBeforeSendingWithdraws := by
  intro s q sel n o hcanon hq hk hread hrange hfind hstate
  have hcancel : cancelOrder n o (dropRequest s) =
      cancelReply .ok n o 0 withdrawnCode (withdraw n o (dropRequest s)) := by
    obtain hp | ⟨f, hp, hunsent⟩ := hstate
    · simp [cancelOrder, hp]
    · simp [cancelOrder, hp, hunsent]
  have hexec := takeKind_read (own := fun _ sel => withOrder sel cancelOrder) hq hk hread
  rw [withOrder_found (s := dropRequest s) cancelOrder hrange hfind, hcancel] at hexec
  have horders := withdraw_orders (s := dropRequest s) n o
  have hframe := withdraw_eq n o (dropRequest s)
  refine ⟨_, hexec, ?_, fun m hm => ?_, fun f hp => ⟨?_, fun i => ?_⟩, fun hp => ?_, ?_, ?_, ⟨0, ?_⟩, ?_⟩
  all_goals simp only [cancelReply]
  · simpa [State.order, horders] using lookup_eraseAt_self n hcanon.1.1
  · simpa [State.order, horders] using lookup_eraseAt_ne _ hm
  · rw [withdraw_active hp, entriesNaming_of_table (s := dropSlotEntries f.slot (dropRequest s)) (by simp),
      dropSlotEntries_entriesNaming]
  · rw [withdraw_active hp, ← show (dropRequest s).receiver i = s.receiver i from rfl]
    simpa [State.receiver, Receiver.dropEntry] using dropSlotEntries_receiver f.slot (dropRequest s) i
  · simp [withdraw_pending hp]
  · simp [horders]
  · simp [horders]
  · rw [hframe]
    simp [appendReply, hk, replyKind, resultByte, withdrawnCode]
  · simp only [appendReply]
    rw [hframe]
    rfl

/-- Settles O35: the branches of a cancellation for an order that has been on the line. -/
theorem lateCancelConvertsOrIsRefused : Obligations.LateCancelConvertsOrIsRefused := by
  intro s q sel n o hq hk hread hrange hfind
  have hown : withOrder sel cancelOrder (dropRequest s) = cancelOrder n o (dropRequest s) :=
    withOrder_found (s := dropRequest s) cancelOrder hrange hfind
  have hanswer {body : List Byte} (h : cancelOrder n o (dropRequest s) = ⟨body, .nothing, dropRequest s⟩) :
      exec .orderCancel s = .next (answered q body s) :=
    takeKind_answered (own := fun _ sel => withOrder sel cancelOrder) hq hk hread (hown.trans h)
  have hcount : (dropRequest s).count = s.tb.count := rfl
  refine ⟨fun f hp hsent hlead => ?_, fun f hp hsent hlate => hanswer ?_, fun f hp => hanswer ?_,
    fun c out hp => hanswer ?_⟩
  · have hcancel : cancelOrder n o (dropRequest s) = cancelReply .ok n o 3 0 (convert n o f (dropRequest s)) := by
      simp only [cancelOrder, hp, hsent, Bool.not_true, Bool.false_eq_true, if_false, hcount]
      exact if_pos (by simpa [Config.revokeLead] using hlead)
    have hexec := takeKind_read (own := fun _ sel => withOrder sel cancelOrder) hq hk hread
    rw [hown, hcancel, convert_def] at hexec
    refine ⟨_, hexec, ?_, fun i r hr => ?_, fun m hm => ?_, ?_⟩
    · simp only [cancelReply, State.order, appendReply_frame, putOrder_orders, lookup_insertAt_self]
      rfl
    · simp only [cancelReply, State.receiver, appendReply_frame, putOrder_frame, changeReceivers_table, lookup_mapAll]
      simp only [show lookup (dropRequest s).table i = some r from hr]
      rfl
    · simp only [cancelReply, State.order, appendReply_frame, putOrder_orders, lookup_insertAt_ne _ _ hm,
        changeReceivers_frame]
      rfl
    · simp [cancelReply, hk, replyKind, resultByte]
  · have hnear : ¬ (Config.revokeLead : Int) ≤ dist o.sealPoint s.tb.count := by
      simpa [Config.revokeLead] using hlate
    simp only [cancelOrder, hp, hsent, Bool.not_true, Bool.false_eq_true, if_false, hcount, if_neg hnear]
    rfl
  · simp only [cancelOrder, hp]
    rfl
  · simp only [cancelOrder, hp]
    rfl

end Sys2Proof.Safety
end

