-- ==== Sys2Proof/Proofs/RecordReads.lean ====
section
/-! PROOFS. The reads of records: the lengths of their replies, and the clearing of a CLOSED order. -/

namespace Sys2Proof.Machine

variable {s : State}

/-! ## Lengths -/

@[simp] theorem bytesOf_length (n v : Nat) : (bytesOf n v).length = n := by
  induction n with
  | zero => rfl
  | succ n ih => simp [bytesOf, ih]

@[simp] theorem countBytes_length (c : Count) : (countBytes c).length = 4 := bytesOf_length ..

@[simp] theorem addrBytes_length (a : Addr) : (addrBytes a).length = 3 := bytesOf_length ..

@[simp] theorem pathBytes_length (path : List Addr) : (pathBytes path).length = 6 := by simp [pathBytes]

@[simp] theorem shown_length (o : Order) (w : OrderField) (bytes : List Byte) :
    (o.shown w bytes).length = bytes.length := by
  unfold Order.shown
  split <;> simp

/-- Blocks of one length laid end to end. -/
theorem flatten_length {α β : Type} {f : α → List β} {k : Nat} (hf : ∀ x, (f x).length = k) (l : List α) :
    (l.map f).flatten.length = k * l.length := by
  induction l with
  | nil => rfl
  | cons x l ih => simp only [List.map_cons, List.flatten_cons, List.length_append, hf, ih, List.length_cons]; ring

theorem entryBytes_length (e : Entry) : (s.entryBytes e).length = 9 := by simp [State.entryBytes]

theorem rxReadFields_eq (i : Nat) (r : Receiver) : ∃ rest, rxReadFields i r s = bytesOf 2 i ++ rest ∧
    rest.length = 25 + 9 * r.entries.length := by
  refine ⟨_, by simp only [rxReadFields, List.append_assoc]; rfl, ?_⟩
  simp [flatten_length (entryBytes_length (s := s))]
  omega

theorem rxListEntry_length (ir : Nat × Receiver) : (rxListEntry ir).length = 6 := by simp [rxListEntry]

theorem slotBytes_length (o : Order) : (s.slotBytes o).length = 10 := by
  unfold State.slotBytes
  split <;> simp

theorem orderReadFields_eq (n : Nat) (o : Order) : ∃ rest, orderReadFields n o s = [byteOf n, byteOf o.tag] ++ rest ∧
    rest.length = 55 := by
  refine ⟨_, by simp only [orderReadFields, List.append_assoc]; rfl, ?_⟩
  simp [hostRefBytes, counterBytes, distBytes, slotBytes_length]

theorem orderListEntry_length (no : Nat × Order) : (orderListEntry no).length = 9 := by simp [orderListEntry]

theorem insertRanked_length (l : Count) (x : Nat × Order) (os : List (Nat × Order)) :
    (insertRanked l x os).length = os.length + 1 := by
  induction os with
  | nil => rfl
  | cons y os ih =>
    unfold insertRanked
    split <;> simp [ih]

theorem foldl_insertRanked_length (l : Count) (os acc : List (Nat × Order)) :
    (os.foldl (fun acc x => insertRanked l x acc) acc).length = acc.length + os.length := by
  induction os generalizing acc with
  | nil => rfl
  | cons y os ih => simp only [List.foldl_cons, ih, insertRanked_length, List.length_cons]; omega

theorem storeOrder_length : s.storeOrder.length = s.orders.orders.length := by
  simp [State.storeOrder, foldl_insertRanked_length]

/-! ## Naming a receiver -/

theorem withReceiver_found {sel : Selector} {i : Nat} {r : Receiver} (h : Nat → Receiver → State → Handled)
    (hr : sel.inRange = true) (hf : s.findReceiver sel = some (i, r)) : withReceiver sel h s = h i r s := by
  simp [withReceiver, hr, hf]

end Sys2Proof.Machine

namespace Sys2Proof.Safety

open Sys2Proof.Machine

theorem rxRead_answers {s : State} {q : Request} {sel : Selector} {i : Nat} {r : Receiver} (hq : s.oldest = some q)
    (hk : q.kind = 0x1B) (hread : readSelector q.body = some sel) (hrange : sel.inRange = true)
    (hfind : s.findReceiver sel = some (i, r)) :
    ∃ rest, exec .rxRead s = .next (answered q (0 :: (bytesOf 2 i ++ rest)) s) ∧
      rest.length + 3 = 28 + 9 * r.entries.length := by
  obtain ⟨rest, hrest, hlen⟩ := rxReadFields_eq (s := dropRequest s) i r
  refine ⟨rest, takeKind_answered (own := fun _ sel => withReceiver sel readReceiver) hq hk hread ?_, by omega⟩
  rw [withReceiver_found (s := dropRequest s) readReceiver hrange hfind, readReceiver, taken, hrest]
  rfl

theorem rxList_answers {s : State} {q : Request} {page : Byte} (hq : s.oldest = some q) (hk : q.kind = 0x1C)
    (hread : readOne q.body = some page) (hpage : page.toNat < 16) :
    ∃ rest, exec .rxList s = .next (answered q (0 :: (bytesOf 2 s.table.length ++ rest)) s) ∧
      rest.length + 3 = 4 + 6 * (s.table.countP fun x => decide (x.1 / 32 = page.toNat)) := by
  let shown := s.table.filter fun ir => decide (ir.1 / 32 = page.toNat)
  refine ⟨byteOf shown.length :: (shown.map rxListEntry).flatten,
    takeKind_answered (own := handleRxList) hq hk hread ?_, ?_⟩
  · simp only [handleRxList, if_neg (not_le.2 hpage), taken, List.append_assoc]
    rfl
  · simp only [List.length_cons, flatten_length rxListEntry_length, List.countP_eq_length_filter, shown]
    omega

theorem orderRead_answers {s : State} {q : Request} {sel : OrderSelector} {n : Nat} {o : Order}
    (hq : s.oldest = some q) (hk : q.kind = 0x12) (hread : readOrderSelector q.body = some sel)
    (hrange : sel.inRange = true) (hfind : s.findOrder sel = some (n, o)) :
    ∃ rest, exec .orderRead s = .next (answered q ([0, byteOf n, byteOf o.tag] ++ rest) s) ∧ rest.length = 55 := by
  obtain ⟨rest, hrest, hlen⟩ := orderReadFields_eq (s := dropRequest s) n o
  refine ⟨rest, takeKind_answered (own := fun _ sel => withOrder sel readOrder) hq hk hread ?_, hlen⟩
  rw [withOrder_found (s := dropRequest s) readOrder hrange hfind, readOrder, taken, hrest]
  rfl

theorem orderList_answers {s : State} {q : Request} {page : Byte} (hq : s.oldest = some q) (hk : q.kind = 0x13)
    (hread : readOne q.body = some page) (hpage : page.toNat < 2) :
    ∃ r rest, exec .orderList s = .next (answered q ([0, byteOf s.orders.orders.length, byteOf r] ++ rest) s) ∧
      r = (if page = 0 then min 16 s.orders.orders.length else s.orders.orders.length - 16) ∧
      rest.length = 9 * r := by
  let shown := if page = 0 then s.storeOrder.take 16 else s.storeOrder.drop 16
  refine ⟨shown.length, (shown.map orderListEntry).flatten, takeKind_answered (own := handleOrderList) hq hk hread ?_,
    ?_, flatten_length orderListEntry_length _⟩
  · simp only [handleOrderList, if_neg (not_le.2 hpage), taken]
    rfl
  · simp only [shown]
    split <;> simp [storeOrder_length]

theorem orderClear_removes {s : State} {q : Request} {sel : OrderSelector} {n : Nat} {o : Order} (hcanon : Canonical s)
    (hq : s.oldest = some q) (hk : q.kind = 0x14) (hread : readOrderSelector q.body = some sel)
    (hrange : sel.inRange = true) (hfind : s.findOrder sel = some (n, o)) (hclosed : o.isClosed = true) :
    ∃ t, exec .orderClear s = .next t ∧ t.order n = none ∧ (∀ m, m ≠ n → t.order m = s.order m) ∧
      t.table = s.table ∧ t.tb = s.tb ∧ t.orders.sequence = s.orders.sequence ∧
      t.link.replies = s.link.replies ++ [⟨0x94, q.ticket, [0], true, .nothing⟩] := by
  have hexec := takeKind_read (own := fun _ sel => withOrder sel clearOrder) hq hk hread
  have hclear : withOrder sel clearOrder (dropRequest s) = taken [] (dropOrder n (dropRequest s)) := by
    rw [withOrder_found (s := dropRequest s) clearOrder hrange hfind, clearOrder, if_pos hclosed]
  rw [hclear] at hexec
  refine ⟨_, hexec, ?_, fun m hm => ?_, ?_⟩
  · simpa [taken, State.order] using lookup_eraseAt_self n hcanon.1.1
  · simpa [taken, State.order] using lookup_eraseAt_ne _ hm
  · simp [taken, hk, replyKind, resultByte]

/-- Settles O36: the five requests, each above. -/
theorem recordsAreReadAndCleared : Obligations.RecordsAreReadAndCleared :=
  ⟨fun _ _ _ _ _ hq hk hread hrange hfind => rxRead_answers hq hk hread hrange hfind,
    fun _ _ _ hq hk hread hpage => rxList_answers hq hk hread hpage,
    fun _ _ _ _ _ hq hk hread hrange hfind => orderRead_answers hq hk hread hrange hfind,
    fun _ _ _ hq hk hread hpage _ => orderList_answers hq hk hread hpage,
    fun _ _ _ _ _ hcanon hq hk hread hrange hfind hclosed =>
      orderClear_removes hcanon hq hk hread hrange hfind hclosed⟩

end Sys2Proof.Safety
end

