-- ==== Sys2Proof/Proofs/SlotLaws.lean ====
section
/-! PROOFS. The orders in their slots: who holds a slot after an order is put, and after every order in a slot is put
through a function. -/

namespace Sys2Proof.Machine

variable {s : State}

/-! ## Who holds a slot -/

theorem holds_iff {o : Order} {k : Nat} : o.holds k = true ↔ ∃ f, o.fields = some f ∧ f.slot = k := by
  simp [Order.holds, Option.any_eq_true]

/-- An order holds one slot at most. -/
theorem holds_unique {o : Order} {j k : Nat} (hj : o.holds j = true) (hk : o.holds k = true) : j = k := by
  obtain ⟨f, hf, rfl⟩ := holds_iff.1 hj
  obtain ⟨f', hf', rfl⟩ := holds_iff.1 hk
  rw [hf] at hf'
  cases hf'
  rfl

theorem orderInSlot_holds {k n : Nat} {o : Order} (h : s.orderInSlot k = some (n, o)) : o.holds k = true :=
  List.find?_some (p := fun no : Nat × Order => no.2.holds k) h

theorem order_of_orderInSlot {k n : Nat} {o : Order} (hs : rising s.orders.orders = true)
    (h : s.orderInSlot k = some (n, o)) : s.order n = some o :=
  lookup_of_mem hs (List.mem_of_find?_eq_some h)

theorem mem_slotOrders {n : Nat} {o : Order} (h : (n, o) ∈ s.slotOrders) :
    ∃ k < 8, s.orderInSlot k = some (n, o) := by
  obtain ⟨k, hk, ho⟩ := List.mem_filterMap.1 h
  exact ⟨k, List.mem_range.1 hk, ho⟩

/-- The orders that hold slots stand at positions of their own. -/
theorem slotOrders_nodup (hs : rising s.orders.orders = true) : (s.slotOrders.map Prod.fst).Nodup := by
  rw [List.Nodup, List.pairwise_map, State.slotOrders, List.pairwise_filterMap]
  refine List.nodup_range.imp fun {j k} hjk x hx y hy hxy => hjk ?_
  obtain ⟨n, o⟩ := x
  obtain ⟨m, p⟩ := y
  obtain rfl : n = m := hxy
  have ho := order_of_orderInSlot hs hx
  rw [order_of_orderInSlot hs hy] at ho
  cases ho
  exact holds_unique (orderInSlot_holds hx) (orderInSlot_holds hy)

/-! ## An order put -/

theorem find?_insertAt_ne {p : Nat × Order → Bool} {l : List (Nat × Order)} {n : Nat} {o o' : Order}
    (ho : lookup l n = some o) (hold : p (n, o) = false) (hnew : p (n, o') = false) :
    (insertAt l n o').find? p = l.find? p := by
  induction l with
  | nil => simp [lookup] at ho
  | cons x l ih =>
    obtain ⟨m, q⟩ := x
    unfold insertAt
    by_cases hlt : n < m
    · rw [if_pos hlt, List.find?_cons_of_neg (by simp [hnew])]
    · by_cases heq : n = m
      · subst heq
        obtain rfl : q = o := by simpa [lookup] using ho
        rw [if_neg hlt, if_pos rfl, List.find?_cons_of_neg (by simp [hnew]), List.find?_cons_of_neg (by simp [hold])]
      · have hrest : lookup l n = some o := by simpa [lookup, Ne.symm heq] using ho
        rw [if_neg hlt, if_neg heq]
        simp only [List.find?_cons, ih hrest]

theorem find?_insertAt_self {p : Nat × Order → Bool} {l : List (Nat × Order)} {n : Nat} {o o' : Order}
    (hl : rising l = true) (ho : l.find? p = some (n, o)) (hnew : p (n, o') = true) :
    (insertAt l n o').find? p = some (n, o') := by
  induction l with
  | nil => simp at ho
  | cons x l ih =>
    obtain ⟨m, q⟩ := x
    obtain ⟨hm, hl⟩ := (rising_cons _ l).1 hl
    unfold insertAt
    by_cases hp : p (m, q) = true
    · obtain ⟨rfl, rfl⟩ : m = n ∧ q = o := by simpa [List.find?_cons, hp] using ho
      rw [if_neg (lt_irrefl _), if_pos rfl, List.find?_cons_of_pos hnew]
    · have hrest : l.find? p = some (n, o) := by simpa [List.find?_cons, hp] using ho
      have hlt : m < n := hm (n, o) (List.mem_of_find?_eq_some hrest)
      rw [if_neg (by omega), if_neg (by omega), List.find?_cons_of_neg hp, ih hl hrest]

theorem orderInSlot_putOrder_ne {n k : Nat} {o o' : Order} (ho : s.order n = some o) (hold : o.holds k = false)
    (hnew : o'.holds k = false) : (putOrder n o' s).orderInSlot k = s.orderInSlot k := by
  simp only [State.orderInSlot, putOrder_orders]
  exact find?_insertAt_ne ho hold hnew

theorem orderInSlot_putOrder_self {n k : Nat} {o o' : Order} (hs : rising s.orders.orders = true)
    (ho : s.orderInSlot k = some (n, o)) (hnew : o'.holds k = true) :
    (putOrder n o' s).orderInSlot k = some (n, o') := by
  simp only [State.orderInSlot, putOrder_orders]
  exact find?_insertAt_self hs ho hnew

/-! ## Every order in a slot put through a function -/

/-- The order in a slot put through a function of the slot, and written if it changed. -/
def changeSlot (g : Nat → Order → Order) (s : State) (k : Nat) : State :=
  match s.orderInSlot k with
  | none => s
  | some (n, o) => if g k o = o then s else putOrder n (g k o) s

theorem changeSlot_rising (g : Nat → Order → Order) (k : Nat) (hs : rising s.orders.orders = true) :
    rising (changeSlot g s k).orders.orders = true := by
  unfold changeSlot
  split
  · exact hs
  · split
    · exact hs
    · simpa using rising_insertAt _ _ hs

/-- The function reaches the order in its slot and no other slot. -/
theorem changeSlot_orderInSlot {g : Nat → Order → Order} (hg : ∀ k o j, (g k o).holds j = o.holds j)
    (hs : rising s.orders.orders = true) (j k : Nat) : (changeSlot g s k).orderInSlot j =
      (s.orderInSlot j).map fun no => (no.1, if j = k then g k no.2 else no.2) := by
  unfold changeSlot
  cases hk : s.orderInSlot k with
  | none =>
    by_cases hjk : j = k
    · subst hjk
      simp [hk]
    · simp [hjk]
  | some no =>
    obtain ⟨n, o⟩ := no
    have hold := orderInSlot_holds hk
    by_cases hjk : j = k
    · subst hjk
      by_cases hsame : g j o = o
      · simp [hsame, hk]
      · simp [hsame, hk, orderInSlot_putOrder_self hs hk ((hg j o j).trans hold)]
    · have hother : o.holds j = false := Bool.eq_false_iff.2 fun h => hjk (holds_unique h hold)
      by_cases hsame : g k o = o
      · simp [hsame, hjk]
      · simp [hsame, hjk,
          orderInSlot_putOrder_ne (order_of_orderInSlot hs hk) hother ((hg k o j).trans hother)]

theorem foldl_changeSlot_rising (g : Nat → Order → Order) (ks : List Nat) (hs : rising s.orders.orders = true) :
    rising (ks.foldl (changeSlot g) s).orders.orders = true :=
  foldl_keeps (P := fun t => rising t.orders.orders = true) (fun _ k ht => changeSlot_rising g k ht) _ hs

theorem foldl_changeSlot_orderInSlot {g : Nat → Order → Order} (hg : ∀ k o j, (g k o).holds j = o.holds j)
    (hs : rising s.orders.orders = true) {ks : List Nat} (hks : ks.Nodup) (j : Nat) :
    (ks.foldl (changeSlot g) s).orderInSlot j =
      (s.orderInSlot j).map fun no => (no.1, if j ∈ ks then g j no.2 else no.2) := by
  induction ks generalizing s with
  | nil => simp
  | cons k ks ih =>
    obtain ⟨hk, hks⟩ := List.nodup_cons.1 hks
    rw [List.foldl_cons, ih (changeSlot_rising g k hs) hks, changeSlot_orderInSlot hg hs, Option.map_map]
    congr 1
    funext no
    by_cases hjk : j = k
    · subst hjk
      simp [hk]
    · simp [hjk]

/-- The order found in a slot after every slot's order was put through a function. -/
theorem foldl_changeSlot_order {g : Nat → Order → Order} (hg : ∀ k o j, (g k o).holds j = o.holds j)
    (hs : rising s.orders.orders = true) {ks : List Nat} (hks : ks.Nodup) {k n : Nat} {o : Order} (hk : k ∈ ks)
    (ho : s.orderInSlot k = some (n, o)) : (ks.foldl (changeSlot g) s).order n = some (g k o) := by
  refine order_of_orderInSlot (k := k) (foldl_changeSlot_rising g ks hs) ?_
  rw [foldl_changeSlot_orderInSlot hg hs hks, ho]
  simp [hk]

theorem mapFields_counters (o : Order) (g : SlotFields → SlotFields) : (o.mapFields g).counters = o.counters := by
  unfold Order.mapFields
  split <;> rfl

theorem mapFields_holds (o : Order) {g : SlotFields → SlotFields} (hg : ∀ f, (g f).slot = f.slot) (j : Nat) :
    (o.mapFields g).holds j = o.holds j := by
  unfold Order.mapFields Order.holds Order.fields
  cases hs : o.state <;> simp [hg, hs]

end Sys2Proof.Machine
end

