-- ==== Sys2Proof/Proofs/ReceiverClaims.lean ====
section
/-! PROOFS. The Receiver Table's requests, and PROBE. -/

namespace Sys2Proof.Machine

variable {s : State}

/-! ## A new receiver -/

/-- An order with one more receiver in its roll and its account. -/
def Order.joined (o : Order) (i : Nat) : Order :=
  { o.mapFields fun f => { f with roll := insertIndex i f.roll } with
    counters := { o.counters with targeted := bump o.counters.targeted 1 } }

theorem joinOrder_eq (i : Nat) (s : State) (no : Nat × Order) :
    joinOrder i s no = putOrder no.1 (no.2.joined i) s := by
  simp only [joinOrder, mapFields_counters]
  rfl

theorem foldl_joinOrder_frame (i : Nat) (joined : List (Nat × Order)) (s : State) :
    (joined.foldl (joinOrder i) s).table = s.table ∧ (joined.foldl (joinOrder i) s).tb = s.tb ∧
    (joined.foldl (joinOrder i) s).sched = s.sched ∧ (joined.foldl (joinOrder i) s).engine = s.engine := by
  refine foldl_keeps (P := fun t => t.table = s.table ∧ t.tb = s.tb ∧ t.sched = s.sched ∧ t.engine = s.engine)
    (fun t no ht => ?_) _ ⟨rfl, rfl, rfl, rfl⟩
  rw [joinOrder_eq]
  simpa using ht

theorem foldl_joinOrder_order_ne {i m : Nat} {joined : List (Nat × Order)} (h : m ∉ joined.map Prod.fst) :
    (joined.foldl (joinOrder i) s).order m = s.order m := by
  induction joined generalizing s with
  | nil => rfl
  | cons no joined ih =>
    obtain ⟨hne, h⟩ : m ≠ no.1 ∧ m ∉ joined.map Prod.fst := by simpa using h
    rw [List.foldl_cons, ih h, joinOrder_eq, putOrder_order_ne _ _ hne]

theorem foldl_joinOrder_order {i n : Nat} {o : Order} {joined : List (Nat × Order)}
    (hd : (joined.map Prod.fst).Nodup) (h : (n, o) ∈ joined) :
    (joined.foldl (joinOrder i) s).order n = some (o.joined i) := by
  induction joined generalizing s with
  | nil => simp at h
  | cons no joined ih =>
    obtain ⟨hno, hd⟩ := List.nodup_cons.1 (List.map_cons ▸ hd)
    rw [List.foldl_cons]
    rcases List.mem_cons.1 h with rfl | h
    · rw [foldl_joinOrder_order_ne hno, joinOrder_eq, putOrder_order_self]
    · exact ih hd h

theorem handleRxAdd_taken {q : Request} {a : RxAdd} {ph : Option Phase} (hph : phaseOfCode a.phase = some ph)
    (hrange : a.inRange = true) (hfree : s.receiverAt a.address = none) (hpath : s.pathFound a.path = true)
    (hroom : s.table.length < 512)
    (hcount : ∀ x ∈ s.slotOrders, joins (a.groups.map (·.toNat)) x.2 = true → x.2.counters.targeted < 65535) :
    handleRxAdd q a s = addReceiver (a.record ph s.params.qTarget)
      (s.slotOrders.filter fun no => joins (a.groups.map (·.toNat)) no.2) s := by
  have hfull : (decide (Config.receiverPositions ≤ s.table.length) ||
      (s.slotOrders.filter fun no => joins (a.groups.map (·.toNat)) no.2).any fun no =>
        decide (Config.counterMax ≤ no.2.counters.targeted)) = false := by
    rw [Bool.or_eq_false_iff, List.any_eq_false]
    refine ⟨decide_eq_false (not_le.2 hroom), fun x hx => ?_⟩
    obtain ⟨hmem, hjoin⟩ := List.mem_filter.1 hx
    exact fun hfull => absurd (of_decide_eq_true hfull) (not_le.2 (hcount x hmem hjoin))
  simp only [handleRxAdd, hph, hrange, hfree, hpath, RxAdd.record, hfull, Option.isSome_none, Bool.not_true,
    Bool.false_eq_true, if_false]

/-! ## A record updated -/

theorem storeUpdate_receiver {i : Nat} {r r' : Receiver} (hr : s.receiver i = some r) :
    (storeUpdate i r r' s).state.receiver i = some r' ∧
    (∀ j, j ≠ i → (storeUpdate i r r' s).state.receiver j = s.receiver j) ∧
    (storeUpdate i r r' s).state.orders = s.orders ∧ (storeUpdate i r r' s).state.sched = s.sched ∧
    (storeUpdate i r r' s).state.engine = s.engine ∧ (storeUpdate i r r' s).state.tb = s.tb := by
  simp only [storeUpdate, taken]
  by_cases h : r' = r
  · subst h
    simp [hr]
  · simp only [if_neg h]
    exact ⟨putReceiver_receiver_self .., fun j hj => putReceiver_receiver_ne _ _ hj, by simp, by simp, by simp, by simp⟩

/-- What an update replaces in a record, and what it leaves. -/
theorem onto_fields (u : RxUpdate) (r : Receiver) :
    (u.onto r).phase = (u.phase.bind phaseOfCode).getD r.phase ∧
    (u.onto r).groups = (u.groups.map fun gs => gs.map (·.toNat)).getD r.groups ∧
    (u.onto r).quality = (u.quality.map (·.toNat)).getD r.quality ∧
    (u.onto r).carrier = (u.carrier.bind carrierOfCode).getD r.carrier ∧
    (u.onto r).failures = (if (u.carrier.bind carrierOfCode).isSome then 0 else r.failures) ∧
    (u.onto r).address = r.address ∧ (u.onto r).reported = r.reported := by
  unfold RxUpdate.onto
  dsimp only
  cases u.carrier.bind carrierOfCode <;> cases u.path with
  | none => simp
  | some p => cases p <;> simp

theorem onto_path (u : RxUpdate) (r : Receiver) :
    (∀ path, u.path = some (.set path) → (u.onto r).path = some path ∧ (u.onto r).stale = false) ∧
    (u.path = some .clear → (u.onto r).path = none ∧ (u.onto r).stale = false) ∧
    (u.path = none ∨ u.path = some .keep → (u.onto r).path = r.path ∧ (u.onto r).stale = r.stale) := by
  unfold RxUpdate.onto
  dsimp only
  refine ⟨fun path h => ?_, fun h => ?_, fun h => ?_⟩
  · cases u.carrier.bind carrierOfCode <;> simp [h]
  · cases u.carrier.bind carrierOfCode <;> simp [h]
  · obtain h | h := h <;> cases u.carrier.bind carrierOfCode <;> simp [h]

/-- A carrier supplied in range is one that its code names. -/
theorem carrier_named {u : RxUpdate} {own : Option Addr} (h : u.inRange own = true) :
    (u.carrier.bind carrierOfCode).isSome = u.carrier.isSome := by
  have hall : (u.carrier.all fun c => (carrierOfCode c).isSome) = true := by
    simp only [RxUpdate.inRange, Bool.and_eq_true] at h
    exact h.1.2
  cases hc : u.carrier with
  | none => rfl
  | some c => simpa [hc] using hall

/-! ## A record removed -/

/-- An order without a receiver in its roll, its account put through a function. -/
def Order.forgetting (o : Order) (i : Nat) (c : Counters) : Order :=
  { o.mapFields fun f => { f with roll := f.roll.filter (· != i) } with counters := c }

theorem forgetReceiver_eq (i : Nat) (g : Nat → Counters → Counters) (s : State) : forgetReceiver i g s =
    (List.range 8).foldl (changeSlot fun k o => o.forgetting i (g k o.counters)) s := rfl

theorem forgetting_holds (o : Order) (i : Nat) (c : Counters) (j : Nat) : (o.forgetting i c).holds j = o.holds j :=
  mapFields_holds o (g := fun f => { f with roll := f.roll.filter (· != i) }) (fun _ => rfl) j

/-- The table, the orders and the probes after a removal. -/
theorem removeReceiver_frame (i : Nat) (r : Receiver) (s : State) :
    (removeReceiver i r s).table = (stalePaths r.address (dropReceiver i s)).table ∧
    (removeReceiver i r s).orders = (forgetReceiver i (fun k c => c.drop (r.entries.countP (·.slot == k)))
      (stalePaths r.address (dropReceiver i s))).orders ∧
    (removeReceiver i r s).sched.probes = s.sched.probes.filter (·.index != i) ∧
    (removeReceiver i r s).link.replies = s.link.replies ∧ (removeReceiver i r s).tb = s.tb ∧
    (removeReceiver i r s).engine = s.engine := by
  simp only [removeReceiver, markWithdrawn_frame, markWithdrawn_sched, withdrawProbes_frame, withdrawProbes_sched,
    withdrawProbes_link, forgetReceiver_frame]
  simp [stalePaths]

theorem stalePaths_receiver (a : Option Addr) (i : Nat) : (stalePaths a s).receiver i =
    (s.receiver i).map fun r => if namesRelay a r then { r with stale := true } else r := by
  rw [stalePaths, changeReceivers_receiver]
  congr 1
  funext r
  by_cases hn : namesRelay a r = true
  · by_cases hst : r.stale = true
    · have hsame : { r with stale := true } = r := by rw [← hst]
      simp [hn, hst, hsame]
    · simp [hn, hst]
  · simp [hn]

/-! ## A probe asked -/

theorem addProbe_joins {ticket : Byte} {viaPath : Bool} {ph : Option Phase} {i : Nat} {r : Receiver}
    (hn : r.damaged = false) (hpath : viaPath = true → (s.usablePath r).isSome = true)
    (hroom : s.sched.probes.length < 4) : addProbe ticket viaPath ph i r s =
      ⟨[0, byteOf (s.sched.probes.length + 1)], .nothing, { s with sched := { s.sched with
        probes := s.sched.probes ++ [⟨ticket, i, r.address.getD 0, viaPath, ph⟩] } }⟩ := by
  have hstate : (r.damaged || (viaPath && (s.usablePath r).isNone)) = false := by
    cases hv : viaPath with
    | false => simp [hn]
    | true =>
      obtain ⟨p, hp⟩ := Option.isSome_iff_exists.1 (hpath hv)
      simp [hn, hp]
  have hfree : ¬ Config.probeLimit ≤ s.sched.probes.length := not_le.2 hroom
  simp only [addProbe, hstate, if_neg hfree, taken, List.length_append]
  rfl

end Sys2Proof.Machine

namespace Sys2Proof.Safety

open Sys2Proof.Machine

/-- Settles O37: the record is placed first, and the orders joined stand at positions of their own. -/
theorem newReceiverJoinsActiveOrders : Obligations.NewReceiverJoinsActiveOrders := by
  intro s q a ph hcanon hq hk hread hph hrange hfree hpath hroom hcount
  let joined := s.slotOrders.filter fun x => joins (a.groups.map (·.toNat)) x.2
  let r : Receiver := { a.record ph s.params.qTarget with entries := entriesFor joined s.tb.count }
  let u := putReceiver (lowestFree s.table 0) r (dropRequest s)
  have hown : handleRxAdd q a (dropRequest s) = taken
      (bytesOf 2 (lowestFree s.table 0) ++ [byteOf (entriesFor joined s.tb.count).length])
      (joined.foldl (joinOrder (lowestFree s.table 0)) u) :=
    handleRxAdd_taken (s := dropRequest s) hph hrange hfree hpath hroom hcount
  have hexec := takeKind_read (own := handleRxAdd) hq hk hread
  rw [hown] at hexec
  obtain ⟨htable, htb, hsched, hengine⟩ := foldl_joinOrder_frame (lowestFree s.table 0) joined u
  have hreceiver (i : Nat) : (joined.foldl (joinOrder (lowestFree s.table 0)) u).receiver i = u.receiver i := by
    rw [State.receiver, htable, State.receiver]
  have hnodup : (joined.map Prod.fst).Nodup :=
    (slotOrders_nodup hcanon.1.1).sublist (List.filter_sublist.map _)
  refine ⟨_, r, hexec, (hreceiver _).trans (putReceiver_receiver_self ..), rfl, rfl, rfl, rfl, rfl, rfl, rfl, rfl, rfl,
    rfl, rfl, fun i hi => (hreceiver i).trans (putReceiver_receiver_ne _ _ hi), fun n o hno hjoin => ?_, ?_, ?_, ?_⟩
  · refine ⟨o.joined (lowestFree s.table 0),
      foldl_joinOrder_order hnodup (List.mem_filter.2 ⟨hno, hjoin⟩), ?_⟩
    have hlt := hcount (n, o) hno hjoin
    simp only [Order.joined, bump, Config.counterMax, Nat.min_eq_right (Nat.succ_le_of_lt hlt)]
  · exact htb.trans (by simp [u])
  · exact hsched.trans (by simp [u])
  · exact hengine.trans (by simp [u])

/-- Settles O38: the record is what the fields supplied make of the one held. -/
theorem updateReplacesSuppliedFields : Obligations.UpdateReplacesSuppliedFields := by
  intro s q u i r hq hk hread hsel hfind hr hn haddr hrange hpath
  have hown : handleRxUpdate q u (dropRequest s) = storeUpdate i r (u.onto r) (dropRequest s) := by
    have hpath' : (dropRequest s).pathFound (u.setPath.getD []) = true := hpath
    rw [handleRxUpdate, withReceiver_found (s := dropRequest s) _ hsel hfind]
    simp [hn, updateNormal, haddr, hrange, hpath']
  have hexec := takeKind_read (own := handleRxUpdate) hq hk hread
  rw [hown] at hexec
  obtain ⟨hself, hne, horders, hsched, hengine, htb⟩ :=
    storeUpdate_receiver (s := dropRequest s) (r' := u.onto r) (by exact hr)
  obtain ⟨hphase, hgroups, hquality, hcarrier, hfail, hadr, hrep⟩ := onto_fields u r
  obtain ⟨hset, hclear, hkeep⟩ := onto_path u r
  obtain ⟨hentries, hdamaged⟩ := onto_lists u r
  exact ⟨_, u.onto r, hexec, hself, hphase, hgroups, hquality, hcarrier, carrier_named hrange ▸ hfail, hset, hclear,
    hkeep, hadr, hrep, hdamaged.trans hn, hentries, hne, horders, hsched, hengine, htb⟩

/-- Settles O39: the record goes first, then the paths, the orders in their slots and the probes that named it. -/
theorem removalStalesPathsAndDropsEntries : Obligations.RemovalStalesPathsAndDropsEntries := by
  intro s q sel i r hcanon hq hk hread hrange hfind
  have hexec := takeKind_read (own := fun _ sel => withReceiver sel handleRxRemove) hq hk hread
  rw [withReceiver_found (s := dropRequest s) handleRxRemove hrange hfind, handleRxRemove] at hexec
  obtain ⟨htable, horders, hprobes, hreplies, htb, hengine⟩ := removeReceiver_frame i r (dropRequest s)
  have hstale : (stalePaths r.address (dropReceiver i (dropRequest s))).orders = s.orders := by simp [stalePaths]
  generalize removeReceiver i r (dropRequest s) = u at htable horders hprobes hreplies htb hengine hexec
  have hreceiver (j : Nat) : u.receiver j = ((dropReceiver i (dropRequest s)).receiver j).map fun r' =>
      if namesRelay r.address r' then { r' with stale := true } else r' := by
    rw [← stalePaths_receiver, State.receiver, htable, State.receiver]
  refine ⟨_, hexec, (hreceiver i).trans ?_, fun j r' hj hr' => (hreceiver j).trans ?_, fun n o hno => ?_, hprobes, ?_,
    htb, hengine⟩
  · rw [dropReceiver_receiver_self (s := dropRequest s) hcanon.2.1.1]
    rfl
  · rw [dropReceiver_receiver_ne _ hj, show (dropRequest s).receiver j = some r' from hr']
    rfl
  · obtain ⟨k, hk8, ho⟩ := mem_slotOrders hno
    have hafter := foldl_changeSlot_order (s := stalePaths r.address (dropReceiver i (dropRequest s)))
      (g := fun k o => o.forgetting i (o.counters.drop (r.entries.countP (·.slot == k))))
      (fun _ _ _ => forgetting_holds ..) (hstale ▸ hcanon.1.1) List.nodup_range (List.mem_range.2 hk8)
      (by rw [State.orderInSlot, hstale]; exact ho)
    rw [← forgetReceiver_eq i (fun k c => c.drop (r.entries.countP (·.slot == k))), State.order, ← horders] at hafter
    refine ⟨_, hafter, fun f hf => ⟨?_, (mapFields_frame _ hf).1⟩⟩
    obtain ⟨f', hf', rfl⟩ := holds_iff.1 (orderInSlot_holds ho)
    rw [hf] at hf'
    cases hf'
    rfl
  · simp [taken, hreplies, hk, replyKind, resultByte]

/-- Settles O40: the checks passed, the probe is appended in the state without the request. -/
theorem probeJoinsTheQueue : Obligations.ProbeJoinsTheQueue := by
  intro s q a ph i r hq hk hread hph hchoice hrange hfind hn hpath hroom
  have hown : handleProbe q a (dropRequest s) = ⟨[0, byteOf (s.sched.probes.length + 1)], .nothing,
      { dropRequest s with sched := { s.sched with
        probes := s.sched.probes ++ [⟨q.ticket, i, r.address.getD 0, a.choice == 1, ph⟩] } }⟩ := by
    simp only [handleProbe, ProbeRequest.phaseGiven, hph, hchoice, Bool.not_true, Bool.false_eq_true, if_false]
    rw [withReceiver_found (s := dropRequest s) _ hrange hfind]
    exact addProbe_joins (s := dropRequest s) hn (fun h => hpath (by simpa using h)) hroom
  have hexec := takeKind_read (own := handleProbe) hq hk hread
  rw [hown] at hexec
  refine ⟨_, hexec, rfl, ?_, rfl⟩
  simp [hk, replyKind]

end Sys2Proof.Safety
end

