-- ==== Sys2Proof/Proofs/StoreClaims.lean ====
section
/-! PROOFS. The Retained Store: record writes, the clean scrub, loss of power and the end of a WIPE. -/

namespace Sys2Proof.Machine

variable {s : State} {st : RetainedStore}

/-! ## Reads and writes of one position -/

theorem ordered_of_canonical (h : Safety.Canonical s) : s.store.ordered := ⟨h.2.2.1.1.1, h.2.2.2.1.1.1⟩

@[simp] theorem wordsAt_withWrites (ws : List PendingWrite) (p : Position) :
    ({ st with writes := ws } : RetainedStore).wordsAt p = st.wordsAt p := by cases p <;> rfl

theorem badWords_of_clean {ws : Words} (h : ∀ w ∈ ws, w = .of w.data) : badWords ws = [] :=
  badWords_eq_nil.2 fun w hw => by rw [h w hw]; simp

theorem clean_words (c : WriteContent) (count : Count) : ∀ w ∈ c.words count, w = .of w.data := by
  cases c <;> exact clean_wordsOf _

/-- A read with all that follows, from the store it leaves. -/
theorem readPosition_eq (pos : Position) (found : Found) (e : ReadErrors) (s : State) : readPosition pos found e s =
    if badWords ((s.store.readBack e pos).wordsAt pos) ≠ [] then
      handleDamage pos found ((s.store.readBack e pos).wordsAt pos) { s with store := s.store.readBack e pos }
    else { s with store := s.store.readBack e pos } := by
  unfold readPosition
  by_cases h : badWords ((s.store.readBack e pos).wordsAt pos) = [] <;> simp [h]

/-- The store after the oldest write: its record laid down, and read back where that is asked. -/
def storeAfterWrite (w : PendingWrite) (rest : List PendingWrite) (count : Count) (e : ReadErrors) (st : RetainedStore) :
    RetainedStore :=
  let laid : RetainedStore := { st.lay w.content count with writes := rest }
  if w.verify then laid.readBack e w.content.position else laid.spoil e w.content.position

theorem writeRecord_eq {w : PendingWrite} {rest : List PendingWrite} (e : ReadErrors) (hw : s.store.writes = w :: rest) :
    writeRecord e s =
      if w.verify = true ∧ badWords ((storeAfterWrite w rest s.count e s.store).wordsAt w.content.position) ≠ [] then
        handleDamage w.content.position .verify
          ((storeAfterWrite w rest s.count e s.store).wordsAt w.content.position)
          { s with store := storeAfterWrite w rest s.count e s.store }
      else { s with store := storeAfterWrite w rest s.count e s.store } := by
  cases hv : w.verify with
  | false => simp [writeRecord, hw, hv, storeAfterWrite]
  | true => simp [writeRecord, hw, hv, storeAfterWrite, readPosition_eq]

theorem storeAfterWrite_self {w : PendingWrite} {rest : List PendingWrite} {count : Count} (e : ReadErrors)
    (h : st.ordered) : (storeAfterWrite w rest count e st).wordsAt w.content.position =
      if w.verify then (turnWords e (w.content.words count)).map (·.writtenBack)
      else turnWords e (w.content.words count) := by
  have hlaid : (({ st.lay w.content count with writes := rest } : RetainedStore)).wordsAt w.content.position =
      w.content.words count := by rw [wordsAt_withWrites, lay_at_self _ _ h]
  have hord : ({ st.lay w.content count with writes := rest } : RetainedStore).ordered := lay_ordered w.content count h
  unfold storeAfterWrite
  dsimp only
  split
  · rw [readBack_at_self _ _ hord, hlaid]
  · rw [spoil_at_self _ _ hord, hlaid]

theorem storeAfterWrite_ne {w : PendingWrite} {rest : List PendingWrite} {count : Count} (e : ReadErrors)
    {p : Position} (h : p ≠ w.content.position) : (storeAfterWrite w rest count e st).wordsAt p = st.wordsAt p := by
  unfold storeAfterWrite
  dsimp only
  split
  · rw [readBack_at_ne _ _ h, wordsAt_withWrites, lay_at_ne _ _ _ h]
  · rw [spoil_at_ne _ _ h, wordsAt_withWrites, lay_at_ne _ _ _ h]

theorem storeAfterWrite_frame (w : PendingWrite) (rest : List PendingWrite) (count : Count) (e : ReadErrors) :
    (storeAfterWrite w rest count e st).writes = rest ∧
    (storeAfterWrite w rest count e st).scrubNext = st.scrubNext ∧
    (storeAfterWrite w rest count e st).scrubDue = st.scrubDue ∧
    (storeAfterWrite w rest count e st).wiping = st.wiping := by
  unfold storeAfterWrite
  dsimp only
  split <;> simp [RetainedStore.spoil]

theorem storeAfterWrite_corrections {w : PendingWrite} {rest : List PendingWrite} {count : Count} (e : ReadErrors)
    (h : st.ordered) : (storeAfterWrite w rest count e st).corrections =
      if w.verify then min 65535 (st.corrections + correctedWords (turnWords e (w.content.words count)))
      else st.corrections := by
  have hlaid : (({ st.lay w.content count with writes := rest } : RetainedStore)).wordsAt w.content.position =
      w.content.words count := by rw [wordsAt_withWrites, lay_at_self _ _ h]
  unfold storeAfterWrite
  dsimp only
  split
  · show bump (st.lay w.content count).corrections (correctedWords (turnWords e
      (({ st.lay w.content count with writes := rest } : RetainedStore).wordsAt w.content.position))) = _
    rw [hlaid, (lay_frame st w.content count).2.1]
    rfl
  · simp [RetainedStore.spoil]

/-- A write in whose words no bit turns gives its record back. -/
theorem storeAfterWrite_whole {w : PendingWrite} {rest : List PendingWrite} {count : Count} (h : st.ordered) :
    (storeAfterWrite w rest count [] st).wordsAt w.content.position = w.content.words count := by
  rw [storeAfterWrite_self [] h]
  split
  · rw [turnWords_nil, writtenBack_of_clean (clean_words _ _)]
  · rw [turnWords_nil]

/-- The scrub pointer moves on in its cycle. -/
theorem nextScrub_eq {n : Nat} (h : n < 546) : nextScrub n = (n + 1) % 546 := by
  by_cases hlast : n + 1 < 546
  · exact (if_pos hlast).trans (Nat.mod_eq_of_lt hlast).symm
  · rw [show n + 1 = 546 by omega]
    exact if_neg hlast

/-! ## The positions a WIPE had rewritten -/

theorem lookup_filter {α : Type} (p : Nat → Bool) (l : List (Nat × α)) (n : Nat) :
    lookup (l.filter fun x => p x.1) n = if p n then lookup l n else none := by
  induction l with
  | nil => simp [lookup]
  | cons x l ih =>
    obtain ⟨m, v⟩ := x
    by_cases hp : p m = true
    · rw [List.filter_cons_of_pos (by simpa using hp)]
      by_cases hmn : m = n
      · subst hmn
        simp [lookup, hp]
      · simp [lookup, hmn, ih]
    · rw [List.filter_cons_of_neg (by simpa using hp), ih]
      by_cases hmn : m = n
      · subst hmn
        simp [hp]
      · simp [lookup, hmn]

theorem keptAt_filter (p : Nat → Bool) (l : List (Nat × Words)) (n : Nat) :
    keptAt (l.filter fun x => p x.1) n = if p n then keptAt l n else zeroWords 32 := by
  unfold keptAt
  rw [lookup_filter]
  split <;> rfl

theorem losePower_eq {t : RetainedStore} (writing : Bool) (k : Nat)
    (h : (if s.store.wiping.isSome then s.store.wipeFirst k s.count
      else match writing, s.store.writes with
        | true, w :: _ => s.store.lay w.content s.count
        | true, [] => s.store
        | false, _ => s.store) = t) :
    losePower writing k s = { s with powered := false, store := { t with writes := [] } } := by
  rw [← h]
  unfold losePower
  congr 2

theorem wipeReply_requested {q : Request} (h : s.link.inHand = some q) :
    wipeReply .requested s = appendReply q [resultByte .ok] .wipeDone s := by simp only [wipeReply, h]

end Sys2Proof.Machine

namespace Sys2Proof.Safety

open Sys2Proof.Machine

/-- Settles O41: the write is the laying down of its words, then the read of them where it is verified. -/
theorem oldestWriteIsLaidDown : Obligations.OldestWriteIsLaidDown := by
  intro s e hcanon hpow hwiping
  have hord := ordered_of_canonical hcanon
  refine ⟨fun h => ?_, fun w rest hrest hw => ?_⟩
  · obtain hnil | hrest := h
    · show when _ s (writeRecord e s) = _
      have hsame : writeRecord e s = s := by simp [writeRecord, hnil]
      rw [hsame, when]
      split <;> rfl
    · show when _ s (writeRecord e s) = _
      simp [when, State.working, hrest]
  · have hcan : (s.working && s.store.wiping.isNone) = true := by simp [State.working, hpow, hrest, hwiping]
    obtain ⟨hwrites, hnext, hdue, hwip⟩ := storeAfterWrite_frame (st := s.store) w rest s.tb.count e
    refine ⟨storeAfterWrite w rest s.tb.count e s.store, (when_true hcan).trans (congrArg _ (writeRecord_eq e hw)),
      hwrites, storeAfterWrite_corrections e hord, storeAfterWrite_self e hord, fun p hp => storeAfterWrite_ne e hp,
      fun he => ?_, hnext, hdue, hwip.trans hwiping⟩
    subst he
    have hwhole := storeAfterWrite_whole (w := w) (rest := rest) (count := s.tb.count) hord
    refine ⟨by rw [hwhole]; exact badWords_of_clean (clean_words _ _), fun r hc hfit => ?_, fun v hc => ?_,
      fun n o hc hfit => ?_, fun i r hc hfit => ?_⟩ <;> rw [hc] at hwhole
    · exact (congrArg (fun ws => configOf (numbersOf ws)) hwhole).trans (configOf_written hfit)
    · exact (congrArg (fun ws => savedCountOf (numbersOf ws)) hwhole).trans (savedCountOf_written _)
    · exact (congrArg (fun ws => orderOf (numbersOf ws)) hwhole).trans (orderOf_written hfit)
    · exact (congrArg (fun ws => receiverOf (numbersOf ws)) hwhole).trans (receiverOf_written hfit)

/-- Settles O42: single bits are corrected, so the read writes back what stood there. -/
theorem cleanScrubMovesOn : Obligations.CleanScrubMovesOn := by
  intro s e hcanon howed hclean hbits
  have hord := ordered_of_canonical hcanon
  let pos := positionAt s.store.scrubNext
  let u : RetainedStore := { s.store with scrubNext := nextScrub s.store.scrubNext, scrubDue := s.store.scrubDue - 1 }
  have hu (p : Position) : u.wordsAt p = s.store.wordsAt p := by cases p <;> rfl
  obtain ⟨hback, hcount⟩ := singleBits_corrected hclean hbits
  have hself : (u.readBack e pos).wordsAt pos = s.store.wordsAt pos := by
    rw [readBack_at_self e pos (by exact hord), hu]
    exact hback
  have hend : scrub e s = { s with store := u.readBack e pos } := by
    show readPosition pos .scrub e { s with store := u } = _
    rw [readPosition_eq, if_neg]
    rw [not_not]
    show badWords ((u.readBack e pos).wordsAt pos) = []
    rw [hself]
    exact badWords_of_clean hclean
  refine ⟨_, (when_true howed).trans (congrArg _ hend), rfl, ?_, ?_, ?_, ?_, fun p => ?_⟩
  · exact (readBack_frame u e pos).2.2.1.trans (nextScrub_eq hcanon.2.2.2.2.2.2.2)
  · simp [u]
  · have hcorr : (u.readBack e pos).corrections = bump s.store.corrections (correctedWords (turnWords e (u.wordsAt pos))) :=
      rfl
    rw [hcorr, hu, hcount]
    rfl
  · simp [u]
  · by_cases hp : p = pos
    · exact hp ▸ hself
    · exact (readBack_at_ne u e hp).trans (hu p)

/-- Settles O44: the branches of a loss of power. -/
theorem powerLossKeepsWholeRecords : Obligations.PowerLossKeepsWholeRecords := by
  intro s hpow
  refine ⟨fun k hwiping => ?_, fun k w rest hcanon hwiping hw => ?_, fun x writing k hwiping => ?_⟩
  · refine (when_true hpow).trans (congrArg _ (losePower_eq (t := s.store) false k ?_))
    simp [hwiping]
  · have hord := ordered_of_canonical hcanon
    refine ⟨{ s.store.lay w.content s.count with writes := [] }, (when_true hpow).trans (congrArg _
      (losePower_eq true k ?_)), rfl, ?_, fun p hp => ?_, ?_⟩
    · simp [hwiping, hw]
    · rw [wordsAt_withWrites]
      exact lay_at_self _ _ hord
    · rw [wordsAt_withWrites]
      exact lay_at_ne _ _ _ hp
    · simp
  · refine ⟨{ s.store.wipeFirst k s.count with writes := [] }, (when_true hpow).trans (congrArg _
      (losePower_eq writing k ?_)), rfl, rfl, ?_, fun n => ?_, fun i => ?_⟩
    · simp [hwiping]
    · show (if k ≤ 544 then s.store.savedCount else wordsOf (countNumbers s.count)) = _
      by_cases hk : k ≤ 544
      · rw [if_pos hk, if_neg (by omega)]
      · rw [if_neg hk, if_pos (by omega)]
        rfl
    · refine (keptAt_filter (fun m => decide (k ≤ m)) s.store.orders n).trans ?_
      by_cases hn : n < k
      · simp [hn]
      · simp [hn, not_lt.1 hn]
    · refine (keptAt_filter (fun m => decide (k ≤ 32 + m)) s.store.receivers i).trans ?_
      by_cases hi : 32 + i < k
      · simp [hi]
      · simp [hi, not_lt.1 hi]

/-- Settles O48: the WIPE ends with its reply, a request being in hand. -/
theorem wipeEndLeavesTheStoreEmpty : Obligations.WipeEndLeavesTheStoreEmpty := by
  intro s q hpow hrest hwiping hhand
  have hwork : s.working = true := by simp [State.working, hpow, hrest]
  show execWipeEnd s = _
  simp only [execWipeEnd, hwiping]
  refine (when_true hwork).trans (congrArg _ ?_)
  rw [endWipe, wipeReply_requested (by exact hhand)]
  rfl

end Sys2Proof.Safety
end

