-- ==== Sys2Proof/Proofs/DamageClaims.lean ====
section
/-! PROOFS. A receiver position that the scrub finds damaged. -/

namespace Sys2Proof.Machine

variable {s : State}

/-! ## The record of a position, put in or taken out -/

theorem placeReceiver_receiver_ne {i j : Nat} (r : Option Receiver) (h : j ≠ i) :
    (s.placeReceiver i r).receiver j = s.receiver j := by
  cases r with
  | none => exact lookup_eraseAt_ne _ h
  | some r => exact lookup_insertAt_ne _ _ h

theorem placeReceiver_receiver_self {i : Nat} (r : Option Receiver) (hs : rising s.table = true) :
    (s.placeReceiver i r).receiver i = r := by
  cases r with
  | none => exact lookup_eraseAt_self _ hs
  | some r => exact lookup_insertAt_self ..

/-- A damaged position changes the record there, and takes its probes away. -/
theorem damageReceiver_records (i : Nat) (form : Option Receiver) (s : State) :
    (damageReceiver i form s).table = (s.placeReceiver i form).table ∧
    (damageReceiver i form s).sched.probes = s.sched.probes.filter (·.index != i) := by
  simp [damageReceiver]

theorem damageReceiver_receiver_ne {i j : Nat} (form : Option Receiver) (h : j ≠ i) :
    (damageReceiver i form s).receiver j = s.receiver j := by
  rw [State.receiver, (damageReceiver_records i form s).1]
  exact placeReceiver_receiver_ne form h

theorem damageReceiver_receiver_self {i : Nat} (form : Option Receiver) (hs : rising s.table = true) :
    (damageReceiver i form s).receiver i = form := by
  rw [State.receiver, (damageReceiver_records i form s).1]
  exact placeReceiver_receiver_self form hs

/-! ## What becomes of a damaged position -/

/-- The state in which a damaged position has its form, its notice not yet queued. -/
def receiverDamaged (i : Nat) (ws : Words) (s : State) : State :=
  if readsEmpty ws then (if (s.receiver i).isNone then askWrite (.receiver i none) false s else damageReceiver i none s)
  else if (s.receiver i).any (·.damaged) then
    askWrite (.receiver i (some (damagedReceiver (s.keptAddress i ws)))) false
      (s.setReceiver i (damagedReceiver (s.keptAddress i ws)))
  else damageReceiver i (some (damagedReceiver (s.keptAddress i ws))) s

theorem receiverDamage_eq (i : Nat) (found : Found) (ws : Words) (s : State) : ∃ result, receiverDamage i found ws s =
    noteStore (.receiver i) found result (badWords ws).length (receiverDamaged i ws s) := by
  unfold receiverDamage receiverDamaged
  by_cases h : readsEmpty ws = true
  · rw [if_pos h, if_pos h]
    exact ⟨_, rfl⟩
  · rw [if_neg h, if_neg h]
    exact ⟨_, rfl⟩

theorem receiverDamaged_frame (i : Nat) (ws : Words) (s : State) :
    (receiverDamaged i ws s).tb = s.tb ∧ (receiverDamaged i ws s).params = s.params ∧
    (receiverDamaged i ws s).engine = s.engine := by
  unfold receiverDamaged
  repeat' split
  all_goals simp

theorem receiverDamaged_receiver_ne {i j : Nat} (ws : Words) (h : j ≠ i) :
    (receiverDamaged i ws s).receiver j = s.receiver j := by
  unfold receiverDamaged
  repeat' split
  · simp [State.receiver]
  · exact damageReceiver_receiver_ne _ h
  · simpa [State.receiver] using lookup_insertAt_ne _ _ h
  · exact damageReceiver_receiver_ne _ h

theorem receiverDamaged_empty {i : Nat} {ws : Words} (hs : rising s.table = true) (he : readsEmpty ws = true) :
    (receiverDamaged i ws s).receiver i = none := by
  unfold receiverDamaged
  rw [if_pos he]
  split
  next h => simpa [State.receiver] using h
  next => exact damageReceiver_receiver_self none hs

theorem receiverDamaged_fresh {i : Nat} {ws : Words} (he : readsEmpty ws = false)
    (hn : (s.receiver i).any (·.damaged) = false) : receiverDamaged i ws s =
      damageReceiver i (some (damagedReceiver (s.keptAddress i ws))) s := by
  simp [receiverDamaged, he, hn]

theorem receiverDamaged_empty_again {i : Nat} {ws : Words} (he : readsEmpty ws = true) (hn : s.receiver i = none) :
    receiverDamaged i ws s = askWrite (.receiver i none) false s := by
  simp [receiverDamaged, he, hn]

/-! ## The address kept -/

theorem keptAddress_bad {i : Nat} {ws : Words} (h : 0 ∈ badWords ws) : s.keptAddress i ws = none := by
  simp [State.keptAddress, headerBad, h]

theorem keptAddress_held {i : Nat} {ws : Words} {r : Receiver} (hr : s.receiver i = some r) :
    s.keptAddress i ws = if 0 ∈ badWords ws then none else r.address := by
  simp [State.keptAddress, headerBad, hr]

theorem keptAddress_free {i : Nat} {ws : Words} {a : Addr} (hr : s.receiver i = none)
    (ha : s.keptAddress i ws = some a) : s.receiverAt a = none := by
  unfold State.keptAddress at ha
  split at ha
  · cases ha
  · rw [hr] at ha
    simpa using (Option.filter_eq_some_iff.1 ha).2

theorem positionAt_receiver (i : Nat) : positionAt (34 + i) = .receiver i := by
  unfold positionAt
  rw [if_neg (by omega), if_neg (by omega), if_neg (by omega)]
  congr 1
  omega

/-- The store after the scrub's read of the position its pointer names. -/
def scrubbed (e : ReadErrors) (st : RetainedStore) : RetainedStore :=
  ({ st with scrubNext := nextScrub st.scrubNext, scrubDue := st.scrubDue - 1 } : RetainedStore).readBack e
    (positionAt st.scrubNext)

theorem scrub_eq (e : ReadErrors) (s : State) : scrub e s =
    if badWords ((scrubbed e s.store).wordsAt (positionAt s.store.scrubNext)) ≠ [] then
      handleDamage (positionAt s.store.scrubNext) .scrub
        ((scrubbed e s.store).wordsAt (positionAt s.store.scrubNext)) { s with store := scrubbed e s.store }
    else { s with store := scrubbed e s.store } := readPosition_eq ..

end Sys2Proof.Machine

namespace Sys2Proof.Safety

open Sys2Proof.Machine

/-- Settles O43: the scrub's read hands the position's words on to the damage of its receiver. -/
theorem scrubDamagesTheReceiver : Obligations.ScrubDamagesTheReceiver := by
  intro s e i hcanon howed hi hnext ws damaged hbad
  have hpos : positionAt s.store.scrubNext = .receiver i := by rw [hnext, positionAt_receiver]
  have hwords : (scrubbed e s.store).wordsAt (.receiver i) = ws := by
    unfold scrubbed
    rw [hpos, readBack_at_self e _ (by exact ordered_of_canonical hcanon)]
    rfl
  clear_value ws
  let u : State := { s with store := scrubbed e s.store }
  have hscrub : scrub e s = receiverDamage i .scrub ws u := by
    rw [scrub_eq, hpos, hwords, if_pos hbad]
    rfl
  have hwrites : u.store.writes = s.store.writes := by simp [u, scrubbed]
  have hwiping : u.store.wiping = s.store.wiping := by simp [u, scrubbed]
  obtain ⟨hutable, huorders, husched, hutb, huparams, huengine⟩ : u.table = s.table ∧ u.orders = s.orders ∧
      u.sched = s.sched ∧ u.tb = s.tb ∧ u.params = s.params ∧ u.engine = s.engine := ⟨rfl, rfl, rfl, rfl, rfl, rfl⟩
  clear_value u
  have hureceiver (j : Nat) : u.receiver j = s.receiver j := by rw [State.receiver, hutable, State.receiver]
  have hrising : rising u.table = true := hutable ▸ hcanon.2.1.1
  obtain ⟨result, hnote⟩ := receiverDamage_eq i .scrub ws u
  obtain ⟨htb, hparams, hengine⟩ := receiverDamaged_frame i ws u
  have hreceiver (j : Nat) : (noteStore (.receiver i) .scrub result (badWords ws).length
      (receiverDamaged i ws u)).receiver j = (receiverDamaged i ws u).receiver j := by simp [State.receiver]
  refine ⟨_, (when_true howed).trans (congrArg _ (hscrub.trans hnote)),
    fun j hj => (hreceiver j).trans ((receiverDamaged_receiver_ne ws hj).trans (hureceiver j)), ?_, ?_, ?_,
    fun he old hold hn => ?_, fun he hnone => ?_,
    fun he => (hreceiver i).trans (receiverDamaged_empty hrising he), fun he hnone => ?_⟩
  · simp [htb, hutb]
  · simp [hparams, huparams]
  · simp [hengine, huengine]
  · have hfresh := receiverDamaged_fresh (s := u) (i := i) he (by rw [hureceiver, hold]; simpa using hn)
    refine ⟨?_, fun x hx => ?_⟩
    · rw [hreceiver, hfresh, damageReceiver_receiver_self _ hrising, keptAddress_held ((hureceiver i).trans hold)]
      rfl
    · rw [hfresh, (noteStore_frame ..).2.2.2.2.2.1, (damageReceiver_records ..).2] at hx
      simpa using (List.mem_filter.1 hx).2
  · have hfresh := receiverDamaged_fresh (s := u) (i := i) he (by rw [hureceiver, hnone]; rfl)
    refine ⟨u.keptAddress i ws, ?_, fun h0 => keptAddress_bad h0, fun a ha => ?_⟩
    · rw [hreceiver, hfresh, damageReceiver_receiver_self _ hrising]
      rfl
    · rw [← keptAddress_free ((hureceiver i).trans hnone) ha, State.receiverAt, State.receiverAt, hutable]
  · have hidle : u.store.wiping = none := by
      simp only [State.scrubOwed, Bool.and_eq_true, Option.isNone_iff_eq_none] at howed
      exact hwiping.trans howed.1.2
    rw [receiverDamaged_empty_again he ((hureceiver i).trans hnone)]
    simp [askWrite_writes, hidle, hwrites, hutable, huorders, husched]

end Sys2Proof.Safety
end

