-- ==== Sys2Proof/Proofs/RestoreClaims.lean ====
section
/-! PROOFS. The power-on restore over a store with no uncorrectable word, and its end. -/

namespace Sys2Proof.Machine

variable {s : State} {st st0 : RetainedStore}

/-! ## The end of the restore -/

/-- An account balanced against the entries that remain stays in range and moves two counters alone. -/
theorem reconcile_balances {c : Counters} {entries : Nat} (ht : c.targeted ≤ 65535)
    (hk : c.outcomes + entries ≤ 65535) :
    (c.reconcile entries).targeted = (c.reconcile entries).outcomes + entries ∧
    c.reconcile entries = { c with
      targeted := (c.reconcile entries).targeted, dropped := (c.reconcile entries).dropped } ∧
    c.targeted ≤ (c.reconcile entries).targeted ∧ c.dropped ≤ (c.reconcile entries).dropped := by
  unfold Counters.reconcile bump Config.counterMax
  dsimp only
  split
  · refine ⟨?_, rfl, le_rfl, ?_⟩ <;> simp only [Counters.outcomes] at * <;> omega
  · refine ⟨?_, rfl, ?_, le_rfl⟩ <;> simp only [Counters.outcomes] at * <;> omega

/-- An order with its account balanced against these entries for its slot. -/
def Order.reconciled (entries : Nat → Nat) (k : Nat) (o : Order) : Order :=
  { o with counters := o.counters.reconcile (entries k) }

theorem reconcileSlot_eq (k : Nat) (s : State) :
    reconcileSlot s k = changeSlot (Order.reconciled s.entriesNaming) s k := by
  cases hk : s.orderInSlot k with
  | none => simp only [reconcileSlot, changeSlot, hk]
  | some no =>
    obtain ⟨n, o⟩ := no
    have hsame : o.counters.reconcile (s.entriesNaming k) = o.counters ↔
        Order.reconciled s.entriesNaming k o = o := by
      unfold Order.reconciled
      exact ⟨fun h => by rw [h], fun h => congrArg Order.counters h⟩
    simp only [reconcileSlot, changeSlot, hk, hsame]
    rfl

theorem changeSlot_table (g : Nat → Order → Order) (k : Nat) : (changeSlot g s k).table = s.table := by
  unfold changeSlot
  repeat' split
  all_goals simp

/-- The entries are the table's, which the balancing leaves, so it is one function of the orders in their slots. -/
theorem foldl_reconcileSlot_eq (ks : List Nat) {u : State} (hu : u.table = s.table) :
    ks.foldl reconcileSlot u = ks.foldl (changeSlot (Order.reconciled s.entriesNaming)) u := by
  induction ks generalizing u with
  | nil => rfl
  | cons k ks ih =>
    have hentries : u.entriesNaming = s.entriesNaming := funext (entriesNaming_of_table hu)
    rw [List.foldl_cons, List.foldl_cons, reconcileSlot_eq, hentries]
    exact ih ((changeSlot_table _ k).trans hu)

theorem reconcileAll_eq (s : State) :
    reconcileAll s = (List.range 8).foldl (changeSlot (Order.reconciled s.entriesNaming)) s :=
  foldl_reconcileSlot_eq _ rfl

theorem slotHeld_of_orders {t : State} (h : t.orders.orders = s.orders.orders) (k : Nat) :
    t.slotHeld k = s.slotHeld k := by simp [State.slotHeld, State.orderInSlot, h]

theorem reconcileAll_slotHeld (hs : rising s.orders.orders = true) (k : Nat) :
    (reconcileAll s).slotHeld k = s.slotHeld k := by
  rw [reconcileAll_eq, State.slotHeld,
    foldl_changeSlot_orderInSlot (g := Order.reconciled s.entriesNaming) (fun _ _ _ => rfl) hs List.nodup_range,
    Option.isSome_map]
  rfl

/-- The end of the restore balances the accounts, which leaves the table. -/
theorem completeRestore_records (s : State) :
    (completeRestore s).table = (dropLooseEntries s).table ∧
    (completeRestore s).orders = (reconcileAll (dropLooseEntries s)).orders := by
  unfold completeRestore
  generalize dropLooseEntries s = u
  refine ⟨?_, rfl⟩
  dsimp only
  rw [reconcileAll_eq]
  exact foldl_keeps (P := fun t => t.table = u.table)
    (fun t k ht => (changeSlot_table _ k).trans ht) _ rfl

/-- No loose entry is left. -/
theorem dropLooseEntries_held {x : Nat × Receiver} (hx : x ∈ (dropLooseEntries s).table) :
    ∀ e ∈ x.2.entries, s.slotHeld e.slot = true := by
  simp only [dropLooseEntries, changeReceivers_table, mapAll, List.mem_map] at hx
  obtain ⟨y, -, rfl⟩ := hx
  intro e he
  dsimp only at he
  split at he
  · simpa using (List.mem_filter.1 he).2
  next hall =>
    simp only [List.any_eq_true, Bool.not_eq_true', not_exists, not_and, Bool.not_eq_false] at hall
    exact hall e he

/-! ## A store that reads whole -/

/-- No word of the store reads uncorrectable, and every position gives the numbers that `st0` gives. -/
def ReadsAs (st0 st : RetainedStore) : Prop :=
  st.ordered ∧ ∀ p, badWords (st.wordsAt p) = [] ∧ numbersOf (st.wordsAt p) = numbersOf (st0.wordsAt p)

theorem ReadsAs.readBack (h : ReadsAs st0 st) (p : Position) : ReadsAs st0 (st.readBack [] p) := by
  refine ⟨setWords_ordered (st := st) _ p h.1, fun q => ?_⟩
  by_cases hq : q = p
  · subst hq
    rw [readBack_at_self [] q h.1, turnWords_nil, badWords_writtenBack, numbersOf_writtenBack]
    exact h.2 q
  · rw [readBack_at_ne st [] hq]
    exact h.2 q

theorem lookup_none_of_not_listed {α : Type} {l : List (Nat × α)} {n : Nat} (h : n ∉ l.map Prod.fst) :
    lookup l n = none := by
  cases hn : lookup l n with
  | none => rfl
  | some v => exact absurd (List.mem_map_of_mem (mem_of_lookup hn)) h

theorem keptAt_of_not_listed {l : List (Nat × Words)} {n : Nat} (h : n ∉ l.map Prod.fst) :
    keptAt l n = zeroWords 32 := by
  rw [keptAt, lookup_none_of_not_listed h]
  rfl

theorem keptAt_whole {l : List (Nat × Words)} (h : ∀ x ∈ l, badWords x.2 = []) (n : Nat) :
    badWords (keptAt l n) = [] := by
  unfold keptAt
  cases hn : lookup l n with
  | none => simp
  | some ws => exact h (n, ws) (mem_of_lookup hn)

theorem orderOf_zeros : orderOf (numbersOf (zeroWords 32)) = none := by
  have h := orderOf_written (o := none) (by simp)
  rwa [show wordsOf (orderNumbers none) = zeroWords 32 from wordsOf_zeros 32] at h

theorem receiverOf_zeros : receiverOf (numbersOf (zeroWords 32)) = none := by
  have h := receiverOf_written (r := none) (by simp)
  rwa [show wordsOf (receiverNumbers none) = zeroWords 32 from wordsOf_zeros 32] at h

/-- A position that is not listed gives no record. -/
theorem ReadsAs.no_order (h : ReadsAs st0 st) {n : Nat} (hn : n ∉ st.orders.map Prod.fst) :
    orderOf (numbersOf (keptAt st0.orders n)) = none := by
  rw [← orderOf_zeros, ← keptAt_of_not_listed hn]
  exact congrArg orderOf (h.2 (.order n)).2.symm

theorem ReadsAs.no_receiver (h : ReadsAs st0 st) {i : Nat} (hi : i ∉ st.receivers.map Prod.fst) :
    receiverOf (numbersOf (keptAt st0.receivers i)) = none := by
  rw [← receiverOf_zeros, ← keptAt_of_not_listed hi]
  exact congrArg receiverOf (h.2 (.receiver i)).2.symm

/-! ## The positions restored -/

/-- The state `u` of a restore that has gone on from `v` over a store that reads as `st0`. -/
def RestoredFrom (st0 : RetainedStore) (v u : State) : Prop :=
  ReadsAs st0 u.store ∧ rising u.orders.orders = true ∧ rising u.table = true ∧
    (u.store.writes = v.store.writes ∧ u.store.restoring = v.store.restoring) ∧
    (u.powered = v.powered ∧ u.params = v.params ∧ u.tb = v.tb ∧ u.sched = v.sched ∧ u.engine = v.engine ∧
      u.driver = v.driver ∧ u.link = v.link)

theorem restoreOrder_whole (h : ReadsAs st0 s.store) (n : Nat) : restoreOrder [] s n =
    (noteRead (.order n) [] s).placeOrder n (orderOf (numbersOf (keptAt st0.orders n))) := by
  have hread := (h.readBack (.order n)).2 (.order n)
  have hbad : badWords (keptAt (s.store.readBack [] (.order n)).orders n) = [] := hread.1
  have hnum : numbersOf (keptAt (s.store.readBack [] (.order n)).orders n) = numbersOf (keptAt st0.orders n) := hread.2
  simp only [restoreOrder, errorsAt, List.find?_nil, Option.map_none, Option.getD_none, noteRead, hbad, hnum,
    List.isEmpty_nil, if_true]

theorem restoreReceiver_whole (h : ReadsAs st0 s.store) (i : Nat) : restoreReceiver [] s i =
    (noteRead (.receiver i) [] s).placeReceiver i (receiverOf (numbersOf (keptAt st0.receivers i))) := by
  have hread := (h.readBack (.receiver i)).2 (.receiver i)
  have hbad : badWords (keptAt (s.store.readBack [] (.receiver i)).receivers i) = [] := hread.1
  have hnum : numbersOf (keptAt (s.store.readBack [] (.receiver i)).receivers i) =
      numbersOf (keptAt st0.receivers i) := hread.2
  simp only [restoreReceiver, errorsAt, List.find?_nil, Option.map_none, Option.getD_none, noteRead, hbad, hnum,
    List.isEmpty_nil, if_true]

theorem numberDamaged_whole (h : ReadsAs st0 s.store) (n : Nat) : numberDamaged s n = s := by
  have hbad : badWords (keptAt s.store.orders n) = [] := (h.2 (.order n)).1
  unfold numberDamaged
  split
  · rfl
  · simp only [hbad, List.isEmpty_nil]

theorem placeOrder_order (n m : Nat) (o : Option Order) (hs : rising s.orders.orders = true) :
    (s.placeOrder n o).order m = (if m = n then o else s.order m) ∧
    rising (s.placeOrder n o).orders.orders = true ∧ (s.placeOrder n o).table = s.table := by
  cases o with
  | none =>
    refine ⟨?_, rising_eraseAt n hs, rfl⟩
    by_cases h : m = n
    · subst h
      exact (lookup_eraseAt_self m hs).trans (if_pos rfl).symm
    · exact (lookup_eraseAt_ne _ h).trans (if_neg h).symm
  | some o =>
    refine ⟨?_, rising_insertAt n o hs, rfl⟩
    by_cases h : m = n
    · subst h
      exact (lookup_insertAt_self ..).trans (if_pos rfl).symm
    · exact (lookup_insertAt_ne _ _ h).trans (if_neg h).symm

theorem placeReceiver_receiver (i j : Nat) (r : Option Receiver) (hs : rising s.table = true) :
    (s.placeReceiver i r).receiver j = (if j = i then r else s.receiver j) ∧
    rising (s.placeReceiver i r).table = true := by
  refine ⟨?_, ?_⟩
  · by_cases h : j = i
    · subst h
      simpa using placeReceiver_receiver_self r hs
    · simpa [h] using placeReceiver_receiver_ne r h
  · cases r with
    | none => exact rising_eraseAt i hs
    | some r => exact rising_insertAt i r hs

theorem RestoredFrom.order {v u : State} (h : RestoredFrom st0 v u) (n : Nat) :
    RestoredFrom st0 v (restoreOrder [] u n) ∧ (restoreOrder [] u n).table = u.table ∧
    ∀ m, (restoreOrder [] u n).order m =
      if m = n then orderOf (numbersOf (keptAt st0.orders n)) else u.order m := by
  obtain ⟨hreads, horders, htable, hstore, hframe⟩ := h
  rw [restoreOrder_whole hreads]
  have hplace (m : Nat) := placeOrder_order (s := noteRead (.order n) [] u) n m
    (orderOf (numbersOf (keptAt st0.orders n))) horders
  refine ⟨⟨?_, (hplace 0).2.1, (hplace 0).2.2 ▸ htable, ?_, ?_⟩, (hplace 0).2.2, fun m => (hplace m).1⟩
  · rw [(placeOrder_frame ..).2.2.2.2.2.2.2.2.2.1]
    exact hreads.readBack _
  · simpa [noteRead] using hstore
  · simpa [noteRead] using hframe

theorem RestoredFrom.receiver {v u : State} (h : RestoredFrom st0 v u) (i : Nat) :
    RestoredFrom st0 v (restoreReceiver [] u i) ∧ (restoreReceiver [] u i).orders = u.orders ∧
    ∀ j, (restoreReceiver [] u i).receiver j =
      if j = i then receiverOf (numbersOf (keptAt st0.receivers i)) else u.receiver j := by
  obtain ⟨hreads, horders, htable, hstore, hframe⟩ := h
  rw [restoreReceiver_whole hreads]
  have hplace (j : Nat) := placeReceiver_receiver (s := noteRead (.receiver i) [] u) i j
    (receiverOf (numbersOf (keptAt st0.receivers i))) htable
  refine ⟨⟨?_, ?_, (hplace 0).2, ?_, ?_⟩, ?_, fun j => (hplace j).1⟩
  · rw [(placeReceiver_frame ..).2.2.2.2.2.2.2.2.2.1]
    exact hreads.readBack _
  · simpa [noteRead] using horders
  · simpa [noteRead] using hstore
  · simpa [noteRead] using hframe
  · simp [noteRead]

theorem RestoredFrom.orders {v u : State} (h : RestoredFrom st0 v u) (ns : List Nat) :
    RestoredFrom st0 v (ns.foldl (restoreOrder []) u) ∧ (ns.foldl (restoreOrder []) u).table = u.table ∧
    ∀ m, (ns.foldl (restoreOrder []) u).order m =
      if m ∈ ns then orderOf (numbersOf (keptAt st0.orders m)) else u.order m := by
  induction ns generalizing u with
  | nil => exact ⟨h, rfl, by simp⟩
  | cons n ns ih =>
    obtain ⟨hnext, htable, horder⟩ := h.order n
    obtain ⟨hend, htable', horder'⟩ := ih hnext
    refine ⟨hend, htable'.trans htable, fun m => ?_⟩
    rw [List.foldl_cons, horder', horder]
    by_cases hm : m = n
    · subst hm
      simp
    · simp [hm]

theorem RestoredFrom.receivers {v u : State} (h : RestoredFrom st0 v u) (is : List Nat) :
    RestoredFrom st0 v (is.foldl (restoreReceiver []) u) ∧ (is.foldl (restoreReceiver []) u).orders = u.orders ∧
    ∀ j, (is.foldl (restoreReceiver []) u).receiver j =
      if j ∈ is then receiverOf (numbersOf (keptAt st0.receivers j)) else u.receiver j := by
  induction is generalizing u with
  | nil => exact ⟨h, rfl, by simp⟩
  | cons i is ih =>
    obtain ⟨hnext, horders, hreceiver⟩ := h.receiver i
    obtain ⟨hend, horders', hreceiver'⟩ := ih hnext
    refine ⟨hend, horders'.trans horders, fun j => ?_⟩
    rw [List.foldl_cons, hreceiver', hreceiver]
    by_cases hj : j = i
    · subst hj
      simp
    · simp [hj]

/-- The orders and the receivers restored over a store that reads whole, from empty working copies. -/
theorem restore_whole {v : State} (h : ReadsAs st0 v.store) (ho : v.orders.orders = []) (ht : v.table = []) :
    RestoredFrom st0 v (restoreReceivers [] (restoreOrders [] v)) ∧
    (∀ n, (restoreReceivers [] (restoreOrders [] v)).order n = orderOf (numbersOf (keptAt st0.orders n))) ∧
    ∀ i, (restoreReceivers [] (restoreOrders [] v)).receiver i =
      receiverOf (numbersOf (keptAt st0.receivers i)) := by
  have hv : RestoredFrom st0 v v := by
    refine ⟨h, ?_, ?_, ⟨rfl, rfl⟩, rfl, rfl, rfl, rfl, rfl, rfl, rfl⟩
    · rw [ho]
      rfl
    · rw [ht]
      rfl
  let ns := v.store.orders.map Prod.fst
  obtain ⟨hu, htable, horder⟩ := hv.orders ns
  let u := restoreSequence (ns.foldl (restoreOrder []) v)
  have hu' : RestoredFrom st0 v u := hu
  have horders : restoreOrders [] v = u :=
    foldl_keeps (P := (· = u)) (fun t n ht => by rw [ht]; exact numberDamaged_whole hu'.1 n) _ rfl
  let is := u.store.receivers.map Prod.fst
  obtain ⟨hend, horders', hreceiver⟩ := hu'.receivers is
  rw [horders]
  refine ⟨hend, fun n => ?_, fun i => (hreceiver i).trans ?_⟩
  · have hn : (restoreReceivers [] u).order n = (ns.foldl (restoreOrder []) v).order n := by
      rw [State.order, show (restoreReceivers [] u).orders = u.orders from horders']
      rfl
    rw [hn, horder]
    split
    · rfl
    next hout =>
      rw [h.no_order hout, State.order, ho]
      rfl
  · split
    · rfl
    next hout =>
      rw [hu'.1.no_receiver hout]
      show lookup (ns.foldl (restoreOrder []) v).table i = none
      rw [htable, ht]
      rfl

/-! ## Power-on over a store that reads whole -/

/-- The words of the store give no uncorrectable one, and no wipe mark. -/
def WholeAtPowerOn (st : RetainedStore) : Prop :=
  ReadsAs st st ∧ (configOf (numbersOf st.config)).wipeMark = false

theorem storeAtPowerOn_reads (h : WholeAtPowerOn s.store) : ReadsAs s.store (storeAtPowerOn [] s) :=
  have hwords (p : Position) : s.store.atPowerOn.wordsAt p = s.store.wordsAt p := by cases p <;> rfl
  ReadsAs.readBack (st := s.store.atPowerOn) ⟨h.1.1, fun p => (hwords p).symm ▸ h.1.2 p⟩ .config

theorem wipeMarked_whole (h : WholeAtPowerOn s.store) : wipeMarked (storeAtPowerOn [] s).config = false := by
  have hnum : numbersOf (storeAtPowerOn [] s).config = numbersOf s.store.config :=
    ((storeAtPowerOn_reads h).2 .config).2
  simp [wipeMarked, hnum, h.2]

theorem restoredParams_whole (h : WholeAtPowerOn s.store) :
    restoredParams (storeAtPowerOn [] s).config = (configOf (numbersOf s.store.config)).params := by
  obtain ⟨hbad, hnum⟩ : badWords (storeAtPowerOn [] s).config = [] ∧
      numbersOf (storeAtPowerOn [] s).config = numbersOf s.store.config := (storeAtPowerOn_reads h).2 .config
  simp [restoredParams, hbad, hnum, wipeMarked_whole h]

theorem countAtPowerOn_whole (h : WholeAtPowerOn s.store) :
    countAtPowerOn [] s = savedCountOf (numbersOf s.store.savedCount) := by
  obtain ⟨hbad, hnum⟩ : badWords ((storeAtPowerOn [] s).readBack [] .savedCount).savedCount = [] ∧
      numbersOf ((storeAtPowerOn [] s).readBack [] .savedCount).savedCount = numbersOf s.store.savedCount :=
    ((storeAtPowerOn_reads h).readBack .savedCount).2 .savedCount
  show (if (badWords ((storeAtPowerOn [] s).readBack [] .savedCount).savedCount).isEmpty then
    savedCountOf (numbersOf ((storeAtPowerOn [] s).readBack [] .savedCount).savedCount) else 0) = _
  rw [hbad, hnum]
  rfl

/-- The count's notice is all that the reading of the configuration and the saved count brings. -/
theorem countRestored_whole (h : WholeAtPowerOn s.store) : ∃ flags fields, countRestored [] s =
    queueNotice .countUnconfirmed flags fields (noteRead .savedCount [] (blocksRestored [] s)) := by
  have hconfig : badWords (blocksRestored [] s).store.config = [] := ((storeAtPowerOn_reads h).2 .config).1
  have hcount : badWords (noteRead .savedCount [] (blocksRestored [] s)).store.savedCount = [] :=
    (((storeAtPowerOn_reads h).readBack .savedCount).2 .savedCount).1
  have hsame : restoreConfig (blocksRestored [] s) = blocksRestored [] s := by simp [restoreConfig, hconfig]
  have herr : errorsAt [] .savedCount = [] := rfl
  unfold countRestored
  rw [hsame, herr]
  simp only [restoreCount, hcount, List.isEmpty_nil, if_true]
  exact ⟨_, _, rfl⟩

theorem powerOn_whole (h : WholeAtPowerOn s.store) :
    powerOn [] s = restoreReceivers [] (restoreOrders [] (countRestored [] s)) := by
  simp [powerOn_eq, wipeMarked_whole h]

end Sys2Proof.Machine

namespace Sys2Proof.Safety

open Sys2Proof.Machine

/-- Settles O46: the loose entries go first, so the accounts are balanced against what remains. -/
theorem restoreLeavesNoLooseEntry : Obligations.RestoreLeavesNoLooseEntry := by
  intro s hpow hrest hcanon
  have hcan : (s.powered && s.store.restoring) = true := by rw [hpow, hrest]; rfl
  obtain ⟨htable, horders⟩ := completeRestore_records s
  have huorders : (dropLooseEntries s).orders.orders = s.orders.orders := by simp [dropLooseEntries]
  have hloose : ∀ x ∈ (dropLooseEntries s).table, ∀ e ∈ x.2.entries, s.slotHeld e.slot = true :=
    fun _ hx => dropLooseEntries_held hx
  have hframe : (completeRestore s).tb = s.tb ∧ (completeRestore s).sched = s.sched ∧
      (completeRestore s).link = s.link ∧ (completeRestore s).params = s.params := by
    simp [completeRestore, dropLooseEntries]
  have hdone : (completeRestore s).store.restoring = false := rfl
  have hexec : exec .restoreComplete s = .next (completeRestore s) := when_true hcan
  generalize completeRestore s = t at hexec htable horders hframe hdone
  generalize dropLooseEntries s = u at htable horders huorders hloose
  have hrising : rising u.orders.orders = true := huorders ▸ hcanon.1.1
  have hheld (k : Nat) : t.slotHeld k = s.slotHeld k :=
    (slotHeld_of_orders (congrArg OrderStore.orders horders) k).trans
      ((reconcileAll_slotHeld hrising k).trans (slotHeld_of_orders huorders k))
  refine ⟨t, hexec, hdone, fun x hx e he => ?_, fun k n o hk ho ht hsum => ?_, hheld, hframe⟩
  · rw [hheld]
    exact hloose x (htable ▸ hx) e he
  · rw [entriesNaming_of_table htable] at hsum ⊢
    have hslot : u.orderInSlot k = some (n, o) := by rw [State.orderInSlot, huorders]; exact ho
    have horder := foldl_changeSlot_order (g := Order.reconciled u.entriesNaming) (fun _ _ _ => rfl) hrising
      List.nodup_range (List.mem_range.2 hk) hslot
    rw [← reconcileAll_eq, State.order, ← horders] at horder
    exact ⟨o.counters.reconcile (u.entriesNaming k), horder, reconcile_balances ht hsum⟩

/-- Settles O45: the blocks start from the configuration and the saved count read, the records from their positions. -/
theorem powerOnRestoresTheStore : Obligations.PowerOnRestoresTheStore := by
  intro s hcanon hconfig hmark hcount horders hreceivers
  have hwhole : WholeAtPowerOn s.store := by
    refine ⟨⟨ordered_of_canonical hcanon, fun p => ⟨?_, rfl⟩⟩, hmark⟩
    cases p with
    | config => exact hconfig
    | savedCount => exact hcount
    | order n => exact keptAt_whole horders n
    | receiver i => exact keptAt_whole hreceivers i
  obtain ⟨flags, fields, hnote⟩ := countRestored_whole hwhole
  let b := noteRead .savedCount [] (blocksRestored [] s)
  change countRestored [] s = queueNotice .countUnconfirmed flags fields b at hnote
  have hreads : ReadsAs s.store b.store := (storeAtPowerOn_reads hwhole).readBack .savedCount
  have hparams : b.params = (configOf (numbersOf s.store.config)).params := restoredParams_whole hwhole
  have hL : b.tb.count = savedCountOf (numbersOf s.store.savedCount) := countAtPowerOn_whole hwhole
  have hstore : b.store.writes = [] ∧ b.store.restoring = true := by
    simp [b, noteRead, blocksRestored, blocksAtPowerOn, storeAtPowerOn, RetainedStore.atPowerOn]
  have hblocks : b.powered = true ∧ b.tb.status = .unconfirmed ∧ b.tb.state = .outage ∧ b.tb.reference = none ∧
      b.tb.beaconDue = false ∧ b.sched = ⟨81, none, []⟩ ∧ b.engine.state = .idle ∧
      b.driver.cap = b.params.levelMax ∧ b.driver.state = .ready ∧ b.link.rate = b.params.linkRate ∧
      b.link.buffer = [] ∧ b.link.inHand = none ∧ b.orders.orders = [] ∧ b.table = [] :=
    ⟨rfl, rfl, rfl, rfl, rfl, rfl, rfl, rfl, rfl, rfl, rfl, rfl, rfl, rfl⟩
  clear_value b
  obtain ⟨hpow, hstatus, hstate, href, hbeacon, hsched, hengine, hcap, hdriver, hrate, hbuffer, hhand, ho, ht⟩ := hblocks
  let v := queueNotice .countUnconfirmed flags fields b
  obtain ⟨⟨-, -, -, ⟨hw, hr⟩, hvpow, hvparams, hvtb, hvsched, hvengine, hvdriver, hvlink⟩, hordersAt, hreceiversAt⟩ :=
    restore_whole (st0 := s.store) (v := v) (by simpa [v] using hreads) (by simpa [v] using ho)
      (by simpa [v] using ht)
  have hexec : exec (.powerOn []) s = .next (restoreReceivers [] (restoreOrders [] v)) :=
    congrArg Host.Outcome.next ((powerOn_whole hwhole).trans (congrArg (fun u => restoreReceivers [] (restoreOrders [] u))
      hnote))
  generalize restoreReceivers [] (restoreOrders [] v) = t at *
  refine ⟨t, hexec, ?_⟩
  simp [v, *]

end Sys2Proof.Safety
end

