-- ==== Sys2Proof/Proofs/WipeClaims.lean ====
section
/-! PROOFS. The beginning of a WIPE: what the defaults leave alone where no transmission is in flight and no write is
listed, and that a reset leaves the line free. -/

namespace Sys2Proof.Machine

variable {s : State}

/-! ## The count and its status through the reference's steps -/

theorem enterOutage_count (s : State) :
    (enterOutage s).tb.count = s.tb.count ∧ (enterOutage s).tb.status = s.tb.status ∧
      (enterOutage s).tb.trackers = s.tb.trackers := by
  simp only [enterOutage, endEarly_frame, saveCount, expireBeaconTimer, askSavedCount]
  repeat' split
  all_goals simp

theorem checkReference_count (s : State) :
    (checkReference s).tb.count = s.tb.count ∧ (checkReference s).tb.status = s.tb.status := by
  unfold checkReference
  repeat' split
  case isTrue => exact ⟨rfl, rfl⟩
  all_goals simp [enterOutage_count, moveReference]

theorem restartTracker_foldl (ps : List Phase) (s : State) :
    ∃ trackers, ps.foldl restartTracker s = { s with tb := { s.tb with trackers := trackers } } := by
  induction ps generalizing s with
  | nil => exact ⟨s.tb.trackers, rfl⟩
  | cons p ps ih => exact ih _

theorem losePhases_tb (ps : List Phase) (s : State) : (ps.foldl (fun s p => losePhase p s) s).tb = s.tb := by
  induction ps generalizing s with
  | nil => rfl
  | cons p ps ih => exact (ih _).trans (by simp)

theorem restartPhases_count (ps : List Phase) (s : State) :
    (restartPhases ps s).tb.count = s.tb.count ∧ (restartPhases ps s).tb.status = s.tb.status := by
  obtain ⟨trackers, htrackers⟩ := restartTracker_foldl ps (meetSettling s)
  simp [restartPhases, checkReference_count, losePhases_tb, htrackers]

theorem nominalFreqEffect_count (s : State) :
    (nominalFreqEffect s).tb.count = s.tb.count ∧ (nominalFreqEffect s).tb.status = s.tb.status := by
  unfold nominalFreqEffect
  dsimp only
  split <;> simp [restartPhases_count]

theorem refPhaseEffect_count (s : State) :
    (refPhaseEffect s).tb.count = s.tb.count ∧ (refPhaseEffect s).tb.status = s.tb.status := by
  unfold refPhaseEffect
  dsimp only
  split <;> simp [moveReference]

/-! ## A state that a WIPE has emptied -/

/-- No notice has been lost, and at most `n` wait. -/
def State.waiting (n : Nat) (s : State) : Prop := s.link.lost = false ∧ s.link.queue.length ≤ n

theorem queueNotice_waiting {n : Nat} (k : NoticeKind) (f : Byte) (b : List Byte) (hn : n < 16)
    (h : s.waiting n) : (queueNotice k f b s).waiting (n + 1) := by
  obtain ⟨hlost, hlen⟩ := h
  have hroom : s.link.queue.length < Config.queueLimit := by
    show s.link.queue.length < 16
    omega
  unfold queueNotice queueNoticeThen
  split
  · exact ⟨hlost, by omega⟩
  all_goals
    refine ⟨?_, ?_⟩ <;> simp only [placeNotice, if_pos hroom, insertNotice_length]
    · exact hlost
    · omega

theorem noteTimebase_waiting {n : Nat} (c : TimebaseCause) (b : Option Phase) (hn : n < 16) (h : s.waiting n) :
    (noteTimebase c b s).waiting (n + 1) := queueNotice_waiting _ _ _ hn h

/-- What the defaults keep of a state with no transmission in flight, where the store takes no write: after so many
notices at the most. -/
structure KeptByDefaults (before : State) (n : Nat) (s : State) : Prop where
  free : s.engine.transmission = none
  store : s.store = before.store
  orders : s.orders = before.orders
  table : s.table = before.table
  count : s.tb.count = before.tb.count
  status : s.tb.status = before.tb.status
  driver : s.driver.state = before.driver.state
  waiting : s.waiting n

theorem KeptByDefaults.mono {u : State} {n m : Nat} (h : KeptByDefaults u n s) (hnm : n ≤ m) : KeptByDefaults u m s :=
  { h with waiting := ⟨h.waiting.1, h.waiting.2.trans hnm⟩ }

variable {n : Nat}
variable {u : State}

theorem endEarly_of_none (c : AbortCause) (h : s.engine.transmission = none) : endEarly c s = s := by
  simp only [endEarly, h]

theorem losePhase_of_none (p : Phase) (h : s.engine.transmission = none) : losePhase p s = s := by
  simp only [losePhase, h]

theorem losePhases_of_none (ps : List Phase) (h : s.engine.transmission = none) :
    ps.foldl (fun s p => losePhase p s) s = s := by
  induction ps with
  | nil => rfl
  | cons p ps ih => rw [List.foldl_cons, losePhase_of_none p h, ih]

theorem askWrite_of_wiping (c : WriteContent) (v : Bool) (h : s.store.wiping.isSome = true) : askWrite c v s = s := by
  simp [askWrite, h]

theorem saveCount_of_wiping (h : s.store.wiping.isSome = true) :
    ∃ tb, saveCount s = { s with tb := tb } := by
  unfold saveCount
  split
  · exact ⟨_, askWrite_of_wiping _ _ h⟩
  · exact ⟨s.tb, rfl⟩

theorem expireBeaconTimer_eq (s : State) : ∃ tb owed, expireBeaconTimer s = { s with tb := tb, owed := owed } := by
  unfold expireBeaconTimer
  split
  · exact ⟨_, _, rfl⟩
  · exact ⟨s.tb, s.owed, rfl⟩

theorem noteTimebase_kept (c : TimebaseCause) (b : Option Phase) (hn : n < 16) (h : KeptByDefaults u n s) :
    KeptByDefaults u (n + 1) (noteTimebase c b s) := by
  obtain ⟨htx, hstore, horders, htable, hcount, hstatus, hdriver, hwait⟩ := h
  refine ⟨?_, ?_, ?_, ?_, ?_, ?_, ?_, noteTimebase_waiting c b hn hwait⟩ <;> simpa

theorem moveReference_kept (c : TimebaseCause) (p : Phase) (hn : n < 16) (h : KeptByDefaults u n s) :
    KeptByDefaults u (n + 1) (moveReference c p s) := noteTimebase_kept _ _ hn { h with }

theorem endSettling_kept (hn : n < 16) (h : KeptByDefaults u n s) : KeptByDefaults u (n + 1) (endSettling s) := by
  unfold endSettling
  dsimp only
  split
  · exact noteTimebase_kept _ _ hn { h with }
  · exact KeptByDefaults.mono { h with } (Nat.le_succ n)

theorem meetSettling_kept (hn : n < 16) (h : KeptByDefaults u n s) : KeptByDefaults u (n + 1) (meetSettling s) := by
  unfold meetSettling
  split
  · exact endSettling_kept hn h
  · exact h.mono (Nat.le_succ n)

theorem enterOutage_kept (hw : u.store.wiping.isSome = true) (hn : n < 16) (h : KeptByDefaults u n s) :
    KeptByDefaults u (n + 1) (enterOutage s) := by
  have hws : s.store.wiping.isSome = true := h.store ▸ hw
  have hcounts : (saveCount (expireBeaconTimer s)).tb.count = s.tb.count ∧
      (saveCount (expireBeaconTimer s)).tb.status = s.tb.status := by
    simp only [saveCount, expireBeaconTimer, askSavedCount]
    repeat' split
    all_goals simp
  obtain ⟨tb, owed, hbeacon⟩ := expireBeaconTimer_eq s
  obtain ⟨tb', hsave⟩ := saveCount_of_wiping (s := expireBeaconTimer s) (by rw [hbeacon]; exact hws)
  have hbefore : KeptByDefaults u n (saveCount (expireBeaconTimer s)) := by
    rw [hsave, hbeacon] at hcounts ⊢
    exact { h with count := hcounts.1.trans h.count, status := hcounts.2.trans h.status }
  rw [enterOutage, askSavedCount, askWrite_of_wiping _ _ (by rw [hsave, hbeacon]; exact hws), endEarly_of_none]
  · exact noteTimebase_kept _ _ hn { hbefore with }
  · simpa using hbefore.free

theorem checkReference_kept (hw : u.store.wiping.isSome = true) (hn : n < 16) (h : KeptByDefaults u n s) :
    KeptByDefaults u (n + 1) (checkReference s) := by
  have hsame := h.mono (Nat.le_succ n)
  unfold checkReference
  split
  · exact hsame
  · split
    · exact hsame
    · split
      · exact hsame
      · split
        · exact moveReference_kept _ _ hn h
        · exact enterOutage_kept hw hn h

theorem restartPhases_kept (ps : List Phase) (hw : u.store.wiping.isSome = true) (hn : n < 15)
    (h : KeptByDefaults u n s) : KeptByDefaults u (n + 2) (restartPhases ps s) := by
  obtain ⟨trackers, htrackers⟩ := restartTracker_foldl ps (meetSettling s)
  have hfold : KeptByDefaults u (n + 1) (ps.foldl restartTracker (meetSettling s)) :=
    htrackers ▸ { meetSettling_kept (by omega) h with }
  rw [restartPhases, losePhases_of_none _ hfold.free]
  exact checkReference_kept hw (by omega) hfold

theorem nominalFreqEffect_kept (hw : u.store.wiping.isSome = true) (hn : n < 15) (h : KeptByDefaults u n s) :
    KeptByDefaults u (n + 2) (nominalFreqEffect s) := by
  unfold nominalFreqEffect
  dsimp only
  split
  · exact restartPhases_kept _ hw hn { h with }
  · exact restartPhases_kept _ hw hn h

theorem refPhaseEffect_kept (hn : n < 16) (h : KeptByDefaults u n s) : KeptByDefaults u (n + 1) (refPhaseEffect s) := by
  unfold refPhaseEffect
  dsimp only
  split
  · exact moveReference_kept _ _ hn h
  · exact h.mono (Nat.le_succ n)

theorem levelMaxEffect_kept (h : KeptByDefaults u n s) : KeptByDefaults u n (levelMaxEffect s) := { h with }

theorem retryMaxEffect_of_empty (before : Nat) (h : s.table = []) : retryMaxEffect before s = s := by
  simp [retryMaxEffect, h]

/-- The defaults of a WIPE, applied where no order and no receiver stands. -/
theorem applyDefaults_kept (hw : s.store.wiping.isSome = true) (hfree : s.engine.transmission = none)
    (htable : s.table = []) (hwait : s.waiting 0) : KeptByDefaults s 3 (applyDefaults s) := by
  have hself : KeptByDefaults s 0 { s with params := .default } := ⟨hfree, rfl, rfl, rfl, rfl, rfl, rfl, hwait⟩
  unfold applyDefaults
  dsimp only
  have hphases : KeptByDefaults s 2 (if s.params.nominalFreq = Params.default.nominalFreq then
      restartPhases (Phase.all.filter (changedPhase s.params .default)) { s with params := .default }
      else nominalFreqEffect { s with params := .default }) := by
    split
    · exact restartPhases_kept _ hw (by omega) hself
    · exact nominalFreqEffect_kept hw (by omega) hself
  generalize (if s.params.nominalFreq = Params.default.nominalFreq then
      restartPhases (Phase.all.filter (changedPhase s.params .default)) { s with params := .default }
      else nominalFreqEffect { s with params := .default }) = s₁ at *
  have href : KeptByDefaults s 3 (if s.params.refPhase = s₁.params.refPhase then s₁ else refPhaseEffect s₁) := by
    split
    · exact hphases.mono (by omega)
    · exact refPhaseEffect_kept (by omega) hphases
  generalize (if s.params.refPhase = s₁.params.refPhase then s₁ else refPhaseEffect s₁) = s₂ at *
  have hlevel : KeptByDefaults s 3 (if s.params.levelMax = s₂.params.levelMax then s₂ else levelMaxEffect s₂) := by
    split
    · exact href
    · exact levelMaxEffect_kept href
  rw [retryMaxEffect_of_empty _ (hlevel.table.trans htable)]
  exact hlevel

/-! ## The reset of the blocks -/

theorem resetTransmission_free (s : State) : (resetTransmission s).engine.transmission = none := by
  unfold resetTransmission
  split
  · assumption
  · rfl

theorem resetBlocks_free (s : State) : (resetBlocks s).engine.transmission = none := resetTransmission_free s

theorem resetBlocks_driver (s : State) : (resetBlocks s).driver.state = s.driver.state ∧
    (resetBlocks s).driver.history = [] ∧ (resetBlocks s).driver.cap = s.params.levelMax ∧
    (resetBlocks s).driver.recovery = 0 ∧ (resetBlocks s).driver.buffer = 0 ∧ (resetBlocks s).answer.mode = .idle ∧
    (resetBlocks s).sched.probes = [] ∧ (resetBlocks s).sched.hold = s.sched.hold := by
  simp [resetBlocks, resetLine, answerIdle]

/-! ## The configuration's write at the beginning of a WIPE -/

/-- The words of the marked configuration after its verify read. -/
def markedRead (e : ReadErrors) : Words := (turnWords e (wordsOf (configNumbers ⟨.default, true⟩))).map (·.writtenBack)

theorem resetTransmission_corrections (s : State) :
    (resetTransmission s).store.corrections = s.store.corrections := by
  have hsettle (u : State) : (settleHandOver u).store.corrections = u.store.corrections := by
    unfold settleHandOver settleAtReset
    repeat' split
    all_goals simp
  unfold resetTransmission
  dsimp only
  repeat' split
  all_goals simp [hsettle]

theorem wipeConfig_eq (e : ReadErrors) (s : State) :
    ∃ link, (wipeConfig e s) = { s with
      store := { s.store with
        config := if badWords (markedRead e) = [] then markedRead e else wordsOf (configNumbers ⟨.default, true⟩)
        corrections := bump s.store.corrections
          (correctedWords (turnWords e (wordsOf (configNumbers ⟨.default, true⟩)))) }
      link := link } ∧ link.inHand = s.link.inHand ∧ link.buffer = s.link.buffer ∧ link.replies = s.link.replies ∧
      link.counters = s.link.counters ∧ link.rate = s.link.rate ∧
      (s.waiting 3 → link.lost = false) := by
  unfold wipeConfig
  dsimp only
  by_cases hbad : badWords (markedRead e) = []
  · refine ⟨s.link, ?_, rfl, rfl, rfl, rfl, rfl, fun h => h.1⟩
    rw [if_pos hbad]
    exact if_pos (List.isEmpty_iff.2 hbad)
  · rw [if_neg hbad]
    refine ⟨_, (if_neg (fun h => hbad (List.isEmpty_iff.1 h))).trans (queueNotice_eq ..), ?_⟩
    refine ⟨(queueNotice_link ..).2.2.2.2.1, (queueNotice_link ..).2.2.2.1, (queueNotice_link ..).2.2.2.2.2.1,
      (queueNotice_link ..).2.2.2.2.2.2.1, (queueNotice_link ..).1, fun h => ?_⟩
    refine (queueNotice_waiting (n := 3) _ _ _ (by omega) ?_).1
    exact h

end Sys2Proof.Machine

namespace Sys2Proof.Safety
open Sys2Proof.Machine

/-- Settles O47: the stages of the WIPE's beginning one after another. -/
theorem wipeEmptiesTheStores : Obligations.WipeEmptiesTheStores := by
  intro s q e hold hkind hbody marked read
  have hasks : asksWipe q = true := by
    simp only [asksWipe, hkind, hbody]
    decide
  have hstep : exec (.resetWipe e) s = .next (beginWipe q e (dropRequest s)) := by
    show execResetWipe e s = _
    simp only [execResetWipe, hold]
    exact when_true hasks
  let linked := wipeLink q (dropRequest s)
  let reset := resetBlocks linked
  let u := wipeRecords { reset with store := { reset.store with writes := [], wiping := some .requested, scrubDue := 0 } }
  obtain ⟨-, -, htb, -, -, hlink, -⟩ := resetBlocks_frame linked
  obtain ⟨hdriver, -, -, -, -, -, hprobes, -⟩ := resetBlocks_driver linked
  have hcorr : u.store.corrections = s.store.corrections := resetTransmission_corrections linked
  have hwait : u.waiting 0 := by
    show reset.link.lost = false ∧ reset.link.queue.length ≤ 0
    rw [hlink]
    exact ⟨rfl, le_refl _⟩
  have hkept := applyDefaults_kept (s := u) rfl (resetBlocks_free linked) rfl hwait
  obtain ⟨link, hend, hhand, hbuffer, hreplies, hcounters, hrate, hlost⟩ := wipeConfig_eq e (resetLine (applyDefaults u))
  have hparams := applyDefaults_params u
  obtain ⟨hrate', -, -, hbuffer', hhand', hreplies', hcounters', -⟩ := applyDefaults_link u
  have hprobes' := (applyDefaults_sched u).2
  have hulink : u.link = linked.link := hlink
  have hutb : u.tb = s.tb := htb
  have hudriver : u.driver.state = s.driver.state := hdriver
  have huprobes : u.sched.probes = [] := hprobes
  have huorders : u.orders = ⟨[], 0, 0⟩ := rfl
  have hutable : u.table = [] := rfl
  have huwiping : u.store.wiping = some .requested := rfl
  have huwrites : u.store.writes = [] := rfl
  refine ⟨_, hstep.trans (congrArg _ hend), ?_⟩
  clear_value u
  have hstore := hkept.store
  generalize applyDefaults u = v at *
  refine ⟨hkept.orders.trans huorders, hkept.table.trans hutable, hparams, ?_, ?_, rfl, hhand.trans ?_, hbuffer.trans ?_,
    hreplies.trans ?_, hlost ?_, hcounters.trans ?_, hrate.trans ?_, congrArg Params.levelMax hparams, rfl,
    hprobes'.trans huprobes, hkept.free, hkept.count.trans (congrArg _ hutb), hkept.status.trans (congrArg _ hutb),
    hkept.driver.trans hudriver, ?_⟩
  · exact (congrArg _ hstore).trans huwiping
  · exact (congrArg _ hstore).trans huwrites
  · exact hhand'.trans (congrArg _ hulink)
  · exact hbuffer'.trans (congrArg _ hulink)
  · exact hreplies'.trans (congrArg _ hulink)
  · exact hkept.waiting
  · exact hcounters'.trans (congrArg _ hulink)
  · exact (hrate'.trans (congrArg HostLink.rate hulink)).trans rfl
  · have hcorrections : v.store.corrections = s.store.corrections := (congrArg _ hstore).trans hcorr
    show bump v.store.corrections _ = _
    rw [hcorrections]
    rfl

end Sys2Proof.Safety
end

