-- ==== Sys2Proof/Proofs/LinkClaims.lean ====
section
/-! PROOFS. The link receiver through the characters of a record, complete records and discards, the link transmitter, and
what the end of a record brings. -/

namespace Sys2Proof.Machine

variable {s : State}

/-! ## A record in assembly, byte by byte (R169, R170) -/

/-- The state with the receiver in the middle of a record. -/
def State.inRecord (r : ReceiveState) (bytes : List Byte) (s : State) : State :=
  { s with link := { s.link with receive := r, assembly := bytes } }

theorem execByteReceived_charOf (b : Byte) (h : s.powered = true) :
    execByteReceived (charOf b) s = .next (receive b s) := by
  have hstop : framingError (charOf b) = false := framingError_charOf b
  rw [execByteReceived, when_true h, receiveChar, hstop, dataOfChar_charOf]
  rfl

theorem received_charOf (b : Byte) (rest : List Character) (h : s.powered = true) :
    Safety.received (charOf b :: rest) s = Safety.received rest (receive b s) := by
  have hstep : exec (.byteReceived (charOf b)) s = .next (receive b s) := execByteReceived_charOf b h
  simp only [Safety.received, hstep]

theorem receive_startMark (h : s.link.receive = .hunt) :
    receive Config.startMark s = s.inRecord .length [] := by
  simp only [receive, HostLink.receiveByte, h, if_true]
  rfl

theorem receive_length {n : Byte} (h : n.toNat ≤ 248) (bytes : List Byte) :
    receive n (s.inRecord .length bytes) = s.inRecord .kind (bytes ++ [n]) := by
  have hfits : n.toNat ≤ Config.bodyMax := h
  simp only [receive, HostLink.receiveByte, State.inRecord, if_pos hfits]

theorem receive_kind (k : Byte) (bytes : List Byte) :
    receive k (s.inRecord .kind bytes) = s.inRecord .ticket (bytes ++ [k]) := rfl

theorem receive_ticket (n k t : Byte) :
    receive t (s.inRecord .ticket [n, k]) = s.inRecord (if n.toNat = 0 then .crcHigh else .body) [n, k, t] := rfl

theorem receive_body (b n : Byte) (bytes : List Byte) :
    receive b (s.inRecord .body (n :: bytes)) =
      s.inRecord (if bytes.length + 2 = n.toNat + 3 then .crcHigh else .body) (n :: bytes ++ [b]) := rfl

theorem receive_crcHigh (b : Byte) (bytes : List Byte) :
    receive b (s.inRecord .crcHigh bytes) = s.inRecord .crcLow (bytes ++ [b]) := rfl

/-- The bytes of a body, one after another, up to the CRC. -/
theorem received_body (n k t : Byte) (body done : List Byte) (rest : List Character) (hp : s.powered = true)
    (hbody : body ≠ []) (hlen : done.length + body.length = n.toNat) :
    Safety.received (body.map charOf ++ rest) (s.inRecord .body (n :: k :: t :: done)) =
      Safety.received rest (s.inRecord .crcHigh (n :: k :: t :: (done ++ body))) := by
  induction body generalizing done with
  | nil => exact absurd rfl hbody
  | cons b body ih =>
    rw [List.map_cons, List.cons_append, received_charOf b _ (by exact hp), receive_body]
    simp only [List.length_cons] at hlen ⊢
    by_cases hlast : body = []
    · subst hlast
      rw [if_pos (by simp only [List.length_nil] at hlen; omega)]
      rfl
    · have hpos : 0 < body.length := List.length_pos_of_ne_nil hlast
      rw [if_neg (by omega)]
      have hnext := ih (done ++ [b]) hlast (by simp only [List.length_append, List.length_singleton]; omega)
      rw [List.append_assoc] at hnext
      exact hnext

/-- The CRC read agrees: the record is complete. -/
theorem receive_crcLow {n k t h l : Byte} {body : List Byte} (hn : n.toNat = body.length)
    (hcrc : crcBytes (n :: k :: t :: body) = [h, l]) :
    receive l (s.inRecord .crcLow (n :: k :: t :: body ++ [h])) =
      acceptRecord ⟨k, t, body⟩ (s.inRecord .crcLow (n :: k :: t :: body ++ [h])) := by
  have htake : (n :: k :: t :: body ++ [h]).take (body.length + 3) = n :: k :: t :: body :=
    List.take_left' (by simp)
  have hdrop : (n :: k :: t :: body ++ [h]).drop (body.length + 3) = [h] := List.drop_left' (by simp)
  have hlen : HostLink.bodyLength (s.inRecord .crcLow (n :: k :: t :: body ++ [h])).link = body.length := hn
  have hjudge : (s.inRecord .crcLow (n :: k :: t :: body ++ [h])).link.receiveByte l = .complete ⟨k, t, body⟩ := by
    show HostLink.judgeRecord _ l = _
    have hassembly : (s.inRecord .crcLow (n :: k :: t :: body ++ [h])).link.assembly = n :: k :: t :: body ++ [h] := rfl
    rw [HostLink.judgeRecord, hlen, hassembly]
    rw [htake, hdrop, hcrc]
    exact if_pos rfl
  simp only [receive, hjudge]

theorem crcBytes_pair (l : List Byte) : ∃ h lo, crcBytes l = [h, lo] := List.length_eq_two.1 (bytesOf_length 2 _)

/-- A record's characters from HUNT on: the receiver stands at its end with all but the last CRC byte assembled. -/
theorem received_record (kind ticket h l : Byte) (body : List Byte) (hp : s.powered = true)
    (hhunt : s.link.receive = .hunt) (hlen : body.length ≤ 248)
    (hcrc : crcBytes (byteOf body.length :: kind :: ticket :: body) = [h, l]) :
    Safety.received ((recordBytes kind ticket body).map charOf) s =
      .next (acceptRecord ⟨kind, ticket, body⟩
        (s.inRecord .crcLow (byteOf body.length :: kind :: ticket :: body ++ [h]))) := by
  have hn : (byteOf body.length).toNat = body.length := by
    rw [byteOf, BitVec.toNat_ofNat]
    omega
  simp only [recordBytes, hcrc, List.cons_append, List.map_cons, List.map_append, List.map_nil]
  rw [received_charOf _ _ hp, receive_startMark hhunt, received_charOf _ _ (by exact hp),
    receive_length (by omega), received_charOf _ _ (by exact hp), List.nil_append, receive_kind,
    received_charOf _ _ (by exact hp), List.singleton_append, receive_ticket]
  have htail : Safety.received ([charOf h, charOf l])
      (s.inRecord .crcHigh (byteOf body.length :: kind :: ticket :: body)) =
        .next (acceptRecord ⟨kind, ticket, body⟩
          (s.inRecord .crcLow (byteOf body.length :: kind :: ticket :: body ++ [h]))) := by
    rw [received_charOf _ _ (by exact hp), receive_crcHigh, received_charOf _ _ (by exact hp), receive_crcLow hn hcrc]
    rfl
  by_cases hnil : body = []
  · subst hnil
    exact htail
  · have hpos : 0 < body.length := List.length_pos_of_ne_nil hnil
    rw [if_neg (by omega), received_body _ _ _ body [] _ hp hnil (by simpa using hn.symm)]
    exact htail

/-! ## Complete records (R171) -/

theorem acceptRecord_room {q : Request} (h : s.link.buffer.length < 4) : acceptRecord q s =
    { s with link := { s.link with receive := .hunt, assembly := [], buffer := s.link.buffer ++ [q] } } := if_pos h

theorem acceptRecord_overrun {q : Request} (h : ¬ s.link.buffer.length < 4) (ho : s.link.overruns < 4) :
    acceptRecord q s = { s with link := { s.link with
      receive := .hunt, assembly := [], replies := s.link.replies ++ [overrunReply q] } } :=
  (if_neg h).trans (if_pos ho)

theorem acceptRecord_lost {q : Request} (h : ¬ s.link.buffer.length < 4) (ho : ¬ s.link.overruns < 4) :
    acceptRecord q s = discardRecord .unanswered s := (if_neg h).trans (if_neg ho)

theorem receiveChar_byte {ch : Character} (h : ch.getLsbD 9 = true) : receiveChar ch s = receive (ch.extractLsb' 1 8) s :=
  receiveChar_of_stop s h

theorem receive_complete {b : Byte} {q : Request} (h : s.link.receiveByte b = .complete q) :
    receive b s = acceptRecord q s := by simp only [receive, h]

theorem execRecordComplete_eq {ch : Character} {q : Request} (hp : s.powered = true) (hstop : ch.getLsbD 9 = true)
    (h : s.link.receiveByte (ch.extractLsb' 1 8) = .complete q) :
    execRecordComplete ch s = .next (acceptRecord q s) := by
  have hjudge : s.link.judgeChar ch = .complete q := (judgeChar_of_stop s.link hstop).trans h
  refine (when_true ?_).trans (congrArg _ ((receiveChar_byte hstop).trans (receive_complete h)))
  rw [hp, hjudge]
  rfl

theorem rdy_iff_room : s.rdy = true ↔ s.link.buffer.length < 4 := decide_eq_true_iff

theorem not_rdy_iff_full : s.rdy = false ↔ ¬ s.link.buffer.length < 4 := decide_eq_false_iff_not

/-! ## The record that goes next (R173, R176) -/

theorem startRecord_reply {r : Reply} {rest : List Reply} (h : s.link.replies = r :: rest) :
    startRecord s = { s with link := { s.link with
      replies := rest, sending := some ⟨(recordBytes r.kind r.ticket r.body).map charOf, r.after⟩ } } := by
  simp only [startRecord, h]
  rfl

theorem startRecord_notice {n : Notice} {rest : List Notice} (hr : s.link.replies = []) (hq : s.link.queue = n :: rest)
    (hpush : s.mayPush = true) :
    startRecord s = { s with link := { s.link with
      queue := rest, lost := false
      sending := some ⟨(recordBytes (noticeCode n.kind) 0 (leavingBody s n)).map charOf, n.after⟩ } } := by
  simp only [startRecord, hr, hq, hpush, if_true]
  rw [← hr]
  rfl

/-! ## The end of a record (R184, R185) -/

theorem endRecord_of_sending {chars : List Character} {a : AfterSent} (h : s.link.sending = some ⟨chars, a⟩) :
    endRecord s = afterRecord a { s with link := { s.link with sending := none } } := by simp only [endRecord, h]

theorem endsWith_of_sending {chars : List Character} {a : AfterSent} (f : AfterSent → Bool)
    (h : s.link.sending = some ⟨chars, a⟩) : s.endsWith f = f a := by simp [State.endsWith, h]

/-- The link after a SOFT reset. -/
theorem performSoftReset_link (s : State) : (performSoftReset s).link = { hunt s.link with
    queue := [], lost := false, buffer := [], replies := [], inHand := none, counters := ⟨0, 0, 0, 0, 0⟩ } := by
  have hlink : (resetBlocks s).link = s.link := by simp
  unfold performSoftReset emptyQueue
  dsimp only
  rw [hlink]
  rfl

end Sys2Proof.Machine

namespace Sys2Proof.Safety
open Sys2Proof.Machine

/-- Settles O49, by the receiver's states through the record's bytes. -/
theorem receivedRecordGivesItsRequest : Obligations.ReceivedRecordGivesItsRequest := by
  intro s kind ticket body hp hhunt hlen hroom
  obtain ⟨h, l, hcrc⟩ := crcBytes_pair (byteOf body.length :: kind :: ticket :: body)
  exact (received_record kind ticket h l body hp hhunt hlen hcrc).trans (congrArg _ (acceptRecord_room (by exact hroom)))

/-- Settles O50: the byte of a character in HUNT, and the three ways of a complete record. -/
theorem recordsAreBufferedOrOverrun : Obligations.RecordsAreBufferedOrOverrun := by
  refine ⟨fun s ch hp hhunt => ?_, fun s ch q hp hstop hjudge => ⟨fun hrdy => ?_, fun hrdy hover => ?_,
    fun hrdy hover => ?_⟩⟩
  · refine (when_true hp).trans (congrArg _ ?_)
    cases hstop : ch.getLsbD 9 with
    | false =>
      have hidle : s.assembling = false := by simp [State.assembling, hhunt]
      rw [receiveChar_of_framing s hstop, hidle]
      simp
    | true =>
      rw [receiveChar_byte hstop]
      by_cases hmark : ch.extractLsb' 1 8 = 0xC3
      · rw [if_pos ⟨rfl, hmark⟩, hmark]
        exact receive_startMark hhunt
      · rw [if_neg fun h => hmark h.2]
        have hignored : s.link.receiveByte (ch.extractLsb' 1 8) = .ignored := by
          simp only [HostLink.receiveByte, hhunt]
          exact if_neg hmark
        simp only [receive, hignored]
  · exact (execRecordComplete_eq hp hstop hjudge).trans (congrArg _ (acceptRecord_room (rdy_iff_room.1 hrdy)))
  · exact (execRecordComplete_eq hp hstop hjudge).trans
      (congrArg _ (acceptRecord_overrun (not_rdy_iff_full.1 hrdy) hover))
  · refine ⟨_, (execRecordComplete_eq hp hstop hjudge).trans
      (congrArg _ (acceptRecord_lost (not_rdy_iff_full.1 hrdy) (Nat.not_lt.2 hover))), ?_⟩
    obtain ⟨hreceive, -, hcounters, hbuffer, hreplies, -⟩ := discardRecord_link .unanswered s
    exact ⟨hbuffer, hreplies, hreceive, hcounters, discardRecord_eq _ s⟩

/-- Settles O51: each discard counts its own loss. -/
theorem discardsRaiseTheirCounters : Obligations.DiscardsRaiseTheirCounters := by
  intro s hp after
  have hafter (x : LinkLoss) : after (discardRecord x s) (s.link.counters.raise x) := by
    obtain ⟨hreceive, hassembly, hcounters, hbuffer, hreplies, -⟩ := discardRecord_link x s
    exact ⟨hreceive, hassembly, hcounters, hbuffer, hreplies, discardRecord_eq x s⟩
  have hassembling (h : s.link.receive ≠ .hunt) : (s.powered && s.assembling) = true := by
    simp [State.assembling, hp, h]
  refine ⟨fun ch hstop hjudge => ⟨_, ?_, hafter .crc⟩, fun ch hstop hrec hlong => ⟨_, ?_, hafter .length⟩,
    fun hrec => ⟨_, when_true (hassembling hrec), hafter .framing⟩, fun ch hstop hrec => ?_,
    fun hrec => ⟨_, when_true (hassembling hrec), hafter .gap⟩⟩
  · have hchar := (judgeChar_of_stop s.link hstop).trans hjudge
    refine (when_true (by simp [hp, hchar])).trans (congrArg _ ((receiveChar_byte hstop).trans ?_))
    simp only [receive, hjudge]
  · have hjudge : s.link.receiveByte (ch.extractLsb' 1 8) = .lengthDiscard := by
      simp only [HostLink.receiveByte, hrec]
      exact if_neg (Nat.not_le.2 hlong)
    have hchar := (judgeChar_of_stop s.link hstop).trans hjudge
    refine (when_true (by simp [hp, hchar])).trans (congrArg _ ((receiveChar_byte hstop).trans ?_))
    simp only [receive, hjudge]
  · have hasm : s.assembling = true := by simpa [hp] using hassembling hrec
    refine ((when_true hp).trans (congrArg _ ?_)).trans (when_true (hassembling hrec)).symm
    rw [receiveChar_of_framing s hstop, hasm]
    rfl

/-- Settles O52: the oldest reply first, otherwise the head of the queue. -/
theorem repliesGoBeforeNotices : Obligations.RepliesGoBeforeNotices := by
  intro s hp hidle
  have hcan : (s.powered && s.link.sending.isNone) = true := by simp [hp, hidle]
  refine ⟨fun r rest hr => ?_, fun n rest hr hq hmode hrest hwiping => ?_⟩
  · exact (when_true hcan).trans (congrArg _ (startRecord_reply hr))
  · have hpush : s.mayPush = true := by simp [State.mayPush, hmode, hrest, hwiping]
    exact (when_true hcan).trans (congrArg _ (startRecord_notice hr hq hpush))

/-- Settles O53, by what the record is to bring. -/
theorem endOfRecordBringsItsEffect : Obligations.EndOfRecordBringsItsEffect := by
  intro s chars hp
  refine ⟨fun hsend => ?_, fun r hsend hr => ?_, fun hsend => ?_⟩
  · exact (when_true hp).trans (congrArg _ (endRecord_of_sending hsend))
  · have hcan : (s.powered && s.endsWith AfterSent.switches) = true := by
      rw [hp, endsWith_of_sending _ hsend]
      rfl
    exact (when_true hcan).trans (congrArg _ ((endRecord_of_sending hsend).trans (if_neg (Ne.symm hr))))
  · have hcan : (s.powered && s.endsWith AfterSent.resets) = true := by
      rw [hp, endsWith_of_sending _ hsend]
      rfl
    let idle : State := { s with link := { s.link with sending := none } }
    obtain ⟨hstate, hhist, hcap, hrecov, hbuf, hanswer, hprobes, hhold⟩ := resetBlocks_driver idle
    obtain ⟨-, hparams, htb, horders, -⟩ := resetBlocks_frame idle
    have hlink := performSoftReset_link idle
    refine ⟨_, (when_true hcan).trans (congrArg _ (endRecord_of_sending hsend)), ?_⟩
    refine ⟨congrArg _ hlink, congrArg _ hlink, congrArg _ hlink, congrArg _ hlink, congrArg _ hlink, congrArg _ hlink,
      congrArg _ hlink, (congrArg HostLink.rate hlink).trans rfl, hprobes, hhold, hhist, hcap, hrecov, hbuf, hstate,
      hanswer, resetBlocks_free idle, htb, hparams, horders⟩

end Sys2Proof.Safety
end

