-- ==== Sys2Proof/Proofs/RequestClaims.lean ====
section
/-! PROOFS. The requests that the link answers of itself, and the COUNT_SET. -/

namespace Sys2Proof.Machine

variable {s : State} {q : Request}

/-! ## Readings (R172, R181 to R183, R21) -/

theorem execUnknownKind_answered (hold : s.oldest = some q) (hk : q.kind ∉ requestKinds) :
    execUnknownKind s = .next (Safety.answered q [2] s) := by
  rw [execUnknownKind, takeRequest_mine hold (decide_eq_true hk)]
  rfl

theorem statusFields_eq (s : State) : ∃ rest, s.statusFields = countBytes s.tb.count ++ rest ∧ rest.length + 5 = 66 := by
  simp only [State.statusFields, State.timebaseStatus, State.count, List.append_assoc]
  refine ⟨_, rfl, ?_⟩
  simp [State.orderStatus, State.tableStatus, State.lineStatus, State.driverStatus, State.storeStatus,
    State.linkStatus, linkCounterBytes, Phase.all]

theorem readOne_single (b : Byte) : readOne [b] = some b := rfl

/-! ## The SOFT reset taken (R185) -/

theorem execResetSoft_of_mode {m : Byte} (hold : s.oldest = some q) (hk : q.kind = 0x05) (hb : q.body = [m])
    (hm : m ≠ 2) :
    execResetSoft s = .next (appendReply q (handleReset q m (dropRequest s)).body
      (handleReset q m (dropRequest s)).after (handleReset q m (dropRequest s)).state) := by
  have hread : readOne q.body = some m := hb ▸ readOne_single m
  have hmine : asksReset q = true := by
    simpa [asksReset, asksWipe, hk, hread] using hm
  rw [execResetSoft, takeRequest_mine hold hmine]
  simp only [answerRequest, readThen, hread]

/-! ## Writes asked join the end of the list -/

/-- The write list begins with these writes. -/
def State.hasListed (ws : List PendingWrite) (s : State) : Prop := ws <+: s.store.writes

variable {ws : List PendingWrite}

theorem hasListed_askWrite (c : WriteContent) (v : Bool) (h : s.hasListed ws) : (askWrite c v s).hasListed ws := by
  unfold State.hasListed
  rw [askWrite_writes]
  split
  · exact h
  · exact h.trans (List.prefix_append _ _)

theorem hasListed_putOrder (n : Nat) (o : Order) (h : s.hasListed ws) : (putOrder n o s).hasListed ws :=
  hasListed_askWrite _ _ h

theorem hasListed_changeReceivers (sel : Nat → Receiver → Bool) (g : Nat → Receiver → Receiver)
    (h : s.hasListed ws) : (changeReceivers sel g s).hasListed ws := by
  unfold State.hasListed
  rw [changeReceivers_writes]
  split
  · exact h
  · exact h.trans (List.prefix_append _ _)

theorem hasListed_noteClosed (n : Nat) (o : Order) (h : s.hasListed ws) : (noteClosed n o s).hasListed ws := by
  simpa [State.hasListed] using h

theorem hasListed_sealOrder (n : Nat) (h : s.hasListed ws) : (sealOrder s n).hasListed ws := by
  unfold sealOrder
  split
  · exact h
  · split
    · split
      · exact hasListed_noteClosed _ _ (hasListed_putOrder _ _ h)
      · exact hasListed_noteClosed _ _ (hasListed_putOrder _ _ (hasListed_changeReceivers _ _ h))
      · exact hasListed_noteClosed _ _ (hasListed_putOrder _ _ (hasListed_changeReceivers _ _ h))
      · exact h
    · exact h

/-! ## The closing step judges every seal point (R91) -/

/-- The order at a position is CLOSED, or its seal point lies ahead. -/
def State.sealedAt (n : Nat) (s : State) : Prop :=
  ∀ o, s.order n = some o → o.isClosed = false → 0 < dist o.sealPoint s.tb.count

/-- The closing step leaves a position alone whose order is CLOSED or short of its seal point, and closes every other. -/
theorem sealOrder_cases (n : Nat) (hc : s.tb.status = .confirmed) :
    (sealOrder s n = s ∧ s.sealedAt n) ∨
      ∃ o', o'.isClosed = true ∧ (sealOrder s n).orders.orders = insertAt s.orders.orders n o' := by
  have hconf : s.confirmed = true := by simp [State.confirmed, hc]
  unfold sealOrder
  cases ho : s.order n with
  | none => exact .inl ⟨rfl, fun o h _ => absurd (ho.symm.trans h) nofun⟩
  | some o =>
    by_cases hreached : s.sealReached o = true
    · simp only [hconf, hreached, Bool.and_self, if_true]
      split
      · exact .inr ⟨_, rfl, by rw [closeNotSent_orders]⟩
      · exact .inr ⟨_, rfl, by rw [closeAtSeal_def]; simp [bumpSequence]; rfl⟩
      · exact .inr ⟨_, rfl, by rw [closeAtSeal_def]; simp [bumpSequence]; rfl⟩
      · rename_i c out hstate
        refine .inl ⟨rfl, fun o' h hopen => ?_⟩
        obtain rfl : o = o' := Option.some.inj (ho.symm.trans h)
        rw [Order.isClosed, hstate] at hopen
        exact absurd hopen nofun
    · refine .inl ⟨by simp [hreached], fun o' h _ => ?_⟩
      obtain rfl : o = o' := Option.some.inj (ho.symm.trans h)
      exact not_le.1 fun hle => hreached (decide_eq_true hle)

theorem sealOrder_sealedAt {n : Nat} (m : Nat) (hc : s.tb.status = .confirmed) (h : n = m ∨ s.sealedAt n) :
    (sealOrder s m).sealedAt n := by
  have htb : (sealOrder s m).tb = s.tb := by simp
  obtain ⟨hsame, hsealed⟩ | ⟨o', hclosed, hinsert⟩ := sealOrder_cases m hc
  · rw [hsame]
    exact h.elim (fun he => he ▸ hsealed) id
  · intro o ho hopen
    rw [State.order, hinsert] at ho
    rcases eq_or_ne n m with rfl | hne
    · rw [lookup_insertAt_self] at ho
      obtain rfl := Option.some.inj ho
      exact absurd (hclosed.symm.trans hopen) nofun
    · rw [lookup_insertAt_ne _ _ hne] at ho
      rw [htb]
      exact h.resolve_left hne o ho hopen

theorem sealOrders_sealedAt {n : Nat} (ms : List Nat) (hc : s.tb.status = .confirmed) (h : n ∈ ms ∨ s.sealedAt n) :
    (ms.foldl sealOrder s).sealedAt n := by
  induction ms generalizing s with
  | nil => exact h.resolve_left (List.not_mem_nil)
  | cons m ms ih =>
    refine ih (by simpa using hc) ?_
    rcases h with hmem | hsealed
    · exact (List.mem_cons.1 hmem).elim (fun he => .inr (sealOrder_sealedAt m hc (.inl he))) .inl
    · exact .inr (sealOrder_sealedAt m hc (.inr hsealed))

theorem mem_positions_of_lookup {α : Type} {l : List (Nat × α)} {n : Nat} {x : α} (h : lookup l n = some x) :
    n ∈ l.map Prod.fst := by
  induction l with
  | nil => exact absurd h nofun
  | cons y l ih =>
    rw [lookup] at h
    split at h
    · rename_i he
      exact List.mem_cons.2 (.inl he.symm)
    · exact List.mem_cons_of_mem _ (ih h)

theorem closingStep_sealedAt (n : Nat) (hc : s.tb.status = .confirmed) : (closingStep s).sealedAt n := by
  refine sealOrders_sealedAt _ hc ?_
  cases ho : s.order n with
  | none => exact .inr fun o h _ => absurd (ho.symm.trans h) nofun
  | some o => exact .inl (mem_positions_of_lookup ho)

theorem hasListed_closingStep (h : s.hasListed ws) : (closingStep s).hasListed ws :=
  foldl_keeps (P := State.hasListed ws) (fun _ n ht => hasListed_sealOrder n ht) _ h

/-! ## The times and the transmission in flight at a COUNT_SET (R105, R146) -/

/-- What moving the times keeps. -/
theorem moveTimes_frame (j : Count) (s : State) :
    (moveTimes j s).tb = s.tb ∧ (moveTimes j s).sched = s.sched ∧ (moveTimes j s).params = s.params ∧
      (moveTimes j s).link = s.link := by
  unfold moveTimes
  dsimp only
  refine foldl_keeps (P := fun t => t.tb = s.tb ∧ t.sched = s.sched ∧ t.params = s.params ∧ t.link = s.link)
    (fun t no h => ?_) _ (by simp)
  split
  · exact h
  · simpa using h

theorem hasListed_moveTimes (j : Count) (h : s.hasListed ws) : (moveTimes j s).hasListed ws := by
  unfold moveTimes
  refine foldl_keeps (P := State.hasListed ws) (fun t no ht => ?_) _ (hasListed_changeReceivers _ _ h)
  split
  · exact ht
  · exact hasListed_putOrder _ _ ht

theorem moveFlight_frame (d : Int) (s : State) :
    (moveFlight d s).tb = s.tb ∧ (moveFlight d s).sched.hold = s.sched.hold ∧ (moveFlight d s).params = s.params ∧
      (moveFlight d s).link = s.link ∧ (moveFlight d s).store = s.store := by
  unfold moveFlight
  split
  · exact ⟨rfl, rfl, rfl, rfl, rfl⟩
  · dsimp only
    split <;> simp

theorem setCount_frame (x : Count) (s : State) :
    (setCount x s).tb = { s.tb with
      count := x, status := .confirmed, beaconDue := true, beaconTimer := 0, cadence := 0 } ∧
      (setCount x s).sched = s.sched ∧ (setCount x s).params = s.params ∧ (setCount x s).link = s.link := by
  simp [setCount, askSavedCount]

/-- The state that a taken COUNT_SET leaves before its reply. -/
def countMoved (x : Count) (s : State) : State :=
  closingStep (moveTimes (x - s.count) (moveFlight (dist x s.count) (setCount x s)))

theorem countMoved_frame (x : Count) (s : State) :
    (countMoved x s).tb = { s.tb with
      count := x, status := .confirmed, beaconDue := true, beaconTimer := 0, cadence := 0 } ∧
      (countMoved x s).sched.hold = s.sched.hold ∧ (countMoved x s).params = s.params ∧
      (countMoved x s).link.replies = s.link.replies := by
  obtain ⟨htb, hsched, hparams, hlink⟩ :=
    moveTimes_frame (x - s.count) (moveFlight (dist x s.count) (setCount x s))
  obtain ⟨htb', hhold, hparams', hlink', -⟩ := moveFlight_frame (dist x s.count) (setCount x s)
  obtain ⟨htb'', hsched'', hparams'', hlink''⟩ := setCount_frame x s
  unfold countMoved
  simp [htb, htb', htb'', hsched, hhold, hsched'', hparams, hparams', hparams'', hlink, hlink', hlink'']

theorem countMoved_writes (x : Count) (hw : s.store.wiping = none) :
    (countMoved x s).hasListed (s.store.writes ++ [⟨.savedCount (some x), true⟩]) := by
  refine hasListed_closingStep (hasListed_moveTimes _ ?_)
  unfold State.hasListed
  rw [(moveFlight_frame ..).2.2.2.2]
  show _ <+: (askWrite ..).store.writes
  rw [askWrite_of_not_wiping (by exact hw)]
  exact List.prefix_rfl

end Sys2Proof.Machine

namespace Sys2Proof.Safety
open Sys2Proof.Machine

/-- Settles O54: each reading answers on the state without its request. -/
theorem readingsChangeNothing : Obligations.ReadingsChangeNothing := by
  intro s q hold
  refine ⟨execUnknownKind_answered hold, fun hb hk => ?_, fun hb hk => ?_, fun hb hk => ?_, fun hb hk => ?_,
    fun b hb hk => ⟨fun hp => ?_, fun p hp => ?_⟩⟩
  · exact takeKind_answered hold hk (hb ▸ readNothing_nil) rfl
  · exact takeKind_unreadable hold hk (readNothing_of_ne_nil hb)
  · obtain ⟨rest, hfields, hlen⟩ := statusFields_eq (dropRequest s)
    refine ⟨rest, takeKind_answered hold hk (hb ▸ readNothing_nil) ?_, hlen⟩
    show taken (dropRequest s).statusFields (dropRequest s) = _
    rw [hfields]
    rfl
  · exact takeKind_answered hold hk (hb ▸ readNothing_nil) rfl
  · refine takeKind_answered hold hk (hb ▸ readOne_single b) ?_
    simp only [handleParamRead, hp]
    rfl
  · refine takeKind_answered hold hk (hb ▸ readOne_single b) ?_
    simp only [handleParamRead, hp]
    rfl

/-- Settles O57: the mode SOFT taken, every mode but it and WIPE refused. -/
theorem softResetIsRepliedToFirst : Obligations.SoftResetIsRepliedToFirst := by
  intro s q hold hk
  have hkind : replyKind q.kind = 0x85 := by rw [hk]; rfl
  refine ⟨fun hb => ?_, fun m hb hsoft hwipe => ?_⟩
  · refine (execResetSoft_of_mode hold hk hb (by decide)).trans ?_
    rw [appendReply, hkind]
    rfl
  · refine (execResetSoft_of_mode hold hk hb hwipe).trans ?_
    rw [handleReset, if_neg hsoft]
    rfl

/-- Settles O59: the conditions of R20 decide between the count moved and the refusal. -/
theorem countSetSetsTheCount : Obligations.CountSetSetsTheCount := by
  intro s q x hold hk hread
  obtain ⟨-, -, hwiping, -⟩ := oldest_some hold
  have hkind : replyKind q.kind = 0x89 := by rw [hk]; rfl
  have hstep := takeKind_read (own := handleCountSet) hold hk hread
  refine ⟨fun htaken => ?_, fun hstatus hforce hfar => ?_⟩
  · have htakes : (dropRequest s).takesCount x = true := by
      rcases htaken with h | h | h <;> simp [State.takesCount, State.confirmed, State.count, h]
    have hown : handleCountSet q x (dropRequest s) =
        taken (countBytes (countMoved x.count (dropRequest s)).count) (countMoved x.count (dropRequest s)) :=
      if_pos htakes
    obtain ⟨htb, hhold, hparams, hreplies⟩ := countMoved_frame x.count (dropRequest s)
    obtain ⟨ws, hws⟩ := countMoved_writes (s := dropRequest s) x.count hwiping
    have hsealed (n : Nat) : (countMoved x.count (dropRequest s)).sealedAt n := by
      refine closingStep_sealedAt n ?_
      rw [(moveTimes_frame ..).1, (moveFlight_frame ..).1, (setCount_frame ..).1]
    have hcount : (countMoved x.count (dropRequest s)).tb.count = x.count := by rw [htb]
    rw [hown] at hstep
    generalize countMoved x.count (dropRequest s) = t at *
    refine ⟨_, ws, hstep, htb, ?_, ?_, hhold, hparams, fun n o ho hopen => hcount ▸ hsealed n o ho hopen⟩
    · rw [List.append_assoc] at hws
      exact hws.symm
    · show t.link.replies ++ [⟨replyKind q.kind, q.ticket, 0 :: countBytes t.tb.count, true, .nothing⟩] = _
      rw [hkind, hcount, hreplies]
      rfl
  · have hrefused : (dropRequest s).takesCount x = false := by
      simp [State.takesCount, State.confirmed, State.count, hstatus, hforce]
      omega
    refine hstep.trans ?_
    rw [handleCountSet, if_neg (by simp [hrefused])]
    rfl

end Sys2Proof.Safety
end

