-- ==== Sys2Proof/Proofs/LegReads.lean ====
section
/-! PROOFS. A leg heard whole gives its data cells back. -/

namespace Sys2Proof.Machine

/-- The nine symbols of a data cell have good parity and give the byte back (R27, R30): a finite fact of the 256 bytes. -/
theorem dataOfSymbols_dataSymbols (b : Byte) : dataOfSymbols (dataSymbols b) = some b := by
  revert b
  decide

/-- The window in which a data cell is heard. -/
def cellHeard (energy : Nat) (b : Byte) : Window := ⟨energy, dataSymbols b⟩

theorem dataCells_cellHeard {floor2 energy : Nat} (symbols : BitVec 9)
    (hcarries : carriesCarrier floor2 ⟨energy, symbols⟩ = true) (cells : List Byte) :
    dataCells floor2 (cells.map (cellHeard energy)) = some cells := by
  induction cells with
  | nil => rfl
  | cons b cells ih =>
    have hb : carriesCarrier floor2 (cellHeard energy b) = true := hcarries
    have hsymbols : dataOfSymbols (cellHeard energy b).symbols = some b := dataOfSymbols_dataSymbols b
    simp only [List.map_cons, dataCells, hb, hsymbols, ih]

end Sys2Proof.Machine

namespace Sys2Proof.Safety
open Sys2Proof.Machine

/-- Settles O60: the cells heard are the data and their CRC, which agrees. -/
theorem aWholeLegIsRead : Obligations.AWholeLegIsRead := by
  intro floor2 energy data hne hcarries
  obtain ⟨h, l, hcrc⟩ := crcBytes_pair data
  have hlead : carriesCarrier floor2 ⟨energy, leadSymbols⟩ = true := hcarries
  have hpos : 0 < data.length := List.length_pos_of_ne_nil hne
  have hlen : ((data ++ crcBytes data).map (cellHeard energy)).length = data.length + 2 := by simp [hcrc]
  have hheard := dataCells_cellHeard 0 hcarries (data ++ crcBytes data)
  have hall : ((data ++ crcBytes data).map (cellHeard energy)).take (data.length + 3 - 1) =
      (data ++ crcBytes data).map (cellHeard energy) := List.take_of_length_le (by omega)
  show wholeLeg floor2 (data.length + 3) (⟨energy, leadSymbols⟩ :: (data ++ crcBytes data).map (cellHeard energy)) = _
  have hwhole : (carriesCarrier floor2 ⟨energy, leadSymbols⟩ && leadSymbols == leadSymbols &&
      decide (data.length + 3 ≤ ((data ++ crcBytes data).map (cellHeard energy)).length + 1) &&
      decide (4 ≤ data.length + 3)) = true := by
    rw [hlead, hlen]
    simp
    omega
  simp only [wholeLeg, List.length_cons, hwhole, if_true, hall, hheard, Nat.add_sub_cancel, List.drop_left,
    List.take_left]

end Sys2Proof.Safety
end

