-- ==== Sys2Proof/Proofs/ParamValues.lean ====
section
/-! PROOFS. The values that a taken PARAM_WRITE stores, and the rows that take one. -/

namespace Sys2Proof.Machine

variable {ps ps' : Params} {v : Nat} {p x : Param}

/-! ## The value stored (R183, R189) -/

theorem code_of_decodeCode {α : Type} {code : α → Nat} {values : List α} {a : α}
    (h : decodeCode code values v = some a) : code a = v := by simpa using List.find?_some h

theorem dividerOf_eq {a : Nat} (h : dividerOf v = some a) : a = v := by
  rw [dividerOf] at h
  split at h
  · exact (Option.some.inj h).symm
  · exact absurd h nofun

/-- Three bits give back the set's code they were read from. -/
theorem enableCode_testBit (h : v ≤ 7) : enableCode ⟨v.testBit 0, v.testBit 1, v.testBit 2⟩ = v := by
  interval_cases v <;> rfl

theorem NoticeLevels.get_set_self (l : NoticeLevels) (k : NoticeKind) (a : NoticeLevel) : (l.set k a).get k = a := by
  cases k <;> rfl

theorem NoticeLevels.get_set_ne (l : NoticeLevels) {k j : NoticeKind} (a : NoticeLevel) (h : j ≠ k) :
    (l.set k a).get j = l.get j := by
  cases k <;> cases j <;> simp_all [NoticeLevels.set, NoticeLevels.get]

/-- A numeric write is never refused, and stores its value clamped. -/
theorem read_write_numeric {lo hi : Nat} (hw : ps.write v p = some ps') (hr : Safety.numericRange p = some (lo, hi)) :
    ps'.read p = clampTo lo hi v := by
  cases p
  case stationId =>
    obtain rfl := Option.some.inj hw
    obtain ⟨rfl, rfl⟩ := Prod.mk.inj (Option.some.inj hr)
    show (BitVec.ofNat 16 (clampTo 0 65535 v)).toNat = clampTo 0 65535 v
    rw [BitVec.toNat_ofNat]
    simp only [clampTo]
    omega
  case settleCount | beaconInterval | levelMax | minMargin | levelBase | qTarget | levelBroadcast | retryMax |
      relayAfter | repeatSpacing =>
    obtain rfl := Option.some.inj hw
    obtain ⟨rfl, rfl⟩ := Prod.mk.inj (Option.some.inj hr)
    rfl
  all_goals exact absurd hr nofun

/-- A write refused is one of an enumeration, of the set or of a divider. -/
theorem numericRange_of_refused (hw : ps.write v p = none) : Safety.numericRange p = none := by
  cases p
  case settleCount | beaconInterval | levelMax | minMargin | levelBase | qTarget | levelBroadcast | retryMax |
      relayAfter | repeatSpacing | stationId => exact absurd hw nofun
  all_goals rfl

/-- Any other write stores the value itself. -/
theorem read_write_code (hw : ps.write v p = some ps') (hr : Safety.numericRange p = none) : ps'.read p = v := by
  cases p
  case phaseEnable =>
    simp only [Params.write] at hw
    split at hw
    · rename_i hle
      obtain rfl := Option.some.inj hw
      exact enableCode_testBit hle
    · exact absurd hw nofun
  case zcFilter ph =>
    obtain ⟨a, ha, rfl⟩ := Option.map_eq_some_iff.1 hw
    exact (congrArg filterCode (PerPhase.get_set_self ..)).trans (code_of_decodeCode ha)
  case zcEdge ph =>
    obtain ⟨a, ha, rfl⟩ := Option.map_eq_some_iff.1 hw
    exact (congrArg edgeCode (PerPhase.get_set_self ..)).trans (code_of_decodeCode ha)
  case noticeLevel k =>
    obtain ⟨a, ha, rfl⟩ := Option.map_eq_some_iff.1 hw
    exact (congrArg levelCode (NoticeLevels.get_set_self ..)).trans (code_of_decodeCode ha)
  case nominalFreq | refPhase | linkRate | noticeMode =>
    obtain ⟨a, ha, rfl⟩ := Option.map_eq_some_iff.1 hw
    have hcode := code_of_decodeCode ha
    exact hcode
  case carrierPrimary | carrierAlternate =>
    obtain ⟨a, ha, rfl⟩ := Option.map_eq_some_iff.1 hw
    exact dividerOf_eq ha
  all_goals exact absurd hr nofun

/-- A write stores no other parameter. -/
theorem read_write_ne (hw : ps.write v p = some ps') (hx : x ≠ p) : ps'.read x = ps.read x := by
  cases p
  case phaseEnable =>
    simp only [Params.write] at hw
    split at hw
    · obtain rfl := Option.some.inj hw
      cases x <;> simp_all [Params.read]
    · exact absurd hw nofun
  case zcFilter ph =>
    obtain ⟨a, -, rfl⟩ := Option.map_eq_some_iff.1 hw
    cases x
    case zcFilter ph' => exact congrArg filterCode (PerPhase.get_set_ne _ _ fun h => hx (h ▸ rfl))
    all_goals rfl
  case zcEdge ph =>
    obtain ⟨a, -, rfl⟩ := Option.map_eq_some_iff.1 hw
    cases x
    case zcEdge ph' => exact congrArg edgeCode (PerPhase.get_set_ne _ _ fun h => hx (h ▸ rfl))
    all_goals rfl
  case noticeLevel k =>
    obtain ⟨a, -, rfl⟩ := Option.map_eq_some_iff.1 hw
    cases x
    case noticeLevel k' => exact congrArg levelCode (NoticeLevels.get_set_ne _ _ fun h => hx (h ▸ rfl))
    all_goals rfl
  case nominalFreq | refPhase | linkRate | noticeMode | carrierPrimary | carrierAlternate =>
    obtain ⟨a, -, rfl⟩ := Option.map_eq_some_iff.1 hw
    cases x <;> simp_all [Params.read]
  all_goals
    obtain rfl := Option.some.inj hw
    cases x <;> simp_all [Params.read]

/-! ## The rows that take a write -/

variable {s : State} {q : Request} {w : ParamValue}

theorem takeWrite_eq {these : Param → Bool} (hold : s.oldest = some q) (hk : q.kind = 0x04)
    (hread : readParamValue q.body = some w) (hp : paramOf w.ident = some p) (hthese : these p = true) :
    takeWrite these s = .next (answerRequest q (readThen readParamValue handleParamWrite) s) :=
  takeRequest_mine hold (by simp [writes, hk, hread, hp, hthese])

theorem exec_writeRow (hold : s.oldest = some q) (hk : q.kind = 0x04) (hread : readParamValue q.body = some w)
    (hp : paramOf w.ident = some p) :
    exec (Safety.writeRow p) s = .next (answerRequest q (readThen readParamValue handleParamWrite) s) := by
  cases p
  case zcFilter ph => exact takeWrite_eq (these := Param.isFilter) hold hk hread hp (by cases ph <;> rfl)
  case zcEdge ph => exact takeWrite_eq (these := Param.isEdge) hold hk hread hp (by cases ph <;> rfl)
  case noticeLevel k => exact takeWrite_eq (these := Param.isLevel) hold hk hread hp (by cases k <;> rfl)
  all_goals exact takeWrite_eq hold hk hread hp (decide_eq_true rfl)

/-- PARAM_WRITE and the row of the parameter's write are the same command here. -/
theorem exec_paramWrite {c : Instr} (hold : s.oldest = some q) (hk : q.kind = 0x04)
    (hread : readParamValue q.body = some w) (hp : paramOf w.ident = some p)
    (hc : c = .paramWrite ∨ c = Safety.writeRow p) :
    exec c s = .next (appendReply q (handleParamWrite q w (dropRequest s)).body
      (handleParamWrite q w (dropRequest s)).after (handleParamWrite q w (dropRequest s)).state) := by
  rcases hc with rfl | rfl
  · exact takeKind_read hold hk hread
  · rw [exec_writeRow hold hk hread hp]
    simp only [answerRequest, readThen, hread]

end Sys2Proof.Machine
end

