-- ==== Sys2Proof/Proofs/ParamClaims.lean ====
section
/-! PROOFS. What a taken PARAM_WRITE brings about beyond the value stored. -/

namespace Sys2Proof.Machine

variable {s : State} {P : State → Prop}

/-! ## What holds of the records however the line and the Timebase go on -/

/-- A property that rests on the store and the Order Store alone, and that a record written keeps. -/
structure RecordFree (P : State → Prop) : Prop where
  congr : ∀ {s t : State}, P s → t.store = s.store → t.orders = s.orders → P t
  order : ∀ (n : Nat) (o : Order) {s : State}, P s → P (putOrder n o s)
  receiver : ∀ (i : Nat) (r : Receiver) {s : State}, P s → P (putReceiver i r s)
  count : ∀ {s : State}, P s → P (askSavedCount s)

namespace RecordFree

theorem countFor (hP : RecordFree P) (k : Nat) (g : Counters → Counters) (h : P s) : P (countFor k g s) := by
  unfold Machine.countFor
  split
  · exact h
  · exact hP.order _ _ h

theorem countResult (hP : RecordFree P) (k : Nat) (res : EntryResult) (h : P s) : P (countResult k res s) := by
  unfold Machine.countResult
  split
  case h_1 | h_2 | h_3 => exact hP.countFor _ _ h
  all_goals exact h

theorem countConfirmed (hP : RecordFree P) (ks : List Nat) (h : P s) :
    P (ks.foldl (fun s k => Machine.countFor k Counters.confirm s) s) :=
  foldl_keeps (P := P) (fun _ k ht => hP.countFor k _ ht) _ h

theorem closeDelivery (hP : RecordFree P) (start : Count) (d : DeliveryRecord) (out : Outcome) (h : P s) :
    P (closeDelivery start d out s) := by
  have hnote {u : State} (hu : P u) (e : Count) (disp : Disposition) (r : Option EntryResult) (a : Option Receiver) :
      P (finishTransmission (noteDelivery start e d out disp r a u)) := hP.congr hu (by simp) (by simp)
  unfold Machine.closeDelivery
  dsimp only
  split
  · exact hnote h ..
  · split
    · exact hnote h ..
    · split
      · exact hnote (hP.countConfirmed _ (hP.countResult _ _ (hP.receiver _ _ h))) ..
      · split
        · exact hnote h ..
        · exact hnote (hP.receiver _ _ h) ..

theorem closeProbe (hP : RecordFree P) (start : Count) (p : ProbeRecord) (out : Outcome) (h : P s) :
    P (closeProbe start p out s) := by
  have hnote {u : State} (hu : P u) (e : ProbeEnd) : P (finishTransmission (noteProbe e u)) :=
    hP.congr hu (by simp) (by simp)
  unfold Machine.closeProbe
  dsimp only
  split
  · exact hnote h _
  · split
    · exact hnote h _
    · split
      · exact hnote h _
      · exact hnote (hP.countConfirmed _ (hP.receiver _ _ h)) _

theorem closeExchange (hP : RecordFree P) (out : Outcome) (h : P s) : P (closeExchange out s) := by
  have hclosing : P { s with engine := { s.engine with state := .closing, outcome := some out } } := hP.congr h rfl rfl
  unfold Machine.closeExchange
  dsimp only
  split
  · exact hP.congr hclosing rfl rfl
  · split
    · exact hP.closeDelivery _ _ _ hclosing
    · exact hP.closeProbe _ _ _ hclosing
    · exact hP.congr hclosing rfl rfl
    · exact hP.congr hclosing rfl rfl

theorem abortExchange (hP : RecordFree P) (c : AbortCause) (h : P s) : P (abortExchange c s) :=
  hP.closeExchange _ (hP.congr h (by simp) (by simp))

theorem cutBroadcast (hP : RecordFree P) (c : AbortCause) (h : P s) : P (cutBroadcast c s) :=
  hP.congr h (by simp [Machine.cutBroadcast]) (by simp [Machine.cutBroadcast])

theorem endEarly (hP : RecordFree P) (c : AbortCause) (h : P s) : P (endEarly c s) := by
  unfold Machine.endEarly
  split
  · exact h
  · split
    · exact hP.abortExchange c h
    · exact hP.cutBroadcast c h

theorem losePhase (hP : RecordFree P) (p : Phase) (h : P s) : P (losePhase p s) := by
  unfold Machine.losePhase
  dsimp only
  split
  · exact h
  · split
    · split
      · exact hP.abortExchange _ h
      · exact h
    · split
      · split
        · exact hP.cutBroadcast _ (hP.congr h rfl rfl)
        · exact hP.congr h rfl rfl
      · exact h

theorem saveCount (hP : RecordFree P) (h : P s) : P (saveCount s) := by
  unfold Machine.saveCount
  split
  · exact hP.count (hP.congr h rfl rfl)
  · exact h

theorem enterOutage (hP : RecordFree P) (h : P s) : P (enterOutage s) := by
  have hnote {u : State} (hu : P u) (c : TimebaseCause) (b : Option Phase) : P (noteTimebase c b u) :=
    hP.congr hu (by simp) (by simp)
  have hsaved : P (Machine.saveCount (expireBeaconTimer s)) := hP.saveCount (hP.congr h (by simp) (by simp))
  unfold Machine.enterOutage
  refine hP.endEarly _ (hnote (hP.count ?_) _ _)
  exact hP.congr hsaved rfl rfl

theorem checkReference (hP : RecordFree P) (h : P s) : P (checkReference s) := by
  unfold Machine.checkReference
  split
  · exact h
  · split
    · exact h
    · split
      · exact h
      · split
        · exact hP.congr h (by simp) (by simp)
        · exact hP.enterOutage h

theorem restartPhases (hP : RecordFree P) (ps : List Phase) (h : P s) : P (restartPhases ps s) := by
  obtain ⟨trackers, htrackers⟩ := restartTracker_foldl ps (meetSettling s)
  have hmeet : P (meetSettling s) := hP.congr h (by simp) (by simp)
  unfold Machine.restartPhases
  refine hP.checkReference (foldl_keeps (P := P) (fun _ p ht => hP.losePhase p ht) _ ?_)
  rw [htrackers]
  exact hP.congr hmeet rfl rfl

theorem nominalFreqEffect (hP : RecordFree P) (h : P s) : P (nominalFreqEffect s) := by
  unfold Machine.nominalFreqEffect
  refine hP.restartPhases _ ?_
  split
  · exact hP.congr h rfl rfl
  · exact h

theorem exhaustRecord (hP : RecordFree P) (limit : Nat) (ir : Nat × Receiver) (h : P s) :
    P (exhaustRecord limit s ir) := by
  unfold Machine.exhaustRecord
  dsimp only
  split
  · exact h
  · exact foldl_keeps (P := P) (fun _ e ht => hP.countFor _ _ ht) _ (hP.receiver _ _ h)

theorem retryMaxEffect (hP : RecordFree P) (before : Nat) (h : P s) : P (retryMaxEffect before s) := by
  unfold Machine.retryMaxEffect
  split
  · exact foldl_keeps (P := P) (fun _ ir ht => hP.exhaustRecord _ ir ht) _ h
  · exact h

theorem paramEffect (hP : RecordFree P) (before : Params) (p : Param) (h : P s) : P (paramEffect before s p) := by
  cases p
  case nominalFreq => exact hP.nominalFreqEffect h
  case phaseEnable | zcFilter | zcEdge => exact hP.restartPhases _ h
  case retryMax => exact hP.retryMaxEffect _ h
  case refPhase | levelMax | linkRate => exact hP.congr h (by simp [Machine.paramEffect]) (by simp [Machine.paramEffect])
  all_goals exact h

end RecordFree

/-- The write list keeps its beginning, and the last tag and the sequence value stay. -/
def State.recordsGoOn (ws : List PendingWrite) (tag : Nat) (seq : Count) (s : State) : Prop :=
  s.hasListed ws ∧ s.orders.lastTag = tag ∧ s.orders.sequence = seq

theorem recordsGoOn_recordFree (ws : List PendingWrite) (tag : Nat) (seq : Count) :
    RecordFree (State.recordsGoOn ws tag seq) where
  congr {s t} h hstore horders := by
    obtain ⟨hlisted, htag, hseq⟩ := h
    refine ⟨?_, by rw [horders, htag], by rw [horders, hseq]⟩
    rw [State.hasListed, hstore]
    exact hlisted
  order n o {s} h := ⟨hasListed_putOrder n o h.1, by rw [putOrder_orders]; exact h.2⟩
  receiver i r {s} h := ⟨hasListed_askWrite _ _ h.1, by rw [(putReceiver_frame i r s).2.2.2.1]; exact h.2⟩
  count {s} h := ⟨hasListed_askWrite _ _ h.1, by rw [askSavedCount, (askWrite_frame ..).2.2.2.1]; exact h.2⟩

/-! ## The Timebase after a write (R4, R14, R24) -/

theorem restart_restart (t : Tracker) (e : Bool) (n : Nat) : (t.restart e n).restart e n = t.restart e n := rfl

theorem restart_eq (t : Tracker) (e : Bool) (f : NominalFreq) : t.restart e (nominalPeriod f) = { t with
    state := if e then .acquiring else .absent
    period := if f = .hz50 then 10000 else 8333
    last := none, lastFull := none, acquire := 0, silence := 0, miss := 0, ret := 0, coast := 0
    ignoreNext := true, derivedDue := false } := by cases f <;> rfl

/-- A configuration restart of several phases: each of them restarted, every other as it was. -/
theorem restartTrackers_tracker (ps : List Phase) (s : State) (q : Phase) :
    (ps.foldl restartTracker s).tracker q =
      if q ∈ ps then (s.tracker q).restart (s.params.enable.get q) (nominalPeriod s.params.nominalFreq)
      else s.tracker q := by
  induction ps generalizing s with
  | nil => simp
  | cons p ps ih =>
    have hparams : (restartTracker s p).params = s.params := rfl
    rw [List.foldl_cons, ih, hparams]
    rcases eq_or_ne q p with rfl | hne
    · rw [restartTracker, setTracker_tracker_self, restart_restart, ite_self, if_pos (List.mem_cons_self ..)]
    · rw [restartTracker, setTracker_tracker_ne _ _ hne]
      simp [hne]

theorem restartPhases_tracker (ps : List Phase) (s : State) (q : Phase) :
    (restartPhases ps s).tracker q =
      if q ∈ ps then (s.tracker q).restart (s.params.enable.get q) (nominalPeriod s.params.nominalFreq)
      else s.tracker q := by
  have htrackers : (restartPhases ps s).tracker q = (ps.foldl restartTracker (meetSettling s)).tracker q := by
    simp [restartPhases, State.tracker, losePhases_tb]
  have hparams : (meetSettling s).params = s.params := by simp
  rw [htrackers, restartTrackers_tracker, meetSettling_tracker, hparams]

/-- The phases that a write restarts. -/
def Param.restarts : Param → List Phase
  | .nominalFreq => Phase.all
  | .phaseEnable => Phase.all
  | .zcFilter p => [p]
  | .zcEdge p => [p]
  | _ => []

theorem mem_all (q : Phase) : q ∈ Phase.all := by cases q <;> simp [Phase.all]

theorem mem_restarts_iff (p : Param) (q : Phase) :
    q ∈ p.restarts ↔ p = .nominalFreq ∨ p = .phaseEnable ∨ p = .zcFilter q ∨ p = .zcEdge q := by
  cases p
  case zcFilter | zcEdge => simp [Param.restarts, eq_comm]
  case nominalFreq | phaseEnable => simp [Param.restarts, mem_all]
  all_goals simp [Param.restarts]

theorem paramEffect_tracker (before : Params) (p : Param) (s : State) (q : Phase) :
    (paramEffect before s p).tracker q =
      if q ∈ p.restarts then (s.tracker q).restart (s.params.enable.get q) (nominalPeriod s.params.nominalFreq)
      else s.tracker q := by
  cases p
  case nominalFreq =>
    show (nominalFreqEffect s).tracker q = _
    unfold nominalFreqEffect
    dsimp only
    split <;> exact restartPhases_tracker _ _ q
  case phaseEnable | zcFilter | zcEdge => exact restartPhases_tracker _ s q
  case refPhase =>
    simp only [paramEffect, refPhaseEffect]
    split <;> simp [moveReference, State.tracker, Param.restarts]
  case levelMax => rfl
  case retryMax | linkRate => simp [paramEffect, State.tracker, Param.restarts]
  all_goals rfl

theorem paramEffect_count (before : Params) (p : Param) (s : State) :
    (paramEffect before s p).tb.count = s.tb.count := by
  cases p
  case nominalFreq => exact (nominalFreqEffect_count s).1
  case phaseEnable | zcFilter | zcEdge => exact (restartPhases_count _ s).1
  case refPhase => exact (refPhaseEffect_count s).1
  case levelMax => rfl
  case retryMax | linkRate => simp [paramEffect]
  all_goals rfl

/-- In OUTAGE the restart of the phases leaves the crystal as it was, and so the restart of its pattern. -/
theorem restartPhases_crystalRestart (ps : List Phase) (h : s.tb.state = .outage) :
    (restartPhases ps s).tb.crystalRestart = s.tb.crystalRestart := by
  obtain ⟨trackers, htrackers⟩ := restartTracker_foldl ps (meetSettling s)
  have hmeet : (meetSettling s).tb = s.tb := meetSettling_tb (.inr (by rw [h]; nofun))
  have hstate : ((ps.filter (meetSettling s).locked).foldl (fun s p => losePhase p s)
      (ps.foldl restartTracker (meetSettling s))).tb = { s.tb with trackers := trackers } := by
    rw [losePhases_tb, htrackers, ← hmeet]
  simp only [restartPhases, checkReference]
  rw [if_pos (by rw [hstate]; exact h), hstate]

theorem nominalFreqEffect_crystalRestart (h : s.tb.state = .outage) :
    (nominalFreqEffect s).tb.crystalRestart = true := by
  simp only [nominalFreqEffect, if_pos h]
  exact restartPhases_crystalRestart _ h

theorem refPhaseEffect_running (hrun : s.tb.state = .running) (hlocked : s.locked s.params.refPhase = true) :
    (refPhaseEffect s).tb = { s.tb with
      reference := some s.params.refPhase
      spacing := if s.tb.reference = some s.params.refPhase then s.tb.spacing else true } := by
  unfold refPhaseEffect
  by_cases href : s.tb.reference = some s.params.refPhase
  · simp only [href, ne_eq, not_true, and_false, if_false, if_true]
    rw [← href]
  · rw [if_pos ⟨hrun, hlocked, href⟩, if_neg href]
    simp [moveReference]

theorem refPhaseEffect_else (h : s.tb.state ≠ .running ∨ s.locked s.params.refPhase = false) :
    refPhaseEffect s = s := by
  unfold refPhaseEffect
  refine if_neg fun hall => ?_
  obtain ⟨hrun, hlocked, -⟩ := hall
  rcases h with h | h
  · exact h hrun
  · rw [h] at hlocked
    exact absurd hlocked nofun

/-! ## A lowered RETRY_MAX (R66) -/

/-- Every entry of a record is below the limit of attempts. -/
def Receiver.within (limit : Nat) (r : Receiver) : Prop := ∀ e ∈ r.entries, e.attempts < limit

theorem countFor_table (slots : List Entry) (s : State) :
    (slots.foldl (fun s e => countFor e.slot Counters.exhaust s) s).table = s.table :=
  foldl_keeps (P := fun t => t.table = s.table) (fun _ e ht => by simpa using ht) slots rfl

theorem exhaustRecord_receiver_ne {limit j : Nat} {ir : Nat × Receiver} (h : j ≠ ir.1) :
    (exhaustRecord limit s ir).receiver j = s.receiver j := by
  unfold exhaustRecord
  dsimp only
  split
  · rfl
  · rw [State.receiver, countFor_table]
    exact putReceiver_receiver_ne _ _ h

theorem exhaustRecord_within {limit : Nat} {ir : Nat × Receiver} (hir : s.receiver ir.1 = some ir.2) :
    ∀ r, (exhaustRecord limit s ir).receiver ir.1 = some r → r.within limit := by
  intro r hr e he
  unfold exhaustRecord at hr
  dsimp only at hr
  split at hr
  · rename_i hnone
    obtain rfl := Option.some.inj (hir.symm.trans hr)
    rw [List.isEmpty_iff, List.filter_eq_nil_iff] at hnone
    simpa using hnone e he
  · rw [State.receiver, countFor_table] at hr
    obtain rfl := Option.some.inj ((putReceiver_receiver_self ..).symm.trans hr)
    exact of_decide_eq_true (List.mem_filter.1 he).2

theorem exhaustRecords_receiver_ne {limit j : Nat} (l : List (Nat × Receiver)) (h : j ∉ l.map Prod.fst) :
    (l.foldl (exhaustRecord limit) s).receiver j = s.receiver j := by
  induction l generalizing s with
  | nil => rfl
  | cons ir l ih =>
    rw [List.map_cons, List.mem_cons, not_or] at h
    exact (ih h.2).trans (exhaustRecord_receiver_ne h.1)

theorem exhaustRecords_within {limit j : Nat} (l : List (Nat × Receiver)) (hl : (l.map Prod.fst).Nodup)
    (hs : ∀ ir ∈ l, s.receiver ir.1 = some ir.2) (hj : j ∈ l.map Prod.fst) :
    ∀ r, (l.foldl (exhaustRecord limit) s).receiver j = some r → r.within limit := by
  induction l generalizing s with
  | nil => exact absurd hj List.not_mem_nil
  | cons ir l ih =>
    rw [List.map_cons, List.nodup_cons] at hl
    rw [List.map_cons, List.mem_cons] at hj
    intro r hr
    rcases eq_or_ne j ir.1 with rfl | hne
    · rw [List.foldl_cons, exhaustRecords_receiver_ne l hl.1] at hr
      exact exhaustRecord_within (hs ir (List.mem_cons_self ..)) r hr
    · refine ih hl.2 (fun kr hkr => ?_) (hj.resolve_left hne) r hr
      have hk : kr.1 ≠ ir.1 := fun he => hl.1 (he ▸ List.mem_map_of_mem hkr)
      rw [exhaustRecord_receiver_ne hk]
      exact hs kr (List.mem_cons_of_mem _ hkr)

theorem retryMaxEffect_within {before : Nat} (hrising : rising s.table = true) (hlow : s.params.retryMax < before)
    (i : Nat) (r : Receiver) (hr : (retryMaxEffect before s).receiver i = some r) : r.within s.params.retryMax := by
  rw [retryMaxEffect, if_pos hlow] at hr
  by_cases hi : i ∈ s.table.map Prod.fst
  · exact exhaustRecords_within s.table (((rising_iff _).1 hrising).imp fun h => ne_of_lt h)
      (fun ir hir => lookup_of_mem hrising hir) hi r hr
  · rw [exhaustRecords_receiver_ne _ hi] at hr
    exact absurd (mem_positions_of_lookup hr) hi

end Sys2Proof.Machine

namespace Sys2Proof.Safety
open Sys2Proof.Machine

/-- The state that a taken write leaves before its reply. -/
def written (ps : Params) (p : Param) (s : State) : State :=
  paramEffect s.params (askConfig { dropRequest s with params := ps }) p

section
variable {s : State} {q : Request} {v : ParamValue} {p : Param} {ps : Params}

theorem handleParamWrite_taken (hp : paramOf v.ident = some p) (hw : s.params.write v.value p = some ps) :
    handleParamWrite q v (dropRequest s) =
      ⟨0 :: v.ident :: bytesOf 4 (ps.read p), rateAfter s.params ps, written ps p s⟩ := by
  have hw' : (dropRequest s).params.write v.value p = some ps := hw
  simp only [handleParamWrite, hp, hw']
  rfl

theorem handleParamWrite_refused (hp : paramOf v.ident = some p) (hw : s.params.write v.value p = none) :
    handleParamWrite q v (dropRequest s) = ⟨[3], .nothing, dropRequest s⟩ := by
  have hw' : (dropRequest s).params.write v.value p = none := hw
  simp only [handleParamWrite, hp, hw']
  rfl

theorem written_params (ps : Params) (p : Param) (s : State) : (written ps p s).params = ps := by
  simp [written, askConfig]

theorem written_records (ps : Params) (p : Param) (hwiping : s.store.wiping = none) :
    (written ps p s).recordsGoOn (s.store.writes ++ [⟨.config ⟨ps, false⟩, true⟩]) s.orders.lastTag
      s.orders.sequence := by
  refine (recordsGoOn_recordFree _ _ _).paramEffect _ p ?_
  rw [askConfig, askWrite_of_not_wiping (by exact hwiping)]
  exact ⟨List.prefix_rfl, rfl, rfl⟩

end

/-- Settles O55: the checks in their order, and the effect of the parameter written. -/
theorem writeIsStoredOrRefused : Obligations.WriteIsStoredOrRefused := by
  intro s q v hold hk hread
  obtain ⟨-, -, hwiping, -⟩ := oldest_some hold
  have hkind : replyKind q.kind = 0x84 := by rw [hk]; rfl
  refine ⟨fun hnone => ?_, fun p c hp hc => ⟨fun hrefused => ⟨numericRange_of_refused hrefused, ?_⟩, fun ps hw => ?_⟩⟩
  · refine takeKind_answered hold hk hread ?_
    simp only [handleParamWrite, hnone]
    rfl
  · rw [exec_paramWrite hold hk hread hp hc, handleParamWrite_refused hp hrefused]
    rfl
  · refine ⟨fun lo hi hr => read_write_numeric hw hr, read_write_code hw, fun x hx => read_write_ne hw hx, ?_⟩
    have hstep := exec_paramWrite hold hk hread hp hc
    rw [handleParamWrite_taken hp hw, appendReply, hkind] at hstep
    let asked := askConfig { dropRequest s with params := ps }
    have htb : asked.tb = s.tb := by simp [asked, askConfig]
    have hparams : asked.params = ps := by simp [asked, askConfig]
    have hlink : asked.link = (dropRequest s).link := by simp [asked, askConfig]
    obtain ⟨⟨ws, hws⟩, htag, hseq⟩ := written_records ps p hwiping
    obtain ⟨hrate, -, -, -, -, hreplies, -⟩ := paramEffect_link s.params asked p
    refine ⟨_, ws, hstep, written_params ps p s, (paramEffect_count ..).trans (congrArg _ htb), ?_, ?_, htag, hseq,
      (hrate.trans (congrArg HostLink.rate hlink)).trans rfl, fun ph => ?_, ?_, ?_, ?_⟩
    · show (paramEffect s.params asked p).link.replies ++ _ = _
      rw [hreplies, hlink, rateAfter]
      simp only [eq_comm (a := s.params.linkRate)]
      rfl
    · rw [List.append_assoc] at hws
      exact hws.symm
    · show (paramEffect s.params asked p).tracker ph = _
      have htracker : asked.tracker ph = s.tracker ph := congrArg (fun tb => tb.trackers.get ph) htb
      rw [paramEffect_tracker, htracker, hparams]
      exact if_congr (mem_restarts_iff p ph) (restart_eq ..) rfl
    · rintro rfl hout
      exact nominalFreqEffect_crystalRestart (s := asked) (by rw [htb]; exact hout)
    · rintro rfl hrun hlocked
      have hlocked' : asked.locked asked.params.refPhase = true := by
        rw [hparams, State.locked, State.tracker, htb]
        exact hlocked
      refine (refPhaseEffect_running (s := asked) (by rw [htb]; exact hrun) hlocked').trans ?_
      rw [htb, hparams]
    · rintro rfl helse
      have helse' : asked.tb.state ≠ .running ∨ asked.locked asked.params.refPhase = false := by
        rw [hparams, State.locked, State.tracker, htb]
        exact helse
      exact (congrArg State.tb (refPhaseEffect_else helse')).trans htb

/-- Settles O56: the lowered limits reach every entry and LEVEL_CAP. -/
theorem loweredLimitsTakeEffect : Obligations.LoweredLimitsTakeEffect := by
  intro s q v hcanon hold hk hread
  refine ⟨fun hident hlow hlo hhi => ?_, fun hident hhi => ?_⟩
  · have hp : paramOf v.ident = some .retryMax := by rw [hident]; rfl
    have hw : s.params.write v.value .retryMax = some { s.params with retryMax := v.value } := by
      simp only [Params.write, clampTo, Nat.min_eq_right hhi, Nat.max_eq_right hlo]
    have hstep := exec_paramWrite hold hk hread hp (.inr rfl)
    rw [handleParamWrite_taken hp hw] at hstep
    refine ⟨_, hstep, congrArg Params.retryMax (written_params ..), fun i r hr => ?_⟩
    let asked := askConfig { dropRequest s with params := { s.params with retryMax := v.value } }
    have htable : asked.table = s.table := by simp [asked, askConfig]
    have hparams : asked.params.retryMax = v.value := by simp [asked, askConfig]
    have hrising : rising asked.table = true := by rw [htable]; exact hcanon.2.1.1
    have hwithin := retryMaxEffect_within hrising (by rw [hparams]; exact hlow) i r hr
    rw [hparams] at hwithin
    exact hwithin
  · have hp : paramOf v.ident = some .levelMax := by rw [hident]; rfl
    have hw : s.params.write v.value .levelMax = some { s.params with levelMax := v.value } := by
      simp only [Params.write, clampTo, Nat.min_eq_right hhi, Nat.zero_max]
    have hstep := exec_paramWrite hold hk hread hp (.inr rfl)
    rw [handleParamWrite_taken hp hw] at hstep
    refine ⟨_, hstep, congrArg Params.levelMax (written_params ..), ?_⟩
    let asked := askConfig { dropRequest s with params := { s.params with levelMax := v.value } }
    have hparams : asked.params.levelMax = v.value := by simp [asked, askConfig]
    have hcap : asked.driver.cap = s.driver.cap := by simp [asked, askConfig]
    show clampTo (asked.params.levelMax - 8) asked.params.levelMax asked.driver.cap = _
    rw [hparams, hcap]
    rfl

end Sys2Proof.Safety
end
